-- ==== Sys2Proof/Word.lean ====
section
/-! DEFINITION. The words of the core and the plain data types the spec names: sample widths (R8), the
enumerations and the frame descriptor (R16), the two subband counts (R6). -/

namespace Sys2Proof

/-- A host-window word (R35) and a `uint32` of the bitstream (R66). -/
abbrev Word := BitVec 32

/-- One byte of `FRAME_BUF` (R23). -/
abbrev Byte := BitVec 8

/-- `int16` (R8): PCM samples, encoder subband samples, filter histories. -/
abbrev I16 := BitVec 16

/-- `int32` (R8): arithmetic wraps modulo 2^32. -/
abbrev I32 := BitVec 32

/-- Sampling frequency (R16), in the order of its codes 0..3. -/
inductive Freq where
  | f16k | f32k | f44k1 | f48k
  deriving DecidableEq, Repr

/-- Channel mode (R16), in the order of its codes 0..3. -/
inductive Mode where
  | mono | dualChannel | stereo | jointStereo
  deriving DecidableEq, Repr

/-- Allocation method (R16), in the order of its codes 0..1. -/
inductive Alloc where
  | loudness | snr
  deriving DecidableEq, Repr

/-- The subband counts a filter bank exists for (R6: `M` is 4 or 8). -/
inductive Bands where
  | four | eight
  deriving DecidableEq, Repr

/-- `M` as a number. -/
def Bands.n : Bands → Nat
  | .four => 4
  | .eight => 8

/-- A frame descriptor (R16): a value with no identity beyond its fields, valid or not. -/
structure Desc where
  msbc : Bool
  freq : Freq
  mode : Mode
  alloc : Alloc
  blocks : Nat
  subbands : Nat
  bitpool : Nat
  deriving DecidableEq, Repr

end Sys2Proof
end

