-- ==== Sys2Proof/Machine/Arith.lean ====
section
/-! DEFINITION. The arithmetic primitives of R9. `RSHR` and `SAT16` are the narrowing steps of the filter banks (R109). -/

namespace Sys2Proof.Machine

/-- `ASR(x, s)` on an unbounded integer: floor (x / 2^s). -/
def asr (x : Int) (s : Nat) : Int := x >>> s

/-- `ASR(x, s)` on int32. -/
def asr32 (x : I32) (s : Nat) : I32 := x.sshiftRight s

/-- `RSHR(x, shift + 1)`: round, then shift right. The count is 1..31. -/
def roundShift (shift : Fin 31) (x : I32) : I32 := asr32 (x + (1#32 <<< shift.val)) (shift.val + 1)

/-- `RSHR(x, s)`; not defined for `s = 0` or `s > 31` (R9, U5). -/
def rshr (x : I32) (s : Nat) : Option I32 := if h : 1 ≤ s ∧ s ≤ 31 then some (roundShift ⟨s - 1, by omega⟩ x) else none

/-- `SAT16(x)`. -/
def sat16 (x : I32) : I16 := BitVec.ofInt 16 (min (max x.toInt (-32768)) 32767)

/-- `CLZ32(x)`: the number of leading zero bits. -/
def clz32 (x : Word) : Nat := if x = 0 then 32 else 31 - x.toNat.log2

/-- `ceil_div8(n)`. -/
def ceilDiv8 (n : Nat) : Nat := (n + 7) / 8

end Sys2Proof.Machine
end

