-- ==== Sys2Proof/Machine/Datapath.lean ====
section
/-! DEFINITION. What the spec fixes of the inside of the filter banks (44_filter_banks.md, R108 to R111, R117, R119, R121):
the history each channel holds, how the Index addresses it, and that a block function is a composition of products with
table coefficients, int32 sums and narrowing steps around one DCT. Which composition it is stays OPEN: it is data, of
the types below, and the core's own stands in Config.lean. What of this form is read by inference is in log 7 and
log 26. -/

namespace Sys2Proof

/-- `ANALYSIS_ACC_WORDS` (R6, R24): the number of int32 words of one channel's accumulator register. OPEN. -/
opaque Config.analysisAccWords : Nat

/-- The encoder state of one channel (R24): the rolling Index `AIDX`, the history `AX[h][s][t]` and the
accumulator register `AY[j]`. -/
structure EncChan where
  aidx : Fin 10
  ax : Vector (Vector (Vector I16 5) 8) 2
  ay : Vector I32 Config.analysisAccWords
  deriving DecidableEq, Repr

/-- The decoder state of one channel (R25): the rolling Index `SIDX` and the history `SV[h][s][t]`. -/
structure DecChan where
  sidx : Fin 10
  sv : Vector (Vector (Vector I16 10) 8) 2
  deriving DecidableEq, Repr

/-- The encoder state whose history and accumulator are zero, at Index `i`. -/
def EncChan.zeroAt (i : Fin 10) : EncChan :=
  ⟨i, Vector.replicate 2 (Vector.replicate 8 (Vector.replicate 5 0)), Vector.replicate _ 0⟩

/-- The decoder state whose history is zero, at Index `i`. -/
def DecChan.zeroAt (i : Fin 10) : DecChan :=
  ⟨i, Vector.replicate 2 (Vector.replicate 8 (Vector.replicate 10 0))⟩

/-- The history row of a subband: `M = 4` uses rows 0..3 only (R24). -/
def Bands.row (m : Bands) (r : Fin m.n) : Fin 8 := ⟨r.val, by have := r.isLt; cases m <;> simp only [Bands.n] at this <;> omega⟩

/-- Value `[h][r][t]` of a history: half, row, tap. -/
def histAt {taps : Nat} (x : Vector (Vector (Vector I16 taps) 8) 2) (h : Fin 2) (r : Fin 8) (t : Fin taps) : I16 := x[h][r][t]

/-- A history from its values. -/
def buildHist {taps : Nat} (f : Fin 2 → Fin 8 → Fin taps → I16) : Vector (Vector (Vector I16 taps) 8) 2 :=
  Vector.ofFn fun h => Vector.ofFn fun r => Vector.ofFn fun t => f h r t

/-! ### The steps a block function is made of (R108, R109) -/

/-- A value of the datapath, computed from sources `σ`: a source read as int32, the product of a value and coefficient
number `k` of a table, an int32 sum or difference, or `RSHR` by the constant `shift + 1` (R109 (b)). The empty sum is
`zero`. -/
inductive Flow (σ : Type) where
  | zero
  | read (source : σ)
  | product (k : Nat) (x : Flow σ)
  | sum (x y : Flow σ)
  | difference (x y : Flow σ)
  | narrow (shift : Fin 31) (x : Flow σ)
  deriving DecidableEq, Repr

/-- The sources a value reads. -/
def Flow.reads {σ : Type} : Flow σ → List σ
  | .zero => []
  | .read s => [s]
  | .product _ x => x.reads
  | .sum x y => x.reads ++ y.reads
  | .difference x y => x.reads ++ y.reads
  | .narrow _ x => x.reads

/-- The value, given the coefficient table and what each source holds; all arithmetic wraps in int32 (R109 (a)). -/
def Flow.eval {σ : Type} (table : List I32) (env : σ → I32) : Flow σ → I32
  | .zero => 0
  | .read s => env s
  | .product k x => table.getD k 0 * x.eval table env
  | .sum x y => x.eval table env + y.eval table env
  | .difference x y => x.eval table env - y.eval table env
  | .narrow shift x => Machine.roundShift shift (x.eval table env)

/-- The factor of source `i` in a value, taken in exact arithmetic, where `RSHR` by `s` divides by `2^s`: a value is a
linear combination of its sources. -/
def Flow.weight {σ : Type} [DecidableEq σ] (table : List I32) (i : σ) : Flow σ → ℚ
  | .zero => 0
  | .read s => if s = i then 1 else 0
  | .product k x => (table.getD k 0).toInt * x.weight table i
  | .sum x y => x.weight table i + y.weight table i
  | .difference x y => x.weight table i - y.weight table i
  | .narrow shift x => x.weight table i / 2 ^ (shift.val + 1)

/-- Every term of the value passes an `RSHR` step. -/
def Flow.reduced {σ : Type} : Flow σ → Bool
  | .zero => false
  | .read _ => false
  | .product _ x => x.reduced
  | .sum x y => x.reduced && y.reduced
  | .difference x y => x.reduced && y.reduced
  | .narrow _ _ => true

/-! ### The DCT (R117: D-T, D-F) -/

/-- A DCT with cosine table `cos`, whose entry `index k i` is `COS_M[k][i]` (the layout is OPEN, R113). Output `k` is
`RSHR(sum over i of COS_M[k][i] * v[i], shift + 1)` or a factorisation of it: a value of `RSHR` steps and multiply-adds that
weighs each input as that formula does (D-F; that "factorisation" means equal weights is DEDUCED, log 7). It has no state
(D-T). -/
structure DctNet (m : Bands) (cos : List I32) where
  index : Fin m.n → Fin m.n → Fin cos.length
  shift : Fin 31
  out : Fin m.n → Flow (Fin m.n)
  out_reduced : ∀ k, (out k).reduced = true
  out_weight : ∀ k i, (out k).weight cos i = (cos[index k i]).toInt / 2 ^ (shift.val + 1)

def DctNet.run {m : Bands} {cos : List I32} (net : DctNet m cos) (v : Vector I32 m.n) : Vector I32 m.n :=
  Vector.ofFn fun k => (net.out k).eval cos fun i => v[i]

/-! ### Analysis (R110, R119) -/

/-- The half of the analysis history that is live at Index `i`: `odd = Index & 1` (R110). -/
def oddAt (i : Fin 10) : Fin 2 := ⟨i.val % 2, by omega⟩

/-- `odd` (R110). -/
def EncChan.odd (c : EncChan) : Fin 2 := oddAt c.aidx

/-- What the window arithmetic of a block can read: a sample of the block, a sample that entered `age + 1` blocks ago, a
word of the accumulator. -/
inductive AnalysisSource (m : Bands) where
  | sample (j : Fin m.n)
  | past (j : Fin m.n) (age : Fin 10)
  | acc (j : Fin Config.analysisAccWords)
  deriving DecidableEq, Repr

/-- An analysis block function. At Index `i`, sample `j` of the block enters the live half at the row and tap `place i j`,
and the delay line does not shift: within ten blocks no position is used twice (R110). The values do not mention the
Index, so a weight depends only on how many blocks ago a sample entered (A-T). `window` gives the DCT's inputs; `acc` and
`out` read the DCT's outputs beside the other sources. -/
structure AnalysisNet (m : Bands) where
  place : Fin 10 → Fin m.n → Fin m.n × Fin 5
  window : Fin m.n → Flow (AnalysisSource m)
  acc : Fin Config.analysisAccWords → Flow (AnalysisSource m ⊕ Fin m.n)
  out : Fin m.n → Flow (AnalysisSource m ⊕ Fin m.n)
  place_injective : ∀ i i' j j', oddAt i = oddAt i' → place i j = place i' j' → i = i' ∧ j = j'

/-- The sample `j` of the block that entered `age + 1` blocks ago, where its Index put it. -/
def AnalysisNet.past {m : Bands} (net : AnalysisNet m) (c : EncChan) (j : Fin m.n) (age : Fin 10) : I16 :=
  let i := c.aidx - age - 1
  histAt c.ax (oddAt i) (m.row (net.place i j).1) (net.place i j).2

def AnalysisNet.source {m : Bands} (net : AnalysisNet m) (c : EncChan) (x : Vector I16 m.n) : AnalysisSource m → I32
  | .sample j => x[j].signExtend 32
  | .past j age => (net.past c j age).signExtend 32
  | .acc j => c.ay[j]

/-- The history after a block: its samples in the live half, each `SAT16` of an int32 value (A-S); every other position
keeps its value. -/
def AnalysisNet.store {m : Bands} (net : AnalysisNet m) (c : EncChan) (x : Vector I16 m.n) : Vector (Vector (Vector I16 5) 8) 2 :=
  buildHist fun h r t =>
    match (List.finRange m.n).find? fun j => h = c.odd ∧ m.row (net.place c.aidx j).1 = r ∧ (net.place c.aidx j).2 = t with
    | some j => Machine.sat16 (x[j].signExtend 32)
    | none => histAt c.ax h r t

/-- `ANALYZE` (R119), with a window table and a DCT, which it calls once (D-E): the Index advances by one modulo 10 (A-I),
and every output is `SAT16` of an int32 value (A-S). -/
def AnalysisNet.run {m : Bands} (net : AnalysisNet m) (window : List I32) (dct : Vector I32 m.n → Vector I32 m.n)
    (c : EncChan) (x : Vector I16 m.n) : EncChan × Vector I16 m.n :=
  let w := dct (Vector.ofFn fun k => (net.window k).eval window (net.source c x))
  let env : AnalysisSource m ⊕ Fin m.n → I32 := Sum.elim (net.source c x) fun k => w[k]
  (⟨c.aidx + 1, net.store c x, Vector.ofFn fun j => (net.acc j).eval window env⟩,
    Vector.ofFn fun k => Machine.sat16 ((net.out k).eval window env))

/-- The history positions (row, tap) that a value of the window arithmetic reads at Index `i`; a sample of the block
counts where it enters. -/
def AnalysisNet.positions {m : Bands} (net : AnalysisNet m) (i : Fin 10) (f : Flow (AnalysisSource m)) : List (Fin m.n × Fin 5) :=
  f.reads.filterMap fun
    | .sample j => some (net.place i j)
    | .past j age => some (net.place (i - age - 1) j)
    | .acc _ => none

/-- A-P (R119): the window arithmetic of subband 0 reads history position 3 and not position 0, a position being a row or
a tap (log 26). -/
def AnalysisNet.readsPosition3 (net : AnalysisNet .four) : Prop :=
  (∀ i, (∃ p ∈ net.positions i (net.window (0 : Fin 4)), p.1.val = 3) ∧ ∀ p ∈ net.positions i (net.window (0 : Fin 4)), p.1.val ≠ 0)
    ∨ ∃ i, (∃ p ∈ net.positions i (net.window (0 : Fin 4)), p.2.val = 3) ∧ ∀ p ∈ net.positions i (net.window (0 : Fin 4)), p.2.val ≠ 0

/-! ### Synthesis (R111, R121) -/

/-- `dctIdx` at Index `i` (R111): where the block's DCT output is placed in the rolling history. -/
def dctIdxAt (i : Fin 10) : Fin 10 := if h : i.val ≠ 0 then ⟨10 - i.val, by omega⟩ else 0

/-- `dctIdx` (R111). -/
def DecChan.dctIdx (c : DecChan) : Fin 10 := dctIdxAt c.sidx

/-- What a synthesis block can read of its input and its history: a subband sample of the block, or entry `(g, r)` of the
block that was decoded `age + 1` blocks ago. -/
inductive SynthesisSource (m : Bands) where
  | sample (k : Fin m.n)
  | past (g : Fin 2) (r : Fin m.n) (age : Fin 10)
  deriving DecidableEq, Repr

/-- A synthesis block function, for each value of `sbScale`. The DCT output of a block, and nothing else, makes entries
`(g, r)` of the rolling history, put at tap `dctIdx`, in the half and row `place` gives for the Index; all of the DCT output is
placed (R111). An entry that is `none` is not written. `input` gives the DCT's inputs, `entry` the new entries, `out` the PCM
samples, which also read the entries as stored. -/
structure SynthesisNet (m : Bands) where
  place : Fin 10 → Fin 2 × Fin m.n → Fin 2 × Fin m.n
  input : Int → Fin m.n → Flow (SynthesisSource m)
  entry : Int → Fin 2 × Fin m.n → Option (Flow (Fin m.n))
  out : Int → Fin m.n → Flow ((SynthesisSource m ⊕ Fin m.n) ⊕ (Fin 2 × Fin m.n))
  place_injective : ∀ i, Function.Injective (place i)
  entry_reads : ∀ sbScale k, ∃ e f, entry sbScale e = some f ∧ k ∈ f.reads

/-- Entry `e` of the block decoded `age + 1` blocks ago, where its Index put it. -/
def SynthesisNet.past {m : Bands} (net : SynthesisNet m) (c : DecChan) (e : Fin 2 × Fin m.n) (age : Fin 10) : I16 :=
  let i := c.sidx - age - 1
  histAt c.sv (net.place i e).1 (m.row (net.place i e).2) (dctIdxAt i)

def SynthesisNet.source {m : Bands} (net : SynthesisNet m) (c : DecChan) (y : Vector I32 m.n) : SynthesisSource m → I32
  | .sample k => y[k]
  | .past g r age => (net.past c (g, r) age).signExtend 32

/-- The entries of a block. -/
def entries (m : Bands) : List (Fin 2 × Fin m.n) := (List.finRange 2).flatMap fun g => (List.finRange m.n).map fun r => (g, r)

/-- The history after a block whose entries are `v`: they stand at tap `dctIdx`, and every other position keeps its
value. -/
def SynthesisNet.store {m : Bands} (net : SynthesisNet m) (c : DecChan) (v : Fin 2 × Fin m.n → I16) :
    Vector (Vector (Vector I16 10) 8) 2 :=
  buildHist fun h r t =>
    match (entries m).find? fun e => (net.place c.sidx e).1 = h ∧ m.row (net.place c.sidx e).2 = r ∧ t = c.dctIdx with
    | some e => v e
    | none => histAt c.sv h r t

/-- Entry `e` after a block with DCT output `w`; one that is not written keeps the value of ten blocks ago, which stands in
its place. -/
def SynthesisNet.stored {m : Bands} (net : SynthesisNet m) (window : List I32) (c : DecChan) (w : Vector I32 m.n) (sbScale : Int)
    (e : Fin 2 × Fin m.n) : I16 :=
  match net.entry sbScale e with
  | some f => Machine.sat16 (f.eval window fun k => w[k])
  | none => net.past c e 9

/-- `SYNTHESIZE` (R121), with a window table and a DCT, which it calls once (D-E): the Index advances by one modulo 10 (S-I),
and every entry and every sample is `SAT16` of an int32 value (S-S). -/
def SynthesisNet.run {m : Bands} (net : SynthesisNet m) (window : List I32) (dct : Vector I32 m.n → Vector I32 m.n)
    (c : DecChan) (y : Vector I32 m.n) (sbScale : Int) : DecChan × Vector I16 m.n :=
  let w := dct (Vector.ofFn fun k => (net.input sbScale k).eval window (net.source c y))
  let env : SynthesisSource m ⊕ Fin m.n → I32 := Sum.elim (net.source c y) fun k => w[k]
  let v := net.stored window c w sbScale
  (⟨c.sidx + 1, net.store c v⟩,
    Vector.ofFn fun k => Machine.sat16 ((net.out sbScale k).eval window (Sum.elim env fun e => (v e).signExtend 32)))

/-! ### Streams of blocks -/

/-- The outputs of a block function run over a list of blocks, the state threaded through. -/
def blockOutputs {σ α β : Type} (f : σ → α → σ × β) : σ → List α → List β
  | _, [] => []
  | s, x :: xs => (f s x).2 :: blockOutputs f (f s x).1 xs

/-- The state after a list of blocks. -/
def blockState {σ α β : Type} (f : σ → α → σ × β) : σ → List α → σ
  | s, [] => s
  | s, x :: xs => blockState f (f s x).1 xs

end Sys2Proof
end

