-- ==== Sys2Proof/Config.lean ====
section
/-! DEFINITION. What the spec leaves OPEN (R6): the filter-bank block functions, the DCT, their tables, the
dequantizer table and the platform's addresses. Every one is a constant without a body, so no proof can see
which it is. What is known of the block functions is their form, which Machine/Datapath.lean gives by types, and
the property fields of `Params` (R104, R119, R121; log 7, log 8). The parameters the spec gives a default value
for (loudness offsets, CRC constants) stand in Machine/Tables.lean. -/

namespace Sys2Proof

/-- `N_INSTANCES` (R6, R34): how many cores the platform holds. -/
opaque Config.nInstances : Nat

/-- `BASE[i]` (R34): the platform address of core `i`'s host window. -/
opaque Config.base : Nat → Word

/-- A free value (log 14): the result of `ASR` by a negative count, which R9 does not define and R105 never
produces from a received frame. -/
opaque Config.negativeShift : I32 → Int → I32

/-- The reference dequantizer table of R104, index `n - 1`: `round(2^28 / (2^n - 1))`. -/
def referenceRangeScale (i : Fin 16) : I32 :=
  ([0x10000000, 0x05555555, 0x02492492, 0x01111111, 0x00842108, 0x00410410, 0x00204081, 0x00101010,
    0x00080402, 0x00040100, 0x00020040, 0x00010010, 0x00008004, 0x00004001, 0x00002000, 0x00001000] : List I32).getD i 0

/-- The decoder's subband samples of one block of the all-zero mSBC frame (R121, S-Z2): code `2^(n-1) - 1` of an
`n`-bit field at scale factor 0 and `sbScale` 14, with `NBITS = [4, 4, 3, 3, 3, 3, 3, 3]`. -/
def silenceBlock (rs : Fin 16 → I32) : Vector I32 8 :=
  Vector.ofFn fun k : Fin 8 =>
    if k.val < 2 then (15 * rs 3 - 0x10000000).sshiftRight 13 else (7 * rs 2 - 0x10000000).sshiftRight 13

/-- A DCT that shows the properties can be met: the direct form over a table of zero. -/
def defaultDct (m : Bands) : DctNet m [0] where
  index := fun _ _ => 0
  shift := 0
  out := fun k => .narrow 0 (.product 0 (.read k))
  out_reduced := fun _ => rfl
  out_weight := fun k i => by simp [Flow.weight]

/-- An analysis that shows the properties can be met: a block enters the tap its Index halved gives, and subband 0 reads
row 3. -/
def defaultAnalysis (m : Bands) : AnalysisNet m where
  place := fun i j => (j, ⟨i.val / 2, by omega⟩)
  window := fun k => .read (.sample (if k.val = 0 then ⟨3, by cases m <;> decide⟩ else k))
  acc := fun _ => .zero
  out := fun k => .narrow 0 (.read (.inr k))
  place_injective := by
    intro i i' j j' h h'
    simp only [oddAt, Prod.mk.injEq, Fin.mk.injEq] at h h'
    exact ⟨by omega, h'.1⟩

/-- A synthesis that shows the properties can be met: it keeps the subband samples and puts out zeros. -/
def defaultSynthesis (m : Bands) : SynthesisNet m where
  place := fun _ e => e
  input := fun _ k => .read (.sample k)
  entry := fun _ e => some (.read e.2)
  out := fun _ _ => .zero
  place_injective := fun _ _ _ h => h
  entry_reads := fun _ k => ⟨(0, k), _, rfl, List.mem_singleton.2 rfl⟩

/-- The OPEN parameters of R6 with the properties the spec names for them. A coefficient table is a list of
int32 of unknown length and layout (R112, R113). The default values of the fields only show that some
parameters have all the properties together; the core's own, `Config.params`, has no body and is none of them
to any proof. -/
structure Params where
  /-- `RANGE_SCALE[n - 1]` (R104). -/
  rangeScale : Fin 16 → I32 := referenceRangeScale
  /-- `WINDOW4`, `WINDOW8` (R112). -/
  window : Bands → List I32 := fun _ => []
  /-- `COS4`, `COS8` (R113). -/
  cos : Bands → List I32 := fun _ => [0]
  /-- `DCT4`, `DCT8` (R117). -/
  dct : (m : Bands) → DctNet m (cos m) := by exact defaultDct
  /-- `ANALYZE` (R119). -/
  analysis : (m : Bands) → AnalysisNet m := defaultAnalysis
  /-- `SYNTHESIZE` (R121). -/
  synthesis : (m : Bands) → SynthesisNet m := defaultSynthesis
  /-- R104 (a): `expanded` of R105 does not overflow. -/
  rangeScale_fits : ∀ i : Fin 16, 0 ≤ (rangeScale i).toInt ∧ (rangeScale i).toInt * (2 ^ (i.val + 2) - 1) < 2 ^ 31 := by decide
  /-- R104 (b): within 1 of `2^28 / (2^n - 1)`. -/
  rangeScale_near : ∀ i : Fin 16, |(rangeScale i).toInt * (2 ^ (i.val + 1) - 1) - 2 ^ 28| ≤ 2 ^ (i.val + 1) - 1 := by decide
  /-- A-P (R119). -/
  analysis_position : (analysis .four).readsPosition3 := by exact Or.inl (by decide)
  /-- S-Z2 (R121): from the reset state the 15 blocks of mSBC silence give all-zero PCM. -/
  synthesis_silence :
      blockOutputs (fun c y => (synthesis .eight).run (window .eight) (dct .eight).run c y 14) (.zeroAt 0)
          (List.replicate 15 (silenceBlock rangeScale))
        = List.replicate 15 (Vector.replicate 8 0) := by rfl
  deriving Inhabited

/-- The OPEN parameters of this core (log 7, log 8). -/
opaque Config.params : Params

/-- `RANGE_SCALE[n - 1]`. -/
def Config.rangeScale (i : Fin 16) : I32 := Config.params.rangeScale i

/-- `DCT_M` (R117), with the core's cosine table. -/
def Config.dct (m : Bands) (v : Vector I32 m.n) : Vector I32 m.n := (Config.params.dct m).run v

/-- `ANALYZE` (R119): `M` selects `WINDOW_M`, `DCT_M` and `COS_M` (R108). -/
def Config.analyze (m : Bands) (c : EncChan) (x : Vector I16 m.n) : EncChan × Vector I16 m.n :=
  (Config.params.analysis m).run (Config.params.window m) (Config.dct m) c x

/-- `SYNTHESIZE` (R121): `M` selects `WINDOW_M`, `DCT_M` and `COS_M` (R108). -/
def Config.synthesize (m : Bands) (c : DecChan) (y : Vector I32 m.n) (sbScale : Int) : DecChan × Vector I16 m.n :=
  (Config.params.synthesis m).run (Config.params.window m) (Config.dct m) c y sbScale

/-- The sample `j` of the block that entered the analysis history `age + 1` blocks ago (A-T). -/
def Config.analysisPast (m : Bands) (c : EncChan) (j : Fin m.n) (age : Fin 10) : I16 := (Config.params.analysis m).past c j age

/-- Entry `e` of the block that was decoded `age + 1` blocks ago (S-T). -/
def Config.synthesisPast (m : Bands) (c : DecChan) (e : Fin 2 × Fin m.n) (age : Fin 10) : I16 :=
  (Config.params.synthesis m).past c e age

end Sys2Proof
end

