-- ==== Sys2Proof/Syntax.lean ====
section
/-! DEFINITION. The operations of the core: one constructor per row of spec/opcode_table.json (R50, R52, R55,
R58). A host command has no operand fields (R49) and an internal operation none either (R50): their operands
are registers, buffers and operand latches of State. A frame header carries its fields, already decoded (R56). -/

namespace Sys2Proof

inductive Instr where
  -- host commands (R52)
  | resetEnc
  | resetDec
  | resetAll
  | validate
  | frameSize
  | encode
  | probe
  | decode
  -- bitstream (40_bitstream.md)
  | bsBind
  | bsGetBits
  | bsGetFixedBits
  | bsPutBits
  | bsFlush
  | bsBitPos
  -- framer (41_framer.md)
  | descIsValid
  | descFrameSize
  | hdrWrite
  | hdrRead
  | crcCompute
  | crcInsert
  | crcCheck
  | sideWrite
  | sideRead
  | payloadWrite
  | payloadRead
  -- bit allocator (42_bit_allocator.md)
  | bitAlloc
  | bitAllocFrame
  -- quantizer and dequantizer (43_quantizer.md)
  | scfCompute
  | jointDecide
  | jointUncouple
  | sbScale
  | quant
  | dequant
  -- filter banks (44_filter_banks.md)
  | dct
  | analyzeBlock
  | analyzeFrame
  | synthBlock
  | synthFrame
  | fbReset
  -- frame headers (R55, R58): `blocks` and `subbands` are the numbers their codes stand for (R56)
  | sbcFrameHeader (freq : Freq) (blocks : Nat) (mode : Mode) (alloc : Alloc) (subbands : Nat) (bitpool : Nat) (crc : BitVec 8)
  | msbcFrameHeader (crc : BitVec 8)
  deriving DecidableEq, Repr

end Sys2Proof
end

