-- ==== Sys2Proof/WellFormed.lean ====
section
/-! DEFINITION. Which terms of `Instr` have an encoding: the header fields must be numbers their codes can say
(R55, R56). Every other constructor has no number in it. -/

namespace Sys2Proof

/-- `blocks = (1 + blocksCode) << 2` for a 2-bit code (R56). -/
def blocksEncodable (blocks : Nat) : Bool := blocks == 4 || blocks == 8 || blocks == 12 || blocks == 16

/-- `subbands = (1 + subbandsCode) << 2` for a 1-bit code (R56). -/
def subbandsEncodable (subbands : Nat) : Bool := subbands == 4 || subbands == 8

/-- `bitpool` is an 8-bit field (R55). -/
def bitpoolEncodable (bitpool : Nat) : Bool := decide (bitpool < 256)

/-- The term has an encoding. Whether a header's descriptor is VALID is not asked here: R73 asks it when the
header is read, and an invalid one is a defined failure (R64). -/
def Instr.wellFormed : Instr → Bool
  | .sbcFrameHeader _ blocks _ _ subbands bitpool _ =>
    blocksEncodable blocks && subbandsEncodable subbands && bitpoolEncodable bitpool
  | .resetEnc | .resetDec | .resetAll | .validate | .frameSize | .encode | .probe | .decode
  | .bsBind | .bsGetBits | .bsGetFixedBits | .bsPutBits | .bsFlush | .bsBitPos
  | .descIsValid | .descFrameSize | .hdrWrite | .hdrRead | .crcCompute | .crcInsert | .crcCheck
  | .sideWrite | .sideRead | .payloadWrite | .payloadRead | .bitAlloc | .bitAllocFrame
  | .scfCompute | .jointDecide | .jointUncouple | .sbScale | .quant | .dequant
  | .dct | .analyzeBlock | .analyzeFrame | .synthBlock | .synthFrame | .fbReset
  | .msbcFrameHeader _ => true

end Sys2Proof
end

