-- ==== Sys2Proof/Decode.lean ====
section
/-! DEFINITION. The three encodings of 30_encoding.md: the 32-bit command word (R49, R52), the 8-bit code of the
internal operation enumeration (R50) and the 32-bit frame header, first transmitted bit at bit 31 (R55, R58).
Decoding is total and rejects by name; the encoder is written from the same tables. -/

namespace Sys2Proof

/-- What the sequencer has fetched: a command word, an internal operation code, or the first four bytes of a
frame as a big-endian word. -/
inductive Fetched where
  | cmd (w : BitVec 32)
  | uop (code : BitVec 8)
  | header (w : BitVec 32)
  deriving DecidableEq, Repr

/-- Why a word is no operation. -/
inductive Reject where
  /-- a command word outside the table of R52 (R53) -/
  | illegalCommand
  /-- a code outside the enumeration of R50 -/
  | unknownOperation
  /-- a first byte that is no syncword (R54) -/
  | badSyncword
  /-- an mSBC header whose 16 reserved bits are not all zero (R58, R64) -/
  | reservedNotZero
  deriving DecidableEq, Repr

/-- R16: the code is the listing order. -/
def Freq.ofCode (c : BitVec 2) : Freq :=
  if c = 0 then .f16k else if c = 1 then .f32k else if c = 2 then .f44k1 else .f48k

def Freq.code : Freq → BitVec 2
  | .f16k => 0 | .f32k => 1 | .f44k1 => 2 | .f48k => 3

def Mode.ofCode (c : BitVec 2) : Mode :=
  if c = 0 then .mono else if c = 1 then .dualChannel else if c = 2 then .stereo else .jointStereo

def Mode.code : Mode → BitVec 2
  | .mono => 0 | .dualChannel => 1 | .stereo => 2 | .jointStereo => 3

def Alloc.ofCode (c : BitVec 1) : Alloc := if c = 0 then .loudness else .snr

def Alloc.code : Alloc → BitVec 1
  | .loudness => 0 | .snr => 1

/-- R56: `(1 + code) << 2`, for the 2-bit blocks code and the 1-bit subbands code. -/
def countOfCode (code : Nat) : Nat := (1 + code) <<< 2

/-- R57: `(count >> 2) - 1`. -/
def codeOfCount (count : Nat) : Nat := (count >>> 2) - 1

/-- R52: the command words; every other word is illegal (R53). -/
def decodeCmd (w : BitVec 32) : Except Reject Instr :=
  match w.toNat with
  | 0x01 => .ok .resetEnc
  | 0x02 => .ok .resetDec
  | 0x03 => .ok .resetAll
  | 0x10 => .ok .validate
  | 0x11 => .ok .frameSize
  | 0x20 => .ok .encode
  | 0x30 => .ok .probe
  | 0x31 => .ok .decode
  | _ => .error .illegalCommand

/-- R50: the internal operation enumeration. -/
def decodeUop (code : BitVec 8) : Except Reject Instr :=
  match code.toNat with
  | 0x80 => .ok .bsBind
  | 0x81 => .ok .bsGetBits
  | 0x82 => .ok .bsGetFixedBits
  | 0x83 => .ok .bsPutBits
  | 0x84 => .ok .bsFlush
  | 0x85 => .ok .bsBitPos
  | 0x88 => .ok .descIsValid
  | 0x89 => .ok .descFrameSize
  | 0x8A => .ok .hdrWrite
  | 0x8B => .ok .hdrRead
  | 0x8C => .ok .crcCompute
  | 0x8D => .ok .crcInsert
  | 0x8E => .ok .crcCheck
  | 0x8F => .ok .sideWrite
  | 0x90 => .ok .sideRead
  | 0x91 => .ok .payloadWrite
  | 0x92 => .ok .payloadRead
  | 0x94 => .ok .bitAlloc
  | 0x95 => .ok .bitAllocFrame
  | 0x98 => .ok .scfCompute
  | 0x99 => .ok .jointDecide
  | 0x9A => .ok .jointUncouple
  | 0x9B => .ok .sbScale
  | 0x9C => .ok .quant
  | 0x9D => .ok .dequant
  | 0xA0 => .ok .dct
  | 0xA1 => .ok .analyzeBlock
  | 0xA2 => .ok .analyzeFrame
  | 0xA3 => .ok .synthBlock
  | 0xA4 => .ok .synthFrame
  | 0xA5 => .ok .fbReset
  | _ => .error .unknownOperation

/-- R54, R55, R56, R58: the syncword selects the format. -/
def decodeHeader (w : BitVec 32) : Except Reject Instr :=
  if w.extractLsb' 24 8 = 0x9C#8 then
    .ok (.sbcFrameHeader (Freq.ofCode (w.extractLsb' 22 2)) (countOfCode (w.extractLsb' 20 2).toNat) (Mode.ofCode (w.extractLsb' 18 2))
      (Alloc.ofCode (w.extractLsb' 17 1)) (countOfCode (w.extractLsb' 16 1).toNat) (w.extractLsb' 8 8).toNat (w.extractLsb' 0 8))
  else if w.extractLsb' 24 8 = 0xAD#8 then
    if w.extractLsb' 8 16 = 0#16 then .ok (.msbcFrameHeader (w.extractLsb' 0 8)) else .error .reservedNotZero
  else .error .badSyncword

/-- The decoder, total on everything that can be fetched. -/
def decode : Fetched → Except Reject Instr
  | .cmd w => decodeCmd w
  | .uop code => decodeUop code
  | .header w => decodeHeader w

/-- The encoder: the word of a well-formed instruction (R50, R52, R57, R58). -/
def encode : Instr → Fetched
  | .resetEnc => .cmd 0x01
  | .resetDec => .cmd 0x02
  | .resetAll => .cmd 0x03
  | .validate => .cmd 0x10
  | .frameSize => .cmd 0x11
  | .encode => .cmd 0x20
  | .probe => .cmd 0x30
  | .decode => .cmd 0x31
  | .bsBind => .uop 0x80
  | .bsGetBits => .uop 0x81
  | .bsGetFixedBits => .uop 0x82
  | .bsPutBits => .uop 0x83
  | .bsFlush => .uop 0x84
  | .bsBitPos => .uop 0x85
  | .descIsValid => .uop 0x88
  | .descFrameSize => .uop 0x89
  | .hdrWrite => .uop 0x8A
  | .hdrRead => .uop 0x8B
  | .crcCompute => .uop 0x8C
  | .crcInsert => .uop 0x8D
  | .crcCheck => .uop 0x8E
  | .sideWrite => .uop 0x8F
  | .sideRead => .uop 0x90
  | .payloadWrite => .uop 0x91
  | .payloadRead => .uop 0x92
  | .bitAlloc => .uop 0x94
  | .bitAllocFrame => .uop 0x95
  | .scfCompute => .uop 0x98
  | .jointDecide => .uop 0x99
  | .jointUncouple => .uop 0x9A
  | .sbScale => .uop 0x9B
  | .quant => .uop 0x9C
  | .dequant => .uop 0x9D
  | .dct => .uop 0xA0
  | .analyzeBlock => .uop 0xA1
  | .analyzeFrame => .uop 0xA2
  | .synthBlock => .uop 0xA3
  | .synthFrame => .uop 0xA4
  | .fbReset => .uop 0xA5
  | .sbcFrameHeader freq blocks mode alloc subbands bitpool crc =>
    .header (0x9C#8 ++ freq.code ++ BitVec.ofNat 2 (codeOfCount blocks) ++ mode.code ++ alloc.code
      ++ BitVec.ofNat 1 (codeOfCount subbands) ++ BitVec.ofNat 8 bitpool ++ crc)
  | .msbcFrameHeader crc => .header (0xAD#8 ++ 0#16 ++ crc)

/-- A 32-bit table word is a frame header when its first byte is a syncword (R54), and a command word otherwise:
no command word of R52 has a non-zero first byte. -/
def isHeaderWord (w : BitVec 32) : Bool := w.extractLsb' 24 8 == 0x9C#8 || w.extractLsb' 24 8 == 0xAD#8

/-- What a word of the opcode table stands for: 8 bits are an internal operation code, 32 bits a command word or
a frame header. -/
def fetchedOfTable (nbits w : Nat) : Fetched :=
  if nbits = 8 then .uop (BitVec.ofNat 8 w)
  else if isHeaderWord (BitVec.ofNat 32 w) then .header (BitVec.ofNat 32 w)
  else .cmd (BitVec.ofNat 32 w)

/-- The instruction the decoder reads from a word numbered as the opcode table numbers it. -/
def decodeTableWord (nbits w : Nat) : Option Instr := (decode (fetchedOfTable nbits w)).toOption

end Sys2Proof
end

