-- ==== Sys2Proof/Machine/State.lean ====
section
/-! DEFINITION. The state of one core (10_state.md), as plain data, and what can stop a step. -/

namespace Sys2Proof.Machine

/-- The kinds of `raise` and the `STATUS.RESULT` codes (R11, R143); codes 7..15 are never produced. -/
inductive ResultCode where
  | ok | malformedHeader | bufferTooShort | checksumMismatch | invalidConfiguration | bitstreamError | illegalCommand
  deriving DecidableEq, Repr

/-- A host access is a read or a write (R150). -/
inductive AccessKind where
  | read | write
  deriving DecidableEq, Repr

/-- What stops the machine. Each is SAFE: the model stops where the spec gives no value or no effect. -/
inductive Fault where
  /-- R150. Raised by a host access of another width than 4 or unaligned (R35), at a reserved offset (R36), or
  other than a `STATUS` read while busy (R160). Safe: the spec defines nothing there. -/
  | hostBadAccess (off : Word) (width : Nat) (kind : AccessKind)
  /-- R140, U1. Raised by a command, an operation or a host read that reads a `FRAME_BUF` byte never written since
  reset. Safe: the byte has no value. -/
  | unwrittenFrameByte
  /-- R140, U1. Raised by a command, an operation or a host read that reads a PCM sample never written since
  reset. Safe: the sample has no value. -/
  | unwrittenPcmSample
  /-- R97 (b). Raised by BITALLOC when the slice search does not end within 32 iterations, which needs a bitpool
  above `16 * K * S` and no command asks for. Safe: the spec's loop would not end. -/
  | allocatorDiverges
  deriving DecidableEq, Repr

/-- Where the model has no meaning. Each is SAFE: the model stops. -/
inductive Refusal where
  /-- An instruction whose arm has no meaning yet (none in this model). Safe. -/
  | notModelled (mnemonic : String)
  /-- R66, U4, D26. Raised by a bitstream operation of a width outside 1..32, which the spec says a model
  refuses. Safe. -/
  | bitWidth
  /-- R73, U6. Raised by DESC_ISVALID on a raw descriptor with `msbc = 1` and `blocks = 0`, which divides by zero
  and which the spec says a model refuses. Safe. -/
  | divisionByZero
  /-- R50. Raised by the sequencer on a code outside the internal operation enumeration. Safe. -/
  | unknownOperation
  /-- Raised by a *_FRAME operation of the filter banks or the allocator when the working descriptor's `subbands` is
  neither 4 nor 8: the parameter functions exist for no other count (R6, R118). No command leads there. Safe. -/
  | invalidDescriptor
  deriving DecidableEq, Repr

/-- `BS.DIR` (R65). -/
inductive Dir where
  | read | write
  deriving DecidableEq, Repr

/-- The operand of `FB_RESET` (R123). -/
inductive FilterSet where
  | enc | dec
  deriving DecidableEq, Repr

/-- The operation the sequencer has started and not completed: a command word written to `CMD`, or (never from the
host) an internal operation code, or the reading of the frame header at `FRAME_BUF[0..3]`. -/
inductive Pending where
  | cmd (w : Word)
  | uop (code : BitVec 8)
  | header
  deriving DecidableEq, Repr

/-- The sequencer phase (R29), visible as `STATUS.BUSY`. -/
inductive Phase where
  | idle
  | busy (op : Pending)
  deriving DecidableEq, Repr

/-- What happens next, in the order it takes effect (R44, R45, R160): a host read or write at an offset of the
window, with its width in bytes; the sequencer's turn; a core reset by the platform (R155). -/
inductive Input where
  | hostRead (off : Word) (width : Nat)
  | hostWrite (off : Word) (width : Nat) (v : Word)
  | sequencer
  | platformReset
  deriving DecidableEq, Repr

/-- A buffer of the core: (index, value) pairs with rising indexes. An unlisted index was never written and has no
value (R23, R140). With 8-bit values this is a list of `Host.Cell`. -/
abbrev Mem (w : Nat) := List (Nat × BitVec w)

/-- The bitstream of the running pass (R28, R65). `BS.BUF` is always `FRAME_BUF`. `acc` holds the pending bits of the
writer, first appended first. -/
structure Bs where
  dir : Dir
  size : Nat
  pos : Nat
  acc : List Bool
  err : Bool
  deriving DecidableEq, Repr

/-- The per-pass working state (R27, R28): indexed `[c][b][s]` and `[c][s]`. `desc` is the effective descriptor of the
frame in work and `crcRx` the CRC byte received with its header (R77). -/
structure Pass where
  bs : Bs
  desc : Desc
  crcRx : BitVec 8
  crc : BitVec 8
  sbEnc : List (List (List I16))
  sbDec : List (List (List I32))
  scf : List (List (BitVec 4))
  joint : BitVec 8
  bitneed : List (List Int)
  nbits : List (List (Fin 17))
  sbScale : List Int
  deriving DecidableEq, Repr

/-- The operands of one BITALLOC call (R87): `K` is 1 or 2, `S` is 4 or 8. -/
structure AllocIn where
  scf0 : List (BitVec 4)
  scf1 : Option (List (BitVec 4))
  bands : Bands
  freq : Freq
  alloc : Alloc
  bitpool : Nat
  deriving DecidableEq, Repr

/-- The operand latches of the internal operations (log 3): their table rows have no operand fields, so an operation
reads its operands here or in `Pass`. -/
structure Operands where
  /-- BS_BIND -/
  dir : Dir
  /-- BS_BIND: 0..512 -/
  size : Fin 513
  /-- BS_GETBITS, BS_GETFIXEDBITS, BS_PUTBITS: the width -/
  width : Nat
  /-- BS_GETFIXEDBITS: the expected value; BS_PUTBITS: the value -/
  value : Word
  /-- DESC_ISVALID, DESC_FRAMESIZE -/
  desc : Desc
  /-- CRC_COMPUTE: the bit vector -/
  crcBits : List Bool
  /-- BITALLOC -/
  alloc : AllocIn
  /-- QUANT: the sample -/
  sample : I16
  /-- DEQUANT: the code -/
  raw : Word
  /-- QUANT, DEQUANT: `n - 1` for the width `n` in 1..16 -/
  nIdx : Fin 16
  /-- QUANT, DEQUANT -/
  scf : BitVec 4
  /-- DEQUANT, SYNTH_BLOCK -/
  sbScale : Int
  /-- ANALYZE_BLOCK, SYNTH_BLOCK: the channel -/
  chan : Fin 2
  /-- DCT, ANALYZE_BLOCK, SYNTH_BLOCK: `M` -/
  bands : Bands
  /-- DCT: the vector -/
  dctIn : List I32
  /-- ANALYZE_BLOCK: the PCM block -/
  pcm : List I16
  /-- SYNTH_BLOCK: the subband block -/
  subbands : List I32
  /-- FB_RESET -/
  set : FilterSet
  deriving DecidableEq, Repr

/-- The result latches of the internal operations that return a value (log 3). -/
structure Results where
  /-- BS_GETBITS -/
  value : Word
  /-- BS_BITPOS -/
  bitPos : Nat
  /-- DESC_ISVALID -/
  valid : Bool
  /-- DESC_FRAMESIZE -/
  frameSize : Nat
  /-- QUANT -/
  code : I32
  /-- DEQUANT -/
  sample : I32
  /-- DCT -/
  dctOut : List I32
  /-- ANALYZE_BLOCK -/
  subbands : List I16
  /-- SYNTH_BLOCK -/
  pcm : List I16
  deriving DecidableEq, Repr

structure State where
  /-- what the outside world does next (log 2) -/
  inputs : List Input
  /-- the value of the host's last read (log 18) -/
  hostData : Word
  /-- R29; `STATUS.BUSY` -/
  phase : Phase
  /-- R19; `STATUS.DONE` -/
  done : Bool
  /-- R19, R143; `STATUS.RESULT` -/
  result : ResultCode
  /-- R20; the reserved bits stay 0 -/
  cfg : Word
  /-- R21; `FRAME_LEN.LEN` -/
  frameLen : BitVec 10
  /-- R22; `PCM_LEN.LEFT` -/
  pcmLeft : BitVec 8
  /-- R22; `PCM_LEN.RIGHT` -/
  pcmRight : BitVec 8
  /-- R23; `FRAME_BUF[0..511]`, a list of `Host.Cell` -/
  frameBuf : Mem 8
  /-- R23; `PCM_L[0..127]` -/
  pcmL : Mem 16
  /-- R23; `PCM_R[0..127]` -/
  pcmR : Mem 16
  /-- R24; the encoder state set, channels 0 and 1 -/
  enc0 : EncChan
  enc1 : EncChan
  /-- R25; the decoder state set, channels 0 and 1 -/
  dec0 : DecChan
  dec1 : DecChan
  /-- R27, R28 -/
  pass : Pass
  /-- log 3 -/
  op : Operands
  /-- log 3 -/
  out : Results
  deriving DecidableEq, Repr

/-- The fixed mSBC descriptor `MSBC_D` (R17), as the reset value of the working descriptor (log 6). -/
def resetDesc : Desc := ⟨true, .f16k, .mono, .loudness, 15, 8, 26⟩

/-- The working state before any pass (log 6): a new pass writes all of it that it reads. -/
def Pass.reset : Pass where
  bs := ⟨.read, 0, 0, [], false⟩
  desc := resetDesc
  crcRx := 0
  crc := 0
  sbEnc := []
  sbDec := []
  scf := []
  joint := 0
  bitneed := []
  nbits := []
  sbScale := []

/-- The operand latches after reset (log 3): zero, or the least legal value. -/
def Operands.reset : Operands where
  dir := .read
  size := 0
  width := 1
  value := 0
  desc := resetDesc
  crcBits := []
  alloc := ⟨[], none, .four, .f16k, .loudness, 0⟩
  sample := 0
  raw := 0
  nIdx := 0
  scf := 0
  sbScale := 0
  chan := 0
  bands := .four
  dctIn := []
  pcm := []
  subbands := []
  set := .enc

/-- The result latches after reset (log 3). -/
def Results.reset : Results where
  value := 0
  bitPos := 0
  valid := false
  frameSize := 0
  code := 0
  sample := 0
  dctOut := []
  subbands := []
  pcm := []

/-- The core right after reset (R32, R155): idle, every register and both filter state sets zero, no buffer word
written, nothing waiting outside. -/
def State.reset : State where
  inputs := []
  hostData := 0
  phase := .idle
  done := false
  result := .ok
  cfg := 0
  frameLen := 0
  pcmLeft := 0
  pcmRight := 0
  frameBuf := []
  pcmL := []
  pcmR := []
  enc0 := .zeroAt 0
  enc1 := .zeroAt 0
  dec0 := .zeroAt 0
  dec1 := .zeroAt 0
  pass := .reset
  op := .reset
  out := .reset

end Sys2Proof.Machine
end

