-- ==== Sys2Proof/Machine/Tables.lean ====
section
/-! DEFINITION. The parameters of R6 that the spec gives a default value for (log 9): the loudness offsets (R88) and
the CRC constants (R79). Immutable (R30). The OPEN tables stand in Config.lean. -/

namespace Sys2Proof.Machine

/-- `CRC_INIT` (R79). -/
def crcInit : BitVec 8 := 0x0F

/-- `CRC_POLY` (R79): x^8 + x^4 + x^3 + x^2 + 1. -/
def crcPoly : BitVec 8 := 0x1D

/-- `LOUDNESS_OFFSET4[freq][0..3]` (R88). -/
def loudnessOffset4 : Freq → List Int
  | .f16k => [-1, 0, 0, 0]
  | .f32k => [-2, 0, 0, 1]
  | .f44k1 => [-2, 0, 0, 1]
  | .f48k => [-2, 0, 0, 1]

/-- `LOUDNESS_OFFSET8[freq][0..7]` (R88). -/
def loudnessOffset8 : Freq → List Int
  | .f16k => [-2, 0, 0, 0, 0, 0, 0, 1]
  | .f32k => [-3, 0, 0, 0, 0, 0, 1, 2]
  | .f44k1 => [-4, 0, 0, 0, 0, 0, 1, 2]
  | .f48k => [-4, 0, 0, 0, 0, 0, 1, 2]

/-- Loudness offset tables as a parameter of the allocator (R88): `offsets M freq s`. -/
abbrev LoudnessOffsets := Bands → Freq → Nat → Int

/-- `loudnessOffset[s]` (R88): the table of the subband count. -/
def loudnessOffset : LoudnessOffsets := fun m freq s =>
  match m with
  | .four => (loudnessOffset4 freq).getD s 0
  | .eight => (loudnessOffset8 freq).getD s 0

end Sys2Proof.Machine
end

