-- ==== Sys2Proof/Machine/Ops.lean ====
section
/-! DEFINITION. The named operations every meaning is built from, beside the arithmetic of Arith.lean: reading and
writing a buffer, the channel accessors, the outcome of a micro-operation, and `raise` with the command completion of
R11 and R125, the one form of exception this core has (R147: there is no handler and no return). -/

namespace Sys2Proof.Machine

/-! ### Buffers (R23, R140) -/

variable {w : Nat}

/-- The value at index `a`, or none where nothing was ever written. -/
def Mem.read : Mem w → Nat → Option (BitVec w)
  | [], _ => none
  | (k, v) :: m, a => if k = a then some v else Mem.read m a

/-- Stores `v` at index `a`, keeping the indexes rising. -/
def Mem.write : Mem w → Nat → BitVec w → Mem w
  | [], a, v => [(a, v)]
  | (k, x) :: m, a, v =>
    if a < k then (a, v) :: (k, x) :: m
    else if a = k then (a, v) :: m
    else (k, x) :: Mem.write m a v

/-- Stores a list of values at `a`, `a + 1`, ... -/
def Mem.writeList : Mem w → Nat → List (BitVec w) → Mem w
  | m, _, [] => m
  | m, a, v :: vs => Mem.writeList (Mem.write m a v) (a + 1) vs

/-- The canonical form: indexes strictly rising and inside the buffer. An unlisted index reads as no value, so there is
no value an entry must not hold. -/
abbrev Mem.wf (bound : Nat) (m : Mem w) : Prop :=
  (m.map Prod.fst).Pairwise (· < ·) ∧ ∀ p ∈ m, p.1 < bound

/-! ### Channels (R24, R25) -/

def State.enc (s : State) (c : Fin 2) : EncChan := if c = 0 then s.enc0 else s.enc1

def State.setEnc (s : State) (c : Fin 2) (e : EncChan) : State :=
  if c = 0 then { s with enc0 := e } else { s with enc1 := e }

def State.dec (s : State) (c : Fin 2) : DecChan := if c = 0 then s.dec0 else s.dec1

def State.setDec (s : State) (c : Fin 2) (e : DecChan) : State :=
  if c = 0 then { s with dec0 := e } else { s with dec1 := e }

/-! ### Failure and completion (R11, R125, R146) -/

/-- R125, at the start of a command: `DONE <- 0`, `BUSY <- 1`. -/
def State.start (w : Word) (s : State) : State := { s with phase := .busy (.cmd w), done := false }

/-- R125, at the end of a command: `RESULT <- k`, `BUSY <- 0`, `DONE <- 1`. Taking a failure is this and nothing else:
no state is saved, no mode changes and control goes nowhere (R146, R147). -/
def State.complete (k : ResultCode) (s : State) : State := { s with phase := .idle, done := true, result := k }

/-- How a micro-operation ends: it ran, it raised a failure kind (R11), or the model stops. -/
inductive Micro where
  | ok (s : State)
  | raised (k : ResultCode) (s : State)
  | fault (f : Fault)
  | refused (r : Refusal)
  deriving DecidableEq, Repr

/-- Sequencing: a raise ends the command at once (R11). -/
def Micro.andThen : Micro → (State → Micro) → Micro
  | .ok s, f => f s
  | .raised k s, _ => .raised k s
  | .fault e, _ => .fault e
  | .refused r, _ => .refused r

/-- A host command from its start to its completion (R125), as one transition (R29). -/
def runCommand (w : Word) (body : State → Micro) (s : State) : Host.Outcome State Fault Refusal :=
  match body (s.start w) with
  | .ok t => .next (t.complete .ok)
  | .raised k t => .next (t.complete k)
  | .fault f => .fault f
  | .refused r => .refused r

/-- One internal operation on its own: `STATUS` changes only if it raises (R11; log 4). -/
def runUop (body : State → Micro) (s : State) : Host.Outcome State Fault Refusal :=
  match body s with
  | .ok t => .next t
  | .raised k t => .next (t.complete k)
  | .fault f => .fault f
  | .refused r => .refused r

end Sys2Proof.Machine
end

