-- ==== Sys2Proof/Machine/Operands.lean ====
section
/-! DEFINITION. Where operations find their operands: the descriptor in `CFG` (R16, R17, R20), the descriptor of a
received header (R56), the descriptor booleans (R13), the length registers (R21, R22, R139), the indexed working
state (R27), and the order of a frame's fields (R61, R62). -/

namespace Sys2Proof.Machine

/-! ### Descriptors -/

/-- `MSBC_D` (R17). -/
def msbcDesc : Desc := ⟨true, .f16k, .mono, .loudness, 15, 8, 26⟩

/-- `eff(d)` (R17). -/
def eff (d : Desc) : Desc := if d.msbc then msbcDesc else d

/-- `desc(CFG)` (R20). -/
def descOfCfg (w : Word) : Desc where
  msbc := w.getLsbD 0
  freq := Freq.ofCode (w.extractLsb' 1 2)
  mode := Mode.ofCode (w.extractLsb' 3 2)
  alloc := Alloc.ofCode (w.extractLsb' 5 1)
  blocks := (w.extractLsb' 6 5).toNat
  subbands := (w.extractLsb' 11 4).toNat
  bitpool := (w.extractLsb' 16 8).toNat

/-- `enc(d)` (R132): the `CFG` value of a descriptor, the reserved bits 0. -/
def cfgOfDesc (d : Desc) : Word :=
  0#8 ++ BitVec.ofNat 8 d.bitpool ++ 0#1 ++ BitVec.ofNat 4 d.subbands ++ BitVec.ofNat 5 d.blocks ++ d.alloc.code
    ++ d.mode.code ++ d.freq.code ++ BitVec.ofBool d.msbc

/-- The bits of `CFG` that a write stores (R20): all but 15 and 31:24. -/
def cfgMask : Word := 0x00FF7FFF

/-- The descriptor a command works with: `eff(desc(CFG))`. -/
def State.cfgDesc (s : State) : Desc := eff (descOfCfg s.cfg)

/-- R13. -/
def twoChannels (d : Desc) : Bool := d.mode != .mono
def dualChannel (d : Desc) : Bool := d.mode == .dualChannel
def stereoOrJoint (d : Desc) : Bool := d.mode == .stereo || d.mode == .jointStereo
def jointStereo (d : Desc) : Bool := d.mode == .jointStereo

/-- `C(d)` (R13). -/
def channelCount (d : Desc) : Nat := 1 + (twoChannels d).toNat

/-- The subband count as one a filter bank exists for (R6). -/
def bandsOf (n : Nat) : Option Bands := if n = 4 then some .four else if n = 8 then some .eight else none

/-! ### Length registers (R139) -/

/-- `min(FRAME_LEN.LEN, 512)`. -/
def State.frameBytes (s : State) : Nat := min s.frameLen.toNat 512

/-- `min(PCM_LEN.LEFT, 128)`. -/
def State.leftSamples (s : State) : Nat := min s.pcmLeft.toNat 128

/-- `min(PCM_LEN.RIGHT, 128)`; 0 stands for an absent right channel (R22). -/
def State.rightSamples (s : State) : Nat := min s.pcmRight.toNat 128

/-! ### Working state by index (R27). An index outside the stored shape reads 0 (log 21). -/

def at3 {α : Type} (z : α) (sb : List (List (List α))) (c b s : Nat) : α := ((sb.getD c []).getD b []).getD s z

def at2 {α : Type} (z : α) (v : List (List α)) (c s : Nat) : α := (v.getD c []).getD s z

/-- The array `[c][b][s]` of a frame with `C` channels, `B` blocks and `M` subbands. -/
def build3 {α : Type} (C B M : Nat) (f : Nat → Nat → Nat → α) : List (List (List α)) :=
  (List.range C).map fun c => (List.range B).map fun b => (List.range M).map fun s => f c b s

/-- The array `[c][s]`. -/
def build2 {α : Type} (C M : Nat) (f : Nat → Nat → α) : List (List α) :=
  (List.range C).map fun c => (List.range M).map fun s => f c s

def Pass.sbEncAt (p : Pass) (c b s : Nat) : I16 := at3 0 p.sbEnc c b s
def Pass.sbDecAt (p : Pass) (c b s : Nat) : I32 := at3 0 p.sbDec c b s
def Pass.scfAt (p : Pass) (c s : Nat) : BitVec 4 := at2 0 p.scf c s
def Pass.nbitsAt (p : Pass) (c s : Nat) : Nat := (at2 0 p.nbits c s).val
def Pass.sbScaleAt (p : Pass) (c : Nat) : Int := p.sbScale.getD c 0

/-- The pairs (channel, subband) of R61: channel outer, subband inner. -/
def pairOrder (d : Desc) : List (Nat × Nat) :=
  (List.range (channelCount d)).flatMap fun c => (List.range d.subbands).map fun s => (c, s)

/-- The triples (block, channel, subband) of R62: block outer, then channel, then subband. -/
def sampleOrder (d : Desc) : List (Nat × Nat × Nat) :=
  (List.range d.blocks).flatMap fun b => (pairOrder d).map fun p => (b, p)

/-- The offset in core `i`'s window of a platform address (R34): `BASE[i]` subtracted. -/
def busOffset (i : Nat) (addr : Word) : Word := addr - Config.base i

end Sys2Proof.Machine
end

