-- ==== Sys2Proof/Machine/Flags.lean ====
section
/-! DEFINITION. The flags (R31): `STATUS.BUSY`, `STATUS.DONE`, `STATUS.RESULT` (R19, R143) and the sticky `BS.ERR`
(R71). There are no arithmetic condition codes. -/

namespace Sys2Proof.Machine

/-- The number of a result code (R143). -/
def ResultCode.code : ResultCode → BitVec 4
  | .ok => 0
  | .malformedHeader => 1
  | .bufferTooShort => 2
  | .checksumMismatch => 3
  | .invalidConfiguration => 4
  | .bitstreamError => 5
  | .illegalCommand => 6

/-- `STATUS.BUSY` (R29). -/
def Phase.isBusy : Phase → Bool
  | .idle => false
  | .busy _ => true

/-- The `STATUS` word (R19): RESULT in 7:4, DONE in 1, BUSY in 0, the rest 0. -/
def State.statusWord (s : State) : Word :=
  0#24 ++ s.result.code ++ 0#2 ++ BitVec.ofBool s.done ++ BitVec.ofBool s.phase.isBusy

/-- R71: `BS.ERR` is set when `bad` holds and is otherwise left as it is. -/
def Bs.noteError (bad : Bool) (bs : Bs) : Bs := { bs with err := bs.err || bad }

end Sys2Proof.Machine
end

