-- ==== Sys2Proof/Machine/Bitstream.lean ====
section
/-! DEFINITION. bitstream_reader and bitstream_writer (40_bitstream.md, R65 to R72), and the six operations BS_*. -/

namespace Sys2Proof.Machine

/-- R65: a pass's bitstream over `FRAME_BUF`. -/
def Bs.bind (dir : Dir) (size : Nat) : Bs := ⟨dir, size, 0, [], false⟩

/-- Bit position `p` of the frame (R40), or none if its byte was never written (R140). -/
def frameBit (m : Mem 8) (p : Nat) : Option Bool := (Mem.read m (p / 8)).map fun b => b.getLsbD (7 - p % 8)

/-- One bit of R66: past the declared size it reads 0 and sets `BS.ERR`. -/
def Bs.getBit (m : Mem 8) (bs : Bs) : Option (Bool × Bs) :=
  if bs.pos < 8 * bs.size then (frameBit m bs.pos).map fun b => (b, { bs with pos := bs.pos + 1 })
  else some (false, ({ bs with pos := bs.pos + 1 } : Bs).noteError true)

/-- R66, `n` bits shifted into `v`, first bit most significant. -/
def Bs.getBitsInto (m : Mem 8) : Nat → Word → Bs → Option (Word × Bs)
  | 0, v, bs => some (v, bs)
  | n + 1, v, bs =>
    match bs.getBit m with
    | none => none
    | some (b, bs) => Bs.getBitsInto m n ((v <<< 1) ||| (BitVec.ofBool b).setWidth 32) bs

/-- `GetBits(n)` (R66). -/
def Bs.getBits (m : Mem 8) (n : Nat) (bs : Bs) : Option (Word × Bs) := Bs.getBitsInto m n 0 bs

/-- `GetFixedBits(n, expected)` (R67). -/
def Bs.getFixedBits (m : Mem 8) (n : Nat) (expected : Word) (bs : Bs) : Option Bs :=
  (bs.getBits m n).map fun r => r.2.noteError (r.1 != expected)

/-- Several `GetBits` in a row. -/
def Bs.getFields (m : Mem 8) : List Nat → Bs → Option (List Word × Bs)
  | [], bs => some ([], bs)
  | n :: ns, bs =>
    match bs.getBits m n with
    | none => none
    | some (v, bs) => (Bs.getFields m ns bs).map fun r => (v :: r.1, r.2)

/-- The byte of eight bits, the first one as bit 7 (R68). -/
def byteOfBits (bits : List Bool) : Byte := bits.foldl (fun v b => (v <<< 1) ||| (BitVec.ofBool b).setWidth 8) 0

/-- One appended bit of R68: a completed byte is stored, or discarded with `BS.ERR` set when it falls past the declared
size. -/
def Bs.putBit (b : Bool) (w : Mem 8 × Bs) : Mem 8 × Bs :=
  let acc := w.2.acc ++ [b]
  let pos := w.2.pos + 1
  if acc.length = 8 then
    if pos / 8 - 1 < w.2.size then (Mem.write w.1 (pos / 8 - 1) (byteOfBits acc), { w.2 with pos := pos, acc := [] })
    else (w.1, ({ w.2 with pos := pos, acc := [] } : Bs).noteError true)
  else (w.1, { w.2 with pos := pos, acc := acc })

/-- `PutBits(v, n)` (R68): the low `n` bits of `v`, most significant first. -/
def Bs.putBits (v : Word) : Nat → Mem 8 × Bs → Mem 8 × Bs
  | 0, w => w
  | n + 1, w => Bs.putBits v n (Bs.putBit (v.getLsbD n) w)

/-- Several `PutBits` in a row, each a value and its width. -/
def Bs.putFields : List (Word × Nat) → Mem 8 × Bs → Mem 8 × Bs
  | [], w => w
  | f :: fs, w => Bs.putFields fs (Bs.putBits f.1 f.2 w)

/-- `Flush()` (R69): zero bits up to the byte boundary. -/
def Bs.flush (w : Mem 8 × Bs) : Mem 8 × Bs :=
  if w.2.acc = [] then w else Bs.putBits 0 (8 - w.2.acc.length) w

/-- A width the source defines (R66, R68, D26). -/
def widthOk (n : Nat) : Bool := decide (1 ≤ n ∧ n ≤ 32)

/-! ### The bitstream in the state -/

def State.setBs (s : State) (bs : Bs) : State := { s with pass := { s.pass with bs := bs } }

def State.bind (dir : Dir) (size : Nat) (s : State) : State := s.setBs (Bs.bind dir size)

/-- What the writer works on: the frame buffer and the bitstream. -/
def State.writer (s : State) : Mem 8 × Bs := (s.frameBuf, s.pass.bs)

def State.setWriter (s : State) (w : Mem 8 × Bs) : State :=
  { s with frameBuf := w.1, pass := { s.pass with bs := w.2 } }

/-- Appends fields to the frame; a width outside 1..32 is refused (U4). -/
def writeFields (fs : List (Word × Nat)) (s : State) : Micro :=
  if fs.all fun f => widthOk f.2 then .ok (s.setWriter (Bs.putFields fs s.writer)) else .refused .bitWidth

def flushWriter (s : State) : Micro := .ok (s.setWriter (Bs.flush s.writer))

/-! ### The operations -/

/-- BS_BIND (R65). -/
def execBsBind (s : State) : Host.Outcome State Fault Refusal :=
  runUop (fun s => .ok (s.bind s.op.dir s.op.size.val)) s

/-- BS_GETBITS (R66): the value read is the result. -/
def getBitsOp (s : State) : Micro :=
  if widthOk s.op.width then
    match s.pass.bs.getBits s.frameBuf s.op.width with
    | none => .fault .unwrittenFrameByte
    | some (v, bs) => .ok { s.setBs bs with out := { s.out with value := v } }
  else .refused .bitWidth

def execBsGetBits (s : State) : Host.Outcome State Fault Refusal := runUop getBitsOp s

/-- BS_GETFIXEDBITS (R67). The expected value is the 32-bit latch, compared whole (DESIGN CHOICE, log 27). -/
def getFixedBitsOp (s : State) : Micro :=
  if widthOk s.op.width then
    match s.pass.bs.getFixedBits s.frameBuf s.op.width s.op.value with
    | none => .fault .unwrittenFrameByte
    | some bs => .ok (s.setBs bs)
  else .refused .bitWidth

def execBsGetFixedBits (s : State) : Host.Outcome State Fault Refusal := runUop getFixedBitsOp s

/-- BS_PUTBITS (R68). -/
def execBsPutBits (s : State) : Host.Outcome State Fault Refusal :=
  runUop (fun s => writeFields [(s.op.value, s.op.width)] s) s

/-- BS_FLUSH (R69). -/
def execBsFlush (s : State) : Host.Outcome State Fault Refusal := runUop flushWriter s

/-- BS_BITPOS (R70): the position is the result. -/
def execBsBitPos (s : State) : Host.Outcome State Fault Refusal :=
  runUop (fun s => .ok { s with out := { s.out with bitPos := s.pass.bs.pos } }) s

end Sys2Proof.Machine
end

