-- ==== Sys2Proof/Machine/Allocator.lean ====
section
/-! DEFINITION. bit_allocator (42_bit_allocator.md, R87 to R97). One call works on the list of its (subband, channel)
pairs in the scan order of R94, subband outer and channel inner; steps 1 to 3 do not depend on that order. -/

namespace Sys2Proof.Machine

/-- Step 1 (R89): the bit need of one scale factor, with the loudness offset tables `offsets`. -/
def bitNeedWith (offsets : LoudnessOffsets) (m : Bands) (freq : Freq) (alloc : Alloc) (scf : BitVec 4) (s : Nat) : Int :=
  match alloc with
  | .snr => scf.toNat
  | .loudness =>
    if scf = 0 then -5
    else
      let loudness := (scf.toNat : Int) - offsets m freq s
      if loudness > 0 then asr loudness 1 else loudness

/-- The bit need with the core's tables. -/
def bitNeed (m : Bands) (freq : Freq) (alloc : Alloc) (scf : BitVec 4) (s : Nat) : Int :=
  bitNeedWith loudnessOffset m freq alloc scf s

/-- Step 2 (R90). -/
def maxNeed : List Int → Int
  | [] => 0
  | n :: ns => ns.foldl max n

/-- What one pair counts at a threshold (R91). -/
def sliceWeight (slice need : Int) : Nat :=
  if slice + 1 < need ∧ need < slice + 16 then 1 else if need = slice + 1 then 2 else 0

/-- `slicecount` at a threshold (R91). -/
def sliceCount (needs : List Int) (slice : Int) : Nat := (needs.map (sliceWeight slice)).sum

/-- Where the search stands: `bitslice`, `bitcount`, `slicecount` (R91). -/
structure Search where
  slice : Int
  bits : Nat
  count : Nat
  deriving DecidableEq, Repr

/-- One iteration of R91's loop. -/
def searchStep (needs : List Int) (r : Search) : Search :=
  ⟨r.slice - 1, r.bits + r.count, sliceCount needs (r.slice - 1)⟩

/-- Step 3 (R91), with fuel; none when the fuel is used up (R97 (b)). -/
def searchSlice (needs : List Int) (bitpool : Nat) : Nat → Search → Option Search
  | 0, _ => none
  | fuel + 1, r =>
    let r := searchStep needs r
    if bitpool ≤ r.bits + r.count then some r else searchSlice needs bitpool fuel r

/-- Step 3a (R92): a slice that fills the bitpool exactly is taken. -/
def exactFill (bitpool : Nat) (r : Search) : Search :=
  if r.bits + r.count = bitpool then ⟨r.slice - 1, r.bits + r.count, r.count⟩ else r

/-- Step 4 (R93). -/
def assignBits (slice need : Int) : Nat := if need < slice + 2 then 0 else (min (need - slice) 16).toNat

/-- Pass A's grant to one pair (R94): its bits and the new bit count. -/
def grantA (bitpool : Nat) (slice need : Int) (n bits : Nat) : Nat × Nat :=
  if bitpool ≤ bits then (n, bits)
  else if 2 ≤ n ∧ n < 16 then (n + 1, bits + 1)
  else if need = slice + 1 ∧ bits + 1 < bitpool then (2, bits + 2)
  else (n, bits)

/-- Pass B's grant to one pair (R95). -/
def grantB (bitpool : Nat) (n bits : Nat) : Nat × Nat :=
  if bitpool ≤ bits then (n, bits) else if n < 16 then (n + 1, bits + 1) else (n, bits)

/-- One pass over the pairs `(bitneed, nbits)` in scan order, the bit count threaded through. -/
def grantScan (grant : Int → Nat → Nat → Nat × Nat) : List (Int × Nat) → Nat → List (Int × Nat) × Nat
  | [], bits => ([], bits)
  | p :: ps, bits =>
    let g := grant p.1 p.2 bits
    let r := grantScan grant ps g.2
    ((p.1, g.1) :: r.1, r.2)

/-- Steps 2 to 5 on the needs in scan order: the bits of each pair; none when the search does not end. -/
def allocateNeeds (needs : List Int) (bitpool : Nat) : Option (List Nat) :=
  (searchSlice needs bitpool 32 ⟨maxNeed needs + 1, 0, 0⟩).map fun r =>
    let r := exactFill bitpool r
    let a := grantScan (grantA bitpool r.slice) (needs.map fun n => (n, assignBits r.slice n)) r.bits
    let b := grantScan (fun _ => grantB bitpool) a.1 a.2
    b.1.map Prod.snd

/-- The scale factors of the call's channels. -/
def AllocIn.channels (a : AllocIn) : List (List (BitVec 4)) := a.scf0 :: a.scf1.toList

/-- The needs of a call in scan order (R89, R94). -/
def AllocIn.needsWith (offsets : LoudnessOffsets) (a : AllocIn) : List Int :=
  (List.range a.bands.n).flatMap fun s => a.channels.map fun scf => bitNeedWith offsets a.bands a.freq a.alloc (scf.getD s 0) s

def AllocIn.needs (a : AllocIn) : List Int := a.needsWith loudnessOffset

/-- A scan-order list as `[c][s]`. -/
def unscan {α : Type} (z : α) (K S : Nat) (v : List α) : List (List α) := build2 K S fun c s => v.getD (s * K + c) z

/-- A bit count as the 0..16 it is (R87); the allocation never leaves that range, so nothing is cut off. -/
def bitCount (n : Nat) : Fin 17 := ⟨min n 16, by omega⟩

/-- `BITALLOC` (R87) with the loudness offset tables `offsets` (R88): `BITNEED` and `NBITS` of the call's channels. -/
def allocateWith (offsets : LoudnessOffsets) (a : AllocIn) : Option (List (List Int) × List (List (Fin 17))) :=
  (allocateNeeds (a.needsWith offsets) a.bitpool).map fun bits =>
    (unscan 0 a.channels.length a.bands.n (a.needsWith offsets), unscan 0 a.channels.length a.bands.n (bits.map bitCount))

/-- `BITALLOC` with the core's tables. -/
def allocate (a : AllocIn) : Option (List (List Int) × List (List (Fin 17))) := allocateWith loudnessOffset a

/-- The calls of one frame (R96): one for Mono, two separate ones for DualChannel, one of two channels otherwise. -/
def frameCalls (p : Pass) (m : Bands) : List AllocIn :=
  let one (c : Nat) : AllocIn := ⟨p.scf.getD c [], none, m, p.desc.freq, p.desc.alloc, p.desc.bitpool⟩
  match p.desc.mode with
  | .mono => [one 0]
  | .dualChannel => [one 0, one 1]
  | .stereo | .jointStereo => [⟨p.scf.getD 0 [], some (p.scf.getD 1 []), m, p.desc.freq, p.desc.alloc, p.desc.bitpool⟩]

/-- The results of several calls, channel after channel. -/
def allocateAll : List AllocIn → Option (List (List Int) × List (List (Fin 17)))
  | [] => some ([], [])
  | a :: as =>
    match allocate a, allocateAll as with
    | some r, some rs => some (r.1 ++ rs.1, r.2 ++ rs.2)
    | _, _ => none

def storeAllocation (r : Option (List (List Int) × List (List (Fin 17)))) (s : State) : Micro :=
  match r with
  | none => .fault .allocatorDiverges
  | some (needs, nbits) => .ok { s with pass := { s.pass with bitneed := needs, nbits := nbits } }

/-- BITALLOC_FRAME (R96). `BITNEED` and `NBITS` are replaced whole (DESIGN CHOICE, log 39). -/
def bitAllocFrame (s : State) : Micro :=
  match bandsOf s.pass.desc.subbands with
  | none => .refused .invalidDescriptor
  | some m => storeAllocation (allocateAll (frameCalls s.pass m)) s

/-- BITALLOC (R87) of the call latch. The rows of the call become the whole of `BITNEED` and `NBITS` (DESIGN CHOICE, log 29). -/
def execBitAlloc (s : State) : Host.Outcome State Fault Refusal := runUop (fun s => storeAllocation (allocate s.op.alloc) s) s

def execBitAllocFrame (s : State) : Host.Outcome State Fault Refusal := runUop bitAllocFrame s

end Sys2Proof.Machine
end

