-- ==== Sys2Proof/Machine/Quantizer.lean ====
section
/-! DEFINITION. quantizer and dequantizer (43_quantizer.md, R98 to R106): scale factors, joint stereo, the decoder's
global scale, and the two sample formulas. -/

namespace Sys2Proof.Machine

/-! ### Scale factors (R98) -/

/-- The largest magnitude; `|-32768| = 32768`. -/
def maxMagnitude (v : List I16) : Nat := (v.map fun x => x.toInt.natAbs).foldl max 0

/-- `scf_of(v)` (R98): the position of the highest set bit of the largest magnitude, 0 for all zero. It is 0..15. -/
def scfOf (v : List I16) : BitVec 4 :=
  if maxMagnitude v = 0 then 0 else BitVec.ofNat 4 (31 - clz32 (BitVec.ofNat 32 (maxMagnitude v)))

/-- The samples of channel `c`, subband `s`, over `B` blocks. -/
def Pass.column (p : Pass) (B c s : Nat) : List I16 := (List.range B).map fun b => p.sbEncAt c b s

/-- SCF_COMPUTE (R98). `SCF` is replaced whole (DESIGN CHOICE, log 39). -/
def scfCompute (s : State) : Micro :=
  .ok { s with pass := { s.pass with
    scf := build2 (channelCount s.pass.desc) s.pass.desc.subbands fun c i => scfOf (s.pass.column s.pass.desc.blocks c i) } }

/-! ### Joint stereo (R99, R100, R101) -/

/-- `MS(l, r).1` (R100): computed exactly, then held as int16. -/
def midOf (l r : I16) : I16 := BitVec.ofInt 16 (asr (l.toInt + r.toInt) 1)

/-- `MS(l, r).2` (R100). -/
def sideOf (l r : I16) : I16 := BitVec.ofInt 16 (asr (l.toInt - r.toInt) 1)

def Pass.midAt (p : Pass) (b s : Nat) : I16 := midOf (p.sbEncAt 0 b s) (p.sbEncAt 1 b s)
def Pass.sideAt (p : Pass) (b s : Nat) : I16 := sideOf (p.sbEncAt 0 b s) (p.sbEncAt 1 b s)
def Pass.midScf (p : Pass) (s : Nat) : BitVec 4 := scfOf ((List.range p.desc.blocks).map fun b => p.midAt b s)
def Pass.sideScf (p : Pass) (s : Nat) : BitVec 4 := scfOf ((List.range p.desc.blocks).map fun b => p.sideAt b s)

/-- R99: subband `s` is coupled. The top subband never is. -/
def Pass.coupled (p : Pass) (s : Nat) : Bool :=
  decide (s + 1 < p.desc.subbands ∧ (p.midScf s).toNat + (p.sideScf s).toNat < (p.scfAt 0 s).toNat + (p.scfAt 1 s).toNat)

/-- The mask whose bit `s` is `f s`, for `s` below `M`; it has no bit for subbands 8 and up (DESIGN CHOICE, log 38). -/
def maskOf (M : Nat) (f : Nat → Bool) : BitVec 8 :=
  (List.range M).foldl (fun j s => if f s then j ||| (1#8 <<< s) else j) 0

/-- The working state after the joint decision of a JointStereo frame (R99). `SCF` and `SB` are replaced whole (DESIGN
CHOICE, log 39). -/
def Pass.jointDecide (p : Pass) : Pass :=
  { p with
    joint := maskOf p.desc.subbands p.coupled
    scf := build2 2 p.desc.subbands fun c s =>
      if p.coupled s then (if c = 0 then p.midScf s else p.sideScf s) else p.scfAt c s
    sbEnc := build3 2 p.desc.blocks p.desc.subbands fun c b s =>
      if p.coupled s then (if c = 0 then p.midAt b s else p.sideAt b s) else p.sbEncAt c b s }

/-- JOINT_DECIDE (R99, R131): in a mode other than JointStereo the decision does not run and `JOINT` is 0 (log 16). -/
def jointDecide (s : State) : Micro :=
  if jointStereo s.pass.desc then .ok { s with pass := s.pass.jointDecide }
  else .ok { s with pass := { s.pass with joint := 0 } }

/-- The decoder's subband samples after uncoupling (R101). `SB` is replaced whole (DESIGN CHOICE, log 39). -/
def Pass.jointUncouple (p : Pass) : Pass :=
  { p with
    sbDec := build3 2 p.desc.blocks p.desc.subbands fun c b s =>
      if p.joint.getLsbD s then
        (if c = 0 then p.sbDecAt 0 b s + p.sbDecAt 1 b s else p.sbDecAt 0 b s - p.sbDecAt 1 b s)
      else p.sbDecAt c b s }

/-- JOINT_UNCOUPLE (R101): in a mode other than JointStereo it does not run (log 16). -/
def jointUncouple (s : State) : Micro :=
  if jointStereo s.pass.desc then .ok { s with pass := s.pass.jointUncouple } else .ok s

/-! ### The decoder's global scale (R102) -/

/-- A channel's own `SBSCALE`, before JointStereo levels the two. -/
def Pass.ownScale (p : Pass) (c : Nat) : Int :=
  (15 - (((List.range p.desc.subbands).map fun s => (p.scfAt c s).toNat).foldl max 0 : Nat)) - 1

/-- SBSCALE (R102). `SBSCALE` is replaced whole (DESIGN CHOICE, log 39). -/
def sbScale (s : State) : Micro :=
  .ok { s with pass := { s.pass with
    sbScale := (List.range (channelCount s.pass.desc)).map fun c =>
      if jointStereo s.pass.desc then min (s.pass.ownScale 0) (s.pass.ownScale 1) else s.pass.ownScale c } }

/-! ### The sample formulas (R103, R105) -/

/-- `QUANT(x, n, scf)` (R103), in int32. -/
def quantize (x : I16) (n scf : Nat) : I32 :=
  asr32 (asr32 (x.signExtend 32 * ((1#32 <<< n) - 1)) (scf + 1) + ((1#32 <<< n) - 1)) 1

/-- `DEQUANT(raw, n, scf, sbScale)` (R105) with the table `rs`, `i` being `n - 1`. The shift count is 13..28 for every
received frame; a negative one has no stated result (log 14). -/
def dequantizeWith (rs : Fin 16 → I32) (raw : Word) (i : Fin 16) (scf : Nat) (sbScale : Int) : I32 :=
  let expanded := ((raw <<< 1) ||| 1) * rs i
  let sh : Int := 28 - ((scf + 1) + sbScale)
  if 0 ≤ sh then asr32 (expanded - 0x10000000) sh.toNat else Config.negativeShift (expanded - 0x10000000) sh

/-- `DEQUANT` with the core's `RANGE_SCALE`. -/
def dequantize (raw : Word) (i : Fin 16) (scf : Nat) (sbScale : Int) : I32 := dequantizeWith Config.rangeScale raw i scf sbScale

/-! ### The operations -/

def execScfCompute (s : State) : Host.Outcome State Fault Refusal := runUop scfCompute s

def execJointDecide (s : State) : Host.Outcome State Fault Refusal := runUop jointDecide s

def execJointUncouple (s : State) : Host.Outcome State Fault Refusal := runUop jointUncouple s

def execSbScale (s : State) : Host.Outcome State Fault Refusal := runUop sbScale s

/-- QUANT (R103) of the sample latch, also where the scale factor does not bound it (DESIGN CHOICE, log 31). -/
def execQuant (s : State) : Host.Outcome State Fault Refusal :=
  runUop (fun s => .ok { s with out := { s.out with code := quantize s.op.sample (s.op.nIdx.val + 1) s.op.scf.toNat } }) s

/-- DEQUANT (R105) of the code latch, on all of its 32 bits and for any `sbScale` (DESIGN CHOICE, log 34). -/
def execDequant (s : State) : Host.Outcome State Fault Refusal :=
  runUop (fun s => .ok { s with out := { s.out with sample := dequantize s.op.raw s.op.nIdx s.op.scf.toNat s.op.sbScale } }) s

end Sys2Proof.Machine
end

