-- ==== Sys2Proof/Machine/Framer.lean ====
section
/-! DEFINITION. sbc_framer_with_crc (41_framer.md, R73 to R85): the descriptor formulas, the header codec, the CRC, and
the loops that place side information and samples in the frame; and the meaning of a received frame header. -/

namespace Sys2Proof.Machine

/-! ### Descriptor formulas (R73, R74) -/

/-- `HEADER_SIZE` (R6). -/
def headerSize : Nat := 4

/-- `maxBits` (R73). -/
def maxBits (d : Desc) : Int :=
  (((16 * d.subbands * d.blocks) <<< (twoChannels d).toNat : Nat) : Int) - 8 * headerSize
    - ((4 * d.subbands) <<< (twoChannels d).toNat : Nat) - (if jointStereo d then d.subbands else 0 : Nat)

/-- `maxBitpool` (R73). The divisor is not zero where R73 reaches this line for a descriptor with `msbc = 0` or a
positive `blocks`. -/
def maxBitpool (d : Desc) : Int :=
  min (maxBits d / ((d.blocks <<< (dualChannel d).toNat : Nat) : Int)) (((16 <<< (stereoOrJoint d).toNat) * d.subbands : Nat) : Int)

/-- `DESC_ISVALID(d)` (R73), the source's `IsValid()`. -/
def isValid (d : Desc) : Bool :=
  (d.msbc || (decide (4 ≤ d.blocks) && decide (d.blocks ≤ 16) && d.blocks % 4 == 0))
    && (d.subbands == 4 || d.subbands == 8)
    && decide ((d.bitpool : Int) ≤ maxBitpool d)

/-- R73, U6: the raw descriptors whose validity formula divides by zero. -/
def dividesByZero (d : Desc) : Bool := d.msbc && (d.subbands == 4 || d.subbands == 8) && d.blocks == 0

/-- `nbits` of R74: the payload bits after the header. -/
def payloadBits (d : Desc) : Nat :=
  ((4 * d.subbands) <<< (twoChannels d).toNat) + ((d.blocks * d.bitpool) <<< (dualChannel d).toNat)
    + (if jointStereo d then d.subbands else 0)

/-- `DESC_FRAMESIZE(d)` (R74), the source's `GetFrameSize()`, in bytes. -/
def frameSize (d : Desc) : Nat := headerSize + ceilDiv8 (payloadBits d)

/-! ### Header codec (R76, R77) -/

/-- The fields HDR_WRITE puts (R55, R57, R58, R76), each with its width; the CRC byte is a placeholder. -/
def headerFields (d : Desc) : List (Word × Nat) :=
  if d.msbc then [(0xAD, 8), (0, 16), (0, 8)]
  else
    [(0x9C, 8), (d.freq.code.setWidth 32, 2), (BitVec.ofInt 32 (((d.blocks >>> 2 : Nat) : Int) - 1), 2),
      (d.mode.code.setWidth 32, 2), (d.alloc.code.setWidth 32, 1), (BitVec.ofInt 32 (((d.subbands >>> 2 : Nat) : Int) - 1), 1),
      (BitVec.ofNat 32 d.bitpool, 8), (0, 8)]

/-- The descriptor of a normal header's fields (R56, R77). -/
def headerDesc (freq blocksCode mode alloc subbandsCode bitpool : Word) : Desc where
  msbc := false
  freq := Freq.ofCode (freq.setWidth 2)
  mode := Mode.ofCode (mode.setWidth 2)
  alloc := Alloc.ofCode (alloc.setWidth 1)
  blocks := countOfCode blocksCode.toNat
  subbands := countOfCode subbandsCode.toNat
  bitpool := bitpool.toNat

/-- The reads of HDR_READ (R77), before its checks: the descriptor and the received CRC byte, or none at the point
where a bad syncword raises. The outer none is a read of a byte never written. -/
def parseHeader (m : Mem 8) (bs : Bs) : Option (Option (Desc × BitVec 8) × Bs) :=
  match bs.getBits m 8 with
  | none => none
  | some (sync, bs) =>
    if sync = 0xAD then
      match bs.getFixedBits m 16 0 with
      | none => none
      | some bs => (bs.getBits m 8).map fun r => (some (msbcDesc, r.1.setWidth 8), r.2)
    else if sync = 0x9C then
      match Bs.getFields m [2, 2, 2, 1, 1, 8, 8] bs with
      | some ([f, bc, m, a, sc, bp, crc], bs) => some (some (headerDesc f bc m a sc bp, crc.setWidth 8), bs)
      | _ => none
    else some (none, bs)

/-- The checks at the end of HDR_READ (R77): `BS.ERR`, then validity; then the descriptor and the CRC
byte it returns become the frame's (DESIGN CHOICE, log 40). -/
def acceptHeader (d : Desc) (crcRx : BitVec 8) (s : State) : Micro :=
  if s.pass.bs.err then .raised .malformedHeader s
  else if !isValid d then .raised .malformedHeader s
  else .ok { s with pass := { s.pass with desc := d, crcRx := crcRx } }

/-- HDR_READ (R77), from wherever `BS.POS` stands (DESIGN CHOICE, log 33). -/
def hdrRead (s : State) : Micro :=
  match parseHeader s.frameBuf s.pass.bs with
  | none => .fault .unwrittenFrameByte
  | some (none, bs) => .raised .malformedHeader (s.setBs bs)
  | some (some (d, crcRx), bs) => acceptHeader d crcRx (s.setBs bs)

/-- HDR_WRITE (R76), from wherever `BS.POS` stands (DESIGN CHOICE, log 33). -/
def hdrWrite (s : State) : Micro := writeFields (headerFields s.pass.desc) s

/-! ### CRC (R78 to R81) -/

/-- One bit of R79, with the polynomial `poly`. -/
def crcBitWith (poly crc : BitVec 8) (b : Bool) : BitVec 8 :=
  if (crc.getLsbD 7 ^^ b) then (crc <<< 1) ^^^ poly else crc <<< 1

/-- `CRC_COMPUTE(bits)` (R79) with the parameters `init` and `poly`. -/
def crcOfWith (init poly : BitVec 8) (bits : List Bool) : BitVec 8 := bits.foldl (crcBitWith poly) init

/-- One bit with the core's `CRC_POLY`. -/
def crcBit (crc : BitVec 8) (b : Bool) : BitVec 8 := crcBitWith crcPoly crc b

/-- `CRC_COMPUTE(bits)` with the core's constants. -/
def crcOf (bits : List Bool) : BitVec 8 := crcOfWith crcInit crcPoly bits

/-- `n` frame bits from position `p` on. -/
def frameBits (m : Mem 8) : Nat → Nat → Option (List Bool)
  | _, 0 => some []
  | p, n + 1 =>
    match frameBit m p with
    | none => none
    | some b => (frameBits m (p + 1) n).map (b :: ·)

/-- The covered bits after the header (R78): the joint mask, when there is one, and the scale factors. -/
def coveredSideBits (d : Desc) : Nat := (if jointStereo d then d.subbands else 0) + 4 * d.subbands * channelCount d

/-- The coverage of R78: frame bits 8..23, then the joint mask and the scale factors as transmitted. -/
def coverage (m : Mem 8) (d : Desc) : Option (List Bool) :=
  match frameBits m 8 16, frameBits m 32 (coveredSideBits d) with
  | some header, some side => some (header ++ side)
  | _, _ => none

/-- CRC_INSERT (R80): a direct write of byte 3. The value is also left in `CRC` (DESIGN CHOICE, log 40), and the coverage is
that of `FRAME_BUF` whatever `BS.SIZE` is (DESIGN CHOICE, log 28). -/
def crcInsert (s : State) : Micro :=
  match coverage s.frameBuf s.pass.desc with
  | none => .fault .unwrittenFrameByte
  | some bits => .ok { s with frameBuf := Mem.write s.frameBuf 3 (crcOf bits), pass := { s.pass with crc := crcOf bits } }

/-- CRC_CHECK (R81), against the CRC byte HDR_READ received. The covered bits are those of `FRAME_BUF`, also past `BS.SIZE`
when it is run alone on a shorter reader (DESIGN CHOICE, log 28); their CRC is left in `CRC` (DESIGN CHOICE, log 40). -/
def crcCheck (s : State) : Micro :=
  match coverage s.frameBuf s.pass.desc with
  | none => .fault .unwrittenFrameByte
  | some bits =>
    let t : State := { s with pass := { s.pass with crc := crcOf bits } }
    if crcOf bits = s.pass.crcRx then .ok t else .raised .checksumMismatch t

/-! ### Side information (R60, R61, R82, R83) -/

/-- The joint mask as transmitted (R60): subband 0 first, that is most significant. `JOINT` has no bit for subbands
8 and up, which are 0 (DESIGN CHOICE, log 38). -/
def maskField (M : Nat) (joint : BitVec 8) : Word :=
  (List.range M).foldl (fun f s => if joint.getLsbD s then f ||| (1#32 <<< (M - 1 - s)) else f) 0

/-- `JOINT` from the transmitted mask (R83); bits of subbands 8 and up are dropped (DESIGN CHOICE, log 38). -/
def maskOfField (M : Nat) (f : Word) : BitVec 8 :=
  (List.range M).foldl (fun j s => if f.getLsbD (M - 1 - s) then j ||| (1#8 <<< s) else j) 0

/-- The fields SIDE_WRITE puts (R82). -/
def sideFields (p : Pass) : List (Word × Nat) :=
  (if jointStereo p.desc then [(maskField p.desc.subbands p.joint, p.desc.subbands)] else [])
    ++ (pairOrder p.desc).map fun cs => ((p.scfAt cs.1 cs.2).setWidth 32, 4)

/-- SIDE_WRITE (R82), from wherever `BS.POS` stands (DESIGN CHOICE, log 33). -/
def sideWrite (s : State) : Micro := writeFields (sideFields s.pass) s

/-- The scale-factor reads of R83, into `SCF` and `JOINT`. `SCF` is replaced whole (DESIGN CHOICE, log 39). -/
def readScaleFactors (joint : BitVec 8) (s : State) : Micro :=
  match Bs.getFields s.frameBuf ((pairOrder s.pass.desc).map fun _ => 4) s.pass.bs with
  | none => .fault .unwrittenFrameByte
  | some (vs, bs) =>
    .ok { s with pass := { s.pass with
      bs := bs
      joint := joint
      scf := build2 (channelCount s.pass.desc) s.pass.desc.subbands fun c b =>
        (vs.getD (c * s.pass.desc.subbands + b) 0).setWidth 4 } }

/-- SIDE_READ (R83), from wherever `BS.POS` stands (DESIGN CHOICE, log 33). -/
def sideRead (s : State) : Micro :=
  if jointStereo s.pass.desc then
    if widthOk s.pass.desc.subbands then
      match s.pass.bs.getBits s.frameBuf s.pass.desc.subbands with
      | none => .fault .unwrittenFrameByte
      | some (f, bs) => readScaleFactors (maskOfField s.pass.desc.subbands f) (s.setBs bs)
    else .refused .bitWidth
  else readScaleFactors 0 s

/-! ### Payload (R62, R84, R85, R106) -/

/-- The fields PAYLOAD_WRITE puts (R84): a subband without bits has no field. -/
def payloadFields (p : Pass) : List (Word × Nat) :=
  (sampleOrder p.desc).filterMap fun i =>
    if p.nbitsAt i.2.1 i.2.2 = 0 then none
    else some (quantize (p.sbEncAt i.2.1 i.1 i.2.2) (p.nbitsAt i.2.1 i.2.2) (p.scfAt i.2.1 i.2.2).toNat, p.nbitsAt i.2.1 i.2.2)

/-- PAYLOAD_WRITE (R84): the samples, then `Flush`, from wherever `BS.POS` stands (DESIGN CHOICE, log 33). -/
def payloadWrite (s : State) : Micro := (writeFields (payloadFields s.pass) s).andThen flushWriter

/-- The reads of PAYLOAD_READ (R85), one sample per triple, with the dequantizer table `rs`; a subband without bits
reads nothing and is 0 (R106). -/
def readSamples (rs : Fin 16 → I32) (m : Mem 8) (p : Pass) : List (Nat × Nat × Nat) → Bs → Option (List I32 × Bs)
  | [], bs => some ([], bs)
  | (_, c, s) :: rest, bs =>
    if h : p.nbitsAt c s = 0 then (readSamples rs m p rest bs).map fun r => (0 :: r.1, r.2)
    else
      match bs.getBits m (p.nbitsAt c s) with
      | none => none
      | some (raw, bs) =>
        (readSamples rs m p rest bs).map fun r =>
          (dequantizeWith rs raw ⟨p.nbitsAt c s - 1, by have := (at2 0 p.nbits c s).isLt; simp only [Pass.nbitsAt] at *; omega⟩
            (p.scfAt c s).toNat (p.sbScaleAt c) :: r.1, r.2)

/-- PAYLOAD_READ (R85): the samples of R62's order, stored as `SB[c][b][s]`, from wherever `BS.POS` stands (DESIGN CHOICE,
log 33). `SB` is replaced whole (DESIGN CHOICE, log 39). -/
def payloadRead (s : State) : Micro :=
  match readSamples Config.rangeScale s.frameBuf s.pass (sampleOrder s.pass.desc) s.pass.bs with
  | none => .fault .unwrittenFrameByte
  | some (vs, bs) =>
    let C := channelCount s.pass.desc
    let M := s.pass.desc.subbands
    .ok { s with pass := { s.pass with
      bs := bs
      sbDec := build3 C s.pass.desc.blocks M fun c b i => vs.getD ((b * C + c) * M + i) 0 } }

/-! ### The operations -/

/-- DESC_ISVALID (R73) of the descriptor latch, raw: no `eff` is applied. -/
def descIsValidOp (s : State) : Micro :=
  if dividesByZero s.op.desc then .refused .divisionByZero else .ok { s with out := { s.out with valid := isValid s.op.desc } }

def execDescIsValid (s : State) : Host.Outcome State Fault Refusal := runUop descIsValidOp s

/-- DESC_FRAMESIZE (R74) of the descriptor latch. Of a descriptor that is not valid it answers the formula's value (DESIGN
CHOICE, log 32). -/
def execDescFrameSize (s : State) : Host.Outcome State Fault Refusal :=
  runUop (fun s => .ok { s with out := { s.out with frameSize := frameSize s.op.desc } }) s

/-- HDR_WRITE (R76). -/
def execHdrWrite (s : State) : Host.Outcome State Fault Refusal := runUop hdrWrite s

/-- HDR_READ (R77). -/
def execHdrRead (s : State) : Host.Outcome State Fault Refusal := runUop hdrRead s

/-- CRC_COMPUTE (R79) of the bit-vector latch; the value stands in the `CRC` register of R27 (DESIGN CHOICE, log 40). -/
def execCrcCompute (s : State) : Host.Outcome State Fault Refusal :=
  runUop (fun s => .ok { s with pass := { s.pass with crc := crcOf s.op.crcBits } }) s

/-- CRC_INSERT (R80). -/
def execCrcInsert (s : State) : Host.Outcome State Fault Refusal := runUop crcInsert s

/-- CRC_CHECK (R81). -/
def execCrcCheck (s : State) : Host.Outcome State Fault Refusal := runUop crcCheck s

/-- SIDE_WRITE (R82). -/
def execSideWrite (s : State) : Host.Outcome State Fault Refusal := runUop sideWrite s

/-- SIDE_READ (R83). -/
def execSideRead (s : State) : Host.Outcome State Fault Refusal := runUop sideRead s

/-- PAYLOAD_WRITE (R84). -/
def execPayloadWrite (s : State) : Host.Outcome State Fault Refusal := runUop payloadWrite s

/-- PAYLOAD_READ (R85). -/
def execPayloadRead (s : State) : Host.Outcome State Fault Refusal := runUop payloadRead s

/-- The framer has taken the 32 bits of a header (R55, R58): the position moves past them and HDR_READ's checks run.
The declared size is not looked at (DESIGN CHOICE, log 5). -/
def receiveHeader (d : Desc) (crcRx : BitVec 8) (s : State) : Micro :=
  acceptHeader d crcRx (s.setBs { s.pass.bs with pos := s.pass.bs.pos + 32 })

/-- SBC_FRAME_HEADER (R55, R56): a normal header with these fields is received. -/
def execSbcFrameHeader (freq : Freq) (blocks : Nat) (mode : Mode) (alloc : Alloc) (subbands bitpool : Nat) (crc : BitVec 8)
    (s : State) : Host.Outcome State Fault Refusal :=
  runUop (receiveHeader ⟨false, freq, mode, alloc, blocks, subbands, bitpool⟩ crc) s

/-- MSBC_FRAME_HEADER (R58): an mSBC header is received; the descriptor is `MSBC_D`. -/
def execMsbcFrameHeader (crc : BitVec 8) (s : State) : Host.Outcome State Fault Refusal :=
  runUop (receiveHeader msbcDesc crc) s

end Sys2Proof.Machine
end

