-- ==== Sys2Proof/Machine/FilterBank.lean ====
section
/-! DEFINITION. dct_engine, polyphase_analysis_filter and polyphase_synthesis_filter (44_filter_banks.md, R108 to R124).
The block functions run the OPEN compositions of Config on the datapath of Datapath.lean; here stand the blocks (R114), the
frame loops (R120, R122) and the reset (R123). -/

namespace Sys2Proof.Machine

/-! ### Blocks (R114) -/

/-- `M` values of a list as a block; a missing one is 0 (log 21), one past the `M`-th is ignored (DESIGN CHOICE, log 36). -/
def blockOf {w : Nat} (n : Nat) (v : List (BitVec w)) : Vector (BitVec w) n := Vector.ofFn fun i : Fin n => v.getD i.val 0

/-- Block `b` of a PCM buffer: samples `b*M .. b*M + M - 1`, all of them written (R140). -/
def readBlock (m : Bands) (pcm : Mem 16) (b : Nat) : Option (Vector I16 m.n) :=
  if (List.range m.n).all fun i => (Mem.read pcm (b * m.n + i)).isSome then
    some (Vector.ofFn fun i : Fin m.n => (Mem.read pcm (b * m.n + i.val)).getD 0)
  else none

/-- The blocks of one channel of ANALYZE_FRAME (R120), in ascending order: the new channel state and `SB[c]`. -/
def analyzeChannel (m : Bands) (pcm : Mem 16) : List Nat → EncChan → Option (EncChan × List (List I16))
  | [], e => some (e, [])
  | b :: bs, e =>
    match readBlock m pcm b with
    | none => none
    | some x =>
      let r := Config.analyze m e x
      (analyzeChannel m pcm bs r.1).map fun q => (q.1, r.2.toList :: q.2)

/-- ANALYZE_FRAME (R120): channel 1 only in a two-channel mode. `SB` is replaced whole (DESIGN CHOICE, log 39). -/
def analyzeFrame (s : State) : Micro :=
  match bandsOf s.pass.desc.subbands with
  | none => .refused .invalidDescriptor
  | some m =>
    match analyzeChannel m s.pcmL (List.range s.pass.desc.blocks) s.enc0 with
    | none => .fault .unwrittenPcmSample
    | some (e0, sb0) =>
      if twoChannels s.pass.desc then
        match analyzeChannel m s.pcmR (List.range s.pass.desc.blocks) s.enc1 with
        | none => .fault .unwrittenPcmSample
        | some (e1, sb1) => .ok { s with enc0 := e0, enc1 := e1, pass := { s.pass with sbEnc := [sb0, sb1] } }
      else .ok { s with enc0 := e0, pass := { s.pass with sbEnc := [sb0] } }

/-- The blocks of one channel of SYNTH_FRAME (R122): the new channel state and the PCM samples. -/
def synthChannel (m : Bands) (k : Int) : List (List I32) → DecChan → DecChan × List I16
  | [], e => (e, [])
  | y :: ys, e =>
    let r := Config.synthesize m e (blockOf m.n y) k
    let q := synthChannel m k ys r.1
    (q.1, r.2.toList ++ q.2)

/-- `SB[c][0..B-1]` of the decoder as a list of blocks. -/
def Pass.decoderBlocks (p : Pass) (c : Nat) : List (List I32) :=
  (List.range p.desc.blocks).map fun b => (List.range p.desc.subbands).map fun s => p.sbDecAt c b s

/-- SYNTH_FRAME (R122): `PCM_R` and channel 1 only in a two-channel mode. -/
def synthFrame (s : State) : Micro :=
  match bandsOf s.pass.desc.subbands with
  | none => .refused .invalidDescriptor
  | some m =>
    let r0 := synthChannel m (s.pass.sbScaleAt 0) (s.pass.decoderBlocks 0) s.dec0
    if twoChannels s.pass.desc then
      let r1 := synthChannel m (s.pass.sbScaleAt 1) (s.pass.decoderBlocks 1) s.dec1
      .ok { s with dec0 := r0.1, dec1 := r1.1, pcmL := Mem.writeList s.pcmL 0 r0.2, pcmR := Mem.writeList s.pcmR 0 r1.2 }
    else .ok { s with dec0 := r0.1, pcmL := Mem.writeList s.pcmL 0 r0.2 }

/-- FB_RESET (R123). -/
def fbReset (set : FilterSet) (s : State) : State :=
  match set with
  | .enc => { s with enc0 := .zeroAt 0, enc1 := .zeroAt 0 }
  | .dec => { s with dec0 := .zeroAt 0, dec1 := .zeroAt 0 }

/-! ### The operations -/

/-- DCT (R118). -/
def execDct (s : State) : Host.Outcome State Fault Refusal :=
  runUop (fun s => .ok { s with out := { s.out with dctOut := (Config.dct s.op.bands (blockOf s.op.bands.n s.op.dctIn)).toList } }) s

/-- ANALYZE_BLOCK (R119). -/
def analyzeBlockOp (s : State) : Micro :=
  let r := Config.analyze s.op.bands (s.enc s.op.chan) (blockOf s.op.bands.n s.op.pcm)
  .ok { s.setEnc s.op.chan r.1 with out := { s.out with subbands := r.2.toList } }

def execAnalyzeBlock (s : State) : Host.Outcome State Fault Refusal := runUop analyzeBlockOp s

def execAnalyzeFrame (s : State) : Host.Outcome State Fault Refusal := runUop analyzeFrame s

/-- SYNTH_BLOCK (R121), for any `sbScale` (DESIGN CHOICE, log 35). -/
def synthBlockOp (s : State) : Micro :=
  let r := Config.synthesize s.op.bands (s.dec s.op.chan) (blockOf s.op.bands.n s.op.subbands) s.op.sbScale
  .ok { s.setDec s.op.chan r.1 with out := { s.out with pcm := r.2.toList } }

def execSynthBlock (s : State) : Host.Outcome State Fault Refusal := runUop synthBlockOp s

def execSynthFrame (s : State) : Host.Outcome State Fault Refusal := runUop synthFrame s

/-- FB_RESET (R123) of the set latch. -/
def execFbReset (s : State) : Host.Outcome State Fault Refusal := runUop (fun s => .ok (fbReset s.op.set s)) s

end Sys2Proof.Machine
end

