-- ==== Sys2Proof/Machine/Commands.lean ====
section
/-! DEFINITION. The eight host commands (45_commands.md, R125 to R133), each composed of the operations of the
sub-blocks in the order its rule gives. -/

namespace Sys2Proof.Machine

/-- RESET_ENC (R126). -/
def execResetEnc (s : State) : Host.Outcome State Fault Refusal := runCommand 0x01 (fun s => .ok (fbReset .enc s)) s

/-- RESET_DEC (R127). -/
def execResetDec (s : State) : Host.Outcome State Fault Refusal := runCommand 0x02 (fun s => .ok (fbReset .dec s)) s

/-- RESET_ALL (R128). -/
def execResetAll (s : State) : Host.Outcome State Fault Refusal :=
  runCommand 0x03 (fun s => .ok (fbReset .dec (fbReset .enc s))) s

/-- VALIDATE (R129). -/
def validateBody (s : State) : Micro := if isValid s.cfgDesc then .ok s else .raised .invalidConfiguration s

def execValidate (s : State) : Host.Outcome State Fault Refusal := runCommand 0x10 validateBody s

/-- FRAME_SIZE (R130). -/
def frameSizeBody (s : State) : Micro :=
  if isValid s.cfgDesc then .ok { s with frameLen := BitVec.ofNat 10 (frameSize s.cfgDesc) } else .raised .invalidConfiguration s

def execFrameSize (s : State) : Host.Outcome State Fault Refusal := runCommand 0x11 frameSizeBody s

/-- R131 after its checks: analysis, scale factors, joint decision, allocation, and the frame. -/
def encodeFrame (d : Desc) (s : State) : Micro :=
  (analyzeFrame { s with pass := { s.pass with desc := d } }).andThen fun s =>
  (scfCompute s).andThen fun s =>
  (jointDecide s).andThen fun s =>
  (bitAllocFrame s).andThen fun s =>
  (hdrWrite (s.bind .write (frameSize d))).andThen fun s =>
  (sideWrite s).andThen fun s =>
  (payloadWrite s).andThen fun s =>
  (crcInsert s).andThen fun s =>
  if s.pass.bs.err then .raised .bitstreamError s else .ok { s with frameLen := BitVec.ofNat 10 (frameSize d) }

/-- ENCODE (R131): validity, then the left length, then the right length (R145). -/
def encodeBody (s : State) : Micro :=
  let d := s.cfgDesc
  if !isValid d then .raised .invalidConfiguration s
  else if s.leftSamples < d.blocks * d.subbands then .raised .bufferTooShort s
  else if twoChannels d && decide (s.rightSamples < d.blocks * d.subbands) then .raised .bufferTooShort s
  else encodeFrame d s

def execEncode (s : State) : Host.Outcome State Fault Refusal := runCommand 0x20 encodeBody s

/-- The first steps of PROBE and DECODE (R132, R133): the length check and the header. -/
def receiveFrame (s : State) : Micro :=
  if s.frameBytes < 4 then .raised .bufferTooShort s else hdrRead (s.bind .read s.frameBytes)

/-- PROBE (R132). -/
def probeBody (s : State) : Micro := (receiveFrame s).andThen fun s => .ok { s with cfg := cfgOfDesc s.pass.desc }

def execProbe (s : State) : Host.Outcome State Fault Refusal := runCommand 0x30 probeBody s

/-- R133 between the header and synthesis: the declared length, side information, CRC, scale, allocation, samples,
uncoupling, and the check of `BS.ERR` (R148). A wrong CRC ends the command before the samples are read (DEDUCED, log 30). -/
def decodeSamples (s : State) : Micro :=
  if s.frameBytes < frameSize s.pass.desc then .raised .bufferTooShort s
  else
    (sideRead s).andThen fun s =>
    (crcCheck s).andThen fun s =>
    (sbScale s).andThen fun s =>
    (bitAllocFrame s).andThen fun s =>
    (payloadRead s).andThen fun s =>
    (jointUncouple s).andThen fun s =>
    if s.pass.bs.err then .raised .bitstreamError s else .ok s

/-- The outputs of DECODE (R133). -/
def decodeOutputs (s : State) : State :=
  { s with
    cfg := cfgOfDesc s.pass.desc
    pcmLeft := BitVec.ofNat 8 (s.pass.desc.blocks * s.pass.desc.subbands)
    pcmRight := if twoChannels s.pass.desc then BitVec.ofNat 8 (s.pass.desc.blocks * s.pass.desc.subbands) else 0 }

/-- DECODE (R133). -/
def decodeBody (s : State) : Micro :=
  (receiveFrame s).andThen fun s => (decodeSamples s).andThen fun s => (synthFrame s).andThen fun s => .ok (decodeOutputs s)

def execDecode (s : State) : Host.Outcome State Fault Refusal := runCommand 0x31 decodeBody s

end Sys2Proof.Machine
end

