-- ==== Sys2Proof/Machine/Dispatch.lean ====
section
/-! DEFINITION. The one dispatch from an instruction to its meaning. -/

namespace Sys2Proof.Machine

def exec (i : Instr) (s : State) : Host.Outcome State Fault Refusal :=
  match i with
  -- host commands (45_commands.md)
  | .resetEnc => Sys2Proof.Machine.execResetEnc s
  | .resetDec => Sys2Proof.Machine.execResetDec s
  | .resetAll => Sys2Proof.Machine.execResetAll s
  | .validate => Sys2Proof.Machine.execValidate s
  | .frameSize => Sys2Proof.Machine.execFrameSize s
  | .encode => Sys2Proof.Machine.execEncode s
  | .probe => Sys2Proof.Machine.execProbe s
  | .decode => Sys2Proof.Machine.execDecode s
  -- bitstream (40_bitstream.md)
  | .bsBind => Sys2Proof.Machine.execBsBind s
  | .bsGetBits => Sys2Proof.Machine.execBsGetBits s
  | .bsGetFixedBits => Sys2Proof.Machine.execBsGetFixedBits s
  | .bsPutBits => Sys2Proof.Machine.execBsPutBits s
  | .bsFlush => Sys2Proof.Machine.execBsFlush s
  | .bsBitPos => Sys2Proof.Machine.execBsBitPos s
  -- framer (41_framer.md)
  | .descIsValid => Sys2Proof.Machine.execDescIsValid s
  | .descFrameSize => Sys2Proof.Machine.execDescFrameSize s
  | .hdrWrite => Sys2Proof.Machine.execHdrWrite s
  | .hdrRead => Sys2Proof.Machine.execHdrRead s
  | .crcCompute => Sys2Proof.Machine.execCrcCompute s
  | .crcInsert => Sys2Proof.Machine.execCrcInsert s
  | .crcCheck => Sys2Proof.Machine.execCrcCheck s
  | .sideWrite => Sys2Proof.Machine.execSideWrite s
  | .sideRead => Sys2Proof.Machine.execSideRead s
  | .payloadWrite => Sys2Proof.Machine.execPayloadWrite s
  | .payloadRead => Sys2Proof.Machine.execPayloadRead s
  -- bit allocator (42_bit_allocator.md)
  | .bitAlloc => Sys2Proof.Machine.execBitAlloc s
  | .bitAllocFrame => Sys2Proof.Machine.execBitAllocFrame s
  -- quantizer and dequantizer (43_quantizer.md)
  | .scfCompute => Sys2Proof.Machine.execScfCompute s
  | .jointDecide => Sys2Proof.Machine.execJointDecide s
  | .jointUncouple => Sys2Proof.Machine.execJointUncouple s
  | .sbScale => Sys2Proof.Machine.execSbScale s
  | .quant => Sys2Proof.Machine.execQuant s
  | .dequant => Sys2Proof.Machine.execDequant s
  -- filter banks (44_filter_banks.md)
  | .dct => Sys2Proof.Machine.execDct s
  | .analyzeBlock => Sys2Proof.Machine.execAnalyzeBlock s
  | .analyzeFrame => Sys2Proof.Machine.execAnalyzeFrame s
  | .synthBlock => Sys2Proof.Machine.execSynthBlock s
  | .synthFrame => Sys2Proof.Machine.execSynthFrame s
  | .fbReset => Sys2Proof.Machine.execFbReset s
  -- frame headers (30_encoding.md)
  | .sbcFrameHeader freq blocks mode alloc subbands bitpool crc => Sys2Proof.Machine.execSbcFrameHeader freq blocks mode alloc subbands bitpool crc s
  | .msbcFrameHeader crc => Sys2Proof.Machine.execMsbcFrameHeader crc s

end Sys2Proof.Machine
end

