-- ==== Sys2Proof/Machine/Window.lean ====
section
/-! DEFINITION. The host window (20_memory.md, R33 to R39, R43): which word an offset names, what a read returns and
what a write stores. -/

namespace Sys2Proof.Machine

/-- A word of the window (R37). -/
inductive WindowWord where
  | cmd
  | status
  | cfg
  | frameLen
  | pcmLen
  | frameByte (i : Nat)
  | pcmLeft (i : Nat)
  | pcmRight (i : Nat)
  deriving DecidableEq, Repr

/-- The map of R37, by the low 13 bits of the offset (R34); none at a reserved offset (R36). -/
def windowWordAt (off : Nat) : Option WindowWord :=
  if off = 0x000 then some .cmd
  else if off = 0x004 then some .status
  else if off = 0x008 then some .cfg
  else if off = 0x00C then some .frameLen
  else if off = 0x010 then some .pcmLen
  else if 0x400 ≤ off ∧ off < 0xC00 then some (.frameByte ((off - 0x400) / 4))
  else if 0x1000 ≤ off ∧ off < 0x1200 then some (.pcmLeft ((off - 0x1000) / 4))
  else if 0x1200 ≤ off ∧ off < 0x1400 then some (.pcmRight ((off - 0x1200) / 4))
  else none

/-- The word a host access reaches, or none where it has no defined effect: another width than 4 bytes, an unaligned
offset (R35) or a reserved one (R36). -/
def accessedWord (off : Word) (width : Nat) : Option WindowWord :=
  if width = 4 ∧ off.toNat % 4 = 0 then windowWordAt (off.toNat % 0x2000) else none

/-- R160: while busy the host may only read `STATUS`. -/
def State.mayAccess (s : State) (w : WindowWord) (kind : AccessKind) : Bool :=
  !s.phase.isBusy || (w == .status && kind == .read)

/-- The value a host read of a window word returns (R18 to R22, R38, R39, U29). -/
def State.windowRead (s : State) : WindowWord → Except Fault Word
  | .cmd => .ok 0
  | .status => .ok s.statusWord
  | .cfg => .ok s.cfg
  | .frameLen => .ok (s.frameLen.setWidth 32)
  | .pcmLen => .ok (0#16 ++ s.pcmRight ++ s.pcmLeft)
  | .frameByte i =>
    match Mem.read s.frameBuf i with
    | none => .error .unwrittenFrameByte
    | some b => .ok (b.setWidth 32)
  | .pcmLeft i =>
    match Mem.read s.pcmL i with
    | none => .error .unwrittenPcmSample
    | some x => .ok (x.signExtend 32)
  | .pcmRight i =>
    match Mem.read s.pcmR i with
    | none => .error .unwrittenPcmSample
    | some x => .ok (x.signExtend 32)

/-- What a host write stores (R18 to R22, R38, R39, R43). A write of `CMD` starts the command (R125); a write of
`STATUS` is ignored (R19). -/
def State.windowWrite (s : State) (w : WindowWord) (v : Word) : State :=
  match w with
  | .cmd => s.start v
  | .status => s
  | .cfg => { s with cfg := v &&& cfgMask }
  | .frameLen => { s with frameLen := v.setWidth 10 }
  | .pcmLen => { s with pcmLeft := v.setWidth 8, pcmRight := v.extractLsb' 8 8 }
  | .frameByte i => { s with frameBuf := Mem.write s.frameBuf i (v.setWidth 8) }
  | .pcmLeft i => { s with pcmL := Mem.write s.pcmL i (v.setWidth 16) }
  | .pcmRight i => { s with pcmR := Mem.write s.pcmR i (v.setWidth 16) }

/-- A host read (R35, R43): the value goes to the host and the core does not change. -/
def hostRead (off : Word) (width : Nat) (s : State) : Host.Outcome State Fault Refusal :=
  match accessedWord off width with
  | none => .fault (.hostBadAccess off width .read)
  | some w =>
    if s.mayAccess w .read then
      match s.windowRead w with
      | .error f => .fault f
      | .ok v => .next { s with hostData := v }
    else .fault (.hostBadAccess off width .read)

/-- A host write (R35, R43). -/
def hostWrite (off : Word) (width : Nat) (v : Word) (s : State) : Host.Outcome State Fault Refusal :=
  match accessedWord off width with
  | none => .fault (.hostBadAccess off width .write)
  | some w => if s.mayAccess w .write then .next (s.windowWrite w v) else .fault (.hostBadAccess off width .write)

end Sys2Proof.Machine
end

