-- ==== Sys2Proof/Machine/Sequencer.lean ====
section
/-! DEFINITION. The sequencer's turn (R15, R29, R125): fetch the pending operation, decode it, run it, or answer a word
that is no operation; and the core reset (R155). -/

namespace Sys2Proof.Machine

/-- The first four frame bytes as a big-endian word (R54, R55), or none where one was never written. -/
def State.headerWord (s : State) : Option Word :=
  match Mem.read s.frameBuf 0, Mem.read s.frameBuf 1, Mem.read s.frameBuf 2, Mem.read s.frameBuf 3 with
  | some a, some b, some c, some d => some (a ++ b ++ c ++ d)
  | _, _, _, _ => none

/-- What the pending operation names: itself, or the header at `FRAME_BUF[0..3]`. -/
def State.fetch (s : State) : Pending → Option Fetched
  | .cmd w => some (.cmd w)
  | .uop code => some (.uop code)
  | .header => s.headerWord.map .header

/-- What the sequencer does with a word that is no operation: an illegal command completes as `IllegalCommand` with no
other change (R53, R125); a header that is none raises `MalformedHeader` (R54, R64) and leaves the bitstream as it was
(DESIGN CHOICE, log 5); a code outside R50 has no meaning. -/
def rejectFetched (r : Reject) (s : State) : Host.Outcome State Fault Refusal :=
  match r with
  | .illegalCommand => .next (s.complete .illegalCommand)
  | .badSyncword => .next (s.complete .malformedHeader)
  | .reservedNotZero => .next (s.complete .malformedHeader)
  | .unknownOperation => .refused .unknownOperation

/-- The pending operation is fetched, decoded and run; the sequencer's slot is empty from then on. -/
def runPending (p : Pending) (s : State) : Host.Outcome State Fault Refusal :=
  match s.fetch p with
  | none => .fault .unwrittenFrameByte
  | some f =>
    match decode f with
    | .ok i => exec i { s with phase := .idle }
    | .error r => rejectFetched r s

/-- The sequencer's turn: nothing to do while idle (R156). -/
def sequencerTurn (s : State) : Host.Outcome State Fault Refusal :=
  match s.phase with
  | .idle => .next s
  | .busy p => runPending p s

/-- Core reset (R155), also while busy: every piece of the core's state takes its reset value; what the outside world
does afterwards, and what the host has read before, are not the core's (log 19). -/
def platformReset (s : State) : Host.Outcome State Fault Refusal :=
  .next { State.reset with inputs := s.inputs, hostData := s.hostData }

/-- Places one pending operation before the sequencer and gives it the next turn. -/
def State.withPending (s : State) (p : Pending) : State :=
  { s with inputs := .sequencer :: s.inputs, phase := .busy p }

/-- The header bytes of a word at `FRAME_BUF[0..3]`. -/
def State.withHeaderWord (s : State) (w : Word) : State :=
  { s with frameBuf := Mem.writeList s.frameBuf 0 [w.extractLsb' 24 8, w.extractLsb' 16 8, w.extractLsb' 8 8, w.extractLsb' 0 8] }

/-- The state whose next step fetches `f`. -/
def State.withFetched (s : State) : Fetched → State
  | .cmd w => s.withPending (.cmd w)
  | .uop code => s.withPending (.uop code)
  | .header w => (s.withHeaderWord w).withPending .header

end Sys2Proof.Machine
end

