-- ==== Sys2Proof/Machine/Step.lean ====
section
/-! DEFINITION. One step of the machine: the next input takes effect (R44, R45). With no input left the sequencer goes
on by itself: it completes the command in work, or waits (R156, R164). -/

namespace Sys2Proof.Machine

def step (s : State) : Host.Outcome State Fault Refusal :=
  match s.inputs with
  | [] => sequencerTurn s
  | .sequencer :: rest => sequencerTurn { s with inputs := rest }
  | .hostRead off width :: rest => hostRead off width { s with inputs := rest }
  | .hostWrite off width v :: rest => hostWrite off width v { s with inputs := rest }
  | .platformReset :: rest => platformReset { s with inputs := rest }

/-- `s` with a table word placed where the next step fetches it (log 2). -/
def State.withFetchWord (s : State) (nbits w : Nat) : State := s.withFetched (fetchedOfTable nbits w)

end Sys2Proof.Machine
end

