-- ==== Sys2Proof/Safety.lean ====
section
/-! DEFINITION. What claims about the machine are stated with: the invariant of its state, and a run that neither faults
nor is refused. -/

namespace Sys2Proof.Machine

/-- What holds of the state whatever has happened to the core. -/
structure CoreInv (s : State) : Prop where
  /-- the buffers keep their canonical form and size (R23, R33) -/
  frameBuf_wf : Mem.wf 512 s.frameBuf
  pcmL_wf : Mem.wf 128 s.pcmL
  pcmR_wf : Mem.wf 128 s.pcmR
  /-- the reserved bits of `CFG` read 0 (R20) -/
  cfg_reserved : s.cfg &&& ~~~cfgMask = 0
  /-- `DONE` is 0 from a command's start to its completion (R19, R125) -/
  busy_not_done : s.phase.isBusy = true → s.done = false
  /-- the declared size of a bitstream fits the buffer (R65) -/
  size_le : s.pass.bs.size ≤ 512
  /-- the writer holds 0..7 pending bits (R28), all of them counted by `BS.POS` (R70) -/
  acc_lt : s.pass.bs.acc.length < 8
  acc_le_pos : s.pass.bs.acc.length ≤ s.pass.bs.pos
  /-- the working descriptor is a valid effective one (R17, R73) -/
  desc_valid : isValid s.pass.desc = true
  desc_eff : s.pass.desc.msbc = true → s.pass.desc = msbcDesc

/-- Every index from `lo` up to `hi` has been written since reset (R140). -/
def Mem.written {w : Nat} (m : Mem w) (lo hi : Nat) : Prop := ∀ a, lo ≤ a → a < hi → (Mem.read m a).isSome = true

/-- The two buffers read alike at every index but those from `lo` up to `hi`. -/
def Mem.sameOutside {w : Nat} (m m' : Mem w) (lo hi : Nat) : Prop := ∀ a, a < lo ∨ hi ≤ a → Mem.read m' a = Mem.read m a

/-- A valid effective descriptor: what `HDR_WRITE` and every frame operation work on (R17, R73, R76). -/
def validEff (d : Desc) : Prop := isValid d = true ∧ (d.msbc = true → d = msbcDesc)

/-- The header instruction of a frame with descriptor `d` and CRC byte `crc` (R55, R58). -/
def headerInstr (d : Desc) (crc : BitVec 8) : Instr :=
  if d.msbc then .msbcFrameHeader crc else .sbcFrameHeader d.freq d.blocks d.mode d.alloc d.subbands d.bitpool crc

/-- The eight host commands (R52). -/
def hostCommands : List Instr := [.resetEnc, .resetDec, .resetAll, .validate, .frameSize, .encode, .probe, .decode]

/-- Instructions one after another. -/
def runAll : List Instr → State → Host.Outcome State Fault Refusal
  | [], s => .next s
  | i :: is, s =>
    match exec i s with
    | .next t => runAll is t
    | .fault f => .fault f
    | .refused r => .refused r

/-- `FRAME_BUF` starts with no frame header: a bad syncword (log 25: the byte alone tells), non-zero mSBC reserved bits, or the
fields of an invalid descriptor (R64, R77). -/
def badHeader (s : State) : Prop :=
  (∃ b, Mem.read s.frameBuf 0 = some b ∧ b ≠ 0x9C ∧ b ≠ 0xAD)
    ∨ ∃ w, s.headerWord = some w ∧ (decode (.header w) = .error .reservedNotZero
      ∨ ∃ freq blocks mode alloc subbands bitpool crc,
          decode (.header w) = .ok (.sbcFrameHeader freq blocks mode alloc subbands bitpool crc)
          ∧ isValid ⟨false, freq, mode, alloc, blocks, subbands, bitpool⟩ = false)

/-- The bits of one block's fields of channel `c` (R62). -/
def Pass.channelBits (p : Pass) (c : Nat) : Nat := ((List.range p.desc.subbands).map (p.nbitsAt c)).sum

/-- Where the field of sample `(b, c, k)` starts, in bits after the first sample field (R62): whole blocks, then whole
channels, then the subbands below `k`. -/
def Pass.sampleStart (p : Pass) (b c k : Nat) : Nat :=
  b * ((List.range (channelCount p.desc)).map p.channelBits).sum + ((List.range c).map p.channelBits).sum
    + ((List.range k).map (p.nbitsAt c)).sum

/-- The step goes on. -/
def StepOk (s : State) : Prop := ∃ t, step s = .next t

/-- `n` steps neither fault nor are refused. -/
def SafeRun (n : Nat) (s : State) : Prop := ∃ t, Sys2Proof.core.run n s = .next t

end Sys2Proof.Machine
end

