-- ==== Sys2Proof/Certificates/Slice0/Obligations.lean ====
section
/-! DEFINITION. What is claimed of the machine, from the numbered rules of spec/. Each docstring names the rules. A
statement whose conclusion is `exec i s = .next …` also gives the frame: every field it does not write out is that of `s`.
An internal operation is run alone (log 4), its operands in `op` and the value it returns in `out` (log 3); the value a
host read returns is in `hostData` (log 18). -/

open Sys2Proof Sys2Proof.Machine

/-! ### Encodings (30_encoding.md) -/

/-- Every well-formed instruction comes back from its word (R50, R52, R55 to R58). -/
def Obligations.DecodeEncodeAgree : Prop := ∀ i : Instr, i.wellFormed = true → decode (encode i) = .ok i

/-- Every word that is an operation is the word of exactly that operation: no bit is ignored (R49, R52, R55, R58). -/
def Obligations.EveryWordHasOneMeaning : Prop :=
  ∀ (f : Fetched) (i : Instr), decode f = .ok i → i.wellFormed = true ∧ encode i = f

/-- R55, R56: a word built from the fields of the header layout, whatever their codes, decodes to the values the codes
stand for. -/
def Obligations.HeaderFieldsDecode : Prop :=
  ∀ f bc m a sc bp crc : Nat, f < 4 → bc < 4 → m < 4 → a < 2 → sc < 2 → bp < 256 → crc < 256 →
    decode (.header (BitVec.ofNat 32
        (0x9C * 2 ^ 24 + f * 2 ^ 22 + bc * 2 ^ 20 + m * 2 ^ 18 + a * 2 ^ 17 + sc * 2 ^ 16 + bp * 2 ^ 8 + crc)))
      = .ok (.sbcFrameHeader ([Freq.f16k, .f32k, .f44k1, .f48k].getD f .f16k) (4 * (1 + bc))
          ([Mode.mono, .dualChannel, .stereo, .jointStereo].getD m .mono) ([Alloc.loudness, .snr].getD a .loudness)
          (4 * (1 + sc)) bp (BitVec.ofNat 8 crc))

/-- A few words written out from the spec's tables (R50, R52) and vectors (HDR-1, HDR-5, HDR-6, HDR-7). -/
def Obligations.SpecWordsDecode : Prop :=
  decodeTableWord 32 0x01 = some .resetEnc ∧ decodeTableWord 32 0x20 = some .encode
    ∧ decodeTableWord 32 0x31 = some .decode ∧ decodeTableWord 32 0x120 = none
    ∧ decodeTableWord 8 0x80 = some .bsBind ∧ decodeTableWord 8 0x8D = some .crcInsert
    ∧ decodeTableWord 8 0x95 = some .bitAllocFrame ∧ decodeTableWord 8 0x9C = some .quant
    ∧ decodeTableWord 8 0xA5 = some .fbReset ∧ decodeTableWord 8 0x86 = none
    ∧ decodeTableWord 32 0x9C020875 = some (.sbcFrameHeader .f16k 4 .mono .snr 4 8 0x75)
    ∧ decodeTableWord 32 0x9CA93553 = some (.sbcFrameHeader .f44k1 12 .stereo .loudness 8 53 0x53)
    ∧ decodeTableWord 32 0xAD0000C5 = some (.msbcFrameHeader 0xC5) ∧ decodeTableWord 32 0xAD0001C5 = none

/-! ### The step (R15, R29, R43, R53, R125) -/

/-- The sequencer's turn runs the pending operation's decoded instruction from the state whose slot is empty again; a
table word placed by `withFetchWord` is the instruction the very next step runs (R29, R125; log 1, log 2). -/
def Obligations.StepRunsDecodedInstruction : Prop :=
  (∀ (s : State) (p : Pending) (f : Fetched) (i : Instr), s.phase = .busy p → s.fetch p = some f → decode f = .ok i →
    (∀ rest, s.inputs = .sequencer :: rest → step s = exec i { s with inputs := rest, phase := .idle })
      ∧ (s.inputs = [] → step s = exec i { s with phase := .idle }))
  ∧ ∀ (s : State) (nbits w : Nat) (i : Instr), decodeTableWord nbits w = some i →
      step (s.withFetchWord nbits w)
        = exec i { (match fetchedOfTable nbits w with | .header v => s.withHeaderWord v | _ => s) with phase := .idle }

/-- R53: every word outside the table completes as `IllegalCommand` and changes `STATUS` only. -/
def Obligations.OtherWordsAreIllegal : Prop :=
  ∀ (s : State) (rest : List Input) (w : Word), s.phase = .busy (.cmd w) → s.inputs = .sequencer :: rest →
    w ∉ [0x01, 0x02, 0x03, 0x10, 0x11, 0x20, 0x30, 0x31] →
    step s = .next { s with inputs := rest, phase := .idle, done := true, result := .illegalCommand }

/-! ### The host window (20_memory.md, R160) -/

/-- R35, R36: an access of another width, at an unaligned offset or at a reserved one has no effect but the fault. -/
def Obligations.BadAccessFaults : Prop :=
  ∀ (s : State) (rest : List Input) (off : Word) (width : Nat),
    (width ≠ 4 ∨ off.toNat % 4 ≠ 0 ∨ (0x014 ≤ off.toNat % 0x2000 ∧ off.toNat % 0x2000 ≤ 0x3FF)
      ∨ (0xC00 ≤ off.toNat % 0x2000 ∧ off.toNat % 0x2000 ≤ 0xFFF) ∨ 0x1400 ≤ off.toNat % 0x2000) →
    (s.inputs = .hostRead off width :: rest → step s = .fault (.hostBadAccess off width .read))
      ∧ ∀ v, s.inputs = .hostWrite off width v :: rest → step s = .fault (.hostBadAccess off width .write)

/-- R160: while busy, every host access but a read of `STATUS` is a bad access; that read goes on. -/
def Obligations.BusyAccessFaults : Prop :=
  ∀ (s : State) (p : Pending) (rest : List Input) (off : Word) (width : Nat), s.phase = .busy p →
    (∀ v, s.inputs = .hostWrite off width v :: rest → step s = .fault (.hostBadAccess off width .write))
      ∧ (s.inputs = .hostRead off width :: rest → ¬(width = 4 ∧ off.toNat % 0x2000 = 4) →
          step s = .fault (.hostBadAccess off width .read))
      ∧ (s.inputs = .hostRead off width :: rest → width = 4 → off.toNat % 0x2000 = 4 →
          step s = .next { s with inputs := rest, hostData := s.statusWord })

/-- R38, R39: a `FRAME_BUF` word stores the low byte of a write and reads zero-extended; a `PCM_L` or `PCM_R` word stores
the low 16 bits and reads sign-extended; no other word changes, and a word never written has no value (R140). -/
def Obligations.BufferWindows : Prop :=
  (∀ (s : State) (rest : List Input) (off : Word) (i : Nat), s.phase = .idle → i < 512 →
    off.toNat % 0x2000 = 0x400 + 4 * i →
    (∀ v, s.inputs = .hostWrite off 4 v :: rest →
        ∃ m, step s = .next { s with inputs := rest, frameBuf := m } ∧ Mem.read m i = some (v.extractLsb' 0 8)
          ∧ Mem.sameOutside s.frameBuf m i (i + 1))
      ∧ (s.inputs = .hostRead off 4 :: rest → ∀ b, Mem.read s.frameBuf i = some b →
          step s = .next { s with inputs := rest, hostData := 0#24 ++ b })
      ∧ (s.inputs = .hostRead off 4 :: rest → Mem.read s.frameBuf i = none → step s = .fault .unwrittenFrameByte))
  ∧ ∀ (s : State) (rest : List Input) (off : Word) (i : Nat), s.phase = .idle → i < 128 →
    (off.toNat % 0x2000 = 0x1000 + 4 * i →
      (∀ v, s.inputs = .hostWrite off 4 v :: rest →
          ∃ m, step s = .next { s with inputs := rest, pcmL := m } ∧ Mem.read m i = some (v.extractLsb' 0 16)
            ∧ Mem.sameOutside s.pcmL m i (i + 1))
        ∧ (s.inputs = .hostRead off 4 :: rest → ∀ x, Mem.read s.pcmL i = some x →
            step s = .next { s with inputs := rest, hostData := x.signExtend 32 })
        ∧ (s.inputs = .hostRead off 4 :: rest → Mem.read s.pcmL i = none → step s = .fault .unwrittenPcmSample))
    ∧ (off.toNat % 0x2000 = 0x1200 + 4 * i →
      (∀ v, s.inputs = .hostWrite off 4 v :: rest →
          ∃ m, step s = .next { s with inputs := rest, pcmR := m } ∧ Mem.read m i = some (v.extractLsb' 0 16)
            ∧ Mem.sameOutside s.pcmR m i (i + 1))
        ∧ (s.inputs = .hostRead off 4 :: rest → ∀ x, Mem.read s.pcmR i = some x →
            step s = .next { s with inputs := rest, hostData := x.signExtend 32 })
        ∧ (s.inputs = .hostRead off 4 :: rest → Mem.read s.pcmR i = none → step s = .fault .unwrittenPcmSample))

/-- R18 to R22, R43, R125: what is written to a register reads back with its reserved bits 0, the other registers staying;
`STATUS` ignores the write; `CMD` reads 0, and a write of it while idle starts the command, clears `DONE` and changes
nothing else. Only the low 13 bits of the offset count (R34). The `STATUS` word holds `BUSY` in bit 0, `DONE` in bit 1 and
the result code (R143) in bits 7:4, every other bit 0. -/
def Obligations.RegisterWindow : Prop :=
  (∀ (s : State) (rest : List Input) (off v : Word), s.phase = .idle →
    (s.inputs = .hostWrite off 4 v :: .hostRead off 4 :: rest →
      (off.toNat % 0x2000 = 0x008 → ∃ t u, step s = .next t ∧ step t = .next u
          ∧ u = { s with inputs := rest, cfg := v &&& 0x00FF7FFF, hostData := v &&& 0x00FF7FFF })
        ∧ (off.toNat % 0x2000 = 0x00C → ∃ t u, step s = .next t ∧ step t = .next u
          ∧ u = { s with inputs := rest, frameLen := BitVec.ofNat 10 v.toNat, hostData := v &&& 0x000003FF })
        ∧ (off.toNat % 0x2000 = 0x010 → ∃ t u, step s = .next t ∧ step t = .next u
          ∧ u = { s with
              inputs := rest, pcmLeft := BitVec.ofNat 8 v.toNat, pcmRight := BitVec.ofNat 8 (v.toNat / 256)
              hostData := v &&& 0x0000FFFF })
        ∧ (off.toNat % 0x2000 = 0x004 → ∃ t u, step s = .next t ∧ step t = .next u
          ∧ u = { s with inputs := rest, hostData := s.statusWord }))
    ∧ (s.inputs = .hostRead off 4 :: rest → off.toNat % 0x2000 = 0x000 →
        step s = .next { s with inputs := rest, hostData := 0 }))
  ∧ (∀ (s : State) (rest : List Input) (off v : Word), s.phase = .idle → s.inputs = .hostWrite off 4 v :: rest →
    off.toNat % 0x2000 = 0 → step s = .next { s with inputs := rest, phase := .busy (.cmd v), done := false })
  ∧ ∀ s : State, s.statusWord.toNat
    = (if s.phase = .idle then 0 else 1) + (if s.done then 2 else 0)
      + 16 * (match s.result with
        | .ok => 0 | .malformedHeader => 1 | .bufferTooShort => 2 | .checksumMismatch => 3
        | .invalidConfiguration => 4 | .bitstreamError => 5 | .illegalCommand => 6)

/-! ### Reset (R32, R155, R156, R123, R126 to R128) -/

/-- R32: the registers and both filter state sets are 0, the core is idle, and no buffer word has a value. -/
def Obligations.ResetState : Prop :=
  State.reset.phase = .idle ∧ State.reset.statusWord = 0 ∧ State.reset.cfg = 0 ∧ State.reset.frameLen = 0
    ∧ State.reset.pcmLeft = 0 ∧ State.reset.pcmRight = 0
    ∧ (∀ c, (State.reset.enc c).aidx = 0 ∧ (State.reset.dec c).sidx = 0)
    ∧ (∀ (c : Fin 2) (h : Fin 2) (r : Fin 8) (t : Fin 5), (State.reset.enc c).ax[h][r][t] = 0)
    ∧ (∀ (c : Fin 2) (j : Fin Config.analysisAccWords), (State.reset.enc c).ay[j] = 0)
    ∧ (∀ (c : Fin 2) (h : Fin 2) (r : Fin 8) (t : Fin 10), (State.reset.dec c).sv[h][r][t] = 0)
    ∧ ∀ a, Mem.read State.reset.frameBuf a = none ∧ Mem.read State.reset.pcmL a = none ∧ Mem.read State.reset.pcmR a = none

/-- R155, R156: the platform's reset, also while busy, gives the reset state, and an idle core with nothing to do stays
as it is. What waits outside and what the host has read are not the core's (the model's choice, log 19). -/
def Obligations.CoreReset : Prop :=
  (∀ (s : State) (rest : List Input), s.inputs = .platformReset :: rest →
      step s = .next { State.reset with inputs := rest, hostData := s.hostData })
    ∧ ∀ s : State, s.phase = .idle → s.inputs = [] → step s = .next s

/-- R123, R126, R127, R128: the reset commands complete as `OK` and zero the filter state sets they name, `FB_RESET` the
set of its operand; nothing else changes. -/
def Obligations.FilterResets : Prop :=
  ∀ s : State,
    exec .resetEnc s = .next { s with enc0 := .zeroAt 0, enc1 := .zeroAt 0, phase := .idle, done := true, result := .ok }
    ∧ exec .resetDec s = .next { s with dec0 := .zeroAt 0, dec1 := .zeroAt 0, phase := .idle, done := true, result := .ok }
    ∧ exec .resetAll s = .next { s with
        enc0 := .zeroAt 0, enc1 := .zeroAt 0, dec0 := .zeroAt 0, dec1 := .zeroAt 0, phase := .idle, done := true, result := .ok }
    ∧ (s.op.set = .enc → exec .fbReset s = .next { s with enc0 := .zeroAt 0, enc1 := .zeroAt 0 })
    ∧ (s.op.set = .dec → exec .fbReset s = .next { s with dec0 := .zeroAt 0, dec1 := .zeroAt 0 })

/-! ### Descriptors (R73, R74, R75) -/

/-- R73, without its division: the bitpool must fit `maxBits` over the blocks and `16` bits a subband. The one raw
descriptor whose formula divides by zero is refused. R74: the frame size. That a descriptor that is not valid
also has the formula's frame size is the model's choice (log 32). -/
def Obligations.DescriptorFormulas : Prop :=
  (∀ s : State,
    let d := s.op.desc
    let two : Int := if d.mode = .mono then 1 else 2
    let dual : Int := if d.mode = .dualChannel then 2 else 1
    let sj : Int := if d.mode = .stereo ∨ d.mode = .jointStereo then 2 else 1
    let js : Int := if d.mode = .jointStereo then d.subbands else 0
    let maxBits : Int := 16 * d.subbands * d.blocks * two - 32 - 4 * d.subbands * two - js
    (d.msbc = true ∧ (d.subbands = 4 ∨ d.subbands = 8) ∧ d.blocks = 0 → exec .descIsValid s = .refused .divisionByZero)
    ∧ (¬(d.msbc = true ∧ (d.subbands = 4 ∨ d.subbands = 8) ∧ d.blocks = 0) →
        exec .descIsValid s = .next { s with out := { s.out with valid := decide (
          (d.msbc = true ∨ d.blocks = 4 ∨ d.blocks = 8 ∨ d.blocks = 12 ∨ d.blocks = 16) ∧ (d.subbands = 4 ∨ d.subbands = 8)
            ∧ (d.bitpool : Int) * (d.blocks * dual) ≤ maxBits ∧ (d.bitpool : Int) ≤ 16 * sj * d.subbands) } }))
  ∧ ∀ s : State,
    let d := s.op.desc
    exec .descFrameSize s = .next { s with out := { s.out with frameSize :=
      4 + (4 * d.subbands * (if d.mode = .mono then 1 else 2) + d.blocks * d.bitpool * (if d.mode = .dualChannel then 2 else 1)
        + (if d.mode = .jointStereo then d.subbands else 0) + 7) / 8 } }

/-- R75: the bounds of the descriptor formulas, and the table of `maxBitpool` by mode, subbands and blocks. -/
def Obligations.DescriptorBounds : Prop :=
  (∀ d : Desc, d.msbc = false → isValid d = true →
      frameSize d ≤ 512 ∧ (d.mode = .mono → frameSize d ≤ 256) ∧ d.bitpool ≤ 250)
  ∧ (∀ m, m = Mode.dualChannel ∨ m = .stereo → ∃ bp, isValid ⟨false, .f16k, m, .snr, 16, 8, bp⟩ = true
      ∧ frameSize ⟨false, .f16k, m, .snr, 16, 8, bp⟩ = 512)
  ∧ (∀ row ∈ [(Mode.mono, 4, 52, 58, 60, 61), (.mono, 8, 112, 120, 122, 124), (.dualChannel, 4, 56, 60, 61, 62),
        (.dualChannel, 8, 116, 122, 124, 125), (.stereo, 4, 112, 120, 122, 124), (.stereo, 8, 232, 244, 248, 250),
        (.jointStereo, 4, 111, 119, 122, 123), (.jointStereo, 8, 230, 243, 247, 249)],
      ∀ (f : Freq) (a : Alloc) (bp : Nat),
        maxBitpool ⟨false, f, row.1, a, 4, row.2.1, bp⟩ = row.2.2.1 ∧ maxBitpool ⟨false, f, row.1, a, 8, row.2.1, bp⟩ = row.2.2.2.1
          ∧ maxBitpool ⟨false, f, row.1, a, 12, row.2.1, bp⟩ = row.2.2.2.2.1
          ∧ maxBitpool ⟨false, f, row.1, a, 16, row.2.1, bp⟩ = row.2.2.2.2.2)
  ∧ maxBitpool msbcDesc = 123

/-! ### The bitstream (40_bitstream.md) -/

/-- R65: the bitstream of a new pass; R70: the result is `BS.POS`. -/
def Obligations.BindAndPosition : Prop :=
  ∀ s : State,
    exec .bsBind s = .next { s with pass := { s.pass with bs := ⟨s.op.dir, s.op.size.val, 0, [], false⟩ } }
    ∧ exec .bsBitPos s = .next { s with out := { s.out with bitPos := s.pass.bs.pos } }

/-- R66: the next `n` bits, most significant first; past the declared size the bits are 0 and the flag is set. A width
outside 1..32 is refused; a byte never written has no value (R140). R67: the bits are read in the same way, with the same
two stops, and a mismatch sets the flag. That `BS.DIR` is
not checked (log 13) and the expected value compared as a whole 32-bit latch (log 27) are the model's choices. -/
def Obligations.GetBitsReads : Prop :=
  (∀ s : State,
    let n := s.op.width
    let bs := s.pass.bs
    (n = 0 ∨ 32 < n → exec .bsGetBits s = .refused .bitWidth)
    ∧ (1 ≤ n → n ≤ 32 →
        (∀ k < n, bs.pos + k < 8 * bs.size → (Mem.read s.frameBuf ((bs.pos + k) / 8)).isSome = true) →
        ∃ v : Word, exec .bsGetBits s = .next { s with
            out := { s.out with value := v }
            pass := { s.pass with bs := { bs with pos := bs.pos + n, err := bs.err || decide (8 * bs.size < bs.pos + n) } } }
          ∧ (∀ k < n, v.getLsbD (n - 1 - k) = if bs.pos + k < 8 * bs.size
              then ((Mem.read s.frameBuf ((bs.pos + k) / 8)).getD 0).getLsbD (7 - (bs.pos + k) % 8) else false)
          ∧ ∀ j, n ≤ j → v.getLsbD j = false)
    ∧ (1 ≤ n → n ≤ 32 → (∃ k < n, bs.pos + k < 8 * bs.size ∧ Mem.read s.frameBuf ((bs.pos + k) / 8) = none) →
        exec .bsGetBits s = .fault .unwrittenFrameByte))
  ∧ ∀ s : State,
    let n := s.op.width
    let bs := s.pass.bs
    (n = 0 ∨ 32 < n → exec .bsGetFixedBits s = .refused .bitWidth)
    ∧ (1 ≤ n → n ≤ 32 → (∀ k < n, bs.pos + k < 8 * bs.size → (Mem.read s.frameBuf ((bs.pos + k) / 8)).isSome = true) →
        ∃ (v : Word) (bs' : Bs),
          exec .bsGetBits s = .next { s with out := { s.out with value := v }, pass := { s.pass with bs := bs' } }
          ∧ exec .bsGetFixedBits s
            = .next { s with pass := { s.pass with bs := { bs' with err := bs'.err || decide (v ≠ s.op.value) } } })
    ∧ (1 ≤ n → n ≤ 32 → (∃ k < n, bs.pos + k < 8 * bs.size ∧ Mem.read s.frameBuf ((bs.pos + k) / 8) = none) →
        exec .bsGetFixedBits s = .fault .unwrittenFrameByte)

/-- R68, R72: the low `n` bits of the value follow the pending bits, most significant first; every completed byte inside
the declared size is stored whole, the others are discarded and set the flag, the rest stays pending, and no other byte
changes. The premises are the writer's part of the invariant (R28, R70). That `BS.DIR` is not
checked is the model's choice (log 13). -/
def Obligations.PutBitsAppends : Prop :=
  ∀ s : State,
    let n := s.op.width
    let bs := s.pass.bs
    let base := (bs.pos - bs.acc.length) / 8
    let len := bs.acc.length + n
    (n = 0 ∨ 32 < n → exec .bsPutBits s = .refused .bitWidth)
    ∧ (1 ≤ n → n ≤ 32 → bs.acc.length < 8 → bs.acc.length ≤ bs.pos →
        ∃ (m : Mem 8) (acc : List Bool), exec .bsPutBits s = .next { s with
            frameBuf := m
            pass := { s.pass with bs := { bs with
              pos := bs.pos + n, acc := acc, err := bs.err || decide (8 ≤ len ∧ bs.size < base + len / 8) } } }
          ∧ acc.length = len % 8
          ∧ (∀ q < len,
              let b := if q < bs.acc.length then bs.acc.getD q false else s.op.value.getLsbD (n - 1 - (q - bs.acc.length))
              (q / 8 < len / 8 → base + q / 8 < bs.size → frameBit m (8 * base + q) = some b)
                ∧ (len / 8 ≤ q / 8 → acc.getD (q % 8) false = b))
          ∧ Mem.sameOutside s.frameBuf m base (min (base + len / 8) bs.size))

/-- R69: the pending bits are completed with zeros to a whole byte, which is stored inside the declared size and else
discarded with the flag set; with none pending nothing happens. The premises are the writer's part of the invariant. That
`BS.DIR` is not checked is the model's choice (log 13). -/
def Obligations.FlushCompletesByte : Prop :=
  ∀ s : State,
    let bs := s.pass.bs
    let base := (bs.pos - bs.acc.length) / 8
    bs.acc.length < 8 → bs.acc.length ≤ bs.pos →
    (bs.acc = [] → exec .bsFlush s = .next s)
    ∧ (bs.acc ≠ [] → ∃ m, exec .bsFlush s = .next { s with
          frameBuf := m
          pass := { s.pass with bs := { bs with
            pos := bs.pos + (8 - bs.acc.length), acc := [], err := bs.err || decide (bs.size ≤ base) } } }
        ∧ (base < bs.size → ∀ k < 8, frameBit m (8 * base + k) = some (bs.acc.getD k false))
        ∧ Mem.sameOutside s.frameBuf m base (min (base + 1) bs.size))

/-- R71: the flag stays set through every operation but a new bind; `ENCODE`, `PROBE` and `DECODE` bind. -/
def Obligations.ErrorFlagIsSticky : Prop :=
  ∀ (i : Instr) (s t : State), i ≠ .bsBind → i ≠ .encode → i ≠ .probe → i ≠ .decode →
    exec i s = .next t → s.pass.bs.err = true → t.pass.bs.err = true

/-! ### The framer (41_framer.md) -/

/-- R76, R57: from a fresh writer the four header bytes are the header instruction's word with a zero CRC byte. -/
def Obligations.HdrWritePlacesHeader : Prop :=
  ∀ (s : State) (size : Nat), validEff s.pass.desc → 4 ≤ size → s.pass.bs = ⟨.write, size, 0, [], false⟩ →
    ∃ (m : Mem 8) (w : Word), exec .hdrWrite s = .next { s with
        frameBuf := m, pass := { s.pass with bs := ⟨.write, size, 32, [], false⟩ } }
      ∧ encode (headerInstr s.pass.desc 0) = .header w ∧ ({ s with frameBuf := m } : State).headerWord = some w
      ∧ Mem.sameOutside s.frameBuf m 0 4

/-- R77, R54, R58, R64: from a fresh reader `HDR_READ` does what the header's own instruction does, so the header of a valid
descriptor becomes the frame's; a word that is no header raises `MalformedHeader`, after 8 bits for a bad syncword (log 25)
and with the flag set for non-zero reserved bits. Where the descriptor and
the CRC byte it returns stand is the model's choice (log 40). -/
def Obligations.HdrReadIsTheHeaderInstruction : Prop :=
  ∀ (s : State) (size : Nat) (w : Word), 4 ≤ size → s.pass.bs = ⟨.read, size, 0, [], false⟩ → s.headerWord = some w →
    (∀ i, decode (.header w) = .ok i → exec .hdrRead s = exec i s)
    ∧ (∀ (d : Desc) (crc : BitVec 8), validEff d → encode (headerInstr d crc) = .header w → exec .hdrRead s = .next { s with
        pass := { s.pass with bs := ⟨.read, size, 32, [], false⟩, desc := d, crcRx := crc } })
    ∧ (decode (.header w) = .error .badSyncword → exec .hdrRead s = .next { s with
        phase := .idle, done := true, result := .malformedHeader, pass := { s.pass with bs := ⟨.read, size, 8, [], false⟩ } })
    ∧ (decode (.header w) = .error .reservedNotZero → exec .hdrRead s = .next { s with
        phase := .idle, done := true, result := .malformedHeader, pass := { s.pass with bs := ⟨.read, size, 32, [], true⟩ } })

/-- R56, R77: a received header with a valid descriptor becomes the frame's; an invalid one, or any header when the error
flag is already set, raises `MalformedHeader`. The position moves past the header either way (log 5). The
declared size is not looked at (log 5); descriptor and CRC byte stand where log 40 says. -/
def Obligations.SbcHeaderIsAccepted : Prop :=
  ∀ (s : State) (freq : Freq) (blocks : Nat) (mode : Mode) (alloc : Alloc) (subbands bitpool : Nat) (crc : BitVec 8),
    let i := Instr.sbcFrameHeader freq blocks mode alloc subbands bitpool crc
    let d : Desc := ⟨false, freq, mode, alloc, blocks, subbands, bitpool⟩
    let bs : Bs := { s.pass.bs with pos := s.pass.bs.pos + 32 }
    i.wellFormed = true →
    (s.pass.bs.err = false → isValid d = true →
      exec i s = .next { s with pass := { s.pass with bs := bs, desc := d, crcRx := crc } })
    ∧ (s.pass.bs.err = true ∨ isValid d = false → exec i s = .next { s with
        phase := .idle, done := true, result := .malformedHeader, pass := { s.pass with bs := bs } })

/-- R58: an mSBC header is 0xAD, 16 zero bits and the CRC; it carries no configuration, its descriptor is `MSBC_D` and its
frame is 57 bytes; other reserved bits are no header. The position moves past it (log 5). With the error flag already
set it raises `MalformedHeader` (R77). The declared size is not looked at (log 5); descriptor and CRC byte stand
where log 40 says. -/
def Obligations.MsbcHeaderIsAccepted : Prop :=
  (∀ crc : BitVec 8, encode (.msbcFrameHeader crc) = .header (0xAD0000#24 ++ crc)
      ∧ decode (.header (0xAD0000#24 ++ crc)) = .ok (.msbcFrameHeader crc))
  ∧ (∀ (r : BitVec 16) (crc : BitVec 8), r ≠ 0 → decode (.header (0xAD#8 ++ r ++ crc)) = .error .reservedNotZero)
  ∧ (∀ (s : State) (crc : BitVec 8), s.pass.bs.err = false → exec (.msbcFrameHeader crc) s = .next { s with
      pass := { s.pass with
        bs := { s.pass.bs with pos := s.pass.bs.pos + 32 }
        desc := ⟨true, .f16k, .mono, .loudness, 15, 8, 26⟩
        crcRx := crc } })
  ∧ (∀ (s : State) (crc : BitVec 8), s.pass.bs.err = true → exec (.msbcFrameHeader crc) s = .next { s with
      phase := .idle, done := true, result := .malformedHeader
      pass := { s.pass with bs := { s.pass.bs with pos := s.pass.bs.pos + 32 } } })
  ∧ frameSize ⟨true, .f16k, .mono, .loudness, 15, 8, 26⟩ = 57

/-- R79: the CRC register's rule bit by bit, into `CRC`; and every single-bit error is detected. The
constants are the spec's defaults (log 9). That the value stands in `CRC` is the model's choice (log 40). -/
def Obligations.CrcRule : Prop :=
  (∀ s : State, exec .crcCompute s = .next { s with pass := { s.pass with crc := crcOf s.op.crcBits } })
  ∧ crcOf [] = 0x0F
  ∧ (∀ (bits : List Bool) (b : Bool), crcOf (bits ++ [b])
      = if (crcOf bits).getLsbD 7 = b then crcOf bits <<< 1 else crcOf bits <<< 1 ^^^ 0x1D)
  ∧ crcOf (List.replicate 48 false) = 0xC5
  ∧ ∀ (xs ys : List Bool) (b : Bool), crcOf (xs ++ b :: ys) ≠ crcOf (xs ++ (!b) :: ys)

/-- R78: what the CRC covers. (Of any descriptor: the model's choice, log 37.) -/
def Obligations.CrcCoverage : Prop :=
  ∀ (m : Mem 8) (d : Desc),
    let len := 16 + (if d.mode = .jointStereo then d.subbands else 0) + 4 * d.subbands * (if d.mode = .mono then 1 else 2)
    let place := fun k => if k < 16 then 8 + k else 16 + k
    (∀ k < len, (Mem.read m (place k / 8)).isSome = true) →
    ∃ bits, coverage m d = some bits ∧ bits.length = len ∧ ∀ k < len, bits[k]? = frameBit m (place k)

/-- R80, R81: `CRC_INSERT` stores the CRC of the coverage in byte 3 and nowhere else, the coverage stays, and `CRC_CHECK`
then accepts exactly that byte. Both take the coverage from `FRAME_BUF` whatever `BS.SIZE` is (the model's choice, log 28),
of any working descriptor (log 37). That both leave the value in `CRC` is the model's choice (log 40). -/
def Obligations.CrcInsertThenCheck : Prop :=
  ∀ (s : State) (bits : List Bool), coverage s.frameBuf s.pass.desc = some bits →
    ∃ m, exec .crcInsert s = .next { s with frameBuf := m, pass := { s.pass with crc := crcOf bits } }
      ∧ Mem.read m 3 = some (crcOf bits) ∧ Mem.sameOutside s.frameBuf m 3 4 ∧ coverage m s.pass.desc = some bits
      ∧ ∀ t : State, t.frameBuf = m → t.pass.desc = s.pass.desc →
          (t.pass.crcRx = crcOf bits → exec .crcCheck t = .next { t with pass := { t.pass with crc := crcOf bits } })
          ∧ (t.pass.crcRx ≠ crcOf bits → exec .crcCheck t = .next { t with
              phase := .idle, done := true, result := .checksumMismatch, pass := { t.pass with crc := crcOf bits } })

/-- R60, R61, R82: from the end of the header `SIDE_WRITE` places the joint mask of a JointStereo frame, subband 0 first,
and the scale factors, channel outer, subband inner, four bits each; no other byte of the frame changes. The bits are
read after the flush that ends a pass. -/
def Obligations.SideWriteLayout : Prop :=
  ∀ (s : State) (size : Nat),
    let d := s.pass.desc
    let js := if d.mode = .jointStereo then d.subbands else 0
    let len := js + 4 * d.subbands * channelCount d
    validEff d → s.pass.bs = ⟨.write, size, 32, [], false⟩ → 32 + len ≤ 8 * size →
    ∃ (m m' : Mem 8) (acc : List Bool),
      exec .sideWrite s = .next { s with frameBuf := m, pass := { s.pass with bs := ⟨.write, size, 32 + len, acc, false⟩ } }
      ∧ exec .bsFlush { s with frameBuf := m, pass := { s.pass with bs := ⟨.write, size, 32 + len, acc, false⟩ } }
          = .next { s with frameBuf := m', pass := { s.pass with bs := ⟨.write, size, 8 * ((32 + len + 7) / 8), [], false⟩ } }
      ∧ (∀ b < js, frameBit m' (32 + b) = some (s.pass.joint.getLsbD b))
      ∧ (∀ c < channelCount d, ∀ b < d.subbands, ∀ k < 4,
          frameBit m' (32 + js + 4 * (c * d.subbands + b) + k) = some ((s.pass.scfAt c b).getLsbD (3 - k)))
      ∧ Mem.sameOutside s.frameBuf m' 4 ((32 + len + 7) / 8)

/-- R60, R61, R83: from the end of the header `SIDE_READ` reads the mask into `JOINT`, 0 in the other modes, and the scale
factors; the flag stays clear inside the declared size. -/
def Obligations.SideReadFields : Prop :=
  ∀ (s : State) (size : Nat),
    let d := s.pass.desc
    let js := if d.mode = .jointStereo then d.subbands else 0
    let len := js + 4 * d.subbands * channelCount d
    validEff d → s.pass.bs = ⟨.read, size, 32, [], false⟩ → 32 + len ≤ 8 * size →
    Mem.written s.frameBuf 4 ((32 + len + 7) / 8) →
    ∃ (joint : BitVec 8) (scf : List (List (BitVec 4))),
      exec .sideRead s = .next { s with
        pass := { s.pass with bs := ⟨.read, size, 32 + len, [], false⟩, joint := joint, scf := scf } }
      ∧ (∀ b < 8, joint.getLsbD b = if b < js then (frameBit s.frameBuf (32 + b)).getD false else false)
      ∧ ∀ c < channelCount d, ∀ b < d.subbands, ∀ k < 4,
          some ((at2 0 scf c b).getLsbD (3 - k)) = frameBit s.frameBuf (32 + js + 4 * (c * d.subbands + b) + k)

/-- R84, R62, R63: `PAYLOAD_WRITE` always completes. After the pending bits come the fields, block outer, then channel, then
subband: the `n` bits of sample `(b, c, k)` are those of `QUANT`, most significant first, at the place `sampleStart` counts;
then zero bits up to the byte boundary. It ends there with nothing pending, sets the flag exactly when it passes the declared
size, stores nothing past it, and changes no other byte. The premises are the writer's part of the invariant. The model's
choices: `BS.DIR` is not checked (log 13), nor the start position (log 33), nor the working descriptor (log 37), and `QUANT` of a
sample its scale factor does not bound has the formula's code (log 31). -/
def Obligations.PayloadWriteCompletes : Prop :=
  ∀ s : State,
    let d := s.pass.desc
    let bs := s.pass.bs
    let base := (bs.pos - bs.acc.length) / 8
    let start := 8 * base + bs.acc.length
    let len := d.blocks * ((List.range (channelCount d)).map s.pass.channelBits).sum
    let bytes := (bs.acc.length + len + 7) / 8
    bs.acc.length < 8 → bs.acc.length ≤ bs.pos →
    ∃ m, exec .payloadWrite s = .next { s with
        frameBuf := m
        pass := { s.pass with bs := { bs with
          pos := bs.pos - bs.acc.length + 8 * bytes
          acc := []
          err := bs.err || decide (0 < bytes ∧ bs.size < base + bytes) } } }
      ∧ Mem.sameOutside s.frameBuf m base (min (base + bytes) bs.size)
      ∧ (∀ q < bs.acc.length, 8 * base + q < 8 * min (base + bytes) bs.size →
          frameBit m (8 * base + q) = some (bs.acc.getD q false))
      ∧ (∀ b < d.blocks, ∀ c < channelCount d, ∀ k < d.subbands,
          let n := s.pass.nbitsAt c k
          let code := quantize (s.pass.sbEncAt c b k) n (s.pass.scfAt c k).toNat
          ∀ q < n, start + s.pass.sampleStart b c k + q < 8 * bs.size →
            frameBit m (start + s.pass.sampleStart b c k + q) = some (code.getLsbD (n - 1 - q)))
      ∧ ∀ p, start + len ≤ p → p < 8 * min (base + bytes) bs.size → frameBit m p = some false

/-- R85, R62, R106: inside the declared size `PAYLOAD_READ` completes with the flag as it was; a subband without bits is 0, and
every other sample is `DEQUANT` of the `n` bits at its place (R62), most significant first. The model's choices: `BS.DIR` is not
checked (log 13), nor the start position (log 33), nor the working descriptor (log 37). -/
def Obligations.PayloadReadCompletes : Prop :=
  ∀ s : State,
    let d := s.pass.desc
    let bs := s.pass.bs
    let len := d.blocks * ((List.range (channelCount d)).map s.pass.channelBits).sum
    bs.pos + len ≤ 8 * bs.size → Mem.written s.frameBuf (bs.pos / 8) ((bs.pos + len + 7) / 8) →
    ∃ sb, exec .payloadRead s = .next { s with pass := { s.pass with bs := { bs with pos := bs.pos + len }, sbDec := sb } }
      ∧ ∀ c < channelCount d, ∀ b < d.blocks, ∀ k < d.subbands,
          (s.pass.nbitsAt c k = 0 → at3 0 sb c b k = 0)
          ∧ ∀ n : Fin 16, s.pass.nbitsAt c k = n.val + 1 → ∃ raw : Word, raw.toNat < 2 ^ (n.val + 1)
              ∧ (∀ q < n.val + 1, some (raw.getLsbD (n.val - q)) = frameBit s.frameBuf (bs.pos + s.pass.sampleStart b c k + q))
              ∧ at3 0 sb c b k = dequantize raw n (s.pass.scfAt c k).toNat (s.pass.sbScaleAt c)

/-- R62, R84, R85: what `PAYLOAD_WRITE` writes from a position, `PAYLOAD_READ` reads from there, sample by sample: the
code is that of `QUANT` in its `n` bits. The model's choices: `BS.DIR` is not checked (log 13), nor the start position (log 33), nor
the working descriptor (log 37), and `QUANT` of a sample its scale factor does not bound has the formula's code (log 31). -/
def Obligations.PayloadRoundTrip : Prop :=
  ∀ s t u : State,
    let d := s.pass.desc
    let bs := s.pass.bs
    let len := ((sampleOrder d).map fun i => s.pass.nbitsAt i.2.1 i.2.2).sum
    bs.acc.length = bs.pos % 8 → bs.pos + len ≤ 8 * bs.size →
    exec .payloadWrite s = .next t →
    u = { t with pass := { t.pass with bs := ⟨.read, bs.size, bs.pos, [], false⟩ } } →
    ∃ sb, exec .payloadRead u = .next { u with
        pass := { u.pass with bs := ⟨.read, bs.size, bs.pos + len, [], false⟩, sbDec := sb } }
      ∧ ∀ c < channelCount d, ∀ b < d.blocks, ∀ k < d.subbands, ∀ n : Fin 16, s.pass.nbitsAt c k = n.val + 1 →
          at3 0 sb c b k = dequantize
            (quantize (s.pass.sbEncAt c b k) (n.val + 1) (s.pass.scfAt c k).toNat &&& BitVec.ofNat 32 (2 ^ (n.val + 1) - 1))
            n (s.pass.scfAt c k).toNat (s.pass.sbScaleAt c)

/-! ### The bit allocator (42_bit_allocator.md) -/

/-- R87, R89 to R95, R97 (a), (b), (c): a call whose bitpool fits 16 bits a pair completes. Its needs are those of step 1 and
lie in -5..15. The search takes the first threshold, from the largest need downwards, whose slices meet the bitpool
(R91), and the slice below when they fill it exactly (R92); each pair then has the bits of R93, and over the pairs `q` in scan
order (subband `q / K` outer, channel `q % K` inner) pass A (R94) and pass B (R95) grant the rest, `u q` and `v q` being the bit
count before pair `q`. Every pair gets 0..16 bits and together they use exactly the bitpool. A larger bitpool, for which
the search does not end, stops by name (log 15). The rows of the call replace `BITNEED` and `NBITS` whole (log 29). The
loudness offsets are the spec's defaults (log 9). A list of scale factors of another length
than the subbands is read as logs 21 and 36 say. -/
def Obligations.BitAllocUsesTheBitpool : Prop :=
  (∀ s : State, 16 * s.op.alloc.channels.length * s.op.alloc.bands.n < s.op.alloc.bitpool →
    exec .bitAlloc s = .fault .allocatorDiverges)
  ∧ ∀ s : State,
    let a := s.op.alloc
    let K := a.channels.length
    a.bitpool ≤ 16 * K * a.bands.n →
    ∃ (needs : List (List Int)) (nbits : List (List (Fin 17))),
      exec .bitAlloc s = .next { s with pass := { s.pass with bitneed := needs, nbits := nbits } }
      ∧ nbits.length = K ∧ (∀ v ∈ nbits, v.length = a.bands.n)
      ∧ (nbits.map fun v => (v.map Fin.val).sum).sum = a.bitpool
      ∧ (∃ (top : Int) (j : Nat),
          let N := K * a.bands.n
          let need := fun q : Nat => at2 0 needs (q % K) (q / K)
          let count := fun t : Int => ((List.range N).map fun q =>
            if t + 1 < need q ∧ need q < t + 16 then 1 else if need q = t + 1 then 2 else 0).sum
          let total := fun i : Nat => ((List.range i).map fun i' : Nat => count (top - i')).sum
          let fills := total (j + 1) = a.bitpool
          let slice : Int := if fills then top - j - 1 else top - j
          let n0 := fun q : Nat => if need q < slice + 2 then 0 else (min (need q - slice) 16).toNat
          (∀ q < N, need q ≤ top) ∧ (∃ q < N, need q = top)
          ∧ a.bitpool ≤ total (j + 1) ∧ (∀ i < j, total (i + 1) < a.bitpool)
          ∧ ∃ (n1 n2 u v : Nat → Nat),
            u 0 = (if fills then total (j + 1) else total j)
            ∧ (∀ q < N, (n1 q, u (q + 1)) =
                if a.bitpool ≤ u q then (n0 q, u q)
                else if 2 ≤ n0 q ∧ n0 q < 16 then (n0 q + 1, u q + 1)
                else if need q = slice + 1 ∧ u q + 1 < a.bitpool then (2, u q + 2)
                else (n0 q, u q))
            ∧ v 0 = u N
            ∧ (∀ q < N, (n2 q, v (q + 1)) =
                if a.bitpool ≤ v q then (n1 q, v q) else if n1 q < 16 then (n1 q + 1, v q + 1) else (n1 q, v q))
            ∧ ∀ q < N, (at2 0 nbits (q % K) (q / K)).val = n2 q)
      ∧ ∀ c < K, ∀ k < a.bands.n,
          let scf := ((a.channels.getD c []).getD k 0).toNat
          let off := loudnessOffset a.bands a.freq k
          ((-5 : Int) ≤ at2 0 needs c k) ∧ at2 0 needs c k ≤ 15
          ∧ (a.alloc = .snr → at2 0 needs c k = scf)
          ∧ (a.alloc = .loudness → scf = 0 → at2 0 needs c k = -5)
          ∧ (a.alloc = .loudness → scf ≠ 0 → (scf : Int) ≤ off → at2 0 needs c k = scf - off)
          ∧ (a.alloc = .loudness → scf ≠ 0 → off < (scf : Int) →
              2 * at2 0 needs c k ≤ scf - off ∧ (scf : Int) - off < 2 * at2 0 needs c k + 2)

/-- R96, R74: the calls of a frame: one for Mono, two separate one-channel calls for DualChannel, one two-channel call
otherwise, all with the frame's bitpool; together they use the bits the frame size counts. `BITNEED` and `NBITS` are
replaced whole (the model's choice, log 39). -/
def Obligations.BitAllocFrameCalls : Prop :=
  ∀ s : State,
    let d := s.pass.desc
    validEff d →
    ∃ (m : Bands) (r : List (List Int) × List (List (Fin 17))),
      m.n = d.subbands
      ∧ exec .bitAllocFrame s = .next { s with pass := { s.pass with bitneed := r.1, nbits := r.2 } }
      ∧ (r.2.map fun v => (v.map Fin.val).sum).sum = d.bitpool * (if d.mode = .dualChannel then 2 else 1)
      ∧ (d.mode = .mono → allocate ⟨s.pass.scf.getD 0 [], none, m, d.freq, d.alloc, d.bitpool⟩ = some r)
      ∧ (d.mode = .dualChannel → ∃ r0 r1,
          allocate ⟨s.pass.scf.getD 0 [], none, m, d.freq, d.alloc, d.bitpool⟩ = some r0
          ∧ allocate ⟨s.pass.scf.getD 1 [], none, m, d.freq, d.alloc, d.bitpool⟩ = some r1
          ∧ r = (r0.1 ++ r1.1, r0.2 ++ r1.2))
      ∧ (d.mode = .stereo ∨ d.mode = .jointStereo →
          allocate ⟨s.pass.scf.getD 0 [], some (s.pass.scf.getD 1 []), m, d.freq, d.alloc, d.bitpool⟩ = some r)

/-! ### Quantizer and dequantizer (43_quantizer.md) -/

/-- R98: the scale factor is the position of the highest set bit of the largest magnitude, and 0 for magnitudes 0 and 1:
every sample lies below `2^(scf+1)`, and one reaches `2^scf` unless the factor is 0. That a working descriptor that is not valid is
not refused is the model's choice (log 37). `SCF` is replaced whole (the model's choice, log 39). -/
def Obligations.ScaleFactorsBound : Prop :=
  ∀ s : State,
    let d := s.pass.desc
    ∃ scf, exec .scfCompute s = .next { s with pass := { s.pass with scf := scf } }
      ∧ scf.length = channelCount d ∧ (∀ v ∈ scf, v.length = d.subbands)
      ∧ ∀ c < channelCount d, ∀ k < d.subbands,
          (∀ b < d.blocks, (s.pass.sbEncAt c b k).toInt.natAbs < 2 ^ ((at2 0 scf c k).toNat + 1))
          ∧ (at2 0 scf c k ≠ 0 → ∃ b < d.blocks, 2 ^ (at2 0 scf c k).toNat ≤ (s.pass.sbEncAt c b k).toInt.natAbs)

/-- R99: in JointStereo a subband below the top one is coupled exactly when the scale factors of mid and side sum to less
than those of left and right; it then carries mid and side, and every other subband stays. Run alone in any other mode
`JOINT` becomes 0 and nothing else changes (the model's choice, log 16). -/
def Obligations.JointDecision : Prop :=
  ∀ s : State,
    let d := s.pass.desc
    let p := s.pass
    let couple := fun k => k + 1 < d.subbands
      ∧ (p.midScf k).toNat + (p.sideScf k).toNat < (p.scfAt 0 k).toNat + (p.scfAt 1 k).toNat
    validEff d →
    (d.mode ≠ .jointStereo → exec .jointDecide s = .next { s with pass := { p with joint := 0 } })
    ∧ (d.mode = .jointStereo → ∃ joint scf sb,
        exec .jointDecide s = .next { s with pass := { p with joint := joint, scf := scf, sbEnc := sb } }
        ∧ (∀ k < 8, joint.getLsbD k = true ↔ k < d.subbands ∧ couple k)
        ∧ ∀ k < d.subbands,
            (couple k → at2 0 scf 0 k = p.midScf k ∧ at2 0 scf 1 k = p.sideScf k
              ∧ ∀ b < d.blocks, at3 0 sb 0 b k = midOf (p.sbEncAt 0 b k) (p.sbEncAt 1 b k)
                ∧ at3 0 sb 1 b k = sideOf (p.sbEncAt 0 b k) (p.sbEncAt 1 b k))
            ∧ (¬couple k → at2 0 scf 0 k = p.scfAt 0 k ∧ at2 0 scf 1 k = p.scfAt 1 k
              ∧ ∀ b < d.blocks, at3 0 sb 0 b k = p.sbEncAt 0 b k ∧ at3 0 sb 1 b k = p.sbEncAt 1 b k))

/-- R100: the halves fit int16, and the decoder's sum and difference give back both samples, the left one without its low
bit when the sum is odd. -/
def Obligations.MidSideInverse : Prop :=
  ∀ l r : I16,
    (midOf l r).toInt = (l.toInt + r.toInt) / 2 ∧ (sideOf l r).toInt = (l.toInt - r.toInt) / 2
    ∧ (midOf l r).toInt + (sideOf l r).toInt = l.toInt - (l.toInt + r.toInt) % 2
    ∧ (midOf l r).toInt - (sideOf l r).toInt = r.toInt

/-- R101: in JointStereo every subband of the mask, also the top one, becomes sum and difference; the others stay. Run alone
in any other mode it changes nothing (the model's choice, log 16); nor is a working descriptor that is not valid refused (log 37). -/
def Obligations.JointUncoupling : Prop :=
  ∀ s : State,
    let d := s.pass.desc
    let p := s.pass
    (d.mode ≠ .jointStereo → exec .jointUncouple s = .next s)
    ∧ (d.mode = .jointStereo → ∃ sb, exec .jointUncouple s = .next { s with pass := { p with sbDec := sb } }
        ∧ ∀ b < d.blocks, ∀ k < d.subbands,
            (p.joint.getLsbD k = true → at3 0 sb 0 b k = p.sbDecAt 0 b k + p.sbDecAt 1 b k
              ∧ at3 0 sb 1 b k = p.sbDecAt 0 b k - p.sbDecAt 1 b k)
            ∧ (p.joint.getLsbD k = false → at3 0 sb 0 b k = p.sbDecAt 0 b k ∧ at3 0 sb 1 b k = p.sbDecAt 1 b k))

/-- R102: each channel's scale is 14 less the largest scale factor, levelled to the smaller one in JointStereo; it lies in
-1..14. That a working descriptor that is not valid is not refused is the model's choice (log 37). `SBSCALE` is replaced whole
(the model's choice, log 39). -/
def Obligations.GlobalScale : Prop :=
  ∀ s : State,
    let d := s.pass.desc
    let p := s.pass
    0 < d.subbands →
    ∃ v : List Int, exec .sbScale s = .next { s with pass := { p with sbScale := v } }
      ∧ v.length = channelCount d ∧ (∀ x ∈ v, -1 ≤ x ∧ x ≤ 14)
      ∧ (d.mode ≠ .jointStereo → ∀ c < channelCount d,
          (∀ k < d.subbands, v.getD c 0 ≤ 14 - (p.scfAt c k).toNat) ∧ ∃ k < d.subbands, v.getD c 0 = 14 - (p.scfAt c k).toNat)
      ∧ (d.mode = .jointStereo → v.getD 0 0 = v.getD 1 0
          ∧ (∀ c < 2, ∀ k < d.subbands, v.getD 0 0 ≤ 14 - (p.scfAt c k).toNat)
          ∧ ∃ c < 2, ∃ k < d.subbands, v.getD 0 0 = 14 - (p.scfAt c k).toNat)

/-- R103: for a sample its scale factor bounds, the code is the formula's exact integer value and lies in `0 .. 2^n - 2`, a range
the spec infers. A sample it does not bound is outside the rule's operands; it also completes, with nothing but the
code written (the model's choice, log 31). -/
def Obligations.QuantFormula : Prop :=
  ∀ s : State,
    let n := s.op.nIdx.val + 1
    let x := s.op.sample.toInt
    let r : Int := 2 ^ n - 1
    let q : Int := (x * r / 2 ^ (s.op.scf.toNat + 1) + r) / 2
    (x.natAbs < 2 ^ (s.op.scf.toNat + 1) →
      exec .quant s = .next { s with out := { s.out with code := BitVec.ofInt 32 q } } ∧ 0 ≤ q ∧ q ≤ 2 ^ n - 2)
    ∧ ∃ v, exec .quant s = .next { s with out := { s.out with code := v } }

/-- R104, R105: for a code of `n` bits the sample is the formula's exact integer value, which lies within `2^17` when the
shift is the 13 or more of every received frame. A negative shift has no stated result: the value is free (log 14). That an `sbScale`
outside -1..14 and a code of more than `n` bits are not refused is the model's choice (log 34). -/
def Obligations.DequantFormula : Prop :=
  ∀ s : State,
    let n := s.op.nIdx.val + 1
    let sh : Int := 28 - ((s.op.scf.toNat : Int) + 1 + s.op.sbScale)
    let y : Int := ((2 * s.op.raw.toNat + 1 : Nat) * (Config.rangeScale s.op.nIdx).toInt - 2 ^ 28) / 2 ^ sh.toNat
    (0 ≤ sh → s.op.raw.toNat < 2 ^ n →
      exec .dequant s = .next { s with out := { s.out with sample := BitVec.ofInt 32 y } }
        ∧ (13 ≤ sh → -(2 ^ 17) ≤ y ∧ y ≤ 2 ^ 17))
    ∧ ∃ v, exec .dequant s = .next { s with out := { s.out with sample := v } }

/-! ### Filter banks (44_filter_banks.md) -/

/-- R117, R118: the DCT writes its result and nothing else, and the zero vector gives zero (D-Z). A list of
another length than `M` is read as logs 21 and 36 say. -/
def Obligations.DctCompletes : Prop :=
  ∀ s : State, ∃ w : List I32, exec .dct s = .next { s with out := { s.out with dctOut := w } } ∧ w.length = s.op.bands.n
    ∧ ((∀ k < s.op.bands.n, s.op.dctIn.getD k 0 = 0) → w = List.replicate s.op.bands.n 0)

/-- R119: a block advances its channel's Index by one modulo 10 (A-I), leaves rows `M..7` (A-W) and the other channel; a
zero channel fed zeros gives zeros and stays zero (A-Z); the result depends on the channel's state and the block only
(A-D), the samples and the accumulator on rows `0..M-1` (R24), and, whatever the Index, on the past samples by the number of
blocks since they entered (A-T). That the block enters the half `odd` (R110), the other half staying, and is the newest
of ten past blocks is the model's reading (log 7, log 26). A list of another length than
`M` is read as logs 21 and 36 say. -/
def Obligations.AnalyzeBlockProperties : Prop :=
  (∀ s : State, ∃ (e : EncChan) (y : List I16),
      exec .analyzeBlock s = .next { s.setEnc s.op.chan e with out := { s.out with subbands := y } }
      ∧ y.length = s.op.bands.n ∧ e.aidx.val = ((s.enc s.op.chan).aidx.val + 1) % 10
      ∧ (∀ (h : Fin 2) (r : Fin 8), s.op.bands.n ≤ r.val → e.ax[h][r] = (s.enc s.op.chan).ax[h][r])
      ∧ (∀ h : Fin 2, h.val ≠ (s.enc s.op.chan).aidx.val % 2 → e.ax[h] = (s.enc s.op.chan).ax[h])
      ∧ (∀ (j : Fin s.op.bands.n) (age : Fin 10), Config.analysisPast s.op.bands e j age
          = if age = 0 then s.op.pcm.getD j.val 0 else Config.analysisPast s.op.bands (s.enc s.op.chan) j (age - 1))
      ∧ (∀ i, s.enc s.op.chan = .zeroAt i → (∀ k < s.op.bands.n, s.op.pcm.getD k 0 = 0) →
          y = List.replicate s.op.bands.n 0 ∧ e = .zeroAt (i + 1)))
  ∧ ∀ s s' t t' : State,
      let c := s.enc s.op.chan
      let c' := s'.enc s'.op.chan
      s.op.bands = s'.op.bands → (∀ k < s.op.bands.n, s.op.pcm.getD k 0 = s'.op.pcm.getD k 0) →
      exec .analyzeBlock s = .next t → exec .analyzeBlock s' = .next t' →
      (c = c' → t.out.subbands = t'.out.subbands ∧ t.enc s.op.chan = t'.enc s'.op.chan)
      ∧ (c.ay = c'.ay →
          (c.aidx = c'.aidx ∧ ∀ (h : Fin 2) (r : Fin 8), r.val < s.op.bands.n → c.ax[h][r] = c'.ax[h][r])
            ∨ (∀ j age, Config.analysisPast s.op.bands c j age = Config.analysisPast s.op.bands c' j age) →
          t.out.subbands = t'.out.subbands ∧ (t.enc s.op.chan).ay = (t'.enc s'.op.chan).ay)

/-- R121: a block advances its channel's Index by one modulo 10 (S-I), leaves rows `M..7` (S-W) and the other channel; a
zero channel fed zeros gives zeros and stays zero, at every scale (S-Z1); the result depends on the channel's state, the
block and the scale only (S-D), the samples, whatever the Index, on the past blocks by how long ago they were decoded (S-T).
That taps other than `dctIdx` (R111) stay, and which entries make up the ten past blocks, is the model's reading (log 7, log 26). So is
an `sbScale` outside -1..14 (log 35). A list of another length than `M` is read as logs 21 and 36 say. -/
def Obligations.SynthBlockProperties : Prop :=
  (∀ s : State, ∃ (e : DecChan) (x : List I16),
      exec .synthBlock s = .next { s.setDec s.op.chan e with out := { s.out with pcm := x } }
      ∧ x.length = s.op.bands.n ∧ e.sidx.val = ((s.dec s.op.chan).sidx.val + 1) % 10
      ∧ (∀ (h : Fin 2) (r : Fin 8), s.op.bands.n ≤ r.val → e.sv[h][r] = (s.dec s.op.chan).sv[h][r])
      ∧ (∀ (h : Fin 2) (r : Fin 8) (i : Fin 10), i.val ≠ (10 - (s.dec s.op.chan).sidx.val) % 10 →
          e.sv[h][r][i] = (s.dec s.op.chan).sv[h][r][i])
      ∧ (∀ i, s.dec s.op.chan = .zeroAt i → (∀ k < s.op.bands.n, s.op.subbands.getD k 0 = 0) →
          x = List.replicate s.op.bands.n 0 ∧ e = .zeroAt (i + 1)))
  ∧ ∀ s s' t t' : State,
      let c := s.dec s.op.chan
      let c' := s'.dec s'.op.chan
      s.op.bands = s'.op.bands → s.op.sbScale = s'.op.sbScale →
      (∀ k < s.op.bands.n, s.op.subbands.getD k 0 = s'.op.subbands.getD k 0) →
      exec .synthBlock s = .next t → exec .synthBlock s' = .next t' →
      (c = c' → t.out.pcm = t'.out.pcm ∧ t.dec s.op.chan = t'.dec s'.op.chan)
      ∧ ((∀ e age, Config.synthesisPast s.op.bands c e age = Config.synthesisPast s.op.bands c' e age) →
          t.out.pcm = t'.out.pcm
          ∧ ∀ e age, Config.synthesisPast s.op.bands (t.dec s.op.chan) e age
              = Config.synthesisPast s.op.bands (t'.dec s'.op.chan) e age)

/-- R120, R26, R114: with its samples written, the analysis of a frame runs `ANALYZE` of each used channel over its blocks, block
`b` being samples `b*M .. b*M + M - 1`, in ascending order and from the channel's state: `SB[c][b]` is the output of block `b`,
the state that of the last block, and the Index has advanced by the blocks, modulo 10. In a Mono frame channel 1 stays and
`PCM_R` is not read. `SB` is replaced whole (the model's choice, log 39). -/
def Obligations.AnalyzeFrameCompletes : Prop :=
  ∀ (s : State) (M : Bands),
    let d := s.pass.desc
    let block := fun (pcm : Mem 16) (b : Nat) => Vector.ofFn fun i : Fin M.n => (Mem.read pcm (b * M.n + i)).getD 0
    let blocks := fun (pcm : Mem 16) => (List.range d.blocks).map (block pcm)
    let after := fun (e : EncChan) (pcm : Mem 16) => blockState (Config.analyze M) e (blocks pcm)
    let sb := fun (e : EncChan) (pcm : Mem 16) => (blockOutputs (Config.analyze M) e (blocks pcm)).map Vector.toList
    validEff d → M.n = d.subbands → Mem.written s.pcmL 0 (d.blocks * d.subbands) →
    (after s.enc0 s.pcmL).aidx.val = (s.enc0.aidx.val + d.blocks) % 10
    ∧ (d.mode = .mono → exec .analyzeFrame s = .next { s with
        enc0 := after s.enc0 s.pcmL, pass := { s.pass with sbEnc := [sb s.enc0 s.pcmL] } })
    ∧ (d.mode ≠ .mono → Mem.written s.pcmR 0 (d.blocks * d.subbands) → exec .analyzeFrame s = .next { s with
        enc0 := after s.enc0 s.pcmL
        enc1 := after s.enc1 s.pcmR
        pass := { s.pass with sbEnc := [sb s.enc0 s.pcmL, sb s.enc1 s.pcmR] } })

/-- R122, R26, R114: the synthesis of a frame runs `SYNTHESIZE` with `SBSCALE[c]` of each used channel over `SB[c][0..B-1]`, in
ascending order and from the channel's state: samples `b*M .. b*M + M - 1` of the channel's buffer are the output of block `b`, no
other sample changes, the state is that of the last block, and the Index has advanced by the blocks, modulo 10. In a Mono
frame channel 1 and `PCM_R` stay. An `SBSCALE` outside -1..14 is not refused (the model's choice, log 35). -/
def Obligations.SynthFrameCompletes : Prop :=
  ∀ (s : State) (M : Bands),
    let d := s.pass.desc
    let blocks := fun c : Nat => (List.range d.blocks).map fun b => Vector.ofFn fun k : Fin M.n => s.pass.sbDecAt c b k
    let run := fun (c : Nat) (e : DecChan) (y : Vector I32 M.n) => Config.synthesize M e y (s.pass.sbScaleAt c)
    let after := fun (c : Nat) (e : DecChan) => blockState (run c) e (blocks c)
    let holds := fun (c : Nat) (e : DecChan) (m : Mem 16) => ∀ b < d.blocks, ∀ i : Fin M.n,
      Mem.read m (b * M.n + i) = ((blockOutputs (run c) e (blocks c))[b]?).map fun x => x[i]
    let n := d.blocks * d.subbands
    validEff d → M.n = d.subbands →
    (after 0 s.dec0).sidx.val = (s.dec0.sidx.val + d.blocks) % 10
    ∧ (d.mode = .mono → ∃ m, exec .synthFrame s = .next { s with dec0 := after 0 s.dec0, pcmL := m }
        ∧ holds 0 s.dec0 m ∧ Mem.written m 0 n ∧ Mem.sameOutside s.pcmL m 0 n)
    ∧ (d.mode ≠ .mono → ∃ m m', exec .synthFrame s = .next { s with
          dec0 := after 0 s.dec0, dec1 := after 1 s.dec1, pcmL := m, pcmR := m' }
        ∧ holds 0 s.dec0 m ∧ Mem.written m 0 n ∧ Mem.sameOutside s.pcmL m 0 n
        ∧ holds 1 s.dec1 m' ∧ Mem.written m' 0 n ∧ Mem.sameOutside s.pcmR m' 0 n)

/-- Where an operation run on its own stops: a working descriptor with other than 4 or 8 subbands (log 20), a joint mask
whose width is outside 1..32 (R66, R68), and bytes or samples never written that it reads (R140, log 10): the header's by
`HDR_READ`, the side fields' by `SIDE_READ`, the sample fields' by `PAYLOAD_READ`, the coverage's by the CRC operations (log 28),
the samples of a used channel by `ANALYZE_FRAME`. Start positions are those the
operation finds (log 33), working descriptors that are not valid run in every other operation (log 37). -/
def Obligations.OperationStops : Prop :=
  ∀ s : State,
    let d := s.pass.desc
    (d.subbands ≠ 4 → d.subbands ≠ 8 → ∀ i ∈ [Instr.analyzeFrame, .synthFrame, .bitAllocFrame],
      exec i s = .refused .invalidDescriptor)
    ∧ (d.mode = .jointStereo → (d.subbands = 0 ∨ 32 < d.subbands) →
      exec .sideWrite s = .refused .bitWidth ∧ exec .sideRead s = .refused .bitWidth)
    ∧ (coverage s.frameBuf d = none →
      exec .crcInsert s = .fault .unwrittenFrameByte ∧ exec .crcCheck s = .fault .unwrittenFrameByte)
    ∧ (∀ size, 4 ≤ size → s.pass.bs = ⟨.read, size, 0, [], false⟩ →
      (Mem.read s.frameBuf 0 = none ∨ ((Mem.read s.frameBuf 0 = some 0x9C ∨ Mem.read s.frameBuf 0 = some 0xAD)
        ∧ ∃ a < 4, Mem.read s.frameBuf a = none)) →
      exec .hdrRead s = .fault .unwrittenFrameByte)
    ∧ (validEff d → (∃ k < (if d.mode = .jointStereo then d.subbands else 0) + 4 * d.subbands * channelCount d,
        s.pass.bs.pos + k < 8 * s.pass.bs.size ∧ Mem.read s.frameBuf ((s.pass.bs.pos + k) / 8) = none) →
      exec .sideRead s = .fault .unwrittenFrameByte)
    ∧ ((∃ k < d.blocks * ((List.range (channelCount d)).map s.pass.channelBits).sum,
        s.pass.bs.pos + k < 8 * s.pass.bs.size ∧ Mem.read s.frameBuf ((s.pass.bs.pos + k) / 8) = none) →
      exec .payloadRead s = .fault .unwrittenFrameByte)
    ∧ (validEff d → ((∃ a < d.blocks * d.subbands, Mem.read s.pcmL a = none)
        ∨ (d.mode ≠ .mono ∧ ∃ a < d.blocks * d.subbands, Mem.read s.pcmR a = none)) →
      exec .analyzeFrame s = .fault .unwrittenPcmSample)

/-! ### The commands (45_commands.md) -/

/-- R129, R130, R17: `VALIDATE` and `FRAME_SIZE` complete as `OK` for a valid effective descriptor, whose frame size fits
`FRAME_LEN`, and as `InvalidConfiguration` otherwise; with the mSBC bit set the descriptor is always valid and 57 bytes. The
working descriptor stays (log 24). -/
def Obligations.DescriptorCommands : Prop :=
  ∀ s : State,
    let d := eff (descOfCfg s.cfg)
    (isValid d = true →
      exec .validate s = .next { s with phase := .idle, done := true, result := .ok }
      ∧ ∃ len : BitVec 10, exec .frameSize s = .next { s with phase := .idle, done := true, result := .ok, frameLen := len }
          ∧ len.toNat = frameSize d)
    ∧ (isValid d = false →
      exec .validate s = .next { s with phase := .idle, done := true, result := .invalidConfiguration }
      ∧ exec .frameSize s = .next { s with phase := .idle, done := true, result := .invalidConfiguration })
    ∧ (s.cfg.getLsbD 0 = true → isValid d = true ∧ frameSize d = 57)

/-- R131, R145: `ENCODE` checks validity, then the left length, then the right length of a two-channel mode, and reports
the first that fails; nothing else changes and no sample is read (R140). -/
def Obligations.EncodeChecksInOrder : Prop :=
  ∀ s : State,
    let d := eff (descOfCfg s.cfg)
    let n := d.blocks * d.subbands
    (isValid d = false → exec .encode s = .next { s with phase := .idle, done := true, result := .invalidConfiguration })
    ∧ (isValid d = true → min s.pcmLeft.toNat 128 < n →
        exec .encode s = .next { s with phase := .idle, done := true, result := .bufferTooShort })
    ∧ (isValid d = true → n ≤ min s.pcmLeft.toNat 128 → d.mode ≠ .mono → min s.pcmRight.toNat 128 < n →
        exec .encode s = .next { s with phase := .idle, done := true, result := .bufferTooShort })

/-- R136 (a), R131, R84, R135: with a valid descriptor and enough written samples `ENCODE` completes as `OK` and leaves what the
operations of R131, run one after another in its order, leave: frame, encoder state and working state. The frame fills its
declared size exactly, `FRAME_LEN` holds it, each used channel's Index advances by the blocks, and no byte past the frame,
no register and no other state changes. (`JOINT_DECIDE` stands for both branches of the rule, log 16.) -/
def Obligations.EncodeCompletes : Prop :=
  ∀ s : State,
    let d := eff (descOfCfg s.cfg)
    let n := d.blocks * d.subbands
    isValid d = true → n ≤ s.pcmLeft.toNat → Mem.written s.pcmL 0 n →
    (d.mode ≠ .mono → n ≤ s.pcmRight.toNat ∧ Mem.written s.pcmR 0 n) →
    ∃ (len : BitVec 10) (u : State),
      runAll [.analyzeFrame, .scfCompute, .jointDecide, .bitAllocFrame, .bsBind, .hdrWrite, .sideWrite, .payloadWrite, .crcInsert]
          { s with pass := { s.pass with desc := d }, op := { s.op with dir := .write, size := Fin.ofNat 513 (frameSize d) } } = .next u
      ∧ u.phase = s.phase ∧ u.done = s.done ∧ u.result = s.result ∧ u.pass.bs.err = false
      ∧ exec .encode s = .next { s with
        phase := .idle, done := true, result := .ok, frameLen := len, frameBuf := u.frameBuf, enc0 := u.enc0, enc1 := u.enc1
        pass := u.pass }
      ∧ len.toNat = frameSize d ∧ Mem.written u.frameBuf 0 (frameSize d) ∧ Mem.sameOutside s.frameBuf u.frameBuf 0 (frameSize d)
      ∧ u.enc0.aidx.val = (s.enc0.aidx.val + d.blocks) % 10
      ∧ (d.mode = .mono → u.enc1 = s.enc1) ∧ (d.mode ≠ .mono → u.enc1.aidx.val = (s.enc1.aidx.val + d.blocks) % 10)

/-- R132, R77, R64: `PROBE` of fewer than four bytes is `BufferTooShort`; of a bad syncword, non-zero mSBC reserved bits or an
invalid descriptor it is `MalformedHeader`; a written header that is the word of a valid descriptor `d` makes it complete as
`OK` with `CFG = enc(d)`. Nothing else changes. After a bad syncword the other header bytes are not read (log 25, DEDUCED). -/
def Obligations.ProbeReadsHeader : Prop :=
  ∀ s : State,
    (min s.frameLen.toNat 512 < 4 → exec .probe s = .next { s with phase := .idle, done := true, result := .bufferTooShort })
    ∧ (4 ≤ s.frameLen.toNat → badHeader s →
        ∃ p : Pass, exec .probe s = .next { s with phase := .idle, done := true, result := .malformedHeader, pass := p })
    ∧ ∀ (d : Desc) (crc : BitVec 8) (w : Word), 4 ≤ s.frameLen.toNat → validEff d →
        encode (headerInstr d crc) = .header w → s.headerWord = some w →
        ∃ p : Pass, exec .probe s = .next { s with
            phase := .idle, done := true, result := .ok, cfg := cfgOfDesc d, pass := p }
          ∧ p.desc = d ∧ descOfCfg (cfgOfDesc d) = d

/-- R133, R145, R135, R26: the checks of `DECODE` in order: fewer than four bytes are `BufferTooShort`, a bad header is
`MalformedHeader`, fewer bytes than the declared frame are `BufferTooShort`, and a CRC byte other than that of the coverage
is `ChecksumMismatch`; none changes anything but `STATUS`. A complete written frame that passes them completes as `OK` and leaves
what the operations of R133, run one after another in its order, leave: PCM, decoder state and working state. `CFG` and
`PCM_LEN` describe the frame, each used channel's Index advances by the blocks, its samples are written, and nothing else
changes. (`JOINT_UNCOUPLE` does nothing outside JointStereo, log 16.) After a bad syncword the other
header bytes are not read (log 25, DEDUCED), and a wrong CRC ends the command before the sample bytes are read (log 30,
DEDUCED). -/
def Obligations.DecodeCompletes : Prop :=
  ∀ s : State,
    let fails := fun k : ResultCode => ∃ p : Pass, exec .decode s = .next { s with phase := .idle, done := true, result := k, pass := p }
    let len := min s.frameLen.toNat 512
    (len < 4 → fails .bufferTooShort)
    ∧ (4 ≤ len → badHeader s → fails .malformedHeader)
    ∧ ∀ (d : Desc) (crc : BitVec 8) (w : Word), 4 ≤ len → validEff d →
      encode (headerInstr d crc) = .header w → s.headerWord = some w →
      (len < frameSize d → fails .bufferTooShort)
      ∧ ∀ bits : List Bool, frameSize d ≤ len → coverage s.frameBuf d = some bits →
        (crc ≠ crcOf bits → fails .checksumMismatch)
        ∧ (crc = crcOf bits → Mem.written s.frameBuf 0 (frameSize d) →
          let n := d.blocks * d.subbands
          ∃ u : State,
            runAll [.bsBind, .hdrRead, .sideRead, .crcCheck, .sbScale, .bitAllocFrame, .payloadRead, .jointUncouple, .synthFrame]
                { s with op := { s.op with dir := .read, size := Fin.ofNat 513 len } } = .next u
            ∧ u.phase = s.phase ∧ u.done = s.done ∧ u.result = s.result ∧ u.pass.bs.err = false
            ∧ exec .decode s = .next { s with
              phase := .idle, done := true, result := .ok, cfg := cfgOfDesc d, pcmLeft := BitVec.ofNat 8 n
              pcmRight := if d.mode = .mono then 0 else BitVec.ofNat 8 n
              dec0 := u.dec0, dec1 := u.dec1, pcmL := u.pcmL, pcmR := u.pcmR, pass := u.pass }
            ∧ u.dec0.sidx.val = (s.dec0.sidx.val + d.blocks) % 10 ∧ Mem.written u.pcmL 0 n ∧ Mem.sameOutside s.pcmL u.pcmL 0 n
            ∧ (d.mode = .mono → u.dec1 = s.dec1 ∧ u.pcmR = s.pcmR)
            ∧ (d.mode ≠ .mono → u.dec1.sidx.val = (s.dec1.sidx.val + d.blocks) % 10 ∧ Mem.written u.pcmR 0 n
              ∧ Mem.sameOutside s.pcmR u.pcmR 0 n))

/-- R136 (b), (c), R86: after a successful `ENCODE`, `PROBE` and `DECODE` of the same state both complete as `OK` with
`CFG` the effective descriptor's: the header reads back on every field and the CRC always validates. -/
def Obligations.EncodedFrameDecodes : Prop :=
  ∀ s t : State,
    let d := eff (descOfCfg s.cfg)
    exec .encode s = .next t → t.result = .ok →
    (∃ u, exec .probe t = .next u ∧ u.result = .ok ∧ u.cfg = cfgOfDesc d)
    ∧ ∃ u, exec .decode t = .next u ∧ u.result = .ok ∧ u.cfg = cfgOfDesc d
      ∧ u.pcmLeft.toNat = d.blocks * d.subbands ∧ u.pcmRight.toNat = if d.mode = .mono then 0 else d.blocks * d.subbands

/-- R11, R125, R135, R146: a command that does not complete as `OK` leaves every register, buffer and filter state as it
was, `STATUS` apart; the one exception the spec names, ENCODE's `BitstreamError`, is never reached. The working state,
which no command reads before it writes it (R27), is not asked. -/
def Obligations.FailuresArePrecise : Prop :=
  ∀ i ∈ hostCommands, ∀ s t : State, exec i s = .next t → t.result ≠ .ok →
    t.result ≠ .bitstreamError
    ∧ ∃ p : Pass, t = { s with phase := .idle, done := true, result := t.result, pass := p }

/-- R27, R32: the working state's value at the start of a command is irrelevant to it, and so are the latches of the
internal operations (the model's own, log 3): the command ends alike whatever they hold. -/
def Obligations.CommandsIgnoreWorkingState : Prop :=
  ∀ i ∈ hostCommands, ∀ (s : State) (p : Pass) (o : Operands) (r : Results),
    (∀ t, exec i s = .next t → ∃ q, exec i { s with pass := p, op := o, out := r } = .next { t with pass := q, op := o, out := r })
    ∧ ∀ f, exec i s = .fault f → exec i { s with pass := p, op := o, out := r } = .fault f

/-- R26, R157: the encoder state set is changed only by `ENCODE`, the encoder resets and the analysis operations, and the
decoder state set only by `DECODE`, the decoder resets and the synthesis operations. -/
def Obligations.FilterStateWriters : Prop :=
  ∀ (i : Instr) (s t : State), exec i s = .next t →
    (i ∉ [.encode, .resetEnc, .resetAll, .analyzeBlock, .analyzeFrame, .fbReset] → t.enc0 = s.enc0 ∧ t.enc1 = s.enc1)
    ∧ (i ∉ [.decode, .resetDec, .resetAll, .synthBlock, .synthFrame, .fbReset] → t.dec0 = s.dec0 ∧ t.dec1 = s.dec1)

/-- R140: a command that reads a byte or a sample never written has no step: `ENCODE` once its checks have passed, `PROBE`
and `DECODE` in the header, and `DECODE` in the rest of the frame, the declared length given, unless a wrong CRC ends it
before the sample fields (log 30). -/
def Obligations.UnwrittenReadsFault : Prop :=
  (∀ s : State,
    let d := eff (descOfCfg s.cfg)
    let n := d.blocks * d.subbands
    isValid d = true → n ≤ s.pcmLeft.toNat → (d.mode ≠ .mono → n ≤ s.pcmRight.toNat) →
    ((∃ a < n, Mem.read s.pcmL a = none) ∨ (d.mode ≠ .mono ∧ ∃ a < n, Mem.read s.pcmR a = none)) →
    exec .encode s = .fault .unwrittenPcmSample)
  ∧ (∀ s : State, 4 ≤ s.frameLen.toNat →
      (Mem.read s.frameBuf 0 = none ∨ ((Mem.read s.frameBuf 0 = some 0x9C ∨ Mem.read s.frameBuf 0 = some 0xAD)
        ∧ ∃ a < 4, Mem.read s.frameBuf a = none)) →
      exec .probe s = .fault .unwrittenFrameByte
        ∧ exec .decode s = .fault .unwrittenFrameByte)
  ∧ ∀ (s : State) (d : Desc) (crc : BitVec 8) (w : Word), validEff d → encode (headerInstr d crc) = .header w →
      s.headerWord = some w → frameSize d ≤ min s.frameLen.toNat 512 →
      (∀ bits, coverage s.frameBuf d = some bits → crc = crcOf bits) →
      (∃ a < frameSize d, Mem.read s.frameBuf a = none) → exec .decode s = .fault .unwrittenFrameByte

/-- R131, R133 (their examples), SC-1: from a zero encoder history, `ENCODE` of 120 zero samples with the mSBC bit set
leaves the 57 bytes of the mSBC silence frame (R119, A-Z); from the reset decoder state, `DECODE` of that frame completes as
`OK` with 120 zero samples (R121, S-Z2). The CRC byte and the bits rest on
the default constants (log 9). -/
def Obligations.MsbcSilence : Prop :=
  (∀ (s : State) (i : Fin 10), s.cfg.getLsbD 0 = true → 120 ≤ s.pcmLeft.toNat → s.enc0 = .zeroAt i →
    (∀ a < 120, Mem.read s.pcmL a = some 0) →
    ∃ t, exec .encode s = .next t ∧ t.result = .ok ∧ t.frameLen = 57 ∧ t.enc0 = .zeroAt (i + 5) ∧ t.enc1 = s.enc1
      ∧ (List.range 57).map (Mem.read t.frameBuf) = ([0xAD, 0x00, 0x00, 0xC5, 0x00, 0x00, 0x00, 0x00,
          0x77, 0x6D, 0xB6, 0xDD, 0xDB, 0x6D, 0xB7, 0x76, 0xDB, 0x6D, 0xDD, 0xB6, 0xDB, 0x77, 0x6D, 0xB6,
          0xDD, 0xDB, 0x6D, 0xB7, 0x76, 0xDB, 0x6D, 0xDD, 0xB6, 0xDB, 0x77, 0x6D, 0xB6, 0xDD, 0xDB, 0x6D,
          0xB7, 0x76, 0xDB, 0x6D, 0xDD, 0xB6, 0xDB, 0x77, 0x6D, 0xB6, 0xDD, 0xDB, 0x6D, 0xB7, 0x76, 0xDB, 0x6C] : List Byte).map some)
  ∧ ∀ s : State, 57 ≤ s.frameLen.toNat → s.dec0 = .zeroAt 0 →
    (List.range 57).map (Mem.read s.frameBuf) = ([0xAD, 0x00, 0x00, 0xC5, 0x00, 0x00, 0x00, 0x00,
        0x77, 0x6D, 0xB6, 0xDD, 0xDB, 0x6D, 0xB7, 0x76, 0xDB, 0x6D, 0xDD, 0xB6, 0xDB, 0x77, 0x6D, 0xB6,
        0xDD, 0xDB, 0x6D, 0xB7, 0x76, 0xDB, 0x6D, 0xDD, 0xB6, 0xDB, 0x77, 0x6D, 0xB6, 0xDD, 0xDB, 0x6D,
        0xB7, 0x76, 0xDB, 0x6D, 0xDD, 0xB6, 0xDB, 0x77, 0x6D, 0xB6, 0xDD, 0xDB, 0x6D, 0xB7, 0x76, 0xDB, 0x6C] : List Byte).map some →
    ∃ t, exec .decode s = .next t ∧ t.result = .ok ∧ t.cfg = 0x001A43C1 ∧ t.pcmLeft = 120 ∧ t.pcmRight = 0
      ∧ t.dec0.sidx = 5 ∧ t.dec1 = s.dec1 ∧ ∀ a < 120, Mem.read t.pcmL a = some 0

/-! ### Invariants -/

/-- Every step keeps the invariant (R20, R23, R33, R17, R19, R28): canonical buffers of their size, reserved bits 0, no
`DONE` while busy, a bounded bitstream, a valid effective working descriptor. -/
def Obligations.StepKeepsInvariant : Prop := ∀ s t : State, CoreInv s → step s = .next t → CoreInv t

/-- The reset state has the invariant; its working state is the model's choice (log 6). -/
def Obligations.ResetHasInvariant : Prop := CoreInv State.reset
end

