-- ==== Sys2Proof/Laws/State.lean ====
section
/-! SUPPORT. One lemma per field per update of State, true by rfl: no later proof unfolds a record update. -/

namespace Sys2Proof.Machine

/-! ### `State.complete` -/

@[simp] theorem State.complete_inputs (k : ResultCode) (s : State) : (s.complete k).inputs = s.inputs := rfl
@[simp] theorem State.complete_hostData (k : ResultCode) (s : State) : (s.complete k).hostData = s.hostData := rfl
@[simp] theorem State.complete_phase (k : ResultCode) (s : State) : (s.complete k).phase = .idle := rfl
@[simp] theorem State.complete_done (k : ResultCode) (s : State) : (s.complete k).done = true := rfl
@[simp] theorem State.complete_result (k : ResultCode) (s : State) : (s.complete k).result = k := rfl
@[simp] theorem State.complete_cfg (k : ResultCode) (s : State) : (s.complete k).cfg = s.cfg := rfl
@[simp] theorem State.complete_frameLen (k : ResultCode) (s : State) : (s.complete k).frameLen = s.frameLen := rfl
@[simp] theorem State.complete_pcmLeft (k : ResultCode) (s : State) : (s.complete k).pcmLeft = s.pcmLeft := rfl
@[simp] theorem State.complete_pcmRight (k : ResultCode) (s : State) : (s.complete k).pcmRight = s.pcmRight := rfl
@[simp] theorem State.complete_frameBuf (k : ResultCode) (s : State) : (s.complete k).frameBuf = s.frameBuf := rfl
@[simp] theorem State.complete_pcmL (k : ResultCode) (s : State) : (s.complete k).pcmL = s.pcmL := rfl
@[simp] theorem State.complete_pcmR (k : ResultCode) (s : State) : (s.complete k).pcmR = s.pcmR := rfl
@[simp] theorem State.complete_enc0 (k : ResultCode) (s : State) : (s.complete k).enc0 = s.enc0 := rfl
@[simp] theorem State.complete_enc1 (k : ResultCode) (s : State) : (s.complete k).enc1 = s.enc1 := rfl
@[simp] theorem State.complete_dec0 (k : ResultCode) (s : State) : (s.complete k).dec0 = s.dec0 := rfl
@[simp] theorem State.complete_dec1 (k : ResultCode) (s : State) : (s.complete k).dec1 = s.dec1 := rfl
@[simp] theorem State.complete_pass (k : ResultCode) (s : State) : (s.complete k).pass = s.pass := rfl
@[simp] theorem State.complete_op (k : ResultCode) (s : State) : (s.complete k).op = s.op := rfl
@[simp] theorem State.complete_out (k : ResultCode) (s : State) : (s.complete k).out = s.out := rfl

/-! ### `State.start` -/

@[simp] theorem State.start_inputs (w : Word) (s : State) : (s.start w).inputs = s.inputs := rfl
@[simp] theorem State.start_hostData (w : Word) (s : State) : (s.start w).hostData = s.hostData := rfl
@[simp] theorem State.start_phase (w : Word) (s : State) : (s.start w).phase = .busy (.cmd w) := rfl
@[simp] theorem State.start_done (w : Word) (s : State) : (s.start w).done = false := rfl
@[simp] theorem State.start_result (w : Word) (s : State) : (s.start w).result = s.result := rfl
@[simp] theorem State.start_cfg (w : Word) (s : State) : (s.start w).cfg = s.cfg := rfl
@[simp] theorem State.start_frameLen (w : Word) (s : State) : (s.start w).frameLen = s.frameLen := rfl
@[simp] theorem State.start_pcmLeft (w : Word) (s : State) : (s.start w).pcmLeft = s.pcmLeft := rfl
@[simp] theorem State.start_pcmRight (w : Word) (s : State) : (s.start w).pcmRight = s.pcmRight := rfl
@[simp] theorem State.start_frameBuf (w : Word) (s : State) : (s.start w).frameBuf = s.frameBuf := rfl
@[simp] theorem State.start_pcmL (w : Word) (s : State) : (s.start w).pcmL = s.pcmL := rfl
@[simp] theorem State.start_pcmR (w : Word) (s : State) : (s.start w).pcmR = s.pcmR := rfl
@[simp] theorem State.start_enc0 (w : Word) (s : State) : (s.start w).enc0 = s.enc0 := rfl
@[simp] theorem State.start_enc1 (w : Word) (s : State) : (s.start w).enc1 = s.enc1 := rfl
@[simp] theorem State.start_dec0 (w : Word) (s : State) : (s.start w).dec0 = s.dec0 := rfl
@[simp] theorem State.start_dec1 (w : Word) (s : State) : (s.start w).dec1 = s.dec1 := rfl
@[simp] theorem State.start_pass (w : Word) (s : State) : (s.start w).pass = s.pass := rfl
@[simp] theorem State.start_op (w : Word) (s : State) : (s.start w).op = s.op := rfl
@[simp] theorem State.start_out (w : Word) (s : State) : (s.start w).out = s.out := rfl

/-! ### `State.setBs` -/

@[simp] theorem State.setBs_inputs (s : State) (bs : Bs) : (s.setBs bs).inputs = s.inputs := rfl
@[simp] theorem State.setBs_hostData (s : State) (bs : Bs) : (s.setBs bs).hostData = s.hostData := rfl
@[simp] theorem State.setBs_phase (s : State) (bs : Bs) : (s.setBs bs).phase = s.phase := rfl
@[simp] theorem State.setBs_done (s : State) (bs : Bs) : (s.setBs bs).done = s.done := rfl
@[simp] theorem State.setBs_result (s : State) (bs : Bs) : (s.setBs bs).result = s.result := rfl
@[simp] theorem State.setBs_cfg (s : State) (bs : Bs) : (s.setBs bs).cfg = s.cfg := rfl
@[simp] theorem State.setBs_frameLen (s : State) (bs : Bs) : (s.setBs bs).frameLen = s.frameLen := rfl
@[simp] theorem State.setBs_pcmLeft (s : State) (bs : Bs) : (s.setBs bs).pcmLeft = s.pcmLeft := rfl
@[simp] theorem State.setBs_pcmRight (s : State) (bs : Bs) : (s.setBs bs).pcmRight = s.pcmRight := rfl
@[simp] theorem State.setBs_frameBuf (s : State) (bs : Bs) : (s.setBs bs).frameBuf = s.frameBuf := rfl
@[simp] theorem State.setBs_pcmL (s : State) (bs : Bs) : (s.setBs bs).pcmL = s.pcmL := rfl
@[simp] theorem State.setBs_pcmR (s : State) (bs : Bs) : (s.setBs bs).pcmR = s.pcmR := rfl
@[simp] theorem State.setBs_enc0 (s : State) (bs : Bs) : (s.setBs bs).enc0 = s.enc0 := rfl
@[simp] theorem State.setBs_enc1 (s : State) (bs : Bs) : (s.setBs bs).enc1 = s.enc1 := rfl
@[simp] theorem State.setBs_dec0 (s : State) (bs : Bs) : (s.setBs bs).dec0 = s.dec0 := rfl
@[simp] theorem State.setBs_dec1 (s : State) (bs : Bs) : (s.setBs bs).dec1 = s.dec1 := rfl
@[simp] theorem State.setBs_pass (s : State) (bs : Bs) : (s.setBs bs).pass = { s.pass with bs := bs } := rfl
@[simp] theorem State.setBs_op (s : State) (bs : Bs) : (s.setBs bs).op = s.op := rfl
@[simp] theorem State.setBs_out (s : State) (bs : Bs) : (s.setBs bs).out = s.out := rfl

/-! ### `State.bind` -/

@[simp] theorem State.bind_inputs (dir : Dir) (size : Nat) (s : State) : (s.bind dir size).inputs = s.inputs := rfl
@[simp] theorem State.bind_hostData (dir : Dir) (size : Nat) (s : State) : (s.bind dir size).hostData = s.hostData := rfl
@[simp] theorem State.bind_phase (dir : Dir) (size : Nat) (s : State) : (s.bind dir size).phase = s.phase := rfl
@[simp] theorem State.bind_done (dir : Dir) (size : Nat) (s : State) : (s.bind dir size).done = s.done := rfl
@[simp] theorem State.bind_result (dir : Dir) (size : Nat) (s : State) : (s.bind dir size).result = s.result := rfl
@[simp] theorem State.bind_cfg (dir : Dir) (size : Nat) (s : State) : (s.bind dir size).cfg = s.cfg := rfl
@[simp] theorem State.bind_frameLen (dir : Dir) (size : Nat) (s : State) : (s.bind dir size).frameLen = s.frameLen := rfl
@[simp] theorem State.bind_pcmLeft (dir : Dir) (size : Nat) (s : State) : (s.bind dir size).pcmLeft = s.pcmLeft := rfl
@[simp] theorem State.bind_pcmRight (dir : Dir) (size : Nat) (s : State) : (s.bind dir size).pcmRight = s.pcmRight := rfl
@[simp] theorem State.bind_frameBuf (dir : Dir) (size : Nat) (s : State) : (s.bind dir size).frameBuf = s.frameBuf := rfl
@[simp] theorem State.bind_pcmL (dir : Dir) (size : Nat) (s : State) : (s.bind dir size).pcmL = s.pcmL := rfl
@[simp] theorem State.bind_pcmR (dir : Dir) (size : Nat) (s : State) : (s.bind dir size).pcmR = s.pcmR := rfl
@[simp] theorem State.bind_enc0 (dir : Dir) (size : Nat) (s : State) : (s.bind dir size).enc0 = s.enc0 := rfl
@[simp] theorem State.bind_enc1 (dir : Dir) (size : Nat) (s : State) : (s.bind dir size).enc1 = s.enc1 := rfl
@[simp] theorem State.bind_dec0 (dir : Dir) (size : Nat) (s : State) : (s.bind dir size).dec0 = s.dec0 := rfl
@[simp] theorem State.bind_dec1 (dir : Dir) (size : Nat) (s : State) : (s.bind dir size).dec1 = s.dec1 := rfl
@[simp] theorem State.bind_pass (dir : Dir) (size : Nat) (s : State) : (s.bind dir size).pass = { s.pass with bs := Bs.bind dir size } := rfl
@[simp] theorem State.bind_op (dir : Dir) (size : Nat) (s : State) : (s.bind dir size).op = s.op := rfl
@[simp] theorem State.bind_out (dir : Dir) (size : Nat) (s : State) : (s.bind dir size).out = s.out := rfl

/-! ### `State.setWriter` -/

@[simp] theorem State.setWriter_inputs (s : State) (w : Mem 8 × Bs) : (s.setWriter w).inputs = s.inputs := rfl
@[simp] theorem State.setWriter_hostData (s : State) (w : Mem 8 × Bs) : (s.setWriter w).hostData = s.hostData := rfl
@[simp] theorem State.setWriter_phase (s : State) (w : Mem 8 × Bs) : (s.setWriter w).phase = s.phase := rfl
@[simp] theorem State.setWriter_done (s : State) (w : Mem 8 × Bs) : (s.setWriter w).done = s.done := rfl
@[simp] theorem State.setWriter_result (s : State) (w : Mem 8 × Bs) : (s.setWriter w).result = s.result := rfl
@[simp] theorem State.setWriter_cfg (s : State) (w : Mem 8 × Bs) : (s.setWriter w).cfg = s.cfg := rfl
@[simp] theorem State.setWriter_frameLen (s : State) (w : Mem 8 × Bs) : (s.setWriter w).frameLen = s.frameLen := rfl
@[simp] theorem State.setWriter_pcmLeft (s : State) (w : Mem 8 × Bs) : (s.setWriter w).pcmLeft = s.pcmLeft := rfl
@[simp] theorem State.setWriter_pcmRight (s : State) (w : Mem 8 × Bs) : (s.setWriter w).pcmRight = s.pcmRight := rfl
@[simp] theorem State.setWriter_frameBuf (s : State) (w : Mem 8 × Bs) : (s.setWriter w).frameBuf = w.1 := rfl
@[simp] theorem State.setWriter_pcmL (s : State) (w : Mem 8 × Bs) : (s.setWriter w).pcmL = s.pcmL := rfl
@[simp] theorem State.setWriter_pcmR (s : State) (w : Mem 8 × Bs) : (s.setWriter w).pcmR = s.pcmR := rfl
@[simp] theorem State.setWriter_enc0 (s : State) (w : Mem 8 × Bs) : (s.setWriter w).enc0 = s.enc0 := rfl
@[simp] theorem State.setWriter_enc1 (s : State) (w : Mem 8 × Bs) : (s.setWriter w).enc1 = s.enc1 := rfl
@[simp] theorem State.setWriter_dec0 (s : State) (w : Mem 8 × Bs) : (s.setWriter w).dec0 = s.dec0 := rfl
@[simp] theorem State.setWriter_dec1 (s : State) (w : Mem 8 × Bs) : (s.setWriter w).dec1 = s.dec1 := rfl
@[simp] theorem State.setWriter_pass (s : State) (w : Mem 8 × Bs) : (s.setWriter w).pass = { s.pass with bs := w.2 } := rfl
@[simp] theorem State.setWriter_op (s : State) (w : Mem 8 × Bs) : (s.setWriter w).op = s.op := rfl
@[simp] theorem State.setWriter_out (s : State) (w : Mem 8 × Bs) : (s.setWriter w).out = s.out := rfl

/-! ### The channel accessors -/

@[simp] theorem State.enc_zero (s : State) : s.enc 0 = s.enc0 := rfl
@[simp] theorem State.enc_one (s : State) : s.enc 1 = s.enc1 := rfl
@[simp] theorem State.dec_zero (s : State) : s.dec 0 = s.dec0 := rfl
@[simp] theorem State.dec_one (s : State) : s.dec 1 = s.dec1 := rfl
@[simp] theorem State.setEnc_zero (s : State) (e : EncChan) : s.setEnc 0 e = { s with enc0 := e } := rfl
@[simp] theorem State.setEnc_one (s : State) (e : EncChan) : s.setEnc 1 e = { s with enc1 := e } := rfl
@[simp] theorem State.setDec_zero (s : State) (e : DecChan) : s.setDec 0 e = { s with dec0 := e } := rfl
@[simp] theorem State.setDec_one (s : State) (e : DecChan) : s.setDec 1 e = { s with dec1 := e } := rfl
@[simp] theorem State.enc_setEnc (s : State) (c : Fin 2) (e : EncChan) : (s.setEnc c e).enc c = e := by
  unfold State.enc State.setEnc; split <;> rfl
@[simp] theorem State.dec_setDec (s : State) (c : Fin 2) (e : DecChan) : (s.setDec c e).dec c = e := by
  unfold State.dec State.setDec; split <;> rfl
@[simp] theorem fbReset_enc (s : State) : fbReset .enc s = { s with enc0 := .zeroAt 0, enc1 := .zeroAt 0 } := rfl
@[simp] theorem fbReset_dec (s : State) : fbReset .dec s = { s with dec0 := .zeroAt 0, dec1 := .zeroAt 0 } := rfl

/-! ### The bitstream -/

@[simp] theorem Bs.noteError_dir (b : Bool) (bs : Bs) : (bs.noteError b).dir = bs.dir := rfl
@[simp] theorem Bs.noteError_size (b : Bool) (bs : Bs) : (bs.noteError b).size = bs.size := rfl
@[simp] theorem Bs.noteError_pos (b : Bool) (bs : Bs) : (bs.noteError b).pos = bs.pos := rfl
@[simp] theorem Bs.noteError_acc (b : Bool) (bs : Bs) : (bs.noteError b).acc = bs.acc := rfl
@[simp] theorem Bs.noteError_err (b : Bool) (bs : Bs) : (bs.noteError b).err = (bs.err || b) := rfl
@[simp] theorem State.writer_fst (s : State) : s.writer.1 = s.frameBuf := rfl
@[simp] theorem State.writer_snd (s : State) : s.writer.2 = s.pass.bs := rfl

/-! ### What the sequencer and the host leave of `STATUS` -/

@[simp] theorem Phase.isBusy_idle : Phase.idle.isBusy = false := rfl
@[simp] theorem Phase.isBusy_busy (p : Pending) : (Phase.busy p).isBusy = true := rfl
@[simp] theorem State.withPending_inputs (s : State) (p : Pending) : (s.withPending p).inputs = .sequencer :: s.inputs := rfl
@[simp] theorem State.withPending_phase (s : State) (p : Pending) : (s.withPending p).phase = .busy p := rfl

/-- The reset value of the working descriptor is `MSBC_D`. -/
theorem resetDesc_eq : resetDesc = msbcDesc := rfl

end Sys2Proof.Machine
end

