-- ==== Sys2Proof/Laws/Mem.lean ====
section
/-! SUPPORT. The laws of the buffers: read after write, and that every buffer operation keeps the canonical form. -/

namespace Sys2Proof.Machine

variable {w : Nat}

@[simp] theorem Mem.read_nil (a : Nat) : Mem.read ([] : Mem w) a = none := rfl

/-- A read after a write at the same index gives the value written. -/
@[simp] theorem Mem.read_write_same (m : Mem w) (a : Nat) (v : BitVec w) : Mem.read (Mem.write m a v) a = some v := by
  induction m with
  | nil => simp [Mem.write, Mem.read]
  | cons p m ih =>
    obtain ⟨k, x⟩ := p
    simp only [Mem.write]
    split
    · simp [Mem.read]
    · split
      · simp [Mem.read]
      · rename_i h1 h2
        simp [Mem.read, Ne.symm h2, ih]

/-- A write leaves every other index alone. -/
theorem Mem.read_write_other (m : Mem w) {a b : Nat} (v : BitVec w) (h : b ≠ a) :
    Mem.read (Mem.write m a v) b = Mem.read m b := by
  induction m with
  | nil => simp [Mem.write, Mem.read, Ne.symm h]
  | cons p m ih =>
    obtain ⟨k, x⟩ := p
    simp only [Mem.write]
    split
    · simp [Mem.read, Ne.symm h]
    · split
      · rename_i h1 h2
        subst h2
        simp [Mem.read, Ne.symm h]
      · simp [Mem.read, ih]

theorem Mem.read_write (m : Mem w) (a b : Nat) (v : BitVec w) :
    Mem.read (Mem.write m a v) b = if b = a then some v else Mem.read m b := by
  by_cases h : b = a
  · simp [h]
  · simp [h, Mem.read_write_other m v h]

/-- The indexes after a write are the old ones and the written one. -/
theorem Mem.mem_write (m : Mem w) (a : Nat) (v : BitVec w) (p : Nat × BitVec w) (h : p ∈ Mem.write m a v) :
    p = (a, v) ∨ p ∈ m := by
  induction m with
  | nil => simpa [Mem.write] using h
  | cons q m ih =>
    obtain ⟨k, x⟩ := q
    simp only [Mem.write] at h
    split at h
    · simpa using h
    · split at h
      · rcases List.mem_cons.1 h with h | h
        · exact .inl h
        · exact .inr (List.mem_cons_of_mem _ h)
      · rcases List.mem_cons.1 h with h | h
        · exact .inr (h ▸ List.mem_cons_self)
        · exact (ih h).imp id (List.mem_cons_of_mem _)

/-- The canonical form of a list with a head. -/
theorem Mem.wf_cons {bound k : Nat} {x : BitVec w} {m : Mem w} :
    Mem.wf bound ((k, x) :: m) ↔ k < bound ∧ (∀ p ∈ m, k < p.1) ∧ Mem.wf bound m := by
  simp only [Mem.wf, List.map_cons, List.pairwise_cons, List.mem_map, forall_exists_index, and_imp,
    forall_apply_eq_imp_iff₂, List.mem_cons, forall_eq_or_imp]
  tauto

/-- A write inside the buffer keeps the canonical form. -/
theorem Mem.write_wf {bound : Nat} {m : Mem w} (hm : Mem.wf bound m) {a : Nat} (ha : a < bound) (v : BitVec w) :
    Mem.wf bound (Mem.write m a v) := by
  induction m with
  | nil => exact Mem.wf_cons.2 ⟨ha, by simp, by simp [Mem.wf]⟩
  | cons p m ih =>
    obtain ⟨k, x⟩ := p
    obtain ⟨hk, hlt, hm'⟩ := Mem.wf_cons.1 hm
    simp only [Mem.write]
    split
    · rename_i h
      refine Mem.wf_cons.2 ⟨ha, ?_, hm⟩
      intro p hp
      rcases List.mem_cons.1 hp with hp | hp
      · simpa [hp] using h
      · exact h.trans (hlt p hp)
    · split
      · rename_i h
        subst h
        exact Mem.wf_cons.2 ⟨ha, hlt, hm'⟩
      · rename_i h1 h2
        refine Mem.wf_cons.2 ⟨hk, ?_, ih hm'⟩
        intro p hp
        rcases Mem.mem_write m a v p hp with hp | hp
        · simp only [hp]; omega
        · exact hlt p hp

/-- A list write inside the buffer keeps the canonical form. -/
theorem Mem.writeList_wf {bound : Nat} (vs : List (BitVec w)) {m : Mem w} (hm : Mem.wf bound m) {a : Nat}
    (ha : a + vs.length ≤ bound) : Mem.wf bound (Mem.writeList m a vs) := by
  induction vs generalizing m a with
  | nil => exact hm
  | cons v vs ih =>
    simp only [List.length_cons] at ha
    exact ih (Mem.write_wf hm (by omega) v) (by omega)

/-- A list write reads back where it wrote, and leaves every other index alone. -/
theorem Mem.read_writeList (vs : List (BitVec w)) (m : Mem w) (a b : Nat) :
    Mem.read (Mem.writeList m a vs) b = if a ≤ b ∧ b < a + vs.length then vs[b - a]? else Mem.read m b := by
  induction vs generalizing m a with
  | nil =>
    simp only [Mem.writeList, List.length_nil, Nat.add_zero]
    rw [if_neg (by omega)]
  | cons v vs ih =>
    simp only [Mem.writeList, ih, Mem.read_write, List.length_cons]
    by_cases h1 : a + 1 ≤ b ∧ b < a + 1 + vs.length
    · obtain ⟨k, rfl⟩ : ∃ k, b = a + 1 + k := ⟨b - (a + 1), by omega⟩
      rw [if_pos h1, if_pos (by omega)]
      rw [show a + 1 + k - (a + 1) = k by omega, show a + 1 + k - a = k + 1 by omega]
      simp
    · rw [if_neg h1]
      by_cases h2 : b = a
      · subst h2
        rw [if_pos rfl, if_pos (by omega)]
        simp
      · rw [if_neg h2, if_neg (by omega)]

/-- A list stored from index 0 is written there, and nothing else changes. -/
theorem Mem.writeList_written (m : Mem w) (vs : List (BitVec w)) :
    Mem.written (Mem.writeList m 0 vs) 0 vs.length ∧ Mem.sameOutside m (Mem.writeList m 0 vs) 0 vs.length := by
  refine ⟨fun a _ ha => ?_, fun a ha => ?_⟩
  · rw [Mem.read_writeList, if_pos (by omega)]; simp; omega
  · rw [Mem.read_writeList, if_neg (by omega)]

/-- The empty buffer is canonical. -/
theorem Mem.wf_nil (bound : Nat) : Mem.wf bound ([] : Mem w) := by simp [Mem.wf]

end Sys2Proof.Machine
end

