-- ==== Sys2Proof/Laws/Outcome.lean ====
section
/-! SUPPORT. What sequencing, a command and an internal operation can do: the inversions every later proof cites. -/

namespace Sys2Proof.Machine

@[simp] theorem Micro.ok_andThen (s : State) (f : State → Micro) : (Micro.ok s).andThen f = f s := rfl
@[simp] theorem Micro.raised_andThen (k : ResultCode) (s : State) (f : State → Micro) :
    (Micro.raised k s).andThen f = .raised k s := rfl
@[simp] theorem Micro.fault_andThen (e : Fault) (f : State → Micro) : (Micro.fault e).andThen f = .fault e := rfl
@[simp] theorem Micro.refused_andThen (r : Refusal) (f : State → Micro) : (Micro.refused r).andThen f = .refused r := rfl

/-- A sequence ran: its first part ran, and the rest ran from there. -/
theorem Micro.andThen_ok {m : Micro} {f : State → Micro} {t : State} :
    m.andThen f = .ok t ↔ ∃ u, m = .ok u ∧ f u = .ok t := by
  cases m <;> simp

/-- A sequence raised: its first part did, or the rest did. -/
theorem Micro.andThen_raised {m : Micro} {f : State → Micro} {k : ResultCode} {t : State} :
    m.andThen f = .raised k t ↔ m = .raised k t ∨ ∃ u, m = .ok u ∧ f u = .raised k t := by
  cases m <;> simp

theorem Micro.andThen_assoc (m : Micro) (f g : State → Micro) :
    (m.andThen f).andThen g = m.andThen fun s => (f s).andThen g := by
  cases m <;> rfl

/-- `P` holds of the state a micro-operation leaves, whether it ran or raised. -/
def Micro.All (P : State → Prop) : Micro → Prop
  | .ok s => P s
  | .raised _ s => P s
  | .fault _ => True
  | .refused _ => True

@[simp] theorem Micro.all_ok (P : State → Prop) (s : State) : (Micro.ok s).All P ↔ P s := .rfl
@[simp] theorem Micro.all_raised (P : State → Prop) (k : ResultCode) (s : State) : (Micro.raised k s).All P ↔ P s := .rfl
@[simp] theorem Micro.all_fault (P : State → Prop) (f : Fault) : (Micro.fault f).All P ↔ True := .rfl
@[simp] theorem Micro.all_refused (P : State → Prop) (r : Refusal) : (Micro.refused r).All P ↔ True := .rfl

/-- A property every part of a sequence keeps is kept by the sequence. -/
theorem Micro.all_andThen {P : State → Prop} {m : Micro} {f : State → Micro} (hm : m.All P) (hf : ∀ u, P u → (f u).All P) :
    (m.andThen f).All P := by
  cases m with
  | ok s => exact hf s hm
  | raised k s => exact hm
  | fault e => trivial
  | refused r => trivial

theorem Micro.All.imp {P Q : State → Prop} {m : Micro} (hm : m.All P) (h : ∀ u, P u → Q u) : m.All Q := by
  cases m with
  | ok s => exact h s hm
  | raised k s => exact h s hm
  | fault e => trivial
  | refused r => trivial

/-- A command answers a next state exactly when its body runs or raises. -/
theorem runCommand_next {w : Word} {body : State → Micro} {s t : State} :
    runCommand w body s = .next t ↔
      (∃ u, body (s.start w) = .ok u ∧ t = u.complete .ok) ∨ ∃ k u, body (s.start w) = .raised k u ∧ t = u.complete k := by
  unfold runCommand
  cases h : body (s.start w) <;> simp [eq_comm]

theorem runCommand_of_ok {w : Word} {body : State → Micro} {s u : State} (h : body (s.start w) = .ok u) :
    runCommand w body s = .next (u.complete .ok) := by simp [runCommand, h]

theorem runCommand_of_raised {w : Word} {body : State → Micro} {s u : State} {k : ResultCode}
    (h : body (s.start w) = .raised k u) : runCommand w body s = .next (u.complete k) := by simp [runCommand, h]

/-- An internal operation answers a next state exactly when its body runs or raises. -/
theorem runUop_next {body : State → Micro} {s t : State} :
    runUop body s = .next t ↔ body s = .ok t ∨ ∃ k u, body s = .raised k u ∧ t = u.complete k := by
  unfold runUop
  cases h : body s <;> simp [eq_comm]

theorem runUop_of_ok {body : State → Micro} {s u : State} (h : body s = .ok u) : runUop body s = .next u := by
  simp [runUop, h]

theorem runUop_of_raised {body : State → Micro} {s u : State} {k : ResultCode} (h : body s = .raised k u) :
    runUop body s = .next (u.complete k) := by simp [runUop, h]

/-- What holds of the body's states, the command being started, holds of the completed one. -/
theorem runCommand_all {P Q : State → Prop} {w : Word} {body : State → Micro} {s t : State}
    (hb : (body (s.start w)).All P) (h : ∀ k u, P u → Q (u.complete k)) (ht : runCommand w body s = .next t) : Q t := by
  rcases runCommand_next.1 ht with ⟨u, hu, rfl⟩ | ⟨k, u, hu, rfl⟩
  · exact h _ _ (by simpa [hu] using hb)
  · exact h _ _ (by simpa [hu] using hb)

theorem runUop_all {P : State → Prop} {body : State → Micro} {s t : State}
    (hb : (body s).All P) (h : ∀ k u, P u → P (u.complete k)) (ht : runUop body s = .next t) : P t := by
  rcases runUop_next.1 ht with hu | ⟨k, u, hu, rfl⟩
  · simpa [hu] using hb
  · exact h _ _ (by simpa [hu] using hb)

end Sys2Proof.Machine
end

