-- ==== Sys2Proof/Laws/Bitstream.lean ====
section
/-! SUPPORT. What the bitstream operations do: positions, the sticky flag, which bytes a writer leaves alone, and what a
reader gets back from a writer. -/

namespace Sys2Proof.Machine

/-! ### The writer -/

/-- One appended bit counts one position, keeps the declared size and never clears the flag. -/
@[simp] theorem Bs.putBit_pos (b : Bool) (w : Mem 8 × Bs) : (Bs.putBit b w).2.pos = w.2.pos + 1 := by
  unfold Bs.putBit
  dsimp only
  split
  · split <;> rfl
  · rfl

@[simp] theorem Bs.putBit_size (b : Bool) (w : Mem 8 × Bs) : (Bs.putBit b w).2.size = w.2.size := by
  unfold Bs.putBit
  dsimp only
  split
  · split <;> rfl
  · rfl

@[simp] theorem Bs.putBit_dir (b : Bool) (w : Mem 8 × Bs) : (Bs.putBit b w).2.dir = w.2.dir := by
  unfold Bs.putBit
  dsimp only
  split
  · split <;> rfl
  · rfl

theorem Bs.putBit_err (b : Bool) (w : Mem 8 × Bs) (h : w.2.err = true) : (Bs.putBit b w).2.err = true := by
  unfold Bs.putBit
  dsimp only
  split
  · split <;> simp [h]
  · exact h

/-- The pending bits stay fewer than eight, and no more than the positions counted. -/
theorem Bs.putBit_acc_lt (b : Bool) (w : Mem 8 × Bs) (h : w.2.acc.length < 8) : (Bs.putBit b w).2.acc.length < 8 := by
  unfold Bs.putBit
  dsimp only
  split
  · split <;> simp
  · rename_i h1
    simp only [List.length_append, List.length_singleton] at h1 ⊢
    omega

theorem Bs.putBit_acc_le_pos (b : Bool) (w : Mem 8 × Bs) (h : w.2.acc.length ≤ w.2.pos) :
    (Bs.putBit b w).2.acc.length ≤ (Bs.putBit b w).2.pos := by
  rw [Bs.putBit_pos]
  unfold Bs.putBit
  dsimp only
  split
  · split <;> simp
  · simp only [List.length_append, List.length_singleton]
    omega

/-- The writer stores only below its declared size (R68), and never below the byte its position is in. -/
theorem Bs.read_putBit (b : Bool) (w : Mem 8 × Bs) (a : Nat) (h : w.2.size ≤ a ∨ (w.2.acc.length ≤ w.2.pos % 8 ∧ a < w.2.pos / 8)) :
    Mem.read (Bs.putBit b w).1 a = Mem.read w.1 a := by
  unfold Bs.putBit
  dsimp only
  split
  · rename_i h8
    simp only [List.length_append, List.length_singleton] at h8
    split
    · exact Mem.read_write_other _ _ (by omega)
    · rfl
  · rfl

theorem Bs.putBit_wf (b : Bool) (w : Mem 8 × Bs) {bound : Nat} (hm : Mem.wf bound w.1) (hs : w.2.size ≤ bound) :
    Mem.wf bound (Bs.putBit b w).1 := by
  unfold Bs.putBit
  dsimp only
  split
  · split
    · exact Mem.write_wf hm (by omega) _
    · exact hm
  · exact hm

@[simp] theorem Bs.putBits_pos (v : Word) (n : Nat) (w : Mem 8 × Bs) : (Bs.putBits v n w).2.pos = w.2.pos + n := by
  induction n generalizing w with
  | zero => rfl
  | succ n ih => simp only [Bs.putBits, ih, Bs.putBit_pos]; omega

@[simp] theorem Bs.putBits_size (v : Word) (n : Nat) (w : Mem 8 × Bs) : (Bs.putBits v n w).2.size = w.2.size := by
  induction n generalizing w with
  | zero => rfl
  | succ n ih => simp only [Bs.putBits, ih, Bs.putBit_size]

@[simp] theorem Bs.putBits_dir (v : Word) (n : Nat) (w : Mem 8 × Bs) : (Bs.putBits v n w).2.dir = w.2.dir := by
  induction n generalizing w with
  | zero => rfl
  | succ n ih => simp only [Bs.putBits, ih, Bs.putBit_dir]

theorem Bs.putBits_err (v : Word) (n : Nat) (w : Mem 8 × Bs) (h : w.2.err = true) : (Bs.putBits v n w).2.err = true := by
  induction n generalizing w with
  | zero => exact h
  | succ n ih => exact ih _ (Bs.putBit_err _ _ h)

@[simp] theorem Bs.putFields_pos (fs : List (Word × Nat)) (w : Mem 8 × Bs) :
    (Bs.putFields fs w).2.pos = w.2.pos + (fs.map Prod.snd).sum := by
  induction fs generalizing w with
  | nil => rfl
  | cons f fs ih => simp only [Bs.putFields, ih, Bs.putBits_pos, List.map_cons, List.sum_cons]; omega

@[simp] theorem Bs.putFields_size (fs : List (Word × Nat)) (w : Mem 8 × Bs) : (Bs.putFields fs w).2.size = w.2.size := by
  induction fs generalizing w with
  | nil => rfl
  | cons f fs ih => simp only [Bs.putFields, ih, Bs.putBits_size]

@[simp] theorem Bs.putFields_dir (fs : List (Word × Nat)) (w : Mem 8 × Bs) : (Bs.putFields fs w).2.dir = w.2.dir := by
  induction fs generalizing w with
  | nil => rfl
  | cons f fs ih => simp only [Bs.putFields, ih, Bs.putBits_dir]

/-- What a writer keeps, whatever it appends: a buffer in canonical form, a declared size inside it, fewer than eight
pending bits, all of them counted. -/
structure WriterOk (bound : Nat) (w : Mem 8 × Bs) : Prop where
  wf : Mem.wf bound w.1
  size_le : w.2.size ≤ bound
  acc_lt : w.2.acc.length < 8
  acc_le_pos : w.2.acc.length ≤ w.2.pos

theorem WriterOk.putBit {bound : Nat} {w : Mem 8 × Bs} (h : WriterOk bound w) (b : Bool) : WriterOk bound (Bs.putBit b w) :=
  ⟨Bs.putBit_wf b w h.wf h.size_le, by simpa using h.size_le, Bs.putBit_acc_lt b w h.acc_lt, Bs.putBit_acc_le_pos b w h.acc_le_pos⟩

theorem WriterOk.putBits {bound : Nat} {w : Mem 8 × Bs} (h : WriterOk bound w) (v : Word) (n : Nat) :
    WriterOk bound (Bs.putBits v n w) := by
  induction n generalizing w with
  | zero => exact h
  | succ n ih => exact ih (h.putBit _)

theorem WriterOk.putFields {bound : Nat} {w : Mem 8 × Bs} (h : WriterOk bound w) (fs : List (Word × Nat)) :
    WriterOk bound (Bs.putFields fs w) := by
  induction fs generalizing w with
  | nil => exact h
  | cons f fs ih => exact ih (h.putBits _ _)

theorem WriterOk.flush {bound : Nat} {w : Mem 8 × Bs} (h : WriterOk bound w) : WriterOk bound (Bs.flush w) := by
  unfold Bs.flush
  split
  · exact h
  · exact h.putBits _ _

/-- A writer leaves every byte at or past its declared size as it was (R68, R72). -/
theorem Bs.read_putBits_outside (v : Word) (n : Nat) (w : Mem 8 × Bs) {a : Nat} (h : w.2.size ≤ a) :
    Mem.read (Bs.putBits v n w).1 a = Mem.read w.1 a := by
  induction n generalizing w with
  | zero => rfl
  | succ n ih => rw [Bs.putBits, ih _ (by simpa using h), Bs.read_putBit _ _ _ (.inl h)]

theorem Bs.read_putFields_outside (fs : List (Word × Nat)) (w : Mem 8 × Bs) {a : Nat} (h : w.2.size ≤ a) :
    Mem.read (Bs.putFields fs w).1 a = Mem.read w.1 a := by
  induction fs generalizing w with
  | nil => rfl
  | cons f fs ih => rw [Bs.putFields, ih _ (by simpa using h), Bs.read_putBits_outside _ _ _ h]

theorem Bs.read_flush_outside (w : Mem 8 × Bs) {a : Nat} (h : w.2.size ≤ a) : Mem.read (Bs.flush w).1 a = Mem.read w.1 a := by
  unfold Bs.flush
  split
  · rfl
  · exact Bs.read_putBits_outside _ _ _ h

@[simp] theorem Bs.flush_size (w : Mem 8 × Bs) : (Bs.flush w).2.size = w.2.size := by
  unfold Bs.flush
  split <;> simp

/-! ### What a writer has written -/

/-- The bits of a field, first transmitted first (R40). -/
def fieldBits (v : Word) : Nat → List Bool
  | 0 => []
  | n + 1 => v.getLsbD n :: fieldBits v n

/-- The bits of several fields. -/
def bitsOfFields (fs : List (Word × Nat)) : List Bool := fs.flatMap fun f => fieldBits f.1 f.2

@[simp] theorem fieldBits_length (v : Word) (n : Nat) : (fieldBits v n).length = n := by
  induction n with
  | zero => rfl
  | succ n ih => simp [fieldBits, ih]

/-- From a buffer `m` and a bitstream `b` the writer has got to `w`; `bits` are the bits from where the pending ones of `b`
began, those first. The completed bytes inside the declared size are stored, the rest is pending, no other byte has
changed, and the flag is set exactly when a completed byte lay outside (R68, R72). -/
structure Wrote (m : Mem 8) (b : Bs) (bits : List Bool) (w : Mem 8 × Bs) : Prop where
  dir : w.2.dir = b.dir
  size : w.2.size = b.size
  pos : w.2.pos = b.pos - b.acc.length + bits.length
  acc : w.2.acc = bits.drop (8 * (bits.length / 8))
  err : w.2.err = (b.err || decide (0 < bits.length / 8 ∧ b.size < (b.pos - b.acc.length) / 8 + bits.length / 8))
  stored : ∀ p, p < 8 * (bits.length / 8) → (b.pos - b.acc.length) / 8 + p / 8 < b.size →
    frameBit w.1 (8 * ((b.pos - b.acc.length) / 8) + p) = bits[p]?
  other : ∀ a, a < (b.pos - b.acc.length) / 8 ∨ min ((b.pos - b.acc.length) / 8 + bits.length / 8) b.size ≤ a →
    Mem.read w.1 a = Mem.read m a

/-- Bit `7 - k` of the byte of eight bits is bit `k` of the list. -/
theorem byteOfBits_getLsbD : ∀ (k : Fin 8) (b0 b1 b2 b3 b4 b5 b6 b7 : Bool),
    [b0, b1, b2, b3, b4, b5, b6, b7][k.val]? = some ((byteOfBits [b0, b1, b2, b3, b4, b5, b6, b7]).getLsbD (7 - k.val)) := by
  decide +kernel

theorem byteOfBits_get (bits : List Bool) (h : bits.length = 8) (k : Nat) (hk : k < 8) :
    bits[k]? = some ((byteOfBits bits).getLsbD (7 - k)) := by
  match bits, h with
  | [b0, b1, b2, b3, b4, b5, b6, b7], _ => exact byteOfBits_getLsbD ⟨k, hk⟩ b0 b1 b2 b3 b4 b5 b6 b7

/-- A writer with fewer than eight pending bits has written nothing more yet. -/
theorem Wrote.start (m : Mem 8) (b : Bs) (h : b.acc.length < 8) (hp : b.acc.length ≤ b.pos) : Wrote m b b.acc (m, b) := by
  have h0 : b.acc.length / 8 = 0 := by omega
  refine ⟨rfl, rfl, by dsimp only; omega, by simp [h0], by simp [h0], fun p hp => by omega, fun _ _ => rfl⟩

/-- One more bit. -/
theorem Wrote.putBit {m : Mem 8} {b : Bs} {bits : List Bool} {w : Mem 8 × Bs} (h : Wrote m b bits w) (x : Bool) :
    Wrote m b (bits ++ [x]) (Bs.putBit x w) := by
  have hacc : (w.2.acc ++ [x]).length = bits.length % 8 + 1 := by
    rw [h.acc]; simp only [List.length_append, List.length_drop, List.length_singleton]; omega
  have hdrop : w.2.acc ++ [x] = (bits ++ [x]).drop (8 * (bits.length / 8)) := by
    rw [h.acc, List.drop_append_of_le_length (by omega)]
  have hpos : w.2.pos + 1 = b.pos - b.acc.length + (bits.length + 1) := by rw [h.pos]; omega
  unfold Bs.putBit
  dsimp only
  by_cases h8 : bits.length % 8 = 7
  · rw [if_pos (by omega)]
    have hlen : (bits ++ [x]).length / 8 = bits.length / 8 + 1 := by simp only [List.length_append, List.length_singleton]; omega
    have hidx : (w.2.pos + 1) / 8 - 1 = (b.pos - b.acc.length) / 8 + bits.length / 8 := by omega
    have hnil : (bits ++ [x]).drop (8 * ((bits ++ [x]).length / 8)) = [] := by
      rw [List.drop_eq_nil_iff, hlen]; simp only [List.length_append, List.length_singleton]; omega
    rw [hidx]
    by_cases hs : (b.pos - b.acc.length) / 8 + bits.length / 8 < w.2.size
    · rw [if_pos hs]
      rw [h.size] at hs
      refine ⟨h.dir, h.size, by simpa using hpos, hnil.symm, ?_, ?_, ?_⟩
      · rw [hlen]
        dsimp only
        rw [h.err]
        congr 1
        simp only [decide_eq_decide]
        omega
      · intro p hp hps
        rw [hlen] at hp
        simp only [frameBit]
        rw [Mem.read_write, show (8 * ((b.pos - b.acc.length) / 8) + p) / 8 = (b.pos - b.acc.length) / 8 + p / 8 by omega, show (8 * ((b.pos - b.acc.length) / 8) + p) % 8 = p % 8 by omega]
        by_cases hpb : p / 8 = bits.length / 8
        · rw [if_pos (by omega), Option.map_some]
          have hk : p % 8 < 8 := Nat.mod_lt _ (by omega)
          rw [← byteOfBits_get _ (by omega) _ hk, hdrop, List.getElem?_drop]
          congr 1
          omega
        · rw [if_neg (by omega)]
          have := h.stored p (by omega) hps
          rw [frameBit, show (8 * ((b.pos - b.acc.length) / 8) + p) / 8 = (b.pos - b.acc.length) / 8 + p / 8 by omega,
            show (8 * ((b.pos - b.acc.length) / 8) + p) % 8 = p % 8 by omega] at this
          rw [this, List.getElem?_append_left (by omega)]
      · intro a ha
        rw [hlen] at ha
        rw [Mem.read_write, if_neg (by omega)]
        exact h.other a (by omega)
    · rw [if_neg hs]
      rw [h.size] at hs
      refine ⟨h.dir, h.size, by simpa [Bs.noteError] using hpos, by rw [hnil]; rfl, ?_, ?_, ?_⟩
      · rw [hlen]
        simp only [Bs.noteError, Bool.or_true]
        rw [decide_eq_true (by omega), Bool.or_true]
      · intro p hp hps
        rw [hlen] at hp
        rw [List.getElem?_append_left (by omega)]
        exact h.stored p (by omega) hps
      · intro a ha
        rw [hlen] at ha
        exact h.other a (by omega)
  · rw [if_neg (by omega)]
    have hlen : (bits ++ [x]).length / 8 = bits.length / 8 := by simp only [List.length_append, List.length_singleton]; omega
    refine ⟨h.dir, h.size, by simpa using hpos, by rw [hlen]; exact hdrop, by rw [hlen]; exact h.err, ?_, by rw [hlen]; exact h.other⟩
    intro p hp hps
    rw [hlen] at hp
    rw [List.getElem?_append_left (by omega)]
    exact h.stored p hp hps

theorem Wrote.putBits {m : Mem 8} {b : Bs} {bits : List Bool} {w : Mem 8 × Bs} (h : Wrote m b bits w) (v : Word) (n : Nat) :
    Wrote m b (bits ++ fieldBits v n) (Bs.putBits v n w) := by
  induction n generalizing bits w with
  | zero => simpa [fieldBits, Bs.putBits] using h
  | succ n ih => simpa [fieldBits, Bs.putBits] using ih (h.putBit (v.getLsbD n))

/-- Several fields appended. -/
theorem Wrote.putFields {m : Mem 8} {b : Bs} {bits : List Bool} {w : Mem 8 × Bs} (h : Wrote m b bits w) (fs : List (Word × Nat)) :
    Wrote m b (bits ++ bitsOfFields fs) (Bs.putFields fs w) := by
  induction fs generalizing bits w with
  | nil => simpa [bitsOfFields, Bs.putFields] using h
  | cons f fs ih => simpa [bitsOfFields, Bs.putFields] using ih (h.putBits f.1 f.2)

/-- Flushing pads with zero bits up to the byte boundary (R69). -/
theorem Wrote.flush {m : Mem 8} {b : Bs} {bits : List Bool} {w : Mem 8 × Bs} (h : Wrote m b bits w) :
    Wrote m b (bits ++ fieldBits 0 ((8 - bits.length % 8) % 8)) (Bs.flush w) := by
  have hlen : w.2.acc.length = bits.length % 8 := by rw [h.acc]; simp only [List.length_drop]; omega
  unfold Bs.flush
  by_cases h0 : bits.length % 8 = 0
  · rw [if_pos (List.eq_nil_of_length_eq_zero (by omega)), h0]
    simpa [fieldBits] using h
  · rw [if_neg (by intro hn; rw [hn] at hlen; simp at hlen; omega), hlen, show (8 - bits.length % 8) % 8 = 8 - bits.length % 8 by omega]
    exact h.putBits 0 _

@[simp] theorem bitsOfFields_length (fs : List (Word × Nat)) : (bitsOfFields fs).length = (fs.map Prod.snd).sum := by
  induction fs with
  | nil => rfl
  | cons f fs ih => simp [bitsOfFields]

/-- Once the last byte is complete, every bit inside the declared size can be read back. -/
theorem Wrote.frameBit {m : Mem 8} {b : Bs} {bits : List Bool} {w : Mem 8 × Bs} (h : Wrote m b bits w) (h8 : bits.length % 8 = 0)
    {p : Nat} (hp : p < bits.length) (hs : (b.pos - b.acc.length) / 8 + p / 8 < b.size) :
    frameBit w.1 (8 * ((b.pos - b.acc.length) / 8) + p) = bits[p]? := h.stored p (by omega) hs

/-! ### The reader -/

/-- One bit read counts one position, keeps the declared size and the pending bits, and never clears the flag. -/
theorem Bs.getBit_some {m : Mem 8} {bs bs' : Bs} {b : Bool} (h : bs.getBit m = some (b, bs')) :
    bs' = ({ bs with pos := bs.pos + 1 } : Bs).noteError (decide (8 * bs.size ≤ bs.pos)) ∧
      (bs.pos < 8 * bs.size → frameBit m bs.pos = some b) ∧ (8 * bs.size ≤ bs.pos → b = false) := by
  unfold Bs.getBit at h
  split at h
  · rename_i hlt
    simp only [Option.map_eq_some_iff, Prod.mk.injEq] at h
    obtain ⟨a, ha, rfl, rfl⟩ := h
    refine ⟨?_, fun _ => ha, fun h => by omega⟩
    simp [Bs.noteError, Nat.not_le.2 hlt]
  · rename_i hge
    simp only [Option.some.injEq, Prod.mk.injEq] at h
    obtain ⟨rfl, rfl⟩ := h
    refine ⟨?_, fun h => absurd h hge, fun _ => rfl⟩
    simp [Nat.not_lt.1 hge]

theorem Bs.getBitsInto_some {m : Mem 8} {n : Nat} {v v' : Word} {bs bs' : Bs}
    (h : Bs.getBitsInto m n v bs = some (v', bs')) :
    bs' = ({ bs with pos := bs.pos + n } : Bs).noteError (decide (0 < n ∧ 8 * bs.size < bs.pos + n)) := by
  induction n generalizing v bs with
  | zero =>
    simp only [Bs.getBitsInto, Option.some.injEq, Prod.mk.injEq] at h
    simp [← h.2, Bs.noteError]
  | succ n ih =>
    simp only [Bs.getBitsInto] at h
    cases hb : bs.getBit m with
    | none => simp [hb] at h
    | some r =>
      obtain ⟨b, bs1⟩ := r
      simp only [hb] at h
      have h1 := (Bs.getBit_some hb).1
      rw [ih h, h1]
      rw [Bs.mk.injEq]
      refine ⟨rfl, rfl, by simp only [Bs.noteError]; omega, rfl, ?_⟩
      rw [Bool.eq_iff_iff]
      simp only [Bs.noteError, Bool.or_eq_true, decide_eq_true_eq]
      have : 8 * bs.size ≤ bs.pos ∨ bs.pos < 8 * bs.size := by omega
      constructor
      · rintro ((h | h) | h)
        · exact .inl h
        · right; omega
        · have h := of_decide_eq_true h
          right; omega
      · rintro (h | h)
        · exact .inl (.inl h)
        · by_cases hn : 8 * bs.size ≤ bs.pos
          · exact .inl (.inr hn)
          · exact .inr (decide_eq_true (by omega))

/-- `GetBits` counts `n` positions and sets the flag exactly when a bit lies past the declared size (R66). -/
theorem Bs.getBits_some {m : Mem 8} {n : Nat} {v : Word} {bs bs' : Bs} (h : bs.getBits m n = some (v, bs')) :
    bs' = ({ bs with pos := bs.pos + n } : Bs).noteError (decide (0 < n ∧ 8 * bs.size < bs.pos + n)) :=
  Bs.getBitsInto_some h

theorem Bs.getFixedBits_some {m : Mem 8} {n : Nat} {e : Word} {bs bs' : Bs} (h : bs.getFixedBits m n e = some bs') :
    ∃ v, bs.getBits m n = some (v, ({ bs with pos := bs.pos + n } : Bs).noteError (decide (0 < n ∧ 8 * bs.size < bs.pos + n))) ∧
      bs' = (({ bs with pos := bs.pos + n } : Bs).noteError (decide (0 < n ∧ 8 * bs.size < bs.pos + n))).noteError (v != e) := by
  unfold Bs.getFixedBits at h
  simp only [Option.map_eq_some_iff] at h
  obtain ⟨⟨v, b⟩, hv, rfl⟩ := h
  have := Bs.getBits_some hv
  exact ⟨v, this ▸ hv, by rw [this]⟩

/-- A reader that has read `n` bits (R66): the flag is set when that passed the declared size. -/
def Bs.skip (n : Nat) (bs : Bs) : Bs := ({ bs with pos := bs.pos + n } : Bs).noteError (decide (0 < n ∧ 8 * bs.size < bs.pos + n))

theorem Bs.skip_inside {n : Nat} {bs : Bs} (h : bs.pos + n ≤ 8 * bs.size) : bs.skip n = { bs with pos := bs.pos + n } := by
  simp [Bs.skip, Bs.noteError, Nat.not_lt.2 h]

theorem Bs.skip_zero (bs : Bs) : bs.skip 0 = bs := by simp [Bs.skip, Bs.noteError]

theorem Bs.skip_skip (n k : Nat) (bs : Bs) : (bs.skip n).skip k = bs.skip (n + k) := by
  have e : ((bs.err || decide (0 < n ∧ 8 * bs.size < bs.pos + n)) || decide (0 < k ∧ 8 * bs.size < bs.pos + n + k))
      = (bs.err || decide (0 < n + k ∧ 8 * bs.size < bs.pos + (n + k))) := by
    rw [Bool.eq_iff_iff]
    simp only [Bool.or_eq_true, decide_eq_true_eq, or_assoc]
    exact or_congr_right (by omega)
  exact (congrArg (fun x => (⟨bs.dir, bs.size, bs.pos + n + k, bs.acc, x⟩ : Bs)) e).trans
    (congrArg (fun p => (⟨bs.dir, bs.size, p, bs.acc, (bs.skip (n + k)).err⟩ : Bs)) (Nat.add_assoc _ _ _))

theorem Bs.getBits_skip {m : Mem 8} {n : Nat} {v : Word} {bs bs' : Bs} (h : bs.getBits m n = some (v, bs')) : bs' = bs.skip n :=
  Bs.getBits_some h

theorem Bs.getFields_skip {m : Mem 8} {ns : List Nat} {vs : List Word} {bs bs' : Bs} (h : Bs.getFields m ns bs = some (vs, bs')) :
    vs.length = ns.length ∧ bs' = bs.skip ns.sum := by
  induction ns generalizing vs bs with
  | nil =>
    simp only [Bs.getFields, Option.some.injEq, Prod.mk.injEq] at h
    obtain ⟨rfl, rfl⟩ := h
    exact ⟨rfl, (Bs.skip_zero _).symm⟩
  | cons n ns ih =>
    simp only [Bs.getFields] at h
    cases hb : bs.getBits m n with
    | none => simp [hb] at h
    | some r =>
      simp only [hb, Option.map_eq_some_iff, Prod.mk.injEq] at h
      obtain ⟨⟨us, b2⟩, hu, rfl, rfl⟩ := h
      obtain ⟨i1, i2⟩ := ih hu
      refine ⟨by simp [i1], ?_⟩
      rw [i2, Bs.getBits_skip hb, Bs.skip_skip, List.sum_cons]

/-- The value of `n` bits, first most significant. -/
def wordOfBits (bits : List Bool) : Word := bits.foldl (fun v b => (v <<< 1) ||| (BitVec.ofBool b).setWidth 32) 0

/-- Bit `p` as a reader of the declared size sees it (R66): past the size it is 0. -/
def bitAt (m : Mem 8) (size p : Nat) : Option Bool := if p < 8 * size then frameBit m p else some false

theorem frameBit_isSome (m : Mem 8) (p : Nat) : (frameBit m p).isSome = (Mem.read m (p / 8)).isSome := by simp [frameBit]

theorem Bs.getBit_eq (m : Mem 8) (bs : Bs) :
    bs.getBit m = (bitAt m bs.size bs.pos).map fun b =>
      (b, ({ bs with pos := bs.pos + 1 } : Bs).noteError (decide (8 * bs.size ≤ bs.pos))) := by
  unfold Bs.getBit bitAt
  split
  · rename_i h; simp [Bs.noteError, Nat.not_le.2 h]
  · rename_i h; simp [Nat.not_lt.1 h]

/-- A reader whose next bits are `bits` reads their value (R66). -/
theorem Bs.getBitsInto_of_bits {m : Mem 8} {bits : List Bool} {v : Word} {bs : Bs}
    (hbits : ∀ k (h : k < bits.length), bitAt m bs.size (bs.pos + k) = some bits[k]) :
    Bs.getBitsInto m bits.length v bs
      = some (bits.foldl (fun (v : Word) b => (v <<< 1) ||| (BitVec.ofBool b).setWidth 32) v,
          ({ bs with pos := bs.pos + bits.length } : Bs).noteError (decide (0 < bits.length ∧ 8 * bs.size < bs.pos + bits.length))) := by
  have key : ∃ r, Bs.getBitsInto m bits.length v bs
      = some (bits.foldl (fun (v : Word) b => (v <<< 1) ||| (BitVec.ofBool b).setWidth 32) v, r) := by
    induction bits generalizing v bs with
    | nil => exact ⟨_, rfl⟩
    | cons b bits ih =>
      have h0 : bitAt m bs.size bs.pos = some b := hbits 0 (by simp)
      simp only [List.length_cons, Bs.getBitsInto, Bs.getBit_eq, h0, Option.map_some, List.foldl_cons]
      apply ih
      intro k hk
      have := hbits (k + 1) (by simp only [List.length_cons]; omega)
      simp only [List.getElem_cons_succ] at this
      rw [← this]
      simp only [Bs.noteError]
      congr 1
      omega
  obtain ⟨r, hr⟩ := key
  rw [hr, Bs.getBitsInto_some hr]

theorem Bs.getBits_of_bits {m : Mem 8} {bits : List Bool} {bs : Bs}
    (hbits : ∀ k (h : k < bits.length), bitAt m bs.size (bs.pos + k) = some bits[k]) :
    bs.getBits m bits.length = some (wordOfBits bits,
      ({ bs with pos := bs.pos + bits.length } : Bs).noteError (decide (0 < bits.length ∧ 8 * bs.size < bs.pos + bits.length))) :=
  Bs.getBitsInto_of_bits hbits

/-- The bitstream after writing, whole. -/
theorem Wrote.snd {m : Mem 8} {b : Bs} {bits : List Bool} {w : Mem 8 × Bs} (h : Wrote m b bits w) :
    w.2 = ⟨b.dir, b.size, b.pos - b.acc.length + bits.length, bits.drop (8 * (bits.length / 8)),
      b.err || decide (0 < bits.length / 8 ∧ b.size < (b.pos - b.acc.length) / 8 + bits.length / 8)⟩ := by
  obtain ⟨m', d, sz, p, a, e⟩ := w
  simp only [Bs.mk.injEq]
  exact ⟨h.dir, h.size, h.pos, h.acc, h.err⟩

/-- Inside the declared size no flag is set. -/
theorem Bs.getBits_inside {m : Mem 8} {bits : List Bool} {bs : Bs} (hroom : bs.pos + bits.length ≤ 8 * bs.size)
    (hbits : ∀ k (h : k < bits.length), frameBit m (bs.pos + k) = some bits[k]) :
    bs.getBits m bits.length = some (wordOfBits bits, { bs with pos := bs.pos + bits.length }) := by
  rw [Bs.getBits_of_bits fun k h => by rw [bitAt, if_pos (by omega)]; exact hbits k h]
  simp [Bs.noteError, Nat.not_lt.2 hroom]

/-- A bit that was never written has no value, and neither has the field. -/
theorem Bs.getBitsInto_none {m : Mem 8} {n k : Nat} {v : Word} {bs : Bs} (hk : k < n) (h : bitAt m bs.size (bs.pos + k) = none) :
    Bs.getBitsInto m n v bs = none := by
  induction n generalizing v bs k with
  | zero => omega
  | succ n ih =>
    simp only [Bs.getBitsInto, Bs.getBit_eq]
    cases h0 : bitAt m bs.size bs.pos with
    | none => rfl
    | some b =>
      simp only [Option.map_some]
      cases k with
      | zero => simp [h0] at h
      | succ k => exact ih (k := k) (by omega) (by rw [← h]; simp only [Bs.noteError]; congr 1; omega)

/-- The bits a reader sees, when all of them have a value. -/
theorem exists_bits {n : Nat} {f : Nat → Option Bool} (h : ∀ k < n, (f k).isSome = true) :
    ∃ bits : List Bool, bits.length = n ∧ ∀ k (hk : k < bits.length), f k = some bits[k] := by
  refine ⟨List.ofFn fun k : Fin n => (f k.val).get (h k.val k.isLt), by simp, fun k hk => ?_⟩
  simp

/-- Appending a bit to a word. -/
theorem shiftIn_getLsbD (v : Word) (b : Bool) (i : Nat) :
    ((v <<< 1) ||| (BitVec.ofBool b).setWidth 32).getLsbD i = if i = 0 then b else decide (i < 32) && v.getLsbD (i - 1) := by
  cases i with
  | zero => simp
  | succ i => simp

/-- The value of up to 32 bits, bit by bit: the first one is the most significant. -/
theorem wordOfBits_getLsbD {bits : List Bool} (h : bits.length ≤ 32) (j : Nat) :
    (wordOfBits bits).getLsbD j = if j < bits.length then bits.getD (bits.length - 1 - j) false else false := by
  have key : ∀ (bits : List Bool) (u : Word), bits.length ≤ 32 → ∀ i < 32,
      (bits.foldl (fun (v : Word) b => (v <<< 1) ||| (BitVec.ofBool b).setWidth 32) u).getLsbD i
        = if i < bits.length then bits.getD (bits.length - 1 - i) false else u.getLsbD (i - bits.length) := by
    intro bits
    induction bits with
    | nil => intro u _ i _; simp
    | cons b bits ih =>
      intro u hn i hi
      simp only [List.length_cons] at hn ⊢
      simp only [List.foldl_cons]
      rw [ih _ (by omega) i hi]
      by_cases h1 : i < bits.length
      · rw [if_pos h1, if_pos (by omega), show bits.length + 1 - 1 - i = (bits.length - 1 - i) + 1 by omega, List.getD_cons_succ]
      · rw [if_neg h1, shiftIn_getLsbD]
        by_cases h2 : i = bits.length
        · rw [if_pos (by omega), if_pos (by omega), show bits.length + 1 - 1 - i = 0 by omega, List.getD_cons_zero]
        · rw [if_neg (by omega), if_neg (by omega), decide_eq_true (by omega), Bool.true_and]
          congr 1
  by_cases hj : j < 32
  · rw [wordOfBits, key bits 0 h j hj]
    simp
  · rw [BitVec.getLsbD_of_ge _ _ (by omega), if_neg (by omega)]

theorem wordOfBits_lt {bits : List Bool} (h : bits.length ≤ 32) : (wordOfBits bits).toNat < 2 ^ bits.length := by
  by_contra hc
  have : ∃ j, bits.length ≤ j ∧ (wordOfBits bits).toNat.testBit j = true := by
    by_contra hn
    exact hc (Nat.lt_pow_two_of_testBit _ fun i hi => by
      by_contra hb
      exact hn ⟨i, hi, by simpa using hb⟩)
  obtain ⟨j, hj, hb⟩ := this
  have := wordOfBits_getLsbD h j
  rw [if_neg (by omega)] at this
  rw [BitVec.getLsbD] at this
  rw [this] at hb
  exact absurd hb (by decide)

theorem fieldBits_getD (v : Word) (n k : Nat) (hk : k < n) : (fieldBits v n).getD k false = v.getLsbD (n - 1 - k) := by
  induction n generalizing k with
  | zero => omega
  | succ n ih =>
    cases k with
    | zero => simp [fieldBits]
    | succ k => rw [fieldBits, List.getD_cons_succ, ih k (by omega)]; congr 1; omega

/-- The value of a field's bits is the field cut to its width (R40, R66, R68). -/
theorem wordOfBits_fieldBits (v : Word) (n : Nat) (h : n ≤ 32) : wordOfBits (fieldBits v n) = v &&& BitVec.ofNat 32 (2 ^ n - 1) := by
  apply BitVec.eq_of_getLsbD_eq
  intro i hi
  rw [wordOfBits_getLsbD (by simpa using h), fieldBits_length, BitVec.getLsbD_and, BitVec.getLsbD_ofNat, Nat.testBit_two_pow_sub_one]
  by_cases h1 : i < n
  · rw [if_pos h1, fieldBits_getD _ _ _ (by omega), show n - 1 - (n - 1 - i) = i by omega]; simp [h1, hi]
  · simp [h1]

end Sys2Proof.Machine
end

