-- ==== Sys2Proof/Laws/Allocator.lean ====
section
/-! SUPPORT. The allocator's counting: what a threshold assigns, when the search ends, and what the two leftover passes
leave (R91 to R97). -/

namespace Sys2Proof.Machine

/-! ### Step 1 -/

theorem loudnessOffset_range (m : Bands) (f : Freq) (s : Nat) : -4 ≤ loudnessOffset m f s ∧ loudnessOffset m f s ≤ 2 := by
  have h : ∀ (l : List Int), (∀ x ∈ l, -4 ≤ x ∧ x ≤ 2) → -4 ≤ l.getD s 0 ∧ l.getD s 0 ≤ 2 := by
    intro l hl
    by_cases hs : s < l.length
    · rw [List.getD_eq_getElem _ _ hs]; exact hl _ (List.getElem_mem hs)
    · rw [List.getD_eq_default _ _ (by omega)]; omega
  cases m <;> cases f <;> exact h _ (by decide)

/-- R97 (a): the needs of one call span at most 15. -/
theorem bitNeed_range (m : Bands) (f : Freq) (a : Alloc) (scf : BitVec 4) (s : Nat) :
    (match a with | .snr => 0 | .loudness => -5) ≤ bitNeed m f a scf s ∧
      bitNeed m f a scf s ≤ (match a with | .snr => 15 | .loudness => 9) := by
  have hs := scf.isLt
  cases a with
  | snr => simp only [bitNeed, bitNeedWith]; omega
  | loudness =>
    have := loudnessOffset_range m f s
    simp only [bitNeed, bitNeedWith, asr]
    split
    · omega
    · split
      · rw [Int.shiftRight_eq_div_pow]; omega
      · have : 0 < scf.toNat := by
          rename_i h _
          rcases Nat.eq_zero_or_pos scf.toNat with h0 | h0
          · exact absurd (BitVec.eq_of_toNat_eq (by simpa using h0)) h
          · exact h0
        omega

theorem le_maxNeed {needs : List Int} {n : Int} (h : n ∈ needs) : n ≤ maxNeed needs := by
  have key : ∀ (l : List Int) (a : Int), a ≤ l.foldl max a ∧ ∀ x ∈ l, x ≤ l.foldl max a := by
    intro l
    induction l with
    | nil => intro a; simp
    | cons b l ih =>
      intro a
      obtain ⟨h1, h2⟩ := ih (max a b)
      refine ⟨(le_max_left a b).trans h1, ?_⟩
      intro x hx
      rcases List.mem_cons.1 hx with rfl | hx
      · exact (le_max_right a x).trans h1
      · exact h2 x hx
  cases needs with
  | nil => simp at h
  | cons b l =>
    rcases List.mem_cons.1 h with rfl | h
    · exact (key l n).1
    · exact (key l b).2 n h

theorem maxNeed_mem {needs : List Int} (h : needs ≠ []) : maxNeed needs ∈ needs := by
  have key : ∀ (l : List Int) (a : Int), l.foldl max a = a ∨ l.foldl max a ∈ l := by
    intro l
    induction l with
    | nil => intro a; simp
    | cons b l ih =>
      intro a
      rcases ih (max a b) with h | h
      · rcases max_choice a b with hm | hm
        · left; simpa [hm] using h
        · right; simp [hm] at h ⊢; left; exact h
      · right; exact List.mem_cons_of_mem _ h
  cases needs with
  | nil => exact absurd rfl h
  | cons b l =>
    rcases key l b with h | h
    · show l.foldl max b ∈ b :: l
      rw [h]; exact List.mem_cons_self
    · exact List.mem_cons_of_mem _ h

/-! ### Steps 3 and 4: the count of a slice is what the next threshold assigns more -/

/-- R93: a pair is assigned, at each lower threshold, what the slice above counted for it. -/
theorem assignBits_step (slice need : Int) : assignBits (slice - 1) need = assignBits slice need + sliceWeight slice need := by
  unfold assignBits sliceWeight
  split <;> split <;> (try split) <;> (try split) <;> omega

/-- The bits a threshold assigns to all pairs. -/
def assignedTotal (needs : List Int) (slice : Int) : Nat := (needs.map (assignBits slice)).sum

theorem assignedTotal_step (needs : List Int) (slice : Int) :
    assignedTotal needs (slice - 1) = assignedTotal needs slice + sliceCount needs slice := by
  unfold assignedTotal sliceCount
  induction needs with
  | nil => rfl
  | cons n ns ih => simp only [List.map_cons, List.sum_cons, ih, assignBits_step]; omega

theorem assignBits_le (slice need : Int) : assignBits slice need ≤ 16 := by
  unfold assignBits
  split <;> omega

/-- Below every need by 16, every pair has 16 bits. -/
theorem assignedTotal_low {needs : List Int} {slice : Int} (h : ∀ n ∈ needs, slice + 16 ≤ n) :
    assignedTotal needs slice = 16 * needs.length := by
  unfold assignedTotal
  induction needs with
  | nil => rfl
  | cons n ns ih =>
    have h1 : assignBits slice n = 16 := by
      have := h n List.mem_cons_self
      unfold assignBits
      split <;> omega
    simp only [List.map_cons, List.sum_cons, h1, ih fun x hx => h x (List.mem_cons_of_mem _ hx), List.length_cons]
    omega

theorem assignedTotal_high {needs : List Int} {slice : Int} (h : ∀ n ∈ needs, n < slice + 2) : assignedTotal needs slice = 0 := by
  unfold assignedTotal
  induction needs with
  | nil => rfl
  | cons n ns ih =>
    have h1 : assignBits slice n = 0 := if_pos (h n List.mem_cons_self)
    simp only [List.map_cons, List.sum_cons, h1, ih fun x hx => h x (List.mem_cons_of_mem _ hx)]

theorem sliceCount_high {needs : List Int} {slice : Int} (h : ∀ n ∈ needs, n < slice + 1) : sliceCount needs slice = 0 := by
  have := assignedTotal_step needs slice
  have h1 : assignedTotal needs (slice - 1) = 0 := assignedTotal_high fun n hn => by have := h n hn; omega
  omega

/-- The counters of the search: `bitcount` is what `bitslice` assigns and `slicecount` what it counts. -/
structure Search.Counts (needs : List Int) (r : Search) : Prop where
  bits : r.bits = assignedTotal needs r.slice
  count : r.count = sliceCount needs r.slice

theorem Search.Counts.step {needs : List Int} {r : Search} (h : r.Counts needs) : (searchStep needs r).Counts needs :=
  ⟨by simp only [searchStep]; rw [h.bits, h.count, ← assignedTotal_step], rfl⟩

theorem Search.counts_start (needs : List Int) : (⟨maxNeed needs + 1, 0, 0⟩ : Search).Counts needs :=
  ⟨(assignedTotal_high fun n hn => by have := le_maxNeed hn; show n < maxNeed needs + 1 + 2; omega).symm,
    (sliceCount_high fun n hn => by have := le_maxNeed hn; show n < maxNeed needs + 1 + 1; omega).symm⟩

/-- What the search answers: the counters at its threshold, which meet the bitpool first there. -/
theorem searchSlice_some {needs : List Int} {bitpool fuel : Nat} {r r' : Search} (hc : r.Counts needs)
    (hb : r.bits + r.count < bitpool ∨ r.bits + r.count = 0) (h : searchSlice needs bitpool fuel r = some r') :
    r'.Counts needs ∧ bitpool ≤ r'.bits + r'.count ∧ (r'.bits < bitpool ∨ r'.bits = 0) := by
  induction fuel generalizing r with
  | zero => simp [searchSlice] at h
  | succ fuel ih =>
    simp only [searchSlice] at h
    split at h
    · rename_i hge
      simp only [Option.some.injEq] at h
      subst h
      exact ⟨hc.step, hge, hb⟩
    · rename_i hlt
      exact ih hc.step (.inl (by omega)) h

/-- R97 (b): with enough fuel to bring the threshold 15 below every need, the search ends. -/
theorem searchSlice_isSome {needs : List Int} {bitpool : Nat} (hpool : bitpool ≤ 16 * needs.length) {fuel : Nat} {r : Search}
    (hc : r.Counts needs) (hfuel : ∀ n ∈ needs, r.slice - fuel + 15 ≤ n) (hpos : 0 < fuel) :
    (searchSlice needs bitpool fuel r).isSome := by
  induction fuel generalizing r with
  | zero => omega
  | succ fuel ih =>
    simp only [searchSlice]
    split
    · rfl
    · rename_i hlt
      rcases Nat.eq_zero_or_pos fuel with h0 | h0
      · exfalso
        have h1 := hc.step
        have h2 := assignedTotal_step needs (searchStep needs r).slice
        rw [← h1.bits, ← h1.count] at h2
        have h3 : assignedTotal needs ((searchStep needs r).slice - 1) = 16 * needs.length := by
          apply assignedTotal_low
          intro n hn
          have := hfuel n hn
          subst h0
          simp only [searchStep]
          push_cast at this
          omega
        omega
      · refine ih hc.step ?_ h0
        intro n hn
        have := hfuel n hn
        simp only [searchStep]
        push_cast at this
        omega

/-- R97 (b): needs that span at most 15 and a bitpool of at most 16 bits a pair end the search within 32 iterations. -/
theorem allocateNeeds_isSome {needs : List Int} {bitpool : Nat} (hpool : bitpool ≤ 16 * needs.length) {lo : Int}
    (hlo : ∀ n ∈ needs, lo ≤ n ∧ n ≤ lo + 15) : (allocateNeeds needs bitpool).isSome := by
  unfold allocateNeeds
  rw [Option.isSome_map]
  apply searchSlice_isSome hpool (Search.counts_start needs) _ (by omega)
  intro n hn
  have h1 := hlo n hn
  have h2 := hlo _ (maxNeed_mem (List.ne_nil_of_mem hn))
  dsimp only
  omega

/-- A bitpool above 16 bits a pair is never reached, so the search does not end (R97 (b), log 15). -/
theorem searchSlice_none {needs : List Int} {bitpool : Nat} (hpool : 16 * needs.length < bitpool) {fuel : Nat} {r : Search}
    (hc : r.Counts needs) : searchSlice needs bitpool fuel r = none := by
  have le : ∀ slice, assignedTotal needs slice ≤ 16 * needs.length := by
    intro slice
    unfold assignedTotal
    clear hpool hc
    induction needs with
    | nil => exact Nat.le_refl _
    | cons n ns ih =>
      have := assignBits_le slice n
      simp only [List.map_cons, List.sum_cons, List.length_cons]
      omega
  induction fuel generalizing r with
  | zero => rfl
  | succ fuel ih =>
    simp only [searchSlice]
    rw [if_neg]
    · exact ih hc.step
    · have h2 := assignedTotal_step needs (searchStep needs r).slice
      rw [← hc.step.bits, ← hc.step.count] at h2
      have := le ((searchStep needs r).slice - 1)
      omega

/-! ### Step 5: the leftover passes -/

/-- A pass keeps every pair's need and the list's length. -/
theorem grantScan_needs (g : Int → Nat → Nat → Nat × Nat) (ps : List (Int × Nat)) (b : Nat) :
    (grantScan g ps b).1.map Prod.fst = ps.map Prod.fst := by
  induction ps generalizing b with
  | nil => rfl
  | cons p ps ih => simp only [grantScan, List.map_cons, ih]

/-- A pass whose every grant counts the bits it gives, stays inside the bitpool and keeps 0..16 bits a pair does so as a
whole. -/
theorem grantScan_counts {g : Int → Nat → Nat → Nat × Nat} {bitpool : Nat} {Ok : Int → Nat → Prop}
    (hg : ∀ need n b, Ok need n → n ≤ 16 → b ≤ bitpool →
      (g need n b).1 ≤ 16 ∧ (g need n b).2 ≤ bitpool ∧ (g need n b).1 + b = n + (g need n b).2)
    (ps : List (Int × Nat)) (b : Nat) (hok : ∀ p ∈ ps, Ok p.1 p.2 ∧ p.2 ≤ 16) (hb : b ≤ bitpool) :
    (∀ p ∈ (grantScan g ps b).1, p.2 ≤ 16) ∧ (grantScan g ps b).2 ≤ bitpool ∧
      ((grantScan g ps b).1.map Prod.snd).sum + b = (ps.map Prod.snd).sum + (grantScan g ps b).2 := by
  induction ps generalizing b with
  | nil => simp [grantScan, hb]
  | cons p ps ih =>
    obtain ⟨h1, h2, h3⟩ := hg p.1 p.2 b (hok p List.mem_cons_self).1 (hok p List.mem_cons_self).2 hb
    obtain ⟨i1, i2, i3⟩ := ih _ (fun q hq => hok q (List.mem_cons_of_mem _ hq)) h2
    simp only [grantScan, List.mem_cons, forall_eq_or_imp, List.map_cons, List.sum_cons]
    exact ⟨⟨h1, i1⟩, i2, by omega⟩

/-- Pass A's grant (R94). -/
theorem grantA_counts (bitpool : Nat) (slice need : Int) (n b : Nat) (hn : n = assignBits slice need) (hn16 : n ≤ 16)
    (hb : b ≤ bitpool) :
    (grantA bitpool slice need n b).1 ≤ 16 ∧ (grantA bitpool slice need n b).2 ≤ bitpool ∧
      (grantA bitpool slice need n b).1 + b = n + (grantA bitpool slice need n b).2 := by
  unfold grantA
  split
  · exact ⟨hn16, hb, by omega⟩
  · split
    · dsimp only; omega
    · split
      · rename_i h
        have : n = 0 := by
          rw [hn]; unfold assignBits; rw [if_pos (by omega)]
        dsimp only; omega
      · exact ⟨hn16, hb, rfl⟩

/-- Pass B's grant (R95). -/
theorem grantB_counts (bitpool n b : Nat) (hn16 : n ≤ 16) (hb : b ≤ bitpool) :
    (grantB bitpool n b).1 ≤ 16 ∧ (grantB bitpool n b).2 ≤ bitpool ∧ (grantB bitpool n b).1 + b = n + (grantB bitpool n b).2 := by
  unfold grantB
  split
  · exact ⟨hn16, hb, by omega⟩
  · split
    · dsimp only; omega
    · exact ⟨hn16, hb, rfl⟩

/-- Pass A offers each pair what the last slice counted for it, so it leaves at most one bit of a leftover that slice
would have overfilled (R97 (c)). -/
theorem grantA_leftover (bitpool : Nat) (slice : Int) (needs : List Int) (b : Nat) (hb : b ≤ bitpool)
    (hover : bitpool ≤ b + sliceCount needs slice) :
    bitpool ≤ (grantScan (grantA bitpool slice) (needs.map fun n => (n, assignBits slice n)) b).2 + 1 := by
  have key : ∀ (needs : List Int) (b : Nat), b ≤ bitpool →
      b ≤ (grantScan (grantA bitpool slice) (needs.map fun n => (n, assignBits slice n)) b).2 ∧
      (bitpool ≤ (grantScan (grantA bitpool slice) (needs.map fun n => (n, assignBits slice n)) b).2 + 1 ∨
        b + sliceCount needs slice ≤ (grantScan (grantA bitpool slice) (needs.map fun n => (n, assignBits slice n)) b).2) := by
    intro needs
    induction needs with
    | nil => intro b hb; simp [grantScan, sliceCount]
    | cons n ns ih =>
      intro b hb
      simp only [List.map_cons, grantScan, sliceCount, List.sum_cons]
      have hg := grantA_counts bitpool slice n _ b rfl (assignBits_le slice n) hb
      have hstep : b ≤ (grantA bitpool slice n (assignBits slice n) b).2 ∧
          (bitpool ≤ (grantA bitpool slice n (assignBits slice n) b).2 + 1 ∨
            b + sliceWeight slice n ≤ (grantA bitpool slice n (assignBits slice n) b).2) := by
        unfold grantA
        split
        · exact ⟨le_rfl, .inl (by dsimp only; omega)⟩
        · split
          · rename_i h
            refine ⟨by dsimp only; omega, .inr ?_⟩
            have : sliceWeight slice n ≤ 1 := by
              unfold sliceWeight
              unfold assignBits at h
              split at h
              · omega
              · split
                · omega
                · rw [if_neg (by omega)]; omega
            dsimp only; omega
          · split
            · refine ⟨by dsimp only; omega, .inr ?_⟩
              have : sliceWeight slice n ≤ 2 := by unfold sliceWeight; split <;> (try split) <;> omega
              dsimp only; omega
            · rename_i h1 h2
              refine ⟨le_rfl, ?_⟩
              dsimp only
              by_cases hw : sliceWeight slice n = 0
              · right; omega
              · left
                unfold sliceWeight at hw
                unfold assignBits at h1
                split at hw
                · rw [if_neg (by omega)] at h1; omega
                · split at hw
                  · omega
                  · omega
      obtain ⟨i1, i2⟩ := ih _ hg.2.1
      simp only [sliceCount] at i2
      omega
  have := (key needs b hb).2
  omega

/-- Pass B gives the last bit to some pair that has room (R97 (c)). -/
theorem grantB_last (bitpool : Nat) (ps : List (Int × Nat)) (b : Nat) (hb : b ≤ bitpool) (hlast : bitpool ≤ b + 1)
    (hroom : b = bitpool ∨ ∃ p ∈ ps, p.2 < 16) : (grantScan (fun _ => grantB bitpool) ps b).2 = bitpool := by
  induction ps generalizing b with
  | nil => simpa [grantScan] using hroom
  | cons p ps ih =>
    simp only [grantScan]
    by_cases h1 : bitpool ≤ b
    · have : grantB bitpool p.2 b = (p.2, b) := if_pos h1
      rw [this]
      exact ih b hb hlast (.inl (by omega))
    · by_cases h2 : p.2 < 16
      · have : grantB bitpool p.2 b = (p.2 + 1, b + 1) := by rw [grantB, if_neg h1, if_pos h2]
        rw [this]
        exact ih (b + 1) (by omega) (by omega) (.inl (by omega))
      · have : grantB bitpool p.2 b = (p.2, b) := by rw [grantB, if_neg h1, if_neg h2]
        rw [this]
        refine ih b hb hlast ?_
        rcases hroom with h | ⟨q, hq, hq16⟩
        · exact .inl h
        · rcases List.mem_cons.1 hq with rfl | hq
          · exact absurd hq16 h2
          · exact .inr ⟨q, hq, hq16⟩

/-! ### A whole call -/

/-- R97 (a), (c): the bits of the pairs are 0..16 each and use exactly the bitpool. -/
theorem allocateNeeds_total {needs : List Int} {bitpool : Nat} {v : List Nat} (hpool : bitpool ≤ 16 * needs.length)
    (h : allocateNeeds needs bitpool = some v) : v.length = needs.length ∧ v.sum = bitpool ∧ ∀ n ∈ v, n ≤ 16 := by
  obtain ⟨r, hr, rfl⟩ := Option.map_eq_some_iff.1 h
  obtain ⟨hc, hover, hunder⟩ := searchSlice_some (Search.counts_start needs) (.inr rfl) hr
  -- after step 3a: the bits so far are those of step 4, and what is left is less than the last slice
  have hfill : (exactFill bitpool r).bits = assignedTotal needs (exactFill bitpool r).slice
      ∧ (exactFill bitpool r).bits ≤ bitpool
      ∧ ((exactFill bitpool r).bits = bitpool ∨ bitpool ≤ (exactFill bitpool r).bits + sliceCount needs (exactFill bitpool r).slice) := by
    unfold exactFill
    split
    · rename_i he
      refine ⟨?_, he.le, .inl he⟩
      rw [hc.bits, hc.count, ← assignedTotal_step]
    · rename_i he
      exact ⟨hc.bits, by omega, .inr (hc.count ▸ hover)⟩
  generalize exactFill bitpool r = q at hfill
  obtain ⟨h1, h2, h3⟩ := hfill
  dsimp only
  have ha := grantScan_counts (g := grantA bitpool q.slice) (bitpool := bitpool) (Ok := fun need n => n = assignBits q.slice need)
    (fun need n b hn hn16 hb => grantA_counts bitpool q.slice need n b hn hn16 hb)
    (needs.map fun n => (n, assignBits q.slice n)) q.bits
    (by simp only [List.mem_map, forall_exists_index, and_imp, forall_apply_eq_imp_iff₂]
        exact fun n _ => ⟨trivial, assignBits_le _ _⟩) h2
  have hleft : bitpool ≤ (grantScan (grantA bitpool q.slice) (needs.map fun n => (n, assignBits q.slice n)) q.bits).2 + 1 := by
    rcases h3 with h3 | h3
    · exact grantA_leftover bitpool q.slice needs q.bits h2 (by omega)
    · exact grantA_leftover bitpool q.slice needs q.bits h2 h3
  have hlen : (grantScan (grantA bitpool q.slice) (needs.map fun n => (n, assignBits q.slice n)) q.bits).1.length = needs.length := by
    have := congrArg List.length (grantScan_needs (grantA bitpool q.slice) (needs.map fun n => (n, assignBits q.slice n)) q.bits)
    simpa using this
  have hsum : ((needs.map fun n => (n, assignBits q.slice n)).map Prod.snd).sum = q.bits := by
    rw [h1, assignedTotal, List.map_map]; rfl
  generalize grantScan (grantA bitpool q.slice) (needs.map fun n => (n, assignBits q.slice n)) q.bits = a at ha hleft hlen
  obtain ⟨ha16, hab, hat⟩ := ha
  rw [hsum] at hat
  have hb := grantScan_counts (g := fun _ => grantB bitpool) (bitpool := bitpool) (Ok := fun _ _ => True)
    (fun need n b _ hn16 hb => grantB_counts bitpool n b hn16 hb) a.1 a.2 (fun p hp => ⟨trivial, ha16 p hp⟩) hab
  have hroom : a.2 = bitpool ∨ ∃ p ∈ a.1, p.2 < 16 := by
    by_contra hno
    have hfull : ∀ p ∈ a.1, p.2 = 16 := fun p hp => by
      have := ha16 p hp
      by_contra hne
      exact hno (.inr ⟨p, hp, by omega⟩)
    have : (a.1.map Prod.snd).sum = 16 * a.1.length := by
      rw [List.map_congr_left hfull, List.map_const', List.sum_replicate, smul_eq_mul, Nat.mul_comm]
    exact hno (.inl (by omega))
  have hlast := grantB_last bitpool a.1 a.2 hab hleft hroom
  have hlenb : (grantScan (fun _ => grantB bitpool) a.1 a.2).1.length = needs.length := by
    have := congrArg List.length (grantScan_needs (fun _ => grantB bitpool) a.1 a.2)
    simp only [List.length_map] at this
    omega
  refine ⟨by simpa using hlenb, by omega, ?_⟩
  intro n hn
  obtain ⟨p, hp, rfl⟩ := List.mem_map.1 hn
  exact hb.1 p hp

theorem AllocIn.channels_length (a : AllocIn) : a.channels.length = 1 ∨ a.channels.length = 2 := by
  unfold AllocIn.channels
  cases a.scf1 <;> simp

/-- A scan-order list has the sum of its rows, and its entries are found in them. -/
theorem unscan_sum {K S : Nat} (hK : K = 1 ∨ K = 2) (hS : S = 4 ∨ S = 8) (v : List Nat) (hv : v.length = S * K) (h16 : ∀ n ∈ v, n ≤ 16) :
    ((unscan 0 K S (v.map bitCount)).map fun r => (r.map Fin.val).sum).sum = v.sum := by
  have hcount : ∀ i, ((v.map bitCount).getD i 0).val = v.getD i 0 := by
    intro i
    rw [List.getD_eq_getElem?_getD, List.getD_eq_getElem?_getD, List.getElem?_map]
    cases h : v[i]? with
    | none => rfl
    | some n => exact Nat.min_eq_left (h16 n (List.mem_of_getElem? h))
  simp only [unscan, build2, List.map_map, Function.comp_def, hcount]
  clear hcount h16
  have hsum : v.sum = ((List.range (S * K)).map fun i => v.getD i 0).sum := by
    congr 1
    apply List.ext_getElem
    · simp [hv]
    · intro i h1 h2; simp [h1]
  rw [hsum]
  rcases hK with rfl | rfl <;> rcases hS with rfl | rfl <;> simp [List.range_succ] <;> omega

theorem AllocIn.needs_length (a : AllocIn) : a.needs.length = a.bands.n * a.channels.length := by
  simp [AllocIn.needs, AllocIn.needsWith, List.length_flatMap]

theorem AllocIn.needs_range (a : AllocIn) : ∃ lo : Int, ∀ n ∈ a.needs, lo ≤ n ∧ n ≤ lo + 15 := by
  refine ⟨match a.alloc with | .snr => 0 | .loudness => -5, fun n hn => ?_⟩
  obtain ⟨s, -, hs⟩ := List.mem_flatMap.1 hn
  obtain ⟨scf, -, rfl⟩ := List.mem_map.1 hs
  have := bitNeed_range a.bands a.freq a.alloc (scf.getD s 0) s
  rw [bitNeed] at this
  cases h : a.alloc <;> rw [h] at this <;> dsimp only at this ⊢ <;> omega

theorem bands_n (m : Bands) : m.n = 4 ∨ m.n = 8 := by cases m <;> simp [Bands.n]

/-! ### The distribution as a whole (R91 to R95) -/

/-- What the first `i` thresholds count, from `top` downwards. -/
def sliceTotal (needs : List Int) (top : Int) (i : Nat) : Nat := ((List.range i).map fun i' : Nat => sliceCount needs (top - i')).sum

theorem sliceTotal_succ (needs : List Int) (top : Int) (i : Nat) :
    sliceTotal needs top (i + 1) = sliceCount needs top + sliceTotal needs (top - 1) i := by
  rw [sliceTotal, List.range_succ_eq_map, List.map_cons, List.sum_cons, List.map_map, sliceTotal]
  congr 1
  · simp
  · congr 1
    refine List.map_congr_left fun k _ => ?_
    simp only [Function.comp_apply, Nat.succ_eq_add_one, Nat.cast_add, Nat.cast_one]
    congr 1
    omega

/-- R91: the search stops at the first threshold whose slices meet the bitpool. -/
theorem searchSlice_trace {needs : List Int} {bitpool fuel : Nat} {r r' : Search} (h : searchSlice needs bitpool fuel r = some r') :
    ∃ j : Nat, r'.slice = r.slice - 1 - j ∧ r'.bits = r.bits + r.count + sliceTotal needs (r.slice - 1) j
      ∧ r'.count = sliceCount needs (r.slice - 1 - j) ∧ r'.bits + r'.count = r.bits + r.count + sliceTotal needs (r.slice - 1) (j + 1)
      ∧ bitpool ≤ r'.bits + r'.count ∧ ∀ i < j, r.bits + r.count + sliceTotal needs (r.slice - 1) (i + 1) < bitpool := by
  induction fuel generalizing r with
  | zero => simp [searchSlice] at h
  | succ fuel ih =>
    simp only [searchSlice] at h
    split at h
    · rename_i hge
      simp only [Option.some.injEq] at h
      subst h
      refine ⟨0, by simp [searchStep], by simp [searchStep, sliceTotal], by simp [searchStep], by simp [searchStep, sliceTotal], hge, by simp⟩
    · rename_i hlt
      obtain ⟨j, h1, h2, h3, h4, h5, h6⟩ := ih h
      simp only [searchStep] at h1 h2 h3 h4 h6 hlt
      refine ⟨j + 1, by push_cast; omega, ?_, ?_, ?_, h5, fun i hi => ?_⟩
      · rw [h2, sliceTotal_succ]; omega
      · rw [h3]; congr 1; push_cast; omega
      · rw [h4, sliceTotal_succ needs _ (j + 1)]; omega
      · cases i with
        | zero => simpa [sliceTotal] using hlt
        | succ i =>
          have := h6 i (by omega)
          rw [sliceTotal_succ]
          omega

/-- A pass over the pairs, as the sequence of its grants: `n q` are the bits of pair `q` after it, `u q` the bit count before. -/
theorem grantScan_trace (g : Int → Nat → Nat → Nat × Nat) (ps : List (Int × Nat)) (b : Nat) :
    ∃ n u : Nat → Nat, u 0 = b ∧ u ps.length = (grantScan g ps b).2
      ∧ ∀ (q : Nat) (p : Int × Nat), ps[q]? = some p →
        (n q, u (q + 1)) = g p.1 p.2 (u q) ∧ (grantScan g ps b).1[q]? = some (p.1, n q) := by
  induction ps generalizing b with
  | nil => exact ⟨fun _ => 0, fun _ => b, rfl, rfl, by simp⟩
  | cons p ps ih =>
    obtain ⟨n, u, h1, h2, h3⟩ := ih (g p.1 p.2 b).2
    refine ⟨fun | 0 => (g p.1 p.2 b).1 | q + 1 => n q, fun | 0 => b | q + 1 => u q, rfl, h2, ?_⟩
    intro q x hq
    cases q with
    | zero =>
      simp only [List.getElem?_cons_zero, Option.some.injEq] at hq
      subst hq
      exact ⟨Prod.ext rfl h1, rfl⟩
    | succ q => exact h3 q x hq

/-- R91 to R95: the bits of each pair, step by step. -/
theorem allocateNeeds_trace {needs : List Int} {bitpool : Nat} {v : List Nat} 
    (h : allocateNeeds needs bitpool = some v) :
    ∃ (j : Nat) (slice : Int) (n1 n2 u w : Nat → Nat),
      bitpool ≤ sliceTotal needs (maxNeed needs) (j + 1) ∧ (∀ i < j, sliceTotal needs (maxNeed needs) (i + 1) < bitpool)
      ∧ slice = (if sliceTotal needs (maxNeed needs) (j + 1) = bitpool then maxNeed needs - j - 1 else maxNeed needs - j)
      ∧ u 0 = (if sliceTotal needs (maxNeed needs) (j + 1) = bitpool then sliceTotal needs (maxNeed needs) (j + 1)
          else sliceTotal needs (maxNeed needs) j)
      ∧ w 0 = u needs.length
      ∧ ∀ (q : Nat) (need : Int), needs[q]? = some need →
        (n1 q, u (q + 1)) = grantA bitpool slice need (assignBits slice need) (u q)
        ∧ (n2 q, w (q + 1)) = grantB bitpool (n1 q) (w q) ∧ v[q]? = some (n2 q) := by
  obtain ⟨r, hr, rfl⟩ := Option.map_eq_some_iff.1 h
  obtain ⟨j, h1, h2, h3, h4, h5, h6⟩ := searchSlice_trace hr
  have e : maxNeed needs + 1 - 1 = maxNeed needs := by omega
  simp only [e, Nat.zero_add] at h1 h2 h3 h4 h6
  obtain ⟨n1, u, a1, a2, a3⟩ := grantScan_trace (grantA bitpool (exactFill bitpool r).slice)
    (needs.map fun n => (n, assignBits (exactFill bitpool r).slice n)) (exactFill bitpool r).bits
  obtain ⟨n2, w, b1, b2, b3⟩ := grantScan_trace (fun _ => grantB bitpool)
    (grantScan (grantA bitpool (exactFill bitpool r).slice) (needs.map fun n => (n, assignBits (exactFill bitpool r).slice n))
      (exactFill bitpool r).bits).1
    (grantScan (grantA bitpool (exactFill bitpool r).slice) (needs.map fun n => (n, assignBits (exactFill bitpool r).slice n))
      (exactFill bitpool r).bits).2
  rw [List.length_map] at a2
  refine ⟨j, (exactFill bitpool r).slice, n1, n2, u, w, h4 ▸ h5, h6, ?_, ?_, b1.trans a2.symm, fun q need hq => ?_⟩
  · unfold exactFill; rw [h4]; split <;> simp only [h1]
  · rw [a1]; unfold exactFill; rw [h4]; split
    · rfl
    · exact h2
  · obtain ⟨c1, c2⟩ := a3 q _ (by rw [List.getElem?_map, hq]; rfl)
    obtain ⟨d1, d2⟩ := b3 q _ c2
    exact ⟨c1, d1, by dsimp only; rw [List.getElem?_map, d2]; rfl⟩

/-- R97: a call whose bitpool fits 16 bits a pair completes and uses exactly the bitpool. -/
theorem allocate_total (a : AllocIn) (h : a.bitpool ≤ 16 * a.channels.length * a.bands.n) :
    ∃ nbits, allocate a = some (unscan 0 a.channels.length a.bands.n a.needs, nbits)
      ∧ nbits.length = a.channels.length ∧ (∀ v ∈ nbits, v.length = a.bands.n)
      ∧ (nbits.map fun v => (v.map Fin.val).sum).sum = a.bitpool
      ∧ ∃ v, allocateNeeds a.needs a.bitpool = some v ∧ (∀ n ∈ v, n ≤ 16)
        ∧ nbits = unscan 0 a.channels.length a.bands.n (v.map bitCount) := by
  have hpool : a.bitpool ≤ 16 * a.needs.length := by
    rw [a.needs_length, show 16 * (a.bands.n * a.channels.length) = 16 * a.channels.length * a.bands.n by ring]; exact h
  obtain ⟨lo, hlo⟩ := a.needs_range
  obtain ⟨v, hv⟩ := Option.isSome_iff_exists.1 (allocateNeeds_isSome hpool hlo)
  obtain ⟨h1, h2, h3⟩ := allocateNeeds_total hpool hv
  refine ⟨unscan 0 a.channels.length a.bands.n (v.map bitCount), ?_, by simp [unscan, build2], ?_, ?_, v, hv, h3, rfl⟩
  · show (allocateNeeds a.needs a.bitpool).map _ = _
    rw [hv]
    rfl
  · intro r hr
    simp only [unscan, build2, List.mem_map] at hr
    obtain ⟨c, -, rfl⟩ := hr
    simp
  · rw [unscan_sum a.channels_length (bands_n a.bands) v (by rw [h1, a.needs_length]) h3, h2]

end Sys2Proof.Machine
end

