-- ==== Sys2Proof/Laws/Datapath.lean ====
section
/-! SUPPORT. The properties the spec names for the DCT and the block functions (R117, R119, R121), from the form
Machine/Datapath.lean gives them. Every later proof cites these and unfolds no block function. -/

namespace Sys2Proof

open Machine

/-! ### Steps on zero -/

theorem roundShift_zero (k : Fin 31) : roundShift k 0 = 0 := by revert k; decide

theorem sat16_zero : sat16 0 = 0 := by decide

/-- A value that fits int16 is not saturated. -/
theorem sat16_signExtend (x : I16) : sat16 (x.signExtend 32) = x := by
  have h1 : (x.signExtend 32).toInt = x.toInt := BitVec.toInt_signExtend_of_le (by omega)
  have h2 := BitVec.toInt_lt (x := x)
  have h3 := BitVec.le_toInt (x := x)
  apply BitVec.eq_of_toInt_eq
  simp only [sat16, h1, BitVec.toInt_ofInt]
  rw [max_eq_left (by norm_num at h3; omega), min_eq_left (by norm_num at h2; omega)]
  simp [Int.bmod_def]
  norm_num at h2 h3
  omega

/-- A value depends on its sources only. -/
theorem Flow.eval_congr {σ : Type} {table : List I32} {env env' : σ → I32} (h : ∀ s, env s = env' s) (f : Flow σ) :
    f.eval table env = f.eval table env' := by rw [funext h]

/-- R109: every step gives zero from zeros. -/
theorem Flow.eval_zero {σ : Type} {table : List I32} {env : σ → I32} (h : ∀ s, env s = 0) (f : Flow σ) : f.eval table env = 0 := by
  induction f with
  | zero => rfl
  | read s => exact h s
  | product k x ih => simp [Flow.eval, ih]
  | sum x y ihx ihy => simp [Flow.eval, ihx, ihy]
  | difference x y ihx ihy => simp [Flow.eval, ihx, ihy]
  | narrow k x ih => rw [Flow.eval, ih, roundShift_zero]

@[simp] theorem histAt_buildHist {taps : Nat} (f : Fin 2 → Fin 8 → Fin taps → I16) (h : Fin 2) (r : Fin 8) (t : Fin taps) :
    histAt (buildHist f) h r t = f h r t := by
  simp only [histAt, buildHist, Fin.getElem_fin, Vector.getElem_ofFn]

theorem hist_ext {taps : Nat} {x y : Vector (Vector (Vector I16 taps) 8) 2} (h : ∀ a r t, histAt x a r t = histAt y a r t) : x = y := by
  apply Vector.ext; intro a ha
  apply Vector.ext; intro r hr
  apply Vector.ext; intro t ht
  exact h ⟨a, ha⟩ ⟨r, hr⟩ ⟨t, ht⟩

theorem hist_row_ext {taps : Nat} {x y : Vector (Vector (Vector I16 taps) 8) 2} {a : Fin 2} {r : Fin 8}
    (h : ∀ t, histAt x a r t = histAt y a r t) : x[a][r] = y[a][r] := Vector.ext fun t ht => h ⟨t, ht⟩

theorem hist_half_ext {taps : Nat} {x y : Vector (Vector (Vector I16 taps) 8) 2} {a : Fin 2}
    (h : ∀ r t, histAt x a r t = histAt y a r t) : x[a] = y[a] :=
  Vector.ext fun r hr => hist_row_ext (r := ⟨r, hr⟩) (h ⟨r, hr⟩)

theorem histAt_congr_row {taps : Nat} {x y : Vector (Vector (Vector I16 taps) 8) 2} {a : Fin 2} {r : Fin 8} (h : x[a][r] = y[a][r])
    (t : Fin taps) : histAt x a r t = histAt y a r t := congrArg (fun v : Vector I16 taps => v[t]) h

theorem histAt_ax_zero (i : Fin 10) (a : Fin 2) (r : Fin 8) (t : Fin 5) : histAt (EncChan.zeroAt i).ax a r t = 0 := by
  simp [histAt, EncChan.zeroAt]

theorem histAt_sv_zero (i : Fin 10) (a : Fin 2) (r : Fin 8) (t : Fin 10) : histAt (DecChan.zeroAt i).sv a r t = 0 := by
  simp [histAt, DecChan.zeroAt]

theorem Bands.row_val (m : Bands) (r : Fin m.n) : (m.row r).val = r.val := rfl

theorem Bands.row_injective (m : Bands) : Function.Injective m.row := fun r r' h => by
  ext; simpa [Bands.row] using h

/-! ### The DCT -/

theorem DctNet.run_zero {m : Bands} {cos : List I32} (net : DctNet m cos) : net.run (Vector.replicate m.n 0) = Vector.replicate m.n 0 := by
  apply Vector.ext
  intro k hk
  rw [DctNet.run, Vector.getElem_ofFn, Vector.getElem_replicate]
  exact Flow.eval_zero (fun i => by simp) _

/-- The sum of some values. -/
def Flow.total {σ : Type} : List (Flow σ) → Flow σ
  | [] => .zero
  | f :: fs => .sum f (Flow.total fs)

theorem Flow.total_eval {σ : Type} (table : List I32) (env : σ → I32) (fs : List (Flow σ)) :
    (Flow.total fs).eval table env = (fs.map (Flow.eval table env)).sum := by
  induction fs with
  | nil => rfl
  | cons f fs ih => simp [Flow.total, Flow.eval, ih]

theorem Flow.total_weight {σ : Type} [DecidableEq σ] (table : List I32) (i : σ) (fs : List (Flow σ)) :
    (Flow.total fs).weight table i = (fs.map (Flow.weight table i)).sum := by
  induction fs with
  | nil => rfl
  | cons f fs ih => simp [Flow.total, Flow.weight, ih]

/-- The direct form of D-F, for any layout of the table. -/
def DctNet.direct (m : Bands) (cos : List I32) (index : Fin m.n → Fin m.n → Fin cos.length) (shift : Fin 31) : DctNet m cos where
  index := index
  shift := shift
  out := fun k => .narrow shift (Flow.total ((List.finRange m.n).map fun i => .product (index k i) (.read i)))
  out_reduced := fun _ => rfl
  out_weight := fun k i => by
    rw [Flow.weight, Flow.total_weight, List.map_map]
    congr 1
    rw [← Fin.sum_univ_def]
    simp [Flow.weight]

/-- It is `RSHR(sum over i of COS_M[k][i] * v[i], shift + 1)`. -/
theorem DctNet.direct_run {m : Bands} {cos : List I32} {index : Fin m.n → Fin m.n → Fin cos.length} {shift : Fin 31} (v : Vector I32 m.n) (k : Fin m.n) :
    ((DctNet.direct m cos index shift).run v)[k]
      = roundShift shift ((List.finRange m.n).map fun i => cos[index k i] * v[i]).sum := by
  simp [run, direct, Flow.eval, Flow.total_eval, Function.comp_def]

/-- D-Z (R117). -/
theorem Config.dct_zero (m : Bands) : Config.dct m (Vector.replicate m.n 0) = Vector.replicate m.n 0 := DctNet.run_zero ..

/-! ### Analysis -/

namespace AnalysisNet

variable {m : Bands} (net : AnalysisNet m)

/-- Sample `j` of the block stands where `place` says. -/
theorem store_sample (c : EncChan) (x : Vector I16 m.n) (j : Fin m.n) :
    histAt (net.store c x) c.odd (m.row (net.place c.aidx j).1) (net.place c.aidx j).2 = x[j] := by
  rw [store, histAt_buildHist]
  split
  · rename_i j' h
    have h' := List.find?_some h
    simp only [decide_eq_true_eq, true_and] at h'
    have : j' = j := (net.place_injective c.aidx c.aidx j' j rfl (Prod.ext (m.row_injective h'.1) h'.2)).2
    rw [this]
    exact sat16_signExtend _
  · rename_i h
    exact absurd (List.find?_eq_none.1 h j (List.mem_finRange j)) (by simp)

/-- Every other position keeps its value. -/
theorem store_other (c : EncChan) (x : Vector I16 m.n) (h : Fin 2) (r : Fin 8) (t : Fin 5)
    (hne : ∀ j, ¬(h = c.odd ∧ m.row (net.place c.aidx j).1 = r ∧ (net.place c.aidx j).2 = t)) :
    histAt (net.store c x) h r t = histAt c.ax h r t := by
  rw [store, histAt_buildHist, List.find?_eq_none.2 fun j _ => by simpa using hne j]

/-- A block becomes the newest one of the past; the others grow older by one (A-T). -/
theorem past_run (window : List I32) (dct : Vector I32 m.n → Vector I32 m.n) (c : EncChan) (x : Vector I16 m.n) (j : Fin m.n)
    (age : Fin 10) : net.past (net.run window dct c x).1 j age = if age = 0 then x[j] else net.past c j (age - 1) := by
  simp only [past, run]
  split
  · rename_i h
    subst h
    have : c.aidx + 1 - 0 - 1 = c.aidx := by omega
    rw [this]
    exact net.store_sample c x j
  · rename_i h
    have h1 : c.aidx + 1 - age - 1 = c.aidx - age := by omega
    have h2 : c.aidx - (age - 1) - 1 = c.aidx - age := by omega
    rw [h1, h2]
    refine net.store_other c x _ _ _ fun j' hj => ?_
    have := (net.place_injective _ _ j' j (show oddAt c.aidx = _ from hj.1.symm) (Prod.ext (m.row_injective hj.2.1) hj.2.2)).1
    omega

/-- A-T, A-D: the outputs and the accumulator depend on the past blocks, the accumulator and the block only. -/
theorem run_time (window : List I32) (dct : Vector I32 m.n → Vector I32 m.n) {c c' : EncChan} (x : Vector I16 m.n)
    (hp : ∀ j age, net.past c j age = net.past c' j age) (hy : c.ay = c'.ay) :
    (net.run window dct c x).2 = (net.run window dct c' x).2
      ∧ (net.run window dct c x).1.ay = (net.run window dct c' x).1.ay := by
  have : net.source c x = net.source c' x := funext fun s => by cases s <;> simp [source, hp, hy]
  simp only [run, this, and_self]

/-- A-W, R24: rows `M..7` keep their values. -/
theorem run_rows (window : List I32) (dct : Vector I32 m.n → Vector I32 m.n) (c : EncChan) (x : Vector I16 m.n)
    (h : Fin 2) (r : Fin 8) (hr : m.n ≤ r.val) : (net.run window dct c x).1.ax[h][r] = c.ax[h][r] := by
  exact hist_row_ext fun t => net.store_other c x h r t fun j hj => by
    have := (net.place c.aidx j).1.isLt
    rw [← hj.2.1, Bands.row_val] at hr
    omega

/-- R110: only the live half changes. -/
theorem run_half (window : List I32) (dct : Vector I32 m.n → Vector I32 m.n) (c : EncChan) (x : Vector I16 m.n)
    (h : Fin 2) (hh : h ≠ c.odd) : (net.run window dct c x).1.ax[h] = c.ax[h] := by
  exact hist_half_ext fun r t => net.store_other c x h r t fun j hj => hh hj.1

/-- The past is read from rows `0..M-1` only (R24). -/
theorem past_rows {c c' : EncChan} (hi : c.aidx = c'.aidx) (hr : ∀ (h : Fin 2) (r : Fin 8), r.val < m.n → c.ax[h][r] = c'.ax[h][r])
    (j : Fin m.n) (age : Fin 10) : net.past c j age = net.past c' j age := by
  simp only [past, hi]
  exact histAt_congr_row (hr _ _ (net.place _ j).1.isLt) _

/-- A-Z. -/
theorem run_zero (window : List I32) {dct : Vector I32 m.n → Vector I32 m.n} (hd : dct (Vector.replicate m.n 0) = Vector.replicate m.n 0)
    (i : Fin 10) : net.run window dct (.zeroAt i) (Vector.replicate m.n 0) = (.zeroAt (i + 1), Vector.replicate m.n 0) := by
  have hs : ∀ s, net.source (.zeroAt i) (Vector.replicate m.n 0) s = 0 := by
    rintro (s | ⟨s, a⟩ | s)
    · simp [source]
    · rw [source, past, histAt_ax_zero]; rfl
    · simp [source, EncChan.zeroAt]
  have hw : (Vector.ofFn fun k => (net.window k).eval window (net.source (.zeroAt i) (Vector.replicate m.n 0))) = Vector.replicate m.n 0 := by
    apply Vector.ext
    intro k hk
    rw [Vector.getElem_ofFn, Vector.getElem_replicate]
    exact Flow.eval_zero hs _
  have he : ∀ s, Sum.elim (net.source (.zeroAt i) (Vector.replicate m.n 0)) (fun k : Fin m.n => (Vector.replicate m.n (0 : I32))[k]) s = 0 := by
    rintro (s | s)
    · exact hs s
    · simp
  have hax : net.store (.zeroAt i) (Vector.replicate m.n 0) = (EncChan.zeroAt i).ax := by
    refine hist_ext fun h r t => ?_
    rw [store, histAt_buildHist, histAt_ax_zero]
    split
    · simp only [Fin.getElem_fin, Vector.getElem_replicate]; exact sat16_signExtend 0
    · rfl
  simp only [run, hw, hd, hax, Flow.eval_zero he, sat16_zero]
  refine Prod.ext ?_ ?_
  · simp only [EncChan.zeroAt, EncChan.mk.injEq, true_and]
    apply Vector.ext; intro j hj; simp
  · apply Vector.ext; intro k hk; simp

end AnalysisNet

/-- A-I. -/
theorem Config.analyze_index (m : Bands) (c : EncChan) (x : Vector I16 m.n) : (Config.analyze m c x).1.aidx = c.aidx + 1 := rfl

theorem Config.analyze_rows (m : Bands) (c : EncChan) (x : Vector I16 m.n) (h : Fin 2) (r : Fin 8) (hr : m.n ≤ r.val) :
    (Config.analyze m c x).1.ax[h][r] = c.ax[h][r] := AnalysisNet.run_rows _ _ _ c x h r hr

theorem Config.analyze_half (m : Bands) (c : EncChan) (x : Vector I16 m.n) (h : Fin 2) (hh : h ≠ c.odd) :
    (Config.analyze m c x).1.ax[h] = c.ax[h] := AnalysisNet.run_half _ _ _ c x h hh

theorem Config.analyze_zero (m : Bands) (i : Fin 10) :
    Config.analyze m (.zeroAt i) (Vector.replicate m.n 0) = (.zeroAt (i + 1), Vector.replicate m.n 0) :=
  AnalysisNet.run_zero _ _ (Config.dct_zero m) i

theorem Config.analyze_past (m : Bands) (c : EncChan) (x : Vector I16 m.n) (j : Fin m.n) (age : Fin 10) :
    Config.analysisPast m (Config.analyze m c x).1 j age = if age = 0 then x[j] else Config.analysisPast m c j (age - 1) :=
  AnalysisNet.past_run ..

theorem Config.analyze_time (m : Bands) {c c' : EncChan} (x : Vector I16 m.n)
    (hp : ∀ j age, Config.analysisPast m c j age = Config.analysisPast m c' j age) (hy : c.ay = c'.ay) :
    (Config.analyze m c x).2 = (Config.analyze m c' x).2 ∧ (Config.analyze m c x).1.ay = (Config.analyze m c' x).1.ay :=
  AnalysisNet.run_time _ _ _ x hp hy

/-- R24: a 4-subband block does not see rows 4..7. -/
theorem Config.analyze_uses_rows (m : Bands) {c c' : EncChan} (x : Vector I16 m.n) (hi : c.aidx = c'.aidx) (hy : c.ay = c'.ay)
    (hr : ∀ (h : Fin 2) (r : Fin 8), r.val < m.n → c.ax[h][r] = c'.ax[h][r]) :
    (Config.analyze m c x).2 = (Config.analyze m c' x).2 ∧ (Config.analyze m c x).1.ay = (Config.analyze m c' x).1.ay :=
  Config.analyze_time m x (AnalysisNet.past_rows _ hi hr) hy

/-! ### Synthesis -/

theorem dctIdxAt_injective : Function.Injective dctIdxAt := by
  intro i j; revert i j; decide

theorem mem_entries {m : Bands} (e : Fin 2 × Fin m.n) : e ∈ entries m := by
  simp [entries]

namespace SynthesisNet

variable {m : Bands} (net : SynthesisNet m)

/-- Entry `e` of the block stands at tap `dctIdx`, where `place` says. -/
theorem store_entry (c : DecChan) (v : Fin 2 × Fin m.n → I16) (e : Fin 2 × Fin m.n) :
    histAt (net.store c v) (net.place c.sidx e).1 (m.row (net.place c.sidx e).2) c.dctIdx = v e := by
  rw [store, histAt_buildHist]
  split
  · rename_i e' h
    have h' := List.find?_some h
    simp only [decide_eq_true_eq, and_true] at h'
    rw [net.place_injective _ (Prod.ext h'.1 (m.row_injective h'.2))]
  · rename_i h
    exact absurd (List.find?_eq_none.1 h e (mem_entries e)) (by simp)

/-- Every other position keeps its value. -/
theorem store_other (c : DecChan) (v : Fin 2 × Fin m.n → I16) (h : Fin 2) (r : Fin 8) (t : Fin 10)
    (hne : ∀ e, ¬((net.place c.sidx e).1 = h ∧ m.row (net.place c.sidx e).2 = r ∧ t = c.dctIdx)) :
    histAt (net.store c v) h r t = histAt c.sv h r t := by
  rw [store, histAt_buildHist, List.find?_eq_none.2 fun e _ => by simpa using hne e]

/-- The oldest entry of the past stands where this block's goes, so an entry that is not written keeps its value. -/
theorem past_oldest (c : DecChan) (e : Fin 2 × Fin m.n) :
    net.past c e 9 = histAt c.sv (net.place c.sidx e).1 (m.row (net.place c.sidx e).2) c.dctIdx := by
  simp only [past, show c.sidx - 9 - 1 = c.sidx by omega]
  rfl

variable (window : List I32) (dct : Vector I32 m.n → Vector I32 m.n)

/-- The other taps than `dctIdx` keep their values (R111). -/
theorem run_tap (c : DecChan) (y : Vector I32 m.n) (k : Int) (h : Fin 2) (r : Fin 8) (t : Fin 10) (ht : t ≠ c.dctIdx) :
    histAt (net.run window dct c y k).1.sv h r t = histAt c.sv h r t :=
  net.store_other c _ h r t fun _ he => ht he.2.2

/-- S-W: rows `M..7` keep their values. -/
theorem run_rows (c : DecChan) (y : Vector I32 m.n) (k : Int) (h : Fin 2) (r : Fin 8) (hr : m.n ≤ r.val) :
    (net.run window dct c y k).1.sv[h][r] = c.sv[h][r] := by
  exact hist_row_ext fun t => net.store_other c _ h r t fun e he => by
    have := (net.place c.sidx e).2.isLt
    rw [← he.2.1, Bands.row_val] at hr
    omega

/-- S-T, S-D: the samples and the new entries depend on the past blocks, the block and the scale only. -/
theorem run_time {c c' : DecChan} (y : Vector I32 m.n) (k : Int) (hp : ∀ e age, net.past c e age = net.past c' e age) :
    (net.run window dct c y k).2 = (net.run window dct c' y k).2
      ∧ ∀ e age, net.past (net.run window dct c y k).1 e age = net.past (net.run window dct c' y k).1 e age := by
  have hs : net.source c y = net.source c' y := funext fun s => by cases s <;> simp [source, hp]
  have key : ∀ (c : DecChan) (v : Fin 2 × Fin m.n → I16) (e : Fin 2 × Fin m.n) (age : Fin 10),
      net.past ⟨c.sidx + 1, net.store c v⟩ e age = if age = 0 then v e else net.past c e (age - 1) := by
    intro c v e age
    simp only [past]
    split
    · rename_i h
      subst h
      have : c.sidx + 1 - 0 - 1 = c.sidx := by omega
      rw [this]
      exact net.store_entry c v e
    · rename_i h
      have h1 : c.sidx + 1 - age - 1 = c.sidx - age := by omega
      have h2 : c.sidx - (age - 1) - 1 = c.sidx - age := by omega
      rw [h1, h2]
      refine net.store_other c v _ _ _ fun e' he => ?_
      have := dctIdxAt_injective he.2.2
      omega
  have hv : ∀ w, net.stored window c w k = net.stored window c' w k := fun w => funext fun e => by simp only [stored, hp]
  simp only [run, hs, hv, key, hp, implies_true, and_self]

/-- The past is read from rows `0..M-1` only. -/
theorem past_rows {c c' : DecChan} (hi : c.sidx = c'.sidx) (hr : ∀ (h : Fin 2) (r : Fin 8), r.val < m.n → c.sv[h][r] = c'.sv[h][r])
    (e : Fin 2 × Fin m.n) (age : Fin 10) : net.past c e age = net.past c' e age := by
  simp only [past, hi]
  exact histAt_congr_row (hr _ _ (net.place _ e).2.isLt) _

/-- S-Z1. -/
theorem run_zero (hd : dct (Vector.replicate m.n 0) = Vector.replicate m.n 0) (i : Fin 10) (k : Int) :
    net.run window dct (.zeroAt i) (Vector.replicate m.n 0) k = (.zeroAt (i + 1), Vector.replicate m.n 0) := by
  have hs : ∀ s, net.source (.zeroAt i) (Vector.replicate m.n 0) s = 0 := by
    rintro (s | ⟨g, r, a⟩)
    · simp [source]
    · rw [source, past, histAt_sv_zero]; rfl
  have hw : (Vector.ofFn fun j => (net.input k j).eval window (net.source (.zeroAt i) (Vector.replicate m.n 0))) = Vector.replicate m.n 0 := by
    apply Vector.ext
    intro j hj
    rw [Vector.getElem_ofFn, Vector.getElem_replicate]
    exact Flow.eval_zero hs _
  have he : ∀ s, Sum.elim (net.source (.zeroAt i) (Vector.replicate m.n 0)) (fun k : Fin m.n => (Vector.replicate m.n (0 : I32))[k]) s = 0 := by
    rintro (s | s)
    · exact hs s
    · simp
  have ho : ∀ s, Sum.elim (Sum.elim (net.source (.zeroAt i) (Vector.replicate m.n 0)) fun k : Fin m.n => (Vector.replicate m.n (0 : I32))[k])
      (fun _ : Fin 2 × Fin m.n => (0 : I16).signExtend 32) s = 0 := by
    rintro (s | s)
    · exact he s
    · rfl
  have hsv : net.store (.zeroAt i) (fun _ => 0) = (DecChan.zeroAt i).sv := by
    refine hist_ext fun h r t => ?_
    rw [store, histAt_buildHist, histAt_sv_zero]
    split <;> rfl
  have hv : net.stored window (.zeroAt i) (Vector.replicate m.n 0) k = fun _ => 0 := funext fun e => by
    rw [stored]
    split
    · rw [Flow.eval_zero (fun j => by simp), sat16_zero]
    · exact histAt_sv_zero ..
  simp only [run, hw, hd, hv, sat16_zero, hsv, Flow.eval_zero ho]
  refine Prod.ext rfl ?_
  apply Vector.ext; intro k hk; simp

end SynthesisNet

/-- S-I. -/
theorem Config.synthesize_index (m : Bands) (c : DecChan) (y : Vector I32 m.n) (k : Int) :
    (Config.synthesize m c y k).1.sidx = c.sidx + 1 := rfl

theorem Config.synthesize_rows (m : Bands) (c : DecChan) (y : Vector I32 m.n) (k : Int) (h : Fin 2) (r : Fin 8) (hr : m.n ≤ r.val) :
    (Config.synthesize m c y k).1.sv[h][r] = c.sv[h][r] := SynthesisNet.run_rows _ _ _ c y k h r hr

theorem Config.synthesize_tap (m : Bands) (c : DecChan) (y : Vector I32 m.n) (k : Int) (h : Fin 2) (r : Fin 8) (t : Fin 10)
    (ht : t ≠ c.dctIdx) : histAt (Config.synthesize m c y k).1.sv h r t = histAt c.sv h r t := SynthesisNet.run_tap _ _ _ c y k h r t ht

theorem Config.synthesize_zero (m : Bands) (i : Fin 10) (k : Int) :
    Config.synthesize m (.zeroAt i) (Vector.replicate m.n 0) k = (.zeroAt (i + 1), Vector.replicate m.n 0) :=
  SynthesisNet.run_zero _ _ _ (Config.dct_zero m) i k

theorem Config.synthesize_time (m : Bands) {c c' : DecChan} (y : Vector I32 m.n) (k : Int)
    (hp : ∀ e age, Config.synthesisPast m c e age = Config.synthesisPast m c' e age) :
    (Config.synthesize m c y k).2 = (Config.synthesize m c' y k).2
      ∧ ∀ e age, Config.synthesisPast m (Config.synthesize m c y k).1 e age = Config.synthesisPast m (Config.synthesize m c' y k).1 e age :=
  SynthesisNet.run_time _ _ _ y k hp

/-- A 4-subband block does not see rows 4..7. -/
theorem Config.synthesize_uses_rows (m : Bands) {c c' : DecChan} (y : Vector I32 m.n) (k : Int) (hi : c.sidx = c'.sidx)
    (hr : ∀ (h : Fin 2) (r : Fin 8), r.val < m.n → c.sv[h][r] = c'.sv[h][r]) :
    (Config.synthesize m c y k).2 = (Config.synthesize m c' y k).2 :=
  (Config.synthesize_time m y k (SynthesisNet.past_rows _ hi hr)).1

end Sys2Proof
end

