-- ==== Sys2Proof/Laws/Decode.lean ====
section
/-! SUPPORT. The fields of a header word and of a `CFG` word: where each lies, and that the fields are the whole word. -/

namespace Sys2Proof

@[simp] theorem Freq.ofCode_code (f : Freq) : Freq.ofCode f.code = f := by cases f <;> rfl
@[simp] theorem Mode.ofCode_code (m : Mode) : Mode.ofCode m.code = m := by cases m <;> rfl
@[simp] theorem Alloc.ofCode_code (a : Alloc) : Alloc.ofCode a.code = a := by cases a <;> rfl
@[simp] theorem Freq.code_ofCode : ∀ c : BitVec 2, (Freq.ofCode c).code = c := by decide
@[simp] theorem Mode.code_ofCode : ∀ c : BitVec 2, (Mode.ofCode c).code = c := by decide
@[simp] theorem Alloc.code_ofCode : ∀ c : BitVec 1, (Alloc.ofCode c).code = c := by decide

/-- The word of the eight fields of R55. -/
def headerOfFields (y : BitVec 8) (f b m : BitVec 2) (a s : BitVec 1) (p c : BitVec 8) : BitVec 32 :=
  y ++ f ++ b ++ m ++ a ++ s ++ p ++ c

section
variable (y : BitVec 8) (f b m : BitVec 2) (a s : BitVec 1) (p c : BitVec 8)

theorem headerOfFields_sync : (headerOfFields y f b m a s p c).extractLsb' 24 8 = y := by
  iterate 7 refine (BitVec.extractLsb'_append_eq_of_le (by decide)).trans ?_
  exact BitVec.extractLsb'_eq_self

theorem headerOfFields_freq : (headerOfFields y f b m a s p c).extractLsb' 22 2 = f := by
  iterate 6 refine (BitVec.extractLsb'_append_eq_of_le (by decide)).trans ?_
  refine (BitVec.extractLsb'_append_eq_of_add_le (by decide)).trans ?_
  exact BitVec.extractLsb'_eq_self

theorem headerOfFields_blocks : (headerOfFields y f b m a s p c).extractLsb' 20 2 = b := by
  iterate 5 refine (BitVec.extractLsb'_append_eq_of_le (by decide)).trans ?_
  refine (BitVec.extractLsb'_append_eq_of_add_le (by decide)).trans ?_
  exact BitVec.extractLsb'_eq_self

theorem headerOfFields_mode : (headerOfFields y f b m a s p c).extractLsb' 18 2 = m := by
  iterate 4 refine (BitVec.extractLsb'_append_eq_of_le (by decide)).trans ?_
  refine (BitVec.extractLsb'_append_eq_of_add_le (by decide)).trans ?_
  exact BitVec.extractLsb'_eq_self

theorem headerOfFields_alloc : (headerOfFields y f b m a s p c).extractLsb' 17 1 = a := by
  iterate 3 refine (BitVec.extractLsb'_append_eq_of_le (by decide)).trans ?_
  refine (BitVec.extractLsb'_append_eq_of_add_le (by decide)).trans ?_
  exact BitVec.extractLsb'_eq_self

theorem headerOfFields_subbands : (headerOfFields y f b m a s p c).extractLsb' 16 1 = s := by
  iterate 2 refine (BitVec.extractLsb'_append_eq_of_le (by decide)).trans ?_
  refine (BitVec.extractLsb'_append_eq_of_add_le (by decide)).trans ?_
  exact BitVec.extractLsb'_eq_self

theorem headerOfFields_bitpool : (headerOfFields y f b m a s p c).extractLsb' 8 8 = p := by
  refine (BitVec.extractLsb'_append_eq_of_le (by decide)).trans ?_
  refine (BitVec.extractLsb'_append_eq_of_add_le (by decide)).trans ?_
  exact BitVec.extractLsb'_eq_self

theorem headerOfFields_crc : (headerOfFields y f b m a s p c).extractLsb' 0 8 = c := by
  refine (BitVec.extractLsb'_append_eq_of_add_le (by decide)).trans ?_
  exact BitVec.extractLsb'_eq_self

end

/-- Bit `i` of a word, through a field that holds it. -/
theorem getLsbD_of_extract {n : Nat} {w w' : BitVec n} {lo len : Nat} (h : w.extractLsb' lo len = w'.extractLsb' lo len)
    {i : Nat} (h1 : lo ≤ i) (h2 : i < lo + len) : w.getLsbD i = w'.getLsbD i := by
  have := congrArg (fun v => v.getLsbD (i - lo)) h
  simpa [BitVec.getLsbD_extractLsb', show i - lo < len by omega, show lo + (i - lo) = i by omega] using this

/-- A header word is the word of its fields. -/
theorem headerOfFields_extract (w : BitVec 32) :
    headerOfFields (w.extractLsb' 24 8) (w.extractLsb' 22 2) (w.extractLsb' 20 2) (w.extractLsb' 18 2) (w.extractLsb' 17 1)
      (w.extractLsb' 16 1) (w.extractLsb' 8 8) (w.extractLsb' 0 8) = w := by
  apply BitVec.eq_of_getLsbD_eq
  intro i hi
  by_cases h0 : i < 8
  · exact getLsbD_of_extract (headerOfFields_crc ..) (Nat.zero_le i) (by omega)
  by_cases h1 : i < 16
  · exact getLsbD_of_extract (headerOfFields_bitpool ..) (by omega) (by omega)
  by_cases h2 : i < 17
  · exact getLsbD_of_extract (headerOfFields_subbands ..) (by omega) (by omega)
  by_cases h3 : i < 18
  · exact getLsbD_of_extract (headerOfFields_alloc ..) (by omega) (by omega)
  by_cases h4 : i < 20
  · exact getLsbD_of_extract (headerOfFields_mode ..) (by omega) (by omega)
  by_cases h5 : i < 22
  · exact getLsbD_of_extract (headerOfFields_blocks ..) (by omega) (by omega)
  by_cases h6 : i < 24
  · exact getLsbD_of_extract (headerOfFields_freq ..) (by omega) (by omega)
  · exact getLsbD_of_extract (headerOfFields_sync ..) (by omega) (by omega)

/-- The three fields of an mSBC header (R58). -/
theorem msbcWord_sync (y c : BitVec 8) (r : BitVec 16) : (y ++ r ++ c : BitVec 32).extractLsb' 24 8 = y := by
  iterate 2 refine (BitVec.extractLsb'_append_eq_of_le (by decide)).trans ?_
  exact BitVec.extractLsb'_eq_self

theorem msbcWord_reserved (y c : BitVec 8) (r : BitVec 16) : (y ++ r ++ c : BitVec 32).extractLsb' 8 16 = r := by
  refine (BitVec.extractLsb'_append_eq_of_le (by decide)).trans ?_
  refine (BitVec.extractLsb'_append_eq_of_add_le (by decide)).trans ?_
  exact BitVec.extractLsb'_eq_self

theorem msbcWord_crc (y c : BitVec 8) (r : BitVec 16) : (y ++ r ++ c : BitVec 32).extractLsb' 0 8 = c := by
  refine (BitVec.extractLsb'_append_eq_of_add_le (by decide)).trans ?_
  exact BitVec.extractLsb'_eq_self

theorem msbcWord_extract (w : BitVec 32) : (w.extractLsb' 24 8 ++ w.extractLsb' 8 16 ++ w.extractLsb' 0 8 : BitVec 32) = w := by
  apply BitVec.eq_of_getLsbD_eq
  intro i hi
  by_cases h0 : i < 8
  · exact getLsbD_of_extract (msbcWord_crc ..) (Nat.zero_le i) (by omega)
  by_cases h1 : i < 24
  · exact getLsbD_of_extract (msbcWord_reserved ..) (by omega) (by omega)
  · exact getLsbD_of_extract (msbcWord_sync ..) (by omega) (by omega)

/-- R56, R57: the two codes of a block or subband count. -/
theorem countOfCode_blocks : ∀ c : BitVec 2, blocksEncodable (countOfCode c.toNat) = true ∧
    BitVec.ofNat 2 (codeOfCount (countOfCode c.toNat)) = c := by decide

theorem countOfCode_subbands : ∀ c : BitVec 1, subbandsEncodable (countOfCode c.toNat) = true ∧
    BitVec.ofNat 1 (codeOfCount (countOfCode c.toNat)) = c := by decide

theorem codeOfCount_blocks {n : Nat} (h : blocksEncodable n = true) : countOfCode (BitVec.ofNat 2 (codeOfCount n)).toNat = n := by
  simp only [blocksEncodable, Bool.or_eq_true, beq_iff_eq] at h
  rcases h with ((rfl | rfl) | rfl) | rfl <;> rfl

theorem codeOfCount_subbands {n : Nat} (h : subbandsEncodable n = true) :
    countOfCode (BitVec.ofNat 1 (codeOfCount n)).toNat = n := by
  simp only [subbandsEncodable, Bool.or_eq_true, beq_iff_eq] at h
  rcases h with rfl | rfl <;> rfl

/-- The word of the nine fields of `CFG` (R20). -/
def cfgOfFields (z : BitVec 8) (p : BitVec 8) (g : BitVec 1) (s : BitVec 4) (b : BitVec 5) (a : BitVec 1) (m f : BitVec 2) (x : BitVec 1) :
    BitVec 32 := z ++ p ++ g ++ s ++ b ++ a ++ m ++ f ++ x

section
variable (z p : BitVec 8) (g : BitVec 1) (s : BitVec 4) (b : BitVec 5) (a : BitVec 1) (m f : BitVec 2) (x : BitVec 1)

theorem cfgOfFields_high : (cfgOfFields z p g s b a m f x).extractLsb' 24 8 = z := by
  iterate 8 refine (BitVec.extractLsb'_append_eq_of_le (by decide)).trans ?_
  exact BitVec.extractLsb'_eq_self

theorem cfgOfFields_bitpool : (cfgOfFields z p g s b a m f x).extractLsb' 16 8 = p := by
  iterate 7 refine (BitVec.extractLsb'_append_eq_of_le (by decide)).trans ?_
  refine (BitVec.extractLsb'_append_eq_of_add_le (by decide)).trans ?_
  exact BitVec.extractLsb'_eq_self

theorem cfgOfFields_gap : (cfgOfFields z p g s b a m f x).extractLsb' 15 1 = g := by
  iterate 6 refine (BitVec.extractLsb'_append_eq_of_le (by decide)).trans ?_
  refine (BitVec.extractLsb'_append_eq_of_add_le (by decide)).trans ?_
  exact BitVec.extractLsb'_eq_self

theorem cfgOfFields_subbands : (cfgOfFields z p g s b a m f x).extractLsb' 11 4 = s := by
  iterate 5 refine (BitVec.extractLsb'_append_eq_of_le (by decide)).trans ?_
  refine (BitVec.extractLsb'_append_eq_of_add_le (by decide)).trans ?_
  exact BitVec.extractLsb'_eq_self

theorem cfgOfFields_blocks : (cfgOfFields z p g s b a m f x).extractLsb' 6 5 = b := by
  iterate 4 refine (BitVec.extractLsb'_append_eq_of_le (by decide)).trans ?_
  refine (BitVec.extractLsb'_append_eq_of_add_le (by decide)).trans ?_
  exact BitVec.extractLsb'_eq_self

theorem cfgOfFields_alloc : (cfgOfFields z p g s b a m f x).extractLsb' 5 1 = a := by
  iterate 3 refine (BitVec.extractLsb'_append_eq_of_le (by decide)).trans ?_
  refine (BitVec.extractLsb'_append_eq_of_add_le (by decide)).trans ?_
  exact BitVec.extractLsb'_eq_self

theorem cfgOfFields_mode : (cfgOfFields z p g s b a m f x).extractLsb' 3 2 = m := by
  iterate 2 refine (BitVec.extractLsb'_append_eq_of_le (by decide)).trans ?_
  refine (BitVec.extractLsb'_append_eq_of_add_le (by decide)).trans ?_
  exact BitVec.extractLsb'_eq_self

theorem cfgOfFields_freq : (cfgOfFields z p g s b a m f x).extractLsb' 1 2 = f := by
  iterate 1 refine (BitVec.extractLsb'_append_eq_of_le (by decide)).trans ?_
  refine (BitVec.extractLsb'_append_eq_of_add_le (by decide)).trans ?_
  exact BitVec.extractLsb'_eq_self

theorem cfgOfFields_msbc : (cfgOfFields z p g s b a m f x).extractLsb' 0 1 = x := by
  refine (BitVec.extractLsb'_append_eq_of_add_le (by decide)).trans ?_
  exact BitVec.extractLsb'_eq_self

end

namespace Machine

theorem cfgOfDesc_eq (d : Desc) : cfgOfDesc d = cfgOfFields 0 (BitVec.ofNat 8 d.bitpool) 0 (BitVec.ofNat 4 d.subbands)
    (BitVec.ofNat 5 d.blocks) d.alloc.code d.mode.code d.freq.code (BitVec.ofBool d.msbc) := rfl

/-- R132: the `CFG` value of a descriptor describes it. -/
theorem descOfCfg_cfgOfDesc {d : Desc} (hb : d.blocks < 32) (hs : d.subbands < 16) (hp : d.bitpool < 256) :
    descOfCfg (cfgOfDesc d) = d := by
  rw [cfgOfDesc_eq]
  have h0 : ∀ w : BitVec 32, w.getLsbD 0 = (w.extractLsb' 0 1).getLsbD 0 := by
    intro w; rw [BitVec.getLsbD_extractLsb']; rfl
  have hx : ∀ x : Bool, (BitVec.ofBool x).getLsbD 0 = x := by decide
  simp only [descOfCfg, h0, cfgOfFields_msbc, cfgOfFields_freq, cfgOfFields_mode, cfgOfFields_alloc, cfgOfFields_blocks,
    cfgOfFields_subbands, cfgOfFields_bitpool, Freq.ofCode_code, Mode.ofCode_code, Alloc.ofCode_code, hx]
  cases d
  simp only at hb hs hp
  simp only [BitVec.toNat_ofNat, Desc.mk.injEq, true_and]
  omega

/-- R20: the reserved bits of that value are 0. -/
theorem cfgOfDesc_reserved (d : Desc) : cfgOfDesc d &&& ~~~cfgMask = 0 := by
  have hz : (cfgOfDesc d).extractLsb' 24 8 = 0 := cfgOfFields_high ..
  have hg : (cfgOfDesc d).extractLsb' 15 1 = 0 := cfgOfFields_gap ..
  have hm : ∀ i < 32, (~~~cfgMask).getLsbD i = true → i = 15 ∨ 24 ≤ i := by decide
  apply BitVec.eq_of_getLsbD_eq
  intro i hi
  rw [BitVec.getLsbD_and, show BitVec.getLsbD (0 : Word) i = false from BitVec.getLsbD_zero]
  by_cases hc : (~~~cfgMask).getLsbD i = true
  · rcases hm i hi hc with rfl | h
    · rw [getLsbD_of_extract (w' := 0) (lo := 15) (len := 1) (hg.trans (by decide)) (by omega) (by omega)]; rfl
    · rw [getLsbD_of_extract (w' := 0) (lo := 24) (len := 8) (hz.trans (by decide)) h (by omega)]; simp
  · simp [Bool.not_eq_true _ |>.mp hc]

end Machine

end Sys2Proof
end

