-- ==== Sys2Proof/Laws/Step.lean ====
section
/-! SUPPORT. What fetching depends on, what the sequencer's turn does, and what one input can do. -/

namespace Sys2Proof.Machine

theorem State.headerWord_congr {s t : State} (h : t.frameBuf = s.frameBuf) : t.headerWord = s.headerWord := by
  unfold State.headerWord; rw [h]

theorem State.fetch_congr {s t : State} (h : t.frameBuf = s.frameBuf) (p : Pending) : t.fetch p = s.fetch p := by
  cases p with
  | cmd w => rfl
  | uop code => rfl
  | header => simp only [State.fetch]; rw [State.headerWord_congr h]

/-- The four bytes of a header word. -/
theorem State.headerWord_some {s : State} {w : Word} : s.headerWord = some w ↔
    Mem.read s.frameBuf 0 = some (w.extractLsb' 24 8) ∧ Mem.read s.frameBuf 1 = some (w.extractLsb' 16 8)
      ∧ Mem.read s.frameBuf 2 = some (w.extractLsb' 8 8) ∧ Mem.read s.frameBuf 3 = some (w.extractLsb' 0 8) := by
  have fields : ∀ a b c d : Byte, (a ++ b ++ c ++ d : BitVec 32).extractLsb' 24 8 = a ∧ (a ++ b ++ c ++ d : BitVec 32).extractLsb' 16 8 = b
      ∧ (a ++ b ++ c ++ d : BitVec 32).extractLsb' 8 8 = c ∧ (a ++ b ++ c ++ d : BitVec 32).extractLsb' 0 8 = d := by
    intro a b c d
    refine ⟨?_, ?_, ?_, ?_⟩
    · iterate 3 refine (BitVec.extractLsb'_append_eq_of_le (by decide)).trans ?_
      exact BitVec.extractLsb'_eq_self
    · iterate 2 refine (BitVec.extractLsb'_append_eq_of_le (by decide)).trans ?_
      exact (BitVec.extractLsb'_append_eq_of_add_le (by decide)).trans BitVec.extractLsb'_eq_self
    · refine (BitVec.extractLsb'_append_eq_of_le (by decide)).trans ?_
      exact (BitVec.extractLsb'_append_eq_of_add_le (by decide)).trans BitVec.extractLsb'_eq_self
    · exact (BitVec.extractLsb'_append_eq_of_add_le (by decide)).trans BitVec.extractLsb'_eq_self
  unfold State.headerWord
  constructor
  · intro h
    split at h
    · rename_i a b c d h0 h1 h2 h3
      simp only [Option.some.injEq] at h
      obtain ⟨f0, f1, f2, f3⟩ := fields a b c d
      rw [← h, f0, f1, f2, f3]
      exact ⟨h0, h1, h2, h3⟩
    · simp at h
  · rintro ⟨h0, h1, h2, h3⟩
    rw [h0, h1, h2, h3]
    simp only [Option.some.injEq]
    apply BitVec.eq_of_getLsbD_eq
    intro i hi
    obtain ⟨f0, f1, f2, f3⟩ := fields (w.extractLsb' 24 8) (w.extractLsb' 16 8) (w.extractLsb' 8 8) (w.extractLsb' 0 8)
    by_cases c0 : i < 8
    · exact getLsbD_of_extract f3 (Nat.zero_le i) (by omega)
    by_cases c1 : i < 16
    · exact getLsbD_of_extract f2 (by omega) (by omega)
    by_cases c2 : i < 24
    · exact getLsbD_of_extract f1 (by omega) (by omega)
    · exact getLsbD_of_extract f0 (by omega) (by omega)

theorem State.headerWord_withHeaderWord (s : State) (w : Word) : (s.withHeaderWord w).headerWord = some w := by
  rw [State.headerWord_some]
  simp [State.withHeaderWord, Mem.read_writeList]

/-- The sequencer's turn runs the decoded instruction. -/
theorem sequencerTurn_ok {s : State} {p : Pending} {f : Fetched} {i : Instr} (hp : s.phase = .busy p) (hf : s.fetch p = some f)
    (hd : decode f = .ok i) : sequencerTurn s = exec i { s with phase := .idle } := by
  unfold sequencerTurn runPending
  rw [hp]
  dsimp only
  rw [hf]
  dsimp only
  rw [hd]

theorem step_nil {s : State} (h : s.inputs = []) : step s = sequencerTurn s := by unfold step; rw [h]

theorem step_sequencer {s : State} {rest : List Input} (h : s.inputs = .sequencer :: rest) :
    step s = sequencerTurn { s with inputs := rest } := by unfold step; rw [h]

theorem step_hostRead {s : State} {off : Word} {width : Nat} {rest : List Input} (h : s.inputs = .hostRead off width :: rest) :
    step s = hostRead off width { s with inputs := rest } := by unfold step; rw [h]

theorem step_hostWrite {s : State} {off v : Word} {width : Nat} {rest : List Input}
    (h : s.inputs = .hostWrite off width v :: rest) : step s = hostWrite off width v { s with inputs := rest } := by
  unfold step; rw [h]

theorem step_platformReset {s : State} {rest : List Input} (h : s.inputs = .platformReset :: rest) :
    step s = platformReset { s with inputs := rest } := by unfold step; rw [h]

/-! ### The window (R35, R36, R37) -/

theorem accessedWord_some {off : Word} {width : Nat} {w : WindowWord} (h : accessedWord off width = some w) :
    width = 4 ∧ off.toNat % 4 = 0 ∧ windowWordAt (off.toNat % 0x2000) = some w := by
  unfold accessedWord at h
  split at h
  · rename_i hc; exact ⟨hc.1, hc.2, h⟩
  · simp at h

theorem accessedWord_of {off : Word} {n : Nat} (h : off.toNat % 0x2000 = n) (h4 : n % 4 = 0) : accessedWord off 4 = windowWordAt n := by
  unfold accessedWord
  rw [if_pos ⟨rfl, by omega⟩, h]

/-- An idle core takes every access to a word of the window (R160). -/
theorem hostWrite_idle {s : State} {off : Word} {w : WindowWord} (hp : s.phase = .idle) (ha : accessedWord off 4 = some w) (v : Word) :
    hostWrite off 4 v s = .next (s.windowWrite w v) := by
  simp [hostWrite, ha, State.mayAccess, hp, Phase.isBusy]

theorem hostRead_idle {s : State} {off : Word} {w : WindowWord} {x : Word} (hp : s.phase = .idle)
    (ha : accessedWord off 4 = some w) (hr : s.windowRead w = .ok x) : hostRead off 4 s = .next { s with hostData := x } := by
  simp [hostRead, ha, State.mayAccess, hp, Phase.isBusy, hr]

theorem hostRead_idle_fault {s : State} {off : Word} {w : WindowWord} {f : Fault} (hp : s.phase = .idle)
    (ha : accessedWord off 4 = some w) (hr : s.windowRead w = .error f) : hostRead off 4 s = .fault f := by
  simp [hostRead, ha, State.mayAccess, hp, Phase.isBusy, hr]

/-- The index of a buffer word lies inside its buffer. -/
theorem windowWordAt_bound {n : Nat} {w : WindowWord} (h : windowWordAt n = some w) :
    match w with
    | .frameByte i => i < 512
    | .pcmLeft i => i < 128
    | .pcmRight i => i < 128
    | .cmd | .status | .cfg | .frameLen | .pcmLen => True := by
  unfold windowWordAt at h
  repeat' split at h
  all_goals (simp only [Option.some.injEq, reduceCtorEq] at h)
  all_goals (subst h; first | trivial | (dsimp only; omega))

end Sys2Proof.Machine
end

