-- ==== Sys2Proof/Laws/Framer.lean ====
section
/-! SUPPORT. What validity gives (R73, R75), and what the framer's operations do. -/

namespace Sys2Proof.Machine

/-! ### Validity -/

theorem isValid_subbands {d : Desc} (h : isValid d = true) : d.subbands = 4 ∨ d.subbands = 8 := by
  simp only [isValid, Bool.and_eq_true, Bool.or_eq_true, beq_iff_eq] at h
  exact h.1.2

theorem isValid_blocks {d : Desc} (h : isValid d = true) (hm : d.msbc = false) :
    d.blocks = 4 ∨ d.blocks = 8 ∨ d.blocks = 12 ∨ d.blocks = 16 := by
  simp only [isValid, Bool.and_eq_true, Bool.or_eq_true, beq_iff_eq, decide_eq_true_eq, hm, Bool.false_eq_true, false_or] at h
  omega

theorem isValid_bitpool {d : Desc} (h : isValid d = true) : (d.bitpool : Int) ≤ maxBitpool d := by
  simp only [isValid, Bool.and_eq_true, decide_eq_true_eq] at h
  exact h.2

theorem isValid_msbcDesc : isValid msbcDesc = true := by decide

theorem validEff_eff {d : Desc} (h : isValid (eff d) = true) : validEff (eff d) := by
  refine ⟨h, fun hm => ?_⟩
  unfold eff at hm ⊢
  split
  · rfl
  · rename_i hd; rw [if_neg hd] at hm; exact absurd hm hd

theorem validEff_msbcDesc : validEff msbcDesc := ⟨isValid_msbcDesc, fun _ => rfl⟩

/-- A valid effective descriptor has 4, 8, 12 or 16 blocks, or is `MSBC_D`. -/
theorem validEff.blocks {d : Desc} (h : validEff d) :
    d = msbcDesc ∨ (d.msbc = false ∧ (d.blocks = 4 ∨ d.blocks = 8 ∨ d.blocks = 12 ∨ d.blocks = 16)) := by
  cases hm : d.msbc with
  | true => exact .inl (h.2 hm)
  | false => exact .inr ⟨rfl, isValid_blocks h.1 hm⟩

theorem validEff.blocks_bound {d : Desc} (h : validEff d) : 4 ≤ d.blocks ∧ d.blocks ≤ 16 := by
  rcases h.blocks with rfl | ⟨-, hb⟩
  · decide
  · omega

theorem validEff.subbands {d : Desc} (h : validEff d) : d.subbands = 4 ∨ d.subbands = 8 := isValid_subbands h.1

theorem validEff.samples {d : Desc} (h : validEff d) : d.blocks * d.subbands ≤ 128 := by
  have h1 := h.blocks_bound
  rcases h.subbands with h2 | h2 <;> rw [h2] <;> omega

/-- The filter bank of a valid descriptor. -/
theorem bandsOf_some {n : Nat} {m : Bands} : bandsOf n = some m ↔ m.n = n := by
  unfold bandsOf
  constructor
  · intro h
    split at h
    · simp only [Option.some.injEq] at h; subst h; simp [Bands.n, *]
    · split at h
      · simp only [Option.some.injEq] at h; subst h; simp [Bands.n, *]
      · simp at h
  · rintro rfl
    cases m <;> rfl

theorem validEff.bands {d : Desc} (h : validEff d) : ∃ m : Bands, m.n = d.subbands ∧ bandsOf d.subbands = some m := by
  rcases h.subbands with h2 | h2 <;> rw [h2]
  · exact ⟨.four, rfl, rfl⟩
  · exact ⟨.eight, rfl, rfl⟩

/-- The descriptor booleans (R13) as propositions on the mode. -/
theorem twoChannels_eq (d : Desc) : twoChannels d = decide (d.mode ≠ .mono) := by unfold twoChannels; cases d.mode <;> rfl
theorem dualChannel_eq (d : Desc) : dualChannel d = decide (d.mode = .dualChannel) := by unfold dualChannel; cases d.mode <;> rfl
theorem stereoOrJoint_eq (d : Desc) : stereoOrJoint d = decide (d.mode = .stereo ∨ d.mode = .jointStereo) := by
  unfold stereoOrJoint; cases d.mode <;> rfl
theorem jointStereo_eq (d : Desc) : jointStereo d = decide (d.mode = .jointStereo) := by unfold jointStereo; cases d.mode <;> rfl

/-- The two factors of the formulas as numbers. -/
theorem shiftLeft_toNat (x : Nat) (b : Bool) : x <<< b.toNat = x * (if b then 2 else 1) := by
  cases b <;> simp [Nat.shiftLeft_eq]

theorem channelCount_eq (d : Desc) : channelCount d = if d.mode = .mono then 1 else 2 := by
  unfold channelCount twoChannels
  cases d.mode <;> rfl

/-- R75: every valid frame fits the frame buffer, a Mono frame in half of it, and the bitpool fits its field. -/
theorem validEff.bounds {d : Desc} (h : validEff d) :
    frameSize d ≤ 512 ∧ (d.mode = .mono → frameSize d ≤ 256) ∧ d.bitpool ≤ 250 ∧ 6 ≤ frameSize d := by
  rcases h.blocks with rfl | ⟨hm, hb⟩
  · decide
  · have hv := isValid_bitpool h.1
    have hs := h.subbands
    obtain ⟨msbc, freq, mode, alloc, blocks, subbands, bitpool⟩ := d
    simp only at hm hb hs hv
    rcases hb with rfl | rfl | rfl | rfl <;> rcases hs with rfl | rfl <;> cases mode <;>
      simp [maxBitpool, maxBits, twoChannels_eq, dualChannel_eq, stereoOrJoint_eq, jointStereo_eq, headerSize] at hv <;>
      simp [frameSize, headerSize, ceilDiv8, payloadBits, twoChannels_eq, dualChannel_eq, jointStereo_eq] <;> omega

/-- R97 (b): the bitpool of a valid descriptor fits 16 bits for every pair of an allocation call. -/
theorem validEff.pool {d : Desc} (h : validEff d) :
    d.bitpool ≤ 16 * d.subbands * (if d.mode = .stereo ∨ d.mode = .jointStereo then 2 else 1) := by
  have hv := isValid_bitpool h.1
  have : maxBitpool d ≤ ((16 <<< (stereoOrJoint d).toNat * d.subbands : Nat) : Int) := min_le_right _ _
  have h2 : 16 <<< (stereoOrJoint d).toNat * d.subbands = 16 * d.subbands * (if d.mode = .stereo ∨ d.mode = .jointStereo then 2 else 1) := by
    rw [shiftLeft_toNat, stereoOrJoint_eq]
    simp only [decide_eq_true_eq]
    split <;> ring
  omega

end Sys2Proof.Machine
end

