-- ==== Sys2Proof/Laws/Order.lean ====
section
/-! SUPPORT. The order of a frame's fields (R61, R62) by index, the working-state arrays, and how many bits the fields of a
frame take. -/

namespace Sys2Proof.Machine

/-! ### Indexes -/

/-- Rows of equal length, one after another. -/
theorem getElem?_flatMap_rows {α : Type} {M : Nat} (n : Nat) (f : Nat → List α) (hf : ∀ i, (f i).length = M) {i j : Nat}
    (hi : i < n) (hj : j < M) : ((List.range n).flatMap f)[i * M + j]? = (f i)[j]? := by
  induction n with
  | zero => omega
  | succ n ih =>
    have hl : ((List.range n).flatMap f).length = n * M := by
      simp only [List.length_flatMap, hf, List.map_const', List.sum_replicate, List.length_range, smul_eq_mul]
    rw [List.range_succ, List.flatMap_append]
    by_cases h : i < n
    · rw [List.getElem?_append_left, ih h]
      rw [hl]
      calc i * M + j < i * M + M := by omega
        _ = (i + 1) * M := by ring
        _ ≤ n * M := Nat.mul_le_mul_right _ h
    · have hin : i = n := by omega
      subst hin
      rw [List.getElem?_append_right (by rw [hl]; omega), hl]
      simp

theorem pairOrder_length (d : Desc) : (pairOrder d).length = channelCount d * d.subbands := by
  simp [pairOrder, List.length_flatMap]

theorem pairOrder_get (d : Desc) {c s : Nat} (hc : c < channelCount d) (hs : s < d.subbands) :
    (pairOrder d)[c * d.subbands + s]? = some (c, s) := by
  rw [pairOrder, getElem?_flatMap_rows _ _ (by simp) hc hs]
  simp [hs]

theorem sampleOrder_length (d : Desc) : (sampleOrder d).length = d.blocks * (channelCount d * d.subbands) := by
  simp [sampleOrder, List.length_flatMap, pairOrder_length]

theorem sampleOrder_get (d : Desc) {b c s : Nat} (hb : b < d.blocks) (hc : c < channelCount d) (hs : s < d.subbands) :
    (sampleOrder d)[(b * channelCount d + c) * d.subbands + s]? = some (b, c, s) := by
  rw [show (b * channelCount d + c) * d.subbands + s = b * (channelCount d * d.subbands) + (c * d.subbands + s) by ring]
  have hlt : c * d.subbands + s < channelCount d * d.subbands := by
    calc c * d.subbands + s < c * d.subbands + d.subbands := by omega
      _ = (c + 1) * d.subbands := by ring
      _ ≤ channelCount d * d.subbands := Nat.mul_le_mul_right _ hc
  rw [sampleOrder, getElem?_flatMap_rows _ _ (by simp [pairOrder_length]) hb hlt]
  simp [pairOrder_get d hc hs]

/-! ### Arrays -/

theorem at3_build3 {α : Type} (z : α) {C B M : Nat} (f : Nat → Nat → Nat → α) {c b s : Nat} (hc : c < C) (hb : b < B) (hs : s < M) :
    at3 z (build3 C B M f) c b s = f c b s := by
  simp [at3, build3, hc, hb, hs]

theorem at2_build2 {α : Type} (z : α) {C M : Nat} (f : Nat → Nat → α) {c s : Nat} (hc : c < C) (hs : s < M) :
    at2 z (build2 C M f) c s = f c s := by
  simp [at2, build2, hc, hs]

/-! ### Bit counts -/

/-- The bits of the sample fields of the triples `is`. -/
def sampleBits (p : Pass) (is : List (Nat × Nat × Nat)) : Nat := (is.map fun i => p.nbitsAt i.2.1 i.2.2).sum

theorem nbitsAt_le (p : Pass) (c s : Nat) : p.nbitsAt c s ≤ 16 := by
  have := (at2 0 p.nbits c s).isLt
  unfold Pass.nbitsAt
  omega

/-- The widths of the reads of `SIDE_READ` after the mask. -/
theorem pairOrder_widths (d : Desc) : ((pairOrder d).map fun _ => 4).sum = 4 * d.subbands * channelCount d := by
  simp [pairOrder_length]
  ring

theorem sum_flatMap_map {α : Type} (l : List α) (f : α → List Nat) : (l.flatMap f).sum = (l.map fun a => (f a).sum).sum := by
  induction l with
  | nil => rfl
  | cons a l ih => simp [ih]

/-- The sample fields of a frame take `B` times the bits of its pairs (R62). -/
theorem sampleBits_frame {p : Pass} (hl : p.nbits.length = channelCount p.desc) (hr : ∀ v ∈ p.nbits, v.length = p.desc.subbands) :
    sampleBits p (sampleOrder p.desc) = p.desc.blocks * (p.nbits.map fun v => (v.map Fin.val).sum).sum := by
  have row : ∀ c < channelCount p.desc, ((List.range p.desc.subbands).map fun s => p.nbitsAt c s).sum
      = (p.nbits.map fun v => (v.map Fin.val).sum).getD c 0 := by
    intro c hc
    rw [List.getD_eq_getElem?_getD, List.getElem?_map, List.getElem?_eq_getElem (by omega), Option.map_some, Option.getD_some]
    congr 1
    have hv := hr _ (List.getElem_mem (by omega : c < p.nbits.length))
    apply List.ext_getElem
    · simp [hv]
    · intro k h1 h2
      simp only [List.length_map] at h2
      simp [Pass.nbitsAt, at2, List.getElem?_eq_getElem (by omega : c < p.nbits.length), List.getElem?_eq_getElem h2]
  have pairs : ((pairOrder p.desc).map fun i => p.nbitsAt i.1 i.2).sum = (p.nbits.map fun v => (v.map Fin.val).sum).sum := by
    simp only [pairOrder, List.map_flatMap, List.map_map, Function.comp_def]
    rw [sum_flatMap_map]
    congr 1
    apply List.ext_getElem
    · simp [hl]
    · intro c h1 h2
      have hc : c < channelCount p.desc := by simpa using h1
      simp only [List.getElem_map, List.getElem_range]
      have := row c hc
      rw [List.getD_eq_getElem?_getD, List.getElem?_map, List.getElem?_eq_getElem (by omega), Option.map_some,
        Option.getD_some] at this
      exact this
  unfold sampleBits sampleOrder
  simp only [List.map_flatMap, List.map_map, Function.comp_def]
  rw [sum_flatMap_map, List.map_congr_left (g := fun _ => (p.nbits.map fun v => (v.map Fin.val).sum).sum) (fun b _ => pairs)]
  simp

/-! ### The place of a sample (R62) -/

theorem range_split {i n : Nat} (h : i < n) : ∃ post, List.range n = List.range i ++ i :: post := by
  obtain ⟨k, rfl⟩ : ∃ k, n = i + (k + 1) := ⟨n - i - 1, by omega⟩
  rw [List.range_add, List.range_succ_eq_map]
  exact ⟨_, by rw [List.map_cons, Nat.add_zero]⟩

theorem sampleBits_append (p : Pass) (is js : List (Nat × Nat × Nat)) : sampleBits p (is ++ js) = sampleBits p is + sampleBits p js := by
  simp [sampleBits]

/-- The bits of some channels of a block. -/
theorem channelBits_sum (p : Pass) (b : Nat) (cs : List Nat) :
    sampleBits p ((cs.flatMap fun c => (List.range p.desc.subbands).map fun s => (c, s)).map fun q => (b, q)) = (cs.map p.channelBits).sum := by
  induction cs with
  | nil => rfl
  | cons c cs ih =>
    rw [List.flatMap_cons, List.map_append, sampleBits_append, ih, List.map_cons, List.sum_cons]
    simp [sampleBits, Pass.channelBits, Function.comp_def]

theorem sampleBits_blocks (p : Pass) (bs : List Nat) :
    sampleBits p (bs.flatMap fun b => (pairOrder p.desc).map fun q => (b, q))
      = bs.length * ((List.range (channelCount p.desc)).map p.channelBits).sum := by
  induction bs with
  | nil => simp [sampleBits]
  | cons b bs ih =>
    rw [List.flatMap_cons, sampleBits_append, ih, pairOrder, channelBits_sum, List.length_cons]
    ring

/-- The sample fields of a frame take `B` times the bits of a block. -/
theorem sampleBits_total (p : Pass) :
    sampleBits p (sampleOrder p.desc) = p.desc.blocks * ((List.range (channelCount p.desc)).map p.channelBits).sum := by
  rw [sampleOrder, sampleBits_blocks, List.length_range]

/-- The samples before `(b, c, k)` are as many as its index says and take the bits `sampleStart` counts. -/
theorem sampleOrder_split (p : Pass) {b c k : Nat} (hb : b < p.desc.blocks) (hc : c < channelCount p.desc) (hk : k < p.desc.subbands) :
    ∃ pre post, sampleOrder p.desc = pre ++ (b, c, k) :: post
      ∧ pre.length = (b * channelCount p.desc + c) * p.desc.subbands + k ∧ sampleBits p pre = p.sampleStart b c k := by
  obtain ⟨pb, h1⟩ := range_split hb
  obtain ⟨pc, h2⟩ := range_split hc
  obtain ⟨pk, h3⟩ := range_split hk
  have row : (List.range p.desc.subbands).map (fun s => (c, s)) = (List.range k).map (fun s => (c, s)) ++ (c, k) :: pk.map fun s => (c, s) := by
    rw [h3, List.map_append, List.map_cons]
  have pairs : pairOrder p.desc = ((List.range c).flatMap fun c => (List.range p.desc.subbands).map fun s => (c, s))
      ++ ((List.range k).map (fun s => (c, s)) ++ (c, k) :: (pk.map (fun s => (c, s))
        ++ pc.flatMap fun c => (List.range p.desc.subbands).map fun s => (c, s))) := by
    rw [pairOrder, h2, List.flatMap_append, List.flatMap_cons, row, List.append_assoc, List.cons_append]
  refine ⟨((List.range b).flatMap fun b => (pairOrder p.desc).map fun q => (b, q))
      ++ (((List.range c).flatMap fun c => (List.range p.desc.subbands).map fun s => (c, s)).map (fun q => (b, q))
        ++ ((List.range k).map fun s => (c, s)).map fun q => (b, q)), ?_, ?_, ?_, ?_⟩
  · exact (pk.map fun s => (c, s)).map (fun q => (b, q))
      ++ (pc.flatMap fun c => (List.range p.desc.subbands).map fun s => (c, s)).map (fun q => (b, q))
      ++ pb.flatMap fun b => (pairOrder p.desc).map fun q => (b, q)
  · rw [sampleOrder, h1, List.flatMap_append, List.flatMap_cons]
    rw [show (pairOrder p.desc).map (fun q => (b, q)) = _ from congrArg (List.map fun q => (b, q)) pairs]
    simp only [List.map_append, List.map_cons, List.append_assoc, List.cons_append]
  · simp [List.length_flatMap, pairOrder_length]
    ring
  · rw [sampleBits_append, sampleBits_append, sampleBits_blocks, channelBits_sum, List.length_range, Pass.sampleStart]
    simp [sampleBits, Function.comp_def, Nat.add_assoc]

/-- R74: the bits after the header are the covered side bits and the sample bits of the whole bitpool. -/
theorem payloadBits_eq (d : Desc) :
    payloadBits d = coveredSideBits d + d.blocks * (d.bitpool * (if d.mode = .dualChannel then 2 else 1)) := by
  unfold payloadBits coveredSideBits channelCount
  rw [shiftLeft_toNat, shiftLeft_toNat, twoChannels_eq, dualChannel_eq]
  cases d.mode <;> simp <;> ring

/-- R74, R84: the frame size is the whole bytes that the header and those bits take. -/
theorem frameSize_bits (d : Desc) : 32 + payloadBits d ≤ 8 * frameSize d ∧ 8 * frameSize d < 32 + payloadBits d + 8
    ∧ (32 + payloadBits d + 7) / 8 = frameSize d := by
  unfold frameSize headerSize ceilDiv8
  omega

end Sys2Proof.Machine
end

