-- ==== Sys2Proof/Laws/Effects.lean ====
section
/-! SUPPORT. Everything each operation of the sub-blocks can change, said once: the state it leaves, whether it ran or
raised, differs from the one before in the fields named here only. The proofs about commands cite these and unfold no
operation. -/

namespace Sys2Proof.Machine

/-- What any number of reads does to a bitstream: the position moves on and the flag stays set. -/
structure Bs.Advanced (b b' : Bs) : Prop where
  dir : b'.dir = b.dir
  size : b'.size = b.size
  acc : b'.acc = b.acc
  pos : b.pos ≤ b'.pos
  err : b.err = true → b'.err = true

theorem Bs.Advanced.refl (b : Bs) : b.Advanced b := ⟨rfl, rfl, rfl, Nat.le_refl _, id⟩

theorem Bs.Advanced.trans {a b c : Bs} (h : a.Advanced b) (h' : b.Advanced c) : a.Advanced c :=
  ⟨h'.dir.trans h.dir, h'.size.trans h.size, h'.acc.trans h.acc, h.pos.trans h'.pos, fun e => h'.err (h.err e)⟩

theorem Bs.skip_advanced (n : Nat) (b : Bs) : b.Advanced (b.skip n) :=
  ⟨rfl, rfl, rfl, Nat.le_add_right _ _, fun e => by simp [Bs.skip, e]⟩

theorem Bs.getBits_advanced {m : Mem 8} {n : Nat} {v : Word} {b b' : Bs} (h : b.getBits m n = some (v, b')) : b.Advanced b' :=
  Bs.getBits_skip h ▸ Bs.skip_advanced n b

theorem Bs.getFixedBits_advanced {m : Mem 8} {n : Nat} {v : Word} {b b' : Bs} (h : b.getFixedBits m n v = some b') :
    b.Advanced b' := by
  obtain ⟨x, -, rfl⟩ := Bs.getFixedBits_some h
  exact ⟨rfl, rfl, rfl, Nat.le_add_right _ _, fun e => by simp [e]⟩

theorem readSamples_skip {rs : Fin 16 → I32} {m : Mem 8} {p : Pass} {is : List (Nat × Nat × Nat)} {vs : List I32} {b b' : Bs}
    (h : readSamples rs m p is b = some (vs, b')) : b' = b.skip (sampleBits p is) := by
  induction is generalizing b vs with
  | nil => cases h; exact (Bs.skip_zero _).symm
  | cons i is ih =>
    obtain ⟨j, c, s⟩ := i
    have hbits : sampleBits p ((j, c, s) :: is) = p.nbitsAt c s + sampleBits p is := by simp [sampleBits]
    rw [hbits]
    unfold readSamples at h
    split at h
    · rename_i h0
      obtain ⟨r, hr, e⟩ := Option.map_eq_some_iff.1 h
      cases e
      rw [h0, Nat.zero_add]
      exact ih hr
    · split at h
      · cases h
      · rename_i hb
        obtain ⟨r, hr, e⟩ := Option.map_eq_some_iff.1 h
        cases e
        rw [ih hr, Bs.getBits_skip hb, Bs.skip_skip]

/-- A header is read with its bitstream moved on, and a descriptor that was read is an effective one. -/
theorem parseHeader_advanced {m : Mem 8} {b b' : Bs} {r : Option (Desc × BitVec 8)} (h : parseHeader m b = some (r, b')) :
    b.Advanced b' ∧ ∀ x, r = some x → (x.1.msbc = true → x.1 = msbcDesc) ∧ b'.pos = b.pos + 32 := by
  unfold parseHeader at h
  split at h
  · cases h
  · rename_i h0
    have a0 := Bs.getBits_advanced h0
    split at h
    · split at h
      · cases h
      · rename_i h1
        obtain ⟨q, hq, e⟩ := Option.map_eq_some_iff.1 h
        cases e
        refine ⟨a0.trans ((Bs.getFixedBits_advanced h1).trans (Bs.getBits_advanced hq)), fun x hx => ⟨fun _ => by cases hx; rfl, ?_⟩⟩
        obtain ⟨v, -, h2⟩ := Bs.getFixedBits_some h1
        rw [Bs.getBits_skip hq, h2, Bs.getBits_skip h0]
        simp only [Bs.skip, Bs.noteError]
    · split at h
      · split at h
        · rename_i h1
          cases h
          have h2 := (Bs.getFields_skip h1).2
          refine ⟨a0.trans (h2 ▸ Bs.skip_advanced _ _), fun x hx => ⟨fun he => ?_, ?_⟩⟩
          · cases hx
            cases he
          rw [h2, Bs.getBits_skip h0, Bs.skip_skip]
          rfl
        · cases h
      · cases h
        exact ⟨a0, fun x hx => by cases hx⟩

theorem acceptHeader_effect (d : Desc) (crc : BitVec 8) (s : State) (hd : d.msbc = true → d = msbcDesc) :
    acceptHeader d crc s = .raised .malformedHeader s
      ∨ (validEff d ∧ s.pass.bs.err = false
        ∧ acceptHeader d crc s = .ok { s with pass := { s.pass with desc := d, crcRx := crc } }) := by
  unfold acceptHeader
  cases he : s.pass.bs.err <;> cases hv : isValid d <;> simp [validEff, hv]
  exact hd

/-- R77: it stops at an unwritten byte, raises `MalformedHeader` with only the bitstream moved on, or takes over a valid
effective descriptor and the received CRC byte, 32 bits on and with the flag clear. -/
theorem hdrRead_effect (s : State) :
    hdrRead s = .fault .unwrittenFrameByte
      ∨ ∃ bs, s.pass.bs.Advanced bs ∧ (hdrRead s = .raised .malformedHeader (s.setBs bs)
        ∨ ∃ d crc, validEff d ∧ bs = { s.pass.bs with pos := s.pass.bs.pos + 32, err := false }
          ∧ hdrRead s = .ok { s with pass := { s.pass with bs := bs, desc := d, crcRx := crc } }) := by
  unfold hdrRead
  split
  · exact .inl rfl
  · rename_i bs h
    exact .inr ⟨bs, (parseHeader_advanced h).1, .inl rfl⟩
  · rename_i d crc bs h
    refine .inr ⟨bs, (parseHeader_advanced h).1, ?_⟩
    obtain ⟨ha, hd⟩ := parseHeader_advanced h
    rcases acceptHeader_effect d crc (s.setBs bs) (hd _ rfl).1 with h1 | ⟨h1, h2, h3⟩
    · exact .inl h1
    · refine .inr ⟨d, crc, h1, ?_, h3⟩
      have hp := (hd _ rfl).2
      obtain ⟨g1, g2, g3, -, -⟩ := ha
      cases bs
      simp only at g1 g2 g3 hp
      simp only [Bs.mk.injEq]
      exact ⟨g1, g2, hp, g3, h2⟩

/-- R83: `SIDE_READ` reads the covered side bits and sets `JOINT` and `SCF`; it never raises. -/
theorem sideRead_effect (s : State) :
    sideRead s = .fault .unwrittenFrameByte ∨ sideRead s = .refused .bitWidth
      ∨ ∃ joint scf, sideRead s = .ok { s with
          pass := { s.pass with bs := s.pass.bs.skip (coveredSideBits s.pass.desc), joint := joint, scf := scf } } := by
  have key : ∀ (j : BitVec 8) (t : State), readScaleFactors j t = .fault .unwrittenFrameByte
      ∨ ∃ scf, readScaleFactors j t = .ok { t with
          pass := { t.pass with bs := t.pass.bs.skip (4 * t.pass.desc.subbands * channelCount t.pass.desc), joint := j, scf := scf } } := by
    intro j t
    unfold readScaleFactors
    split
    · exact .inl rfl
    · rename_i h
      have h2 := (Bs.getFields_skip h).2
      rw [pairOrder_widths] at h2
      exact .inr ⟨_, by rw [h2]⟩
  unfold sideRead coveredSideBits
  split
  · split
    · split
      · exact .inl rfl
      · rename_i f bs h
        rcases key (maskOfField s.pass.desc.subbands f) (s.setBs bs) with h1 | ⟨scf, h1⟩
        · exact .inl h1
        · refine .inr (.inr ⟨maskOfField s.pass.desc.subbands f, scf, h1.trans ?_⟩)
          simp only [State.setBs, Bs.getBits_skip h, Bs.skip_skip]
    · exact .inr (.inl rfl)
  · rcases key 0 s with h1 | ⟨scf, h1⟩
    · exact .inl h1
    · exact .inr (.inr ⟨_, scf, by rw [h1, Nat.zero_add]⟩)

/-- R81: the computed CRC goes to `CRC`, and a difference raises `ChecksumMismatch`. -/
theorem crcCheck_effect (s : State) :
    crcCheck s = .fault .unwrittenFrameByte
      ∨ ∃ c, crcCheck s = .ok { s with pass := { s.pass with crc := c } }
        ∨ crcCheck s = .raised .checksumMismatch { s with pass := { s.pass with crc := c } } := by
  unfold crcCheck
  split
  · exact .inl rfl
  · rename_i bits _
    refine .inr ⟨crcOf bits, ?_⟩
    dsimp only
    split
    · exact .inl rfl
    · exact .inr rfl

/-- R80. -/
theorem crcInsert_effect (s : State) :
    crcInsert s = .fault .unwrittenFrameByte
      ∨ ∃ c, crcInsert s = .ok { s with frameBuf := Mem.write s.frameBuf 3 c, pass := { s.pass with crc := c } } := by
  unfold crcInsert
  split
  · exact .inl rfl
  · exact .inr ⟨_, rfl⟩

/-- R96: the allocation goes to `BITNEED` and `NBITS`; it never raises. -/
theorem storeAllocation_effect (r : Option (List (List Int) × List (List (Fin 17)))) (s : State) :
    storeAllocation r s = .fault .allocatorDiverges
      ∨ ∃ needs nbits, storeAllocation r s = .ok { s with pass := { s.pass with bitneed := needs, nbits := nbits } } := by
  unfold storeAllocation
  split
  · exact .inl rfl
  · exact .inr ⟨_, _, rfl⟩

theorem bitAllocFrame_effect (s : State) :
    bitAllocFrame s = .refused .invalidDescriptor ∨ bitAllocFrame s = .fault .allocatorDiverges
      ∨ ∃ needs nbits, bitAllocFrame s = .ok { s with pass := { s.pass with bitneed := needs, nbits := nbits } } := by
  unfold bitAllocFrame
  split
  · exact .inl rfl
  · exact .inr (storeAllocation_effect _ s)

/-- R85: `PAYLOAD_READ` reads the sample bits and sets `SB`; it never raises. -/
theorem payloadRead_effect (s : State) :
    payloadRead s = .fault .unwrittenFrameByte
      ∨ ∃ sb, payloadRead s = .ok { s with
          pass := { s.pass with bs := s.pass.bs.skip (sampleBits s.pass (sampleOrder s.pass.desc)), sbDec := sb } } := by
  unfold payloadRead
  split
  · exact .inl rfl
  · rename_i h
    exact .inr ⟨_, by rw [readSamples_skip h]⟩

/-- R101. -/
theorem jointUncouple_effect (s : State) : ∃ sb, jointUncouple s = .ok { s with pass := { s.pass with sbDec := sb } } := by
  unfold jointUncouple
  split
  · exact ⟨_, rfl⟩
  · exact ⟨s.pass.sbDec, rfl⟩

/-- R99. -/
theorem jointDecide_effect (s : State) :
    ∃ joint scf sb, jointDecide s = .ok { s with pass := { s.pass with joint := joint, scf := scf, sbEnc := sb } } := by
  unfold jointDecide
  split
  · exact ⟨_, _, _, rfl⟩
  · exact ⟨0, s.pass.scf, s.pass.sbEnc, rfl⟩

/-- R120: it never raises. -/
theorem analyzeFrame_effect (s : State) :
    analyzeFrame s = .refused .invalidDescriptor ∨ analyzeFrame s = .fault .unwrittenPcmSample
      ∨ ∃ e0 e1 sb, analyzeFrame s = .ok { s with enc0 := e0, enc1 := e1, pass := { s.pass with sbEnc := sb } } := by
  unfold analyzeFrame
  split
  · exact .inl rfl
  · split
    · exact .inr (.inl rfl)
    · split
      · split
        · exact .inr (.inl rfl)
        · exact .inr (.inr ⟨_, _, _, rfl⟩)
      · exact .inr (.inr ⟨_, s.enc1, _, rfl⟩)

theorem synthChannel_length (m : Bands) (k : Int) (ys : List (List I32)) (e : DecChan) :
    (synthChannel m k ys e).2.length = ys.length * m.n := by
  induction ys generalizing e with
  | nil => simp [synthChannel]
  | cons y ys ih => simp [synthChannel, ih, Nat.add_mul]; omega

theorem Pass.decoderBlocks_length (p : Pass) (c : Nat) : (p.decoderBlocks c).length = p.desc.blocks := by simp [Pass.decoderBlocks]

/-- R122: `B*M` samples per used channel; it never raises. -/
theorem synthFrame_effect (s : State) :
    synthFrame s = .refused .invalidDescriptor
      ∨ ∃ e0 e1 v0 v1, v0.length ≤ s.pass.desc.blocks * s.pass.desc.subbands ∧ v1.length ≤ s.pass.desc.blocks * s.pass.desc.subbands
        ∧ synthFrame s = .ok { s with
            dec0 := e0, dec1 := e1, pcmL := Mem.writeList s.pcmL 0 v0, pcmR := Mem.writeList s.pcmR 0 v1 } := by
  unfold synthFrame
  split
  · exact .inl rfl
  · rename_i m hm
    have hn := bandsOf_some.1 hm
    have hl : ∀ c k e, (synthChannel m k (s.pass.decoderBlocks c) e).2.length = s.pass.desc.blocks * s.pass.desc.subbands := by
      intro c k e
      rw [synthChannel_length, Pass.decoderBlocks_length, hn]
    dsimp only
    split
    · exact .inr ⟨_, _, _, _, (hl _ _ _).le, (hl _ _ _).le, rfl⟩
    · exact .inr ⟨_, s.dec1, _, [], (hl _ _ _).le, Nat.zero_le _, rfl⟩

/-- R68: fields go to the frame, or a width is refused. -/
theorem writeFields_effect (fs : List (Word × Nat)) (s : State) :
    writeFields fs s = .refused .bitWidth ∨ writeFields fs s = .ok (s.setWriter (Bs.putFields fs s.writer)) := by
  unfold writeFields
  split
  · exact .inr rfl
  · exact .inl rfl

/-- R84. -/
theorem payloadWrite_effect (s : State) :
    payloadWrite s = .refused .bitWidth
      ∨ payloadWrite s = .ok (s.setWriter (Bs.flush (Bs.putFields (payloadFields s.pass) s.writer))) := by
  unfold payloadWrite
  rcases writeFields_effect (payloadFields s.pass) s with h | h <;> rw [h]
  · exact .inl rfl
  · exact .inr rfl

end Sys2Proof.Machine
end

