-- ==== Sys2Proof/Laws/Header.lean ====
section
/-! SUPPORT. The header as bits of the frame (R55, R58): what a reader and HDR_READ see of the word at `FRAME_BUF[0..3]`,
and what HDR_WRITE puts there. -/

namespace Sys2Proof.Machine

/-- The first four bytes of a frame buffer are the header word `w`. -/
def HoldsHeader (m : Mem 8) (w : Word) : Prop := ∀ p < 32, frameBit m p = some (w.getLsbD (31 - p))

theorem State.headerWord_holds {s : State} {w : Word} : s.headerWord = some w ↔ HoldsHeader s.frameBuf w := by
  rw [State.headerWord_some]
  constructor
  · rintro ⟨h0, h1, h2, h3⟩ p hp
    unfold frameBit
    interval_cases p <;> simp [h0, h1, h2, h3]
  · intro h
    have byte : ∀ i < 4, Mem.read s.frameBuf i = some (w.extractLsb' (24 - 8 * i) 8) := by
      intro i hi
      have h0 := h (8 * i) (by omega)
      unfold frameBit at h0
      rw [show 8 * i / 8 = i by omega] at h0
      obtain ⟨b, hb, -⟩ := Option.map_eq_some_iff.1 h0
      rw [hb]
      congr 1
      apply BitVec.eq_of_getLsbD_eq
      intro j hj
      have hp := h (8 * i + (7 - j)) (by omega)
      unfold frameBit at hp
      rw [show (8 * i + (7 - j)) / 8 = i by omega, hb, Option.map_some, Option.some.injEq,
        show 7 - (8 * i + (7 - j)) % 8 = j by omega] at hp
      rw [hp, BitVec.getLsbD_extractLsb', decide_eq_true hj, Bool.true_and]
      congr 1
      omega
    exact ⟨byte 0 (by omega), byte 1 (by omega), byte 2 (by omega), byte 3 (by omega)⟩

/-- A field of the header word. -/
theorem Bs.getBits_header {m : Mem 8} {w : Word} (hm : HoldsHeader m w) {bs : Bs} (hsize : 4 ≤ bs.size) {n : Nat}
    (hn : bs.pos + n ≤ 32) :
    bs.getBits m n = some ((w.extractLsb' (32 - bs.pos - n) n).setWidth 32, { bs with pos := bs.pos + n }) := by
  have hl : (List.ofFn fun k : Fin n => w.getLsbD (31 - (bs.pos + k.val))).length = n := by simp
  have := Bs.getBits_inside (m := m) (bits := List.ofFn fun k : Fin n => w.getLsbD (31 - (bs.pos + k.val))) (bs := bs)
    (by rw [hl]; omega) (fun k hk => by rw [hl] at hk; rw [hm _ (by omega)]; simp)
  rw [hl] at this
  rw [this]
  congr 2
  apply BitVec.eq_of_getLsbD_eq
  intro j hj
  rw [wordOfBits_getLsbD (by rw [hl]; omega), hl, BitVec.getLsbD_setWidth, decide_eq_true hj, Bool.true_and,
    BitVec.getLsbD_extractLsb']
  by_cases h : j < n
  · rw [if_pos h, decide_eq_true h, Bool.true_and, List.getD_eq_getElem?_getD, List.getElem?_eq_getElem (by rw [hl]; omega)]
    simp only [List.getElem_ofFn, Option.getD_some]
    congr 1
    omega
  · simp [h]

/-- R77: what is read of a header word, from a fresh reader. -/
theorem parseHeader_word {m : Mem 8} {w : Word} (hm : HoldsHeader m w) {size : Nat} (hsize : 4 ≤ size) :
    parseHeader m ⟨.read, size, 0, [], false⟩ = some (
      if w.extractLsb' 24 8 = 0xAD#8 then
        (some (msbcDesc, w.extractLsb' 0 8), ⟨.read, size, 32, [], decide (w.extractLsb' 8 16 ≠ 0#16)⟩)
      else if w.extractLsb' 24 8 = 0x9C#8 then
        (some (⟨false, Freq.ofCode (w.extractLsb' 22 2), Mode.ofCode (w.extractLsb' 18 2), Alloc.ofCode (w.extractLsb' 17 1),
          countOfCode (w.extractLsb' 20 2).toNat, countOfCode (w.extractLsb' 16 1).toNat, (w.extractLsb' 8 8).toNat⟩,
          w.extractLsb' 0 8), ⟨.read, size, 32, [], false⟩)
      else (none, ⟨.read, size, 8, [], false⟩)) := by
  have widen8 : ∀ (x c : BitVec 8), (x.setWidth 32 = (c.setWidth 32 : Word)) ↔ x = c := by
    intro x c
    refine ⟨fun h => ?_, fun h => by rw [h]⟩
    have := congrArg (fun v : Word => v.setWidth 8) h
    simpa using this
  have widen16 : ∀ x : BitVec 16, (x.setWidth 32 : Word) = 0 ↔ x = 0#16 := by
    intro x
    refine ⟨fun h => ?_, fun h => by rw [h]; rfl⟩
    have := congrArg (fun v : Word => v.setWidth 16) h
    simpa using this
  have narrow : ∀ {n : Nat} (x : BitVec n), n ≤ 32 → (x.setWidth 32 : Word).setWidth n = x := by
    intro n x hn
    rw [BitVec.setWidth_setWidth_of_le _ hn, BitVec.setWidth_eq]
  have nat : ∀ {n : Nat} (x : BitVec n), n ≤ 32 → (x.setWidth 32 : Word).toNat = x.toNat := by
    intro n x hn
    exact BitVec.toNat_setWidth_of_le hn
  unfold parseHeader
  rw [Bs.getBits_header hm (by exact hsize) (by norm_num)]
  dsimp only
  rw [show (0xAD : Word) = (0xAD#8).setWidth 32 from rfl, show (0x9C : Word) = (0x9C#8).setWidth 32 from rfl]
  simp only [widen8, Nat.sub_zero]
  norm_num only
  split
  · rw [Bs.getFixedBits, Bs.getBits_header hm (by exact hsize) (by norm_num)]
    simp only [Option.map_some, Bs.noteError]
    rw [Bs.getBits_header hm (by exact hsize) (by norm_num)]
    simp only [Option.map_some]
    norm_num only [Bool.false_or]
    rw [narrow _ (by decide)]
    congr 4
    rw [bne, Bool.eq_iff_iff]
    simp only [Bool.not_eq_true', beq_eq_false_iff_ne, decide_eq_true_eq, ne_eq]
    exact not_congr (widen16 _)
  · split
    · simp only [Bs.getFields]
      iterate 7
        rw [Bs.getBits_header hm (by exact hsize) (by norm_num)]
        dsimp only
        norm_num only [Option.map_some]
      simp only [headerDesc, narrow _ (by decide : 1 ≤ 32), narrow _ (by decide : 2 ≤ 32), narrow _ (by decide : 8 ≤ 32),
        nat _ (by decide : 1 ≤ 32), nat _ (by decide : 2 ≤ 32), nat _ (by decide : 8 ≤ 32)]
    · rfl

/-! ### Writing a header -/

theorem fieldBits_eq_ofFn (v : Word) (n : Nat) : fieldBits v n = List.ofFn fun k : Fin n => v.getLsbD (n - 1 - k.val) := by
  apply List.ext_getElem
  · simp
  · intro k h1 h2
    have hk : k < n := by simpa using h1
    have := fieldBits_getD v n k hk
    rw [List.getD_eq_getElem?_getD, List.getElem?_eq_getElem h1, Option.getD_some] at this
    rw [this]
    simp

/-- Two adjacent fields are one field. -/
theorem fieldBits_append {n k : Nat} (x : BitVec n) (y : BitVec k) (h : n + k ≤ 32) :
    fieldBits (x.setWidth 32) n ++ fieldBits (y.setWidth 32) k = fieldBits ((x ++ y).setWidth 32) (n + k) := by
  apply List.ext_getElem
  · simp
  · intro i h1 h2
    have hi : i < n + k := by simpa using h2
    have get : ∀ (v : Word) (m j : Nat) (hj : j < (fieldBits v m).length), (fieldBits v m)[j] = v.getLsbD (m - 1 - j) := by
      intro v m j hj
      have hm : j < m := by simpa using hj
      have := fieldBits_getD v m j hm
      rwa [List.getD_eq_getElem?_getD, List.getElem?_eq_getElem hj, Option.getD_some] at this
    rw [get, List.getElem_append]
    by_cases hn : i < n
    · rw [dif_pos (by simpa using hn), get, BitVec.getLsbD_setWidth, BitVec.getLsbD_setWidth, BitVec.getLsbD_append,
        decide_eq_true (by omega), decide_eq_true (by omega), Bool.true_and, Bool.true_and, if_neg (by omega)]
      congr 1
      omega
    · rw [dif_neg (by simpa using hn), get, BitVec.getLsbD_setWidth, BitVec.getLsbD_setWidth, BitVec.getLsbD_append,
        decide_eq_true (by simp only [fieldBits_length]; omega), decide_eq_true (by omega), Bool.true_and, Bool.true_and,
        if_pos (by omega)]
      congr 1
      simp only [fieldBits_length]
      omega

/-- R57, R76: the fields of a valid effective descriptor's header are the bits of its word, with a zero CRC byte. -/
theorem headerFields_bits {d : Desc} (h : validEff d) :
    ∃ w, encode (headerInstr d 0) = .header w ∧ bitsOfFields (headerFields d) = fieldBits w 32 := by
  rcases h.blocks with rfl | ⟨hm, hb⟩
  · exact ⟨_, rfl, by decide⟩
  · have hp := h.bounds.2.2.1
    have hs := h.subbands
    refine ⟨_, by rw [headerInstr, hm]; rfl, ?_⟩
    have e1 : BitVec.ofInt 32 (((d.blocks >>> 2 : Nat) : Int) - 1) = (BitVec.ofNat 2 (codeOfCount d.blocks)).setWidth 32 := by
      rcases hb with h | h | h | h <;> rw [h] <;> decide
    have e2 : BitVec.ofInt 32 (((d.subbands >>> 2 : Nat) : Int) - 1) = (BitVec.ofNat 1 (codeOfCount d.subbands)).setWidth 32 := by
      rcases hs with h | h <;> rw [h] <;> decide
    have e3 : BitVec.ofNat 32 d.bitpool = (BitVec.ofNat 8 d.bitpool).setWidth 32 := by
      apply BitVec.eq_of_toNat_eq
      simp only [BitVec.toNat_setWidth, BitVec.toNat_ofNat]
      omega
    simp only [headerFields, hm, Bool.false_eq_true, if_false, e1, e2, e3, bitsOfFields, List.flatMap_cons, List.flatMap_nil,
      List.append_nil, ← List.append_assoc]
    rw [show (0x9C : Word) = (0x9C#8).setWidth 32 from rfl, show (0 : Word) = (0#8).setWidth 32 from rfl]
    iterate 7 rw [fieldBits_append _ _ (by norm_num)]
    rfl

/-! ### The coverage of the CRC (R78) -/

theorem frameBits_some {m : Mem 8} {p n : Nat} {bits : List Bool} :
    frameBits m p n = some bits ↔ bits.length = n ∧ ∀ k < n, bits[k]? = frameBit m (p + k) ∧ (frameBit m (p + k)).isSome := by
  induction n generalizing p bits with
  | zero =>
    simp only [frameBits, Option.some.injEq]
    constructor
    · rintro rfl; simp
    · rintro ⟨h, -⟩; exact (List.eq_nil_of_length_eq_zero h).symm
  | succ n ih =>
    simp only [frameBits]
    constructor
    · intro h
      split at h
      · cases h
      · rename_i b hb
        obtain ⟨bs, h1, rfl⟩ := Option.map_eq_some_iff.1 h
        obtain ⟨h2, h3⟩ := ih.1 h1
        refine ⟨by simp [h2], fun k hk => ?_⟩
        cases k with
        | zero => simp [hb]
        | succ k =>
          have := h3 k (by omega)
          rw [List.getElem?_cons_succ, show p + (k + 1) = p + 1 + k by omega]; exact this
    · rintro ⟨h1, h2⟩
      cases bits with
      | nil => simp at h1
      | cons b bs =>
        have h0 := (h2 0 (by omega)).1
        simp only [List.getElem?_cons_zero, Nat.add_zero] at h0
        rw [← h0]
        dsimp only
        rw [ih.2 ⟨by simpa using h1, fun k hk => ?_⟩]
        · rfl
        · have := h2 (k + 1) (by omega)
          rwa [List.getElem?_cons_succ, show p + (k + 1) = p + 1 + k by omega] at this

theorem coveredSideBits_eq (d : Desc) : coveredSideBits d =
    (if d.mode = .jointStereo then d.subbands else 0) + 4 * d.subbands * (if d.mode = .mono then 1 else 2) := by
  rw [coveredSideBits, channelCount_eq, jointStereo_eq]; simp

/-- R78: the coverage is the bits 8..23 and those from bit 32 on. -/
theorem coverage_some {m : Mem 8} {d : Desc} {bits : List Bool} (hl : bits.length = 16 + coveredSideBits d)
    (h : ∀ k < 16 + coveredSideBits d, bits[k]? = frameBit m (if k < 16 then 8 + k else 16 + k)) : coverage m d = some bits := by
  have hs : ∀ k < 16 + coveredSideBits d, (frameBit m (if k < 16 then 8 + k else 16 + k)).isSome := by
    intro k hk; rw [← h k hk, List.getElem?_eq_getElem (by omega)]; rfl
  unfold coverage
  rw [(frameBits_some (bits := bits.take 16)).2 ⟨by simp; omega, fun k hk => ?_⟩,
    (frameBits_some (bits := bits.drop 16)).2 ⟨by simp; omega, fun k hk => ?_⟩]
  · simp
  · have := h (16 + k) (by omega)
    have h' := hs (16 + k) (by omega)
    rw [if_neg (by omega), show 16 + (16 + k) = 32 + k by omega] at this h'
    rw [List.getElem?_drop]; exact ⟨this, h'⟩
  · have := h k (by omega)
    have h' := hs k (by omega)
    rw [if_pos (by omega)] at this h'
    rw [List.getElem?_take, if_pos (by omega)]; exact ⟨this, h'⟩

theorem coverage_bits {m : Mem 8} {d : Desc} {bits : List Bool} (h : coverage m d = some bits) :
    bits.length = 16 + coveredSideBits d
      ∧ ∀ k < 16 + coveredSideBits d, bits[k]? = frameBit m (if k < 16 then 8 + k else 16 + k) := by
  unfold coverage at h
  split at h
  · rename_i a b ha hb
    cases h
    obtain ⟨ha, ha'⟩ := frameBits_some.1 ha
    obtain ⟨hb, hb'⟩ := frameBits_some.1 hb
    refine ⟨by simp; omega, fun k hk => ?_⟩
    split
    · rw [List.getElem?_append_left (by omega)]; exact (ha' k (by omega)).1
    · rw [List.getElem?_append_right (by omega), ha, (hb' (k - 16) (by omega)).1]; congr 1; omega
  · cases h

theorem crcOf_append (xs ys : List Bool) : crcOf (xs ++ ys) = ys.foldl crcBit (crcOf xs) := List.foldl_append ..

end Sys2Proof.Machine
end

