-- ==== Sys2Proof/Laws/Fields.lean ====
section
/-! SUPPORT. What a reader gets from bits that are fields: reading gives back what writing put (R66, R68); the joint mask
and the side fields bit by bit. -/

namespace Sys2Proof.Machine

/-! ### Reading fields -/

theorem fieldBits_wordOfBits {bits : List Bool} (h : bits.length ≤ 32) : fieldBits (wordOfBits bits) bits.length = bits := by
  rw [fieldBits_eq_ofFn]
  apply List.ext_getElem
  · simp
  · intro k h1 h2
    have hk : bits.length - 1 - (bits.length - 1 - k) = k := by omega
    rw [List.getElem_ofFn, wordOfBits_getLsbD h, if_pos (by dsimp only; omega), hk, List.getD_eq_getElem?_getD,
      List.getElem?_eq_getElem h2, Option.getD_some]

/-- Any bits of the right number are fields of given widths. -/
theorem exists_fields {ns : List Nat} (hns : ∀ n ∈ ns, n ≤ 32) {bits : List Bool} (h : bits.length = ns.sum) :
    ∃ fs : List (Word × Nat), fs.map Prod.snd = ns ∧ bitsOfFields fs = bits ∧ ∀ f ∈ fs, f.1.toNat < 2 ^ f.2 := by
  induction ns generalizing bits with
  | nil => exact ⟨[], rfl, (List.eq_nil_of_length_eq_zero h).symm, by simp⟩
  | cons n ns ih =>
    simp only [List.sum_cons] at h
    obtain ⟨fs, h1, h2, h3⟩ := ih (fun k hk => hns k (by simp [hk])) (bits := bits.drop n) (by simp; omega)
    have hn := hns n (by simp)
    have hl : (bits.take n).length = n := by simp; omega
    refine ⟨(wordOfBits (bits.take n), n) :: fs, by simp [h1], ?_, ?_⟩
    · have := fieldBits_wordOfBits (bits := bits.take n) (by omega)
      rw [hl] at this
      simp only [bitsOfFields, List.flatMap_cons] at h2 ⊢
      rw [h2, this, List.take_append_drop]
    · intro f hf
      rcases List.mem_cons.1 hf with rfl | hf
      · have := wordOfBits_lt (bits := bits.take n) (by omega)
        rwa [hl] at this
      · exact h3 f hf

/-- One field, from bits that are that field's. -/
theorem Bs.getBits_field {m : Mem 8} {v : Word} {n : Nat} (hn : n ≤ 32) {bs : Bs} (hroom : bs.pos + n ≤ 8 * bs.size)
    (hb : ∀ k < n, frameBit m (bs.pos + k) = (fieldBits v n)[k]?) :
    bs.getBits m n = some (v &&& BitVec.ofNat 32 (2 ^ n - 1), { bs with pos := bs.pos + n }) := by
  have := Bs.getBits_inside (m := m) (bits := fieldBits v n) (bs := bs) (by simpa using hroom)
    (fun k hk => by rw [hb k (by simpa using hk), List.getElem?_eq_getElem hk])
  rw [fieldBits_length, wordOfBits_fieldBits v n hn] at this
  exact this

/-- Several fields, from bits that are theirs. -/
theorem Bs.getFields_fields {m : Mem 8} {fs : List (Word × Nat)} (hw : ∀ f ∈ fs, f.2 ≤ 32) {bs : Bs}
    (hroom : bs.pos + (fs.map Prod.snd).sum ≤ 8 * bs.size)
    (hb : ∀ k < (fs.map Prod.snd).sum, frameBit m (bs.pos + k) = (bitsOfFields fs)[k]?) :
    Bs.getFields m (fs.map Prod.snd) bs
      = some (fs.map fun f => f.1 &&& BitVec.ofNat 32 (2 ^ f.2 - 1), { bs with pos := bs.pos + (fs.map Prod.snd).sum }) := by
  induction fs generalizing bs with
  | nil => rfl
  | cons f fs ih =>
    simp only [List.map_cons, List.sum_cons] at hroom hb ⊢
    have hsplit : bitsOfFields (f :: fs) = fieldBits f.1 f.2 ++ bitsOfFields fs := rfl
    rw [Bs.getFields, Bs.getBits_field (v := f.1) (hw f (by simp)) (by omega)
      (fun k hk => by rw [hb k (by omega), hsplit, List.getElem?_append_left (by simpa using hk)])]
    dsimp only
    rw [ih (fun g hg => hw g (by simp [hg])) (by dsimp only; omega) fun k hk => ?_]
    · simp only [Option.map_some, Nat.add_assoc]
    · have := hb (f.2 + k) (by omega)
      rw [hsplit, List.getElem?_append_right (by simp), fieldBits_length, Nat.add_sub_cancel_left] at this
      rw [← this, Nat.add_assoc]

theorem mask_of_lt {v : Word} {n : Nat} (h : v.toNat < 2 ^ n) (hn : n ≤ 32) : v &&& BitVec.ofNat 32 (2 ^ n - 1) = v := by
  apply BitVec.eq_of_toNat_eq
  have h1 : 2 ^ n ≤ 2 ^ 32 := Nat.pow_le_pow_right (by omega) hn
  have h2 : 0 < 2 ^ n := Nat.two_pow_pos n
  rw [BitVec.toNat_and, BitVec.toNat_ofNat, Nat.mod_eq_of_lt (by omega), Nat.and_two_pow_sub_one_eq_mod, Nat.mod_eq_of_lt h]

/-! ### Samples (R84, R85) -/

theorem bitsOfFields_append (fs gs : List (Word × Nat)) : bitsOfFields (fs ++ gs) = bitsOfFields fs ++ bitsOfFields gs := by
  simp [bitsOfFields]

/-- The fields of the triples `is`, with the codes `g`. -/
def codedFields (p : Pass) (g : Nat × Nat × Nat → Word) (is : List (Nat × Nat × Nat)) : List (Word × Nat) :=
  is.filterMap fun i => if p.nbitsAt i.2.1 i.2.2 = 0 then none else some (g i, p.nbitsAt i.2.1 i.2.2)

theorem payloadFields_eq (p : Pass) : payloadFields p
    = codedFields p (fun i => quantize (p.sbEncAt i.2.1 i.1 i.2.2) (p.nbitsAt i.2.1 i.2.2) (p.scfAt i.2.1 i.2.2).toNat) (sampleOrder p.desc) := rfl

theorem codedFields_widths (p : Pass) (g : Nat × Nat × Nat → Word) (is : List (Nat × Nat × Nat)) :
    ((codedFields p g is).map Prod.snd).sum = sampleBits p is := by
  induction is with
  | nil => rfl
  | cons i is ih =>
    simp only [sampleBits, codedFields, List.map_cons, List.sum_cons, List.filterMap_cons] at ih ⊢
    split
    · rename_i h
      split at h
      · rw [ih]; omega
      · cases h
    · rename_i h
      split at h
      · cases h
      · cases h
        simp only [List.map_cons, List.sum_cons, ih]

theorem codedFields_append (p : Pass) (g : Nat × Nat × Nat → Word) (is js : List (Nat × Nat × Nat)) :
    codedFields p g (is ++ js) = codedFields p g is ++ codedFields p g js := List.filterMap_append

/-- The bits of the field of triple `i`, after those of the triples before it. -/
theorem codedFields_bit {p : Pass} {g : Nat × Nat × Nat → Word} {pre post : List (Nat × Nat × Nat)} {i : Nat × Nat × Nat} {q : Nat}
    (hq : q < p.nbitsAt i.2.1 i.2.2) : (bitsOfFields (codedFields p g (pre ++ i :: post)))[sampleBits p pre + q]?
      = some ((g i).getLsbD (p.nbitsAt i.2.1 i.2.2 - 1 - q)) := by
  have h1 : codedFields p g (i :: post) = (g i, p.nbitsAt i.2.1 i.2.2) :: codedFields p g post := by
    rw [codedFields, List.filterMap_cons, if_neg (by omega)]; rfl
  have h2 : bitsOfFields (codedFields p g (i :: post)) = fieldBits (g i) (p.nbitsAt i.2.1 i.2.2) ++ bitsOfFields (codedFields p g post) := by
    rw [h1]; rfl
  rw [codedFields_append, bitsOfFields_append, List.getElem?_append_right (by rw [bitsOfFields_length, codedFields_widths]; omega),
    bitsOfFields_length, codedFields_widths, Nat.add_sub_cancel_left, h2, List.getElem?_append_left (by simpa using hq),
    List.getElem?_eq_getElem (by simpa using hq), Option.some.injEq, ← fieldBits_getD _ _ _ hq, List.getD_eq_getElem]

/-- Reading the samples of fields: each gives `DEQUANT` of its code, in its `n` bits. -/
theorem readSamples_codes {rs : Fin 16 → I32} {m : Mem 8} {p : Pass} {g : Nat × Nat × Nat → Word} {is : List (Nat × Nat × Nat)}
    {bs : Bs} (hroom : bs.pos + sampleBits p is ≤ 8 * bs.size)
    (hb : ∀ k < sampleBits p is, frameBit m (bs.pos + k) = (bitsOfFields (codedFields p g is))[k]?) :
    ∃ vs, readSamples rs m p is bs = some (vs, { bs with pos := bs.pos + sampleBits p is }) ∧ vs.length = is.length
      ∧ ∀ (k : Nat) (i : Nat × Nat × Nat), is[k]? = some i → (p.nbitsAt i.2.1 i.2.2 = 0 → vs[k]? = some 0)
        ∧ ∀ n : Fin 16, p.nbitsAt i.2.1 i.2.2 = n.val + 1 →
          vs[k]? = some (dequantizeWith rs (g i &&& BitVec.ofNat 32 (2 ^ (n.val + 1) - 1)) n (p.scfAt i.2.1 i.2.2).toNat (p.sbScaleAt i.2.1)) := by
  induction is generalizing bs with
  | nil => exact ⟨[], rfl, rfl, fun k i h => by simp at h⟩
  | cons i is ih =>
    obtain ⟨j, c, s⟩ := i
    have hbits : sampleBits p ((j, c, s) :: is) = p.nbitsAt c s + sampleBits p is := by simp [sampleBits]
    rw [hbits] at hroom hb ⊢
    by_cases h0 : p.nbitsAt c s = 0
    · have hf : codedFields p g ((j, c, s) :: is) = codedFields p g is := by simp [codedFields, h0]
      rw [hf, h0] at hb
      obtain ⟨vs, h1, h2, h3⟩ := ih (bs := bs) (by omega) (fun k hk => hb k (by omega))
      refine ⟨0 :: vs, ?_, by simp [h2], fun k i hi => ?_⟩
      · rw [readSamples, dif_pos h0, h1, h0, Option.map_some, Nat.zero_add]
      · cases k with
        | zero =>
          simp only [List.getElem?_cons_zero, Option.some.injEq] at hi
          subst hi
          exact ⟨fun _ => rfl, fun n hn => by simp only at hn; omega⟩
        | succ k => exact h3 k i hi
    · have hf : codedFields p g ((j, c, s) :: is) = (g (j, c, s), p.nbitsAt c s) :: codedFields p g is := by simp [codedFields, h0]
      have hsplit : bitsOfFields ((g (j, c, s), p.nbitsAt c s) :: codedFields p g is)
          = fieldBits (g (j, c, s)) (p.nbitsAt c s) ++ bitsOfFields (codedFields p g is) := rfl
      rw [hf, hsplit] at hb
      have hn := nbitsAt_le p c s
      have hget := Bs.getBits_field (m := m) (v := g (j, c, s)) (n := p.nbitsAt c s) (by omega) (bs := bs) (by omega)
        (fun k hk => by rw [hb k (by omega), List.getElem?_append_left (by simpa using hk)])
      obtain ⟨vs, h1, h2, h3⟩ := ih (bs := { bs with pos := bs.pos + p.nbitsAt c s }) (by dsimp only; omega) (fun k hk => by
        have := hb (p.nbitsAt c s + k) (by omega)
        rw [List.getElem?_append_right (by simp), fieldBits_length, Nat.add_sub_cancel_left] at this
        rw [← this, Nat.add_assoc])
      refine ⟨dequantizeWith rs (g (j, c, s) &&& BitVec.ofNat 32 (2 ^ p.nbitsAt c s - 1)) ⟨p.nbitsAt c s - 1, by omega⟩
        (p.scfAt c s).toNat (p.sbScaleAt c) :: vs, ?_, by simp [h2], fun k i hi => ?_⟩
      · rw [readSamples, dif_neg h0, hget]
        dsimp only
        rw [h1, Option.map_some, Nat.add_assoc]
      · cases k with
        | zero =>
          simp only [List.getElem?_cons_zero, Option.some.injEq] at hi
          subst hi
          refine ⟨fun h => absurd h h0, fun n hn => ?_⟩
          simp only at hn
          simp only [List.getElem?_cons_zero, Option.some.injEq, hn]
          congr 1
        | succ k => exact h3 k i hi

/-- Any bits at all are the fields of some codes, whatever the widths. -/
theorem readSamples_bits {rs : Fin 16 → I32} {m : Mem 8} {p : Pass} {is : List (Nat × Nat × Nat)} {bs : Bs}
    (hroom : bs.pos + sampleBits p is ≤ 8 * bs.size)
    (hb : ∀ k < sampleBits p is, (frameBit m (bs.pos + k)).isSome = true) :
    ∃ vs, readSamples rs m p is bs = some (vs, { bs with pos := bs.pos + sampleBits p is }) ∧ vs.length = is.length
      ∧ ∀ (k : Nat) (i : Nat × Nat × Nat), is[k]? = some i → (p.nbitsAt i.2.1 i.2.2 = 0 → vs[k]? = some 0)
        ∧ ∀ n : Fin 16, p.nbitsAt i.2.1 i.2.2 = n.val + 1 → ∃ raw : Word, raw.toNat < 2 ^ (n.val + 1)
          ∧ (∀ q < n.val + 1, some (raw.getLsbD (n.val - q)) = frameBit m (bs.pos + sampleBits p (is.take k) + q))
          ∧ vs[k]? = some (dequantizeWith rs raw n (p.scfAt i.2.1 i.2.2).toNat (p.sbScaleAt i.2.1)) := by
  induction is generalizing bs with
  | nil => exact ⟨[], rfl, rfl, fun k i h => by simp at h⟩
  | cons i is ih =>
    obtain ⟨j, c, s⟩ := i
    have hbits : sampleBits p ((j, c, s) :: is) = p.nbitsAt c s + sampleBits p is := by simp [sampleBits]
    rw [hbits] at hroom hb ⊢
    by_cases h0 : p.nbitsAt c s = 0
    · obtain ⟨vs, h1, h2, h3⟩ := ih (bs := bs) (by omega) (fun k hk => hb k (by omega))
      refine ⟨0 :: vs, ?_, by simp [h2], fun k i hi => ?_⟩
      · rw [readSamples, dif_pos h0, h1, h0, Option.map_some, Nat.zero_add]
      · cases k with
        | zero =>
          simp only [List.getElem?_cons_zero, Option.some.injEq] at hi
          subst hi
          exact ⟨fun _ => rfl, fun n hn => by simp only at hn; omega⟩
        | succ k => simpa [sampleBits, h0] using h3 k i hi
    · have hn := nbitsAt_le p c s
      obtain ⟨bits, hl, hbit⟩ := exists_bits (n := p.nbitsAt c s) (f := fun k => frameBit m (bs.pos + k)) (fun k hk => hb k (by omega))
      have hget := Bs.getBits_inside (m := m) (bits := bits) (bs := bs) (by omega) (fun k hk => hbit k hk)
      have hlt := wordOfBits_lt (bits := bits) (by omega)
      rw [hl] at hget hlt
      obtain ⟨vs, h1, h2, h3⟩ := ih (bs := { bs with pos := bs.pos + p.nbitsAt c s }) (by dsimp only; omega) (fun k hk => by
        have := hb (p.nbitsAt c s + k) (by omega)
        rw [← Nat.add_assoc] at this
        exact this)
      refine ⟨dequantizeWith rs (wordOfBits bits) ⟨p.nbitsAt c s - 1, by omega⟩ (p.scfAt c s).toNat (p.sbScaleAt c) :: vs,
        ?_, by simp [h2], fun k i hi => ?_⟩
      · rw [readSamples, dif_neg h0, hget]
        dsimp only
        rw [h1, Option.map_some, Nat.add_assoc]
      · cases k with
        | zero =>
          simp only [List.getElem?_cons_zero, Option.some.injEq] at hi
          subst hi
          refine ⟨fun h => absurd h h0, fun n hn => ⟨wordOfBits bits, by simp only at hn; rwa [hn] at hlt, fun q hq => ?_, ?_⟩⟩ <;> simp only at hn
          · rw [wordOfBits_getLsbD (by omega), if_pos (by omega), show bits.length - 1 - (n.val - q) = q by omega,
              List.getD_eq_getElem _ _ (by omega : q < bits.length)]
            exact (hbit q (by omega)).symm
          simp only [List.getElem?_cons_zero, Option.some.injEq, hn]
          congr 1
        | succ k => simpa only [List.getElem?_cons_succ, List.take_succ_cons, sampleBits, List.map_cons, List.sum_cons, Nat.add_assoc] using h3 k i hi

/-! ### The joint mask (R60, R99) -/

theorem maskOf_getLsbD (M : Nat) (f : Nat → Bool) {k : Nat} (hk : k < 8) : (maskOf M f).getLsbD k = (decide (k < M) && f k) := by
  unfold maskOf
  induction M with
  | zero => simp
  | succ M ih =>
    rw [List.range_succ, List.foldl_append, List.foldl_cons, List.foldl_nil]
    have hbit : (1#8 <<< M).getLsbD k = decide (k = M) := by
      rw [BitVec.getLsbD_shiftLeft, BitVec.getLsbD_one]
      simp only [hk, decide_true, Bool.true_and]
      by_cases h : k = M
      · subst h; simp
      · by_cases h2 : k < M
        · simp [h2, h]
        · simp [h2, h]; omega
    split
    · rename_i hM
      rw [BitVec.getLsbD_or, ih, hbit]
      by_cases h : k = M
      · subst h; simp [hM]
      · have : (decide (k < M + 1)) = decide (k < M) := by rw [decide_eq_decide]; omega
        rw [this, decide_eq_false h, Bool.or_false]
    · rename_i hM
      rw [ih]
      by_cases h : k = M
      · subst h; simp [hM]
      · have : (decide (k < M + 1)) = decide (k < M) := by rw [decide_eq_decide]; omega
        rw [this]

theorem maskOfField_getLsbD (M : Nat) (f : Word) {k : Nat} (hk : k < 8) :
    (maskOfField M f).getLsbD k = (decide (k < M) && f.getLsbD (M - 1 - k)) :=
  maskOf_getLsbD M (fun s => f.getLsbD (M - 1 - s)) hk

/-- R60: subband 0 is transmitted first. -/
theorem maskField_getLsbD {M : Nat} (hM : M = 4 ∨ M = 8) (joint : BitVec 8) {b : Nat} (hb : b < M) :
    (maskField M joint).getLsbD (M - 1 - b) = joint.getLsbD b := by
  have h4 : ∀ (j : BitVec 8) (b : Fin 4), (maskField 4 j).getLsbD (3 - b.val) = j.getLsbD b.val := by decide +kernel
  have h8 : ∀ (j : BitVec 8) (b : Fin 8), (maskField 8 j).getLsbD (7 - b.val) = j.getLsbD b.val := by decide +kernel
  rcases hM with rfl | rfl
  · exact h4 joint ⟨b, hb⟩
  · exact h8 joint ⟨b, hb⟩

/-! ### The side fields (R61, R82) -/

/-- Fields of one width, by index. -/
theorem bitsOfFields_uniform {n : Nat} {fs : List (Word × Nat)} (hw : ∀ f ∈ fs, f.2 = n) {i k : Nat} {v : Word}
    (hi : fs[i]? = some (v, n)) (hk : k < n) : (bitsOfFields fs)[n * i + k]? = some (v.getLsbD (n - 1 - k)) := by
  induction fs generalizing i with
  | nil => simp at hi
  | cons f fs ih =>
    have hf : f.2 = n := hw f (by simp)
    have hsplit : bitsOfFields (f :: fs) = fieldBits f.1 f.2 ++ bitsOfFields fs := rfl
    cases i with
    | zero =>
      simp only [List.getElem?_cons_zero, Option.some.injEq] at hi
      subst hi
      rw [hsplit, List.getElem?_append_left (by simp; omega), fieldBits_eq_ofFn, List.getElem?_ofFn, dif_pos (by simpa using hk)]
      simp
    | succ i =>
      rw [hsplit, List.getElem?_append_right (by simp only [fieldBits_length, hf]; rw [Nat.mul_succ]; omega), fieldBits_length, hf,
        show n * (i + 1) + k - n = n * i + k by rw [Nat.mul_succ]; omega]
      exact ih (fun g hg => hw g (by simp [hg])) hi

/-- The widths of the side fields are what the CRC covers after the header. -/
theorem sideFields_bits (p : Pass) : ((sideFields p).map Prod.snd).sum = coveredSideBits p.desc := by
  have h : (List.map (Prod.snd ∘ fun cs => ((p.scfAt cs.1 cs.2).setWidth 32, 4)) (pairOrder p.desc)).sum
      = 4 * (channelCount p.desc * p.desc.subbands) := by
    rw [show (Prod.snd ∘ fun cs : Nat × Nat => (((p.scfAt cs.1 cs.2).setWidth 32 : Word), 4)) = fun _ => 4 from rfl]
    simp [pairOrder_length, Nat.mul_comm]
  unfold sideFields coveredSideBits
  rw [List.map_append, List.sum_append, List.map_map, h]
  split <;> simp <;> ring

theorem sideFields_ok {p : Pass} (h : p.desc.subbands = 4 ∨ p.desc.subbands = 8) :
    (sideFields p).all (fun f => widthOk f.2) = true := by
  unfold sideFields
  rw [List.all_append, Bool.and_eq_true]
  refine ⟨?_, by simp [widthOk]⟩
  split
  · rcases h with h | h <;> simp [widthOk, h]
  · rfl

theorem payloadFields_ok (p : Pass) : (payloadFields p).all (fun f => widthOk f.2) = true := by
  rw [List.all_eq_true]
  intro f hf
  obtain ⟨i, -, hi⟩ := List.mem_filterMap.1 hf
  split at hi
  · cases hi
  · cases hi
    have := nbitsAt_le p i.2.1 i.2.2
    simp [widthOk]
    omega

/-- R84: what `PAYLOAD_WRITE` writes, whole: the pending bits, the sample fields, and zeros to the byte boundary. -/
theorem payloadWrite_wrote (s : State) (ha : s.pass.bs.acc.length < 8) (ha2 : s.pass.bs.acc.length ≤ s.pass.bs.pos) :
    ∃ w : Mem 8 × Bs, payloadWrite s = .ok (s.setWriter w)
      ∧ Wrote s.frameBuf s.pass.bs (s.pass.bs.acc ++ bitsOfFields (payloadFields s.pass) ++
          fieldBits 0 ((8 - (s.pass.bs.acc ++ bitsOfFields (payloadFields s.pass)).length % 8) % 8)) w := by
  refine ⟨_, ?_, ((Wrote.start s.frameBuf s.pass.bs ha ha2).putFields (payloadFields s.pass)).flush⟩
  unfold payloadWrite writeFields
  rw [if_pos (payloadFields_ok _)]
  rfl

end Sys2Proof.Machine
end

