-- ==== Sys2Proof/Laws/FilterBank.lean ====
section
/-! SUPPORT. The frame loops of the filter banks (R120, R122), from the named properties of the block functions: the
Index after a channel's blocks, the shape of the samples, and what a zero channel fed zeros gives. -/

namespace Sys2Proof.Machine

theorem index_add_one (i : Fin 10) : (i + 1).val = (i.val + 1) % 10 := by omega

theorem blockOf_zero {w : Nat} (n : Nat) (v : List (BitVec w)) (h : ∀ k < n, v.getD k 0 = 0) :
    blockOf n v = Vector.replicate n 0 := by
  unfold blockOf
  apply Vector.ext
  intro i hi
  rw [Vector.getElem_ofFn, Vector.getElem_replicate]
  exact h i hi

theorem blockOf_congr {w : Nat} (n : Nat) (v v' : List (BitVec w)) (h : ∀ k < n, v.getD k 0 = v'.getD k 0) :
    blockOf n v = blockOf n v' := by
  unfold blockOf
  apply Vector.ext
  intro i hi
  rw [Vector.getElem_ofFn, Vector.getElem_ofFn]
  exact h i hi

@[simp] theorem blockOf_get {w n : Nat} (v : List (BitVec w)) (j : Fin n) : (blockOf n v)[j] = v.getD j.val 0 := by
  simp [blockOf]

/-- Blocks of equal length, one after another, by index. -/
theorem getElem?_flatMap_toList {α : Type} {n : Nat} (xs : List (Vector α n)) (b : Nat) (i : Fin n) :
    (xs.flatMap Vector.toList)[b * n + i]? = (xs[b]?).map fun x => x[i] := by
  induction xs generalizing b with
  | nil => simp
  | cons x xs ih =>
    rw [List.flatMap_cons]
    cases b with
    | zero =>
      rw [Nat.zero_mul, Nat.zero_add, List.getElem?_append_left (by simp)]
      simp
    | succ b =>
      have : (b + 1) * n + i - x.toList.length = b * n + i := by rw [Vector.length_toList, Nat.succ_mul]; omega
      rw [List.getElem?_append_right (by rw [Vector.length_toList, Nat.succ_mul]; omega), this, ih, List.getElem?_cons_succ]

/-! ### Analysis -/

/-- R140: a block with a sample that was never written has no value. -/
theorem readBlock_none {m : Bands} {pcm : Mem 16} {b i : Nat} (hi : i < m.n) (h : Mem.read pcm (b * m.n + i) = none) :
    readBlock m pcm b = none := by
  unfold readBlock
  rw [if_neg]
  simp only [List.all_eq_true, List.mem_range, not_forall]
  exact ⟨i, hi, by simp [h]⟩

/-! ### Streams of blocks -/

theorem blockOutputs_length {σ α β : Type} (f : σ → α → σ × β) (s : σ) (xs : List α) : (blockOutputs f s xs).length = xs.length := by
  induction xs generalizing s with
  | nil => rfl
  | cons x xs ih => simp [blockOutputs, ih]

/-- A-I over a stream. -/
theorem analyze_stream_index {m : Bands} (xs : List (Vector I16 m.n)) (e : EncChan) :
    (blockState (Config.analyze m) e xs).aidx.val = (e.aidx.val + xs.length) % 10 := by
  induction xs generalizing e with
  | nil => have := e.aidx.isLt; simp [blockState]; omega
  | cons x xs ih => rw [blockState, ih, Config.analyze_index, index_add_one, List.length_cons]; omega

/-- S-I over a stream. -/
theorem synthesize_stream_index {m : Bands} (k : Int) (ys : List (Vector I32 m.n)) (e : DecChan) :
    (blockState (fun c y => Config.synthesize m c y k) e ys).sidx.val = (e.sidx.val + ys.length) % 10 := by
  induction ys generalizing e with
  | nil => have := e.sidx.isLt; simp [blockState]; omega
  | cons y ys ih => rw [blockState, ih, Config.synthesize_index, index_add_one, List.length_cons]; omega

/-- Block `b` of a buffer (R114); a sample never written as 0. -/
def pcmBlock (m : Bands) (pcm : Mem 16) (b : Nat) : Vector I16 m.n := Vector.ofFn fun i : Fin m.n => (Mem.read pcm (b * m.n + i)).getD 0

theorem readBlock_some {m : Bands} {pcm : Mem 16} {b : Nat} (h : ∀ i < m.n, (Mem.read pcm (b * m.n + i)).isSome = true) :
    readBlock m pcm b = some (pcmBlock m pcm b) := by
  rw [readBlock, if_pos (by simpa using h)]
  rfl

/-- The written blocks of one channel, in order, the state threaded through. -/
theorem analyzeChannel_eq {m : Bands} {pcm : Mem 16} (bs : List Nat) (e : EncChan)
    (h : ∀ b ∈ bs, ∀ i < m.n, (Mem.read pcm (b * m.n + i)).isSome = true) :
    analyzeChannel m pcm bs e = some (blockState (Config.analyze m) e (bs.map (pcmBlock m pcm)),
      (blockOutputs (Config.analyze m) e (bs.map (pcmBlock m pcm))).map Vector.toList) := by
  induction bs generalizing e with
  | nil => rfl
  | cons b bs ih =>
    unfold analyzeChannel
    rw [readBlock_some (h b (by simp))]
    dsimp only
    rw [ih _ fun c hc => h c (by simp [hc])]
    rfl

/-- So the Index advances by the blocks, and each gives its samples. -/
theorem analyzeChannel_some {m : Bands} {pcm : Mem 16} (bs : List Nat) (e : EncChan)
    (h : ∀ b ∈ bs, ∀ i < m.n, (Mem.read pcm (b * m.n + i)).isSome = true) :
    ∃ e' sb, analyzeChannel m pcm bs e = some (e', sb) ∧ e'.aidx.val = (e.aidx.val + bs.length) % 10
      ∧ sb.length = bs.length ∧ ∀ v ∈ sb, v.length = m.n := by
  refine ⟨_, _, analyzeChannel_eq bs e h, by rw [analyze_stream_index, List.length_map],
    by rw [List.length_map, blockOutputs_length, List.length_map], fun v hv => ?_⟩
  obtain ⟨x, -, rfl⟩ := List.mem_map.1 hv
  simp

/-- R140: a channel with a sample that was never written stops. -/
theorem analyzeChannel_none {m : Bands} {pcm : Mem 16} {bs : List Nat} {e : EncChan} {b : Nat} (hb : b ∈ bs)
    (h : readBlock m pcm b = none) : analyzeChannel m pcm bs e = none := by
  induction bs generalizing e with
  | nil => simp at hb
  | cons c bs ih =>
    unfold analyzeChannel
    split
    · rfl
    · rename_i x hx
      rcases List.mem_cons.1 hb with rfl | hb
      · rw [h] at hx; cases hx
      · dsimp only
        rw [ih hb]
        rfl

/-- Written samples `0 .. B*M - 1` are the blocks `0 .. B - 1`. -/
theorem blocks_written {m : Bands} {pcm : Mem 16} {B : Nat} (h : Mem.written pcm 0 (B * m.n)) :
    ∀ b ∈ List.range B, ∀ i < m.n, (Mem.read pcm (b * m.n + i)).isSome = true := by
  intro b hb i hi
  refine h _ (Nat.zero_le _) ?_
  have hb' := List.mem_range.1 hb
  calc b * m.n + i < b * m.n + m.n := by omega
    _ = (b + 1) * m.n := by ring
    _ ≤ B * m.n := Nat.mul_le_mul_right _ hb'

/-- A zero channel fed zeros gives zeros and stays zero (A-Z). -/
theorem analyzeChannel_zero {m : Bands} {pcm : Mem 16} (bs : List Nat) (i : Fin 10)
    (h : ∀ b ∈ bs, ∀ k < m.n, Mem.read pcm (b * m.n + k) = some 0) :
    analyzeChannel m pcm bs (.zeroAt i) = some (.zeroAt (i + Fin.ofNat 10 bs.length), List.replicate bs.length (List.replicate m.n 0)) := by
  induction bs generalizing i with
  | nil => simp [analyzeChannel]
  | cons b bs ih =>
    have hx : readBlock m pcm b = some (Vector.replicate m.n 0) := by
      unfold readBlock
      rw [if_pos (by simp only [List.all_eq_true, List.mem_range]; intro k hk; rw [h b (by simp) k hk]; rfl)]
      congr 1
      apply Vector.ext
      intro k hk
      rw [Vector.getElem_ofFn, Vector.getElem_replicate, h b (by simp) k hk]
      rfl
    have hz : Config.analyze m (.zeroAt i) (Vector.replicate m.n 0) = (.zeroAt (i + 1), Vector.replicate m.n 0) :=
      Config.analyze_zero ..
    unfold analyzeChannel
    rw [hx]
    dsimp only
    rw [hz]
    dsimp only
    rw [ih (i + 1) (fun c hc => h c (by simp [hc]))]
    simp only [Option.map_some, Vector.toList_replicate, List.length_cons, List.replicate_succ, Option.some.injEq, Prod.mk.injEq, and_true]
    congr 1
    ext
    simp only [Fin.val_add, Fin.ofNat]
    omega

/-! ### Synthesis -/

/-- The state of a channel is that of its last block. -/
theorem synthChannel_state (m : Bands) (k : Int) (ys : List (List I32)) (e : DecChan) :
    (synthChannel m k ys e).1 = blockState (fun c y => Config.synthesize m c y k) e (ys.map (blockOf m.n)) := by
  induction ys generalizing e with
  | nil => rfl
  | cons y ys ih => simp only [synthChannel, ih, List.map_cons, blockState]

theorem synthChannel_index (m : Bands) (k : Int) (ys : List (List I32)) (e : DecChan) :
    (synthChannel m k ys e).1.sidx.val = (e.sidx.val + ys.length) % 10 := by
  rw [synthChannel_state, synthesize_stream_index, List.length_map]

/-- The samples of a channel are the outputs of its blocks, one after another. -/
theorem synthChannel_outputs (m : Bands) (k : Int) (ys : List (List I32)) (e : DecChan) :
    (synthChannel m k ys e).2
      = (blockOutputs (fun c y => Config.synthesize m c y k) e (ys.map (blockOf m.n))).flatMap Vector.toList := by
  induction ys generalizing e with
  | nil => rfl
  | cons y ys ih => simp only [synthChannel, ih, List.map_cons, blockOutputs, List.flatMap_cons]

end Sys2Proof.Machine
end

