-- ==== Sys2Proof/Laws/Frame.lean ====
section
/-! SUPPORT. The operations of a whole frame, for a valid effective descriptor: that each completes, and how many bits it
takes. Encoding fills the declared size and decoding stays inside it (R74, R84, R136). -/

namespace Sys2Proof.Machine

/-! ### Readers complete where every bit has a value -/

theorem bitAt_isSome {m : Mem 8} {size p : Nat} (h : p < 8 * size → (Mem.read m (p / 8)).isSome = true) :
    (bitAt m size p).isSome = true := by
  unfold bitAt
  split
  · rename_i hp
    rw [frameBit_isSome]
    exact h hp
  · rfl

theorem Bs.getBits_isSome {m : Mem 8} {n : Nat} {bs : Bs} (h : ∀ k < n, (bitAt m bs.size (bs.pos + k)).isSome = true) :
    (bs.getBits m n).isSome = true := by
  obtain ⟨bits, hl, hb⟩ := exists_bits h
  rw [← hl, Bs.getBits_of_bits hb]
  rfl

theorem Bs.getFields_isSome {m : Mem 8} {ns : List Nat} {bs : Bs} (h : ∀ k < ns.sum, (bitAt m bs.size (bs.pos + k)).isSome = true) :
    (Bs.getFields m ns bs).isSome = true := by
  induction ns generalizing bs with
  | nil => rfl
  | cons n ns ih =>
    simp only [List.sum_cons] at h
    obtain ⟨r, hr⟩ := Option.isSome_iff_exists.1 (Bs.getBits_isSome (n := n) fun k hk => h k (by omega))
    rw [Bs.getFields, hr]
    dsimp only
    rw [Option.isSome_map]
    refine ih fun k hk => ?_
    rw [Bs.getBits_skip hr]
    have := h (n + k) (by omega)
    rwa [← Nat.add_assoc] at this

theorem widthOk_subbands {d : Desc} (h : d.subbands = 4 ∨ d.subbands = 8) : widthOk d.subbands = true := by
  rcases h with h | h <;> rw [h] <;> rfl

/-- R83: `SIDE_READ` completes when the bits it reads have values. -/
theorem sideRead_ok {s : State} (hs : s.pass.desc.subbands = 4 ∨ s.pass.desc.subbands = 8)
    (h : ∀ k < coveredSideBits s.pass.desc, (bitAt s.frameBuf s.pass.bs.size (s.pass.bs.pos + k)).isSome = true) :
    ∃ joint scf, sideRead s = .ok { s with
      pass := { s.pass with bs := s.pass.bs.skip (coveredSideBits s.pass.desc), joint := joint, scf := scf } } := by
  have key : ∀ (j : BitVec 8) (t : State), t.pass.desc = s.pass.desc → t.frameBuf = s.frameBuf →
      (∀ k < 4 * s.pass.desc.subbands * channelCount s.pass.desc,
        (bitAt s.frameBuf t.pass.bs.size (t.pass.bs.pos + k)).isSome = true) →
      readScaleFactors j t ≠ .fault .unwrittenFrameByte := by
    intro j t hd hm hk
    unfold readScaleFactors
    obtain ⟨r, hr⟩ := Option.isSome_iff_exists.1 (Bs.getFields_isSome (m := t.frameBuf) (ns := (pairOrder t.pass.desc).map fun _ => 4)
      (bs := t.pass.bs) (by rw [pairOrder_widths, hd, hm]; exact hk))
    rw [hr]
    exact fun hc => by cases hc
  rcases sideRead_effect s with hf | hf | hok
  · exfalso
    unfold sideRead at hf
    unfold coveredSideBits at h
    split at hf
    · rename_i hj
      rw [if_pos hj] at h
      rw [if_pos (widthOk_subbands hs)] at hf
      obtain ⟨r, hr⟩ := Option.isSome_iff_exists.1 (Bs.getBits_isSome (m := s.frameBuf) (n := s.pass.desc.subbands)
        (bs := s.pass.bs) fun k hk => h k (by omega))
      rw [hr] at hf
      dsimp only at hf
      refine key _ (s.setBs r.2) rfl rfl (fun k hk => ?_) hf
      have := h (s.pass.desc.subbands + k) (by omega)
      rw [← Nat.add_assoc] at this
      simpa [Bs.getBits_skip hr, Bs.skip] using this
    · rename_i hj
      rw [if_neg hj] at h
      exact key _ _ rfl rfl (fun k hk => h k (by omega)) hf
  · exfalso
    unfold sideRead at hf
    split at hf
    · rw [if_pos (widthOk_subbands hs)] at hf
      split at hf
      · cases hf
      · unfold readScaleFactors at hf
        split at hf <;> cases hf
    · unfold readScaleFactors at hf
      split at hf <;> cases hf
  · exact hok

/-- R85: inside the declared size, `PAYLOAD_READ` completes when the bits it reads have values. -/
theorem payloadRead_ok {s : State} (hroom : s.pass.bs.pos + sampleBits s.pass (sampleOrder s.pass.desc) ≤ 8 * s.pass.bs.size)
    (h : ∀ k < sampleBits s.pass (sampleOrder s.pass.desc), (frameBit s.frameBuf (s.pass.bs.pos + k)).isSome = true) :
    ∃ sb, payloadRead s = .ok { s with
      pass := { s.pass with bs := s.pass.bs.skip (sampleBits s.pass (sampleOrder s.pass.desc)), sbDec := sb } } := by
  rcases payloadRead_effect s with hf | hok
  · exfalso
    obtain ⟨vs, hv, -⟩ := readSamples_bits (rs := Config.rangeScale) hroom h
    unfold payloadRead at hf
    rw [hv] at hf
    cases hf
  · exact hok

/-! ### The header -/

/-- The reads of a valid effective descriptor's header give back the descriptor and the CRC byte. -/
theorem parseHeader_header {m : Mem 8} {d : Desc} {crc : BitVec 8} {w : Word} {size : Nat} (hv : validEff d)
    (hw : encode (headerInstr d crc) = .header w) (hm : HoldsHeader m w) (hsize : 4 ≤ size) :
    parseHeader m ⟨.read, size, 0, [], false⟩ = some (some (d, crc), ⟨.read, size, 32, [], false⟩) := by
  rw [parseHeader_word hm hsize]
  rcases hv.blocks with rfl | ⟨hmsbc, hblocks⟩
  · have hw : w = (0xAD#8 ++ 0#16 ++ crc : BitVec 32) := by cases hw; rfl
    rw [hw, if_pos (msbcWord_sync _ _ _), msbcWord_crc, msbcWord_reserved]
    rfl
  · have hw : w = headerOfFields 0x9C#8 d.freq.code (BitVec.ofNat 2 (codeOfCount d.blocks)) d.mode.code d.alloc.code
        (BitVec.ofNat 1 (codeOfCount d.subbands)) (BitVec.ofNat 8 d.bitpool) crc := by
      rw [headerInstr, hmsbc] at hw
      cases hw
      rfl
    have hb : blocksEncodable d.blocks = true := by
      simp only [blocksEncodable, Bool.or_eq_true, beq_iff_eq]
      omega
    have hs : subbandsEncodable d.subbands = true := by
      simp only [subbandsEncodable, Bool.or_eq_true, beq_iff_eq]
      exact hv.subbands
    have hp : (BitVec.ofNat 8 d.bitpool).toNat = d.bitpool := by
      have := hv.bounds.2.2.1
      rw [BitVec.toNat_ofNat]
      omega
    rw [hw, if_neg (by rw [headerOfFields_sync]; decide), if_pos (headerOfFields_sync _ _ _ _ _ _ _ _), headerOfFields_freq,
      headerOfFields_mode, headerOfFields_alloc, headerOfFields_blocks, headerOfFields_subbands, headerOfFields_bitpool,
      headerOfFields_crc, Freq.ofCode_code, Mode.ofCode_code, Alloc.ofCode_code, codeOfCount_blocks hb, codeOfCount_subbands hs, hp,
      ← hmsbc]

/-- R77: from a fresh reader of four bytes or more, the header of a valid effective descriptor is taken over. -/
theorem hdrRead_header {s : State} {d : Desc} {crc : BitVec 8} {w : Word} {size : Nat} (hv : validEff d)
    (hw : encode (headerInstr d crc) = .header w) (hm : HoldsHeader s.frameBuf w) (hsize : 4 ≤ size)
    (hb : s.pass.bs = ⟨.read, size, 0, [], false⟩) :
    hdrRead s = .ok { s with pass := { s.pass with bs := ⟨.read, size, 32, [], false⟩, desc := d, crcRx := crc } } := by
  have hp := parseHeader_header hv hw hm hsize
  rw [← hb] at hp
  unfold hdrRead
  rw [hp]
  dsimp only
  rcases acceptHeader_effect d crc (s.setBs ⟨.read, size, 32, [], false⟩) hv.2 with h | ⟨-, -, h⟩
  · exfalso
    unfold acceptHeader at h
    rw [if_neg (by simp [State.setBs]), hv.1] at h
    cases h
  · exact h

/-! ### Allocation and the bits of a frame -/

/-- R96, R97: the calls of a valid frame complete; every channel gets a row of `M` counts, and together they use the
bitpool, twice in DualChannel. -/
theorem frameCalls_total {p : Pass} {m : Bands} (hv : validEff p.desc) (hm : m.n = p.desc.subbands) :
    ∃ r, allocateAll (frameCalls p m) = some r ∧ r.2.length = channelCount p.desc ∧ (∀ v ∈ r.2, v.length = p.desc.subbands)
      ∧ (r.2.map fun v => (v.map Fin.val).sum).sum = p.desc.bitpool * (if p.desc.mode = .dualChannel then 2 else 1) := by
  have hpool := hv.pool
  have one : ∀ x, p.desc.bitpool ≤ 16 * p.desc.subbands →
      ∃ n b, allocate ⟨x, none, m, p.desc.freq, p.desc.alloc, p.desc.bitpool⟩ = some (n, b) ∧ b.length = 1
        ∧ (∀ v ∈ b, v.length = p.desc.subbands) ∧ (b.map fun v => (v.map Fin.val).sum).sum = p.desc.bitpool := by
    intro x h
    obtain ⟨b, h1, h2, h3, h4, -⟩ := allocate_total ⟨x, none, m, p.desc.freq, p.desc.alloc, p.desc.bitpool⟩
      (by simpa [AllocIn.channels, hm] using h)
    exact ⟨_, b, h1, h2, hm ▸ h3, h4⟩
  have two : ∀ x y, p.desc.bitpool ≤ 16 * p.desc.subbands * 2 →
      ∃ n b, allocate ⟨x, some y, m, p.desc.freq, p.desc.alloc, p.desc.bitpool⟩ = some (n, b) ∧ b.length = 2
        ∧ (∀ v ∈ b, v.length = p.desc.subbands) ∧ (b.map fun v => (v.map Fin.val).sum).sum = p.desc.bitpool := by
    intro x y h
    obtain ⟨b, h1, h2, h3, h4, -⟩ := allocate_total ⟨x, some y, m, p.desc.freq, p.desc.alloc, p.desc.bitpool⟩
      (by simp only [AllocIn.channels, Option.toList, List.length_cons, List.length_nil, hm]; omega)
    exact ⟨_, b, h1, h2, hm ▸ h3, h4⟩
  have hstereo : p.desc.mode = .stereo ∨ p.desc.mode = .jointStereo → ∃ r, allocateAll (frameCalls p m) = some r
      ∧ r.2.length = 2 ∧ (∀ v ∈ r.2, v.length = p.desc.subbands) ∧ (r.2.map fun v => (v.map Fin.val).sum).sum = p.desc.bitpool := by
    intro hmode
    rw [if_pos hmode] at hpool
    obtain ⟨n, b, h1, h2⟩ := two (p.scf.getD 0 []) (p.scf.getD 1 []) hpool
    refine ⟨(n, b), ?_, h2⟩
    rcases hmode with hmode | hmode <;> simp only [frameCalls, hmode, allocateAll, h1, List.append_nil]
  rw [channelCount_eq]
  cases hmode : p.desc.mode with
  | mono =>
    rw [hmode, if_neg (by simp)] at hpool
    obtain ⟨n, b, h1, h2, h3, h4⟩ := one (p.scf.getD 0 []) (by omega)
    refine ⟨(n, b), ?_, by simpa using h2, h3, by simpa using h4⟩
    simp only [frameCalls, hmode, allocateAll, h1, List.append_nil]
  | dualChannel =>
    rw [hmode, if_neg (by simp)] at hpool
    obtain ⟨n, b, h1, h2, h3, h4⟩ := one (p.scf.getD 0 []) (by omega)
    obtain ⟨n', b', g1, g2, g3, g4⟩ := one (p.scf.getD 1 []) (by omega)
    refine ⟨(n ++ n', b ++ b'), ?_, by simp [h2, g2], ?_, by simp [h4, g4]; omega⟩
    · simp only [frameCalls, hmode, allocateAll, h1, g1, List.append_nil]
    · intro v hv
      rcases List.mem_append.1 hv with h | h
      · exact h3 v h
      · exact g3 v h
  | stereo => simpa using hstereo (.inl hmode)
  | jointStereo => simpa using hstereo (.inr hmode)

/-- R74, R96, R97: allocation of a valid frame completes, and the sample fields then take the bits the frame size counts for
them. -/
theorem bitAllocFrame_ok {s : State} (hv : validEff s.pass.desc) :
    ∃ needs nbits, bitAllocFrame s = .ok { s with pass := { s.pass with bitneed := needs, nbits := nbits } }
      ∧ 32 + coveredSideBits s.pass.desc
          + sampleBits { s.pass with bitneed := needs, nbits := nbits } (sampleOrder s.pass.desc) = 32 + payloadBits s.pass.desc := by
  obtain ⟨m, hm, hb⟩ := hv.bands
  obtain ⟨r, h1, h2, h3, h4⟩ := frameCalls_total hv hm
  refine ⟨r.1, r.2, ?_, ?_⟩
  · unfold bitAllocFrame
    rw [hb]
    dsimp only
    rw [h1]
    rfl
  · rw [sampleBits_frame (p := { s.pass with bitneed := r.1, nbits := r.2 }) h2 h3, payloadBits_eq, h4, Nat.add_assoc]

/-! ### Decoding up to synthesis (R133) -/

/-- With the header taken over, a complete written frame whose CRC is right decodes without a failure; only the working state
changes. -/
theorem decodeSamples_ok {s : State} {size : Nat} {bits : List Bool} (hv : validEff s.pass.desc)
    (hb : s.pass.bs = ⟨.read, size, 32, [], false⟩) (hfb : s.frameBytes = size) (hsize : frameSize s.pass.desc ≤ size)
    (hw : Mem.written s.frameBuf 0 (frameSize s.pass.desc)) (hcov : coverage s.frameBuf s.pass.desc = some bits)
    (hcrc : s.pass.crcRx = crcOf bits) :
    ∃ p, decodeSamples s = .ok { s with pass := p } ∧ p.desc = s.pass.desc := by
  obtain ⟨hfs1, hfs2, hfs3⟩ := frameSize_bits s.pass.desc
  have hpb := payloadBits_eq s.pass.desc
  unfold decodeSamples
  rw [if_neg (by omega)]
  obtain ⟨joint, scf, h1⟩ := sideRead_ok (s := s) hv.subbands (fun k hk => by
    refine bitAt_isSome fun hlt => hw _ (Nat.zero_le _) ?_
    rw [hb] at hlt ⊢; dsimp only at hlt ⊢; omega)
  rw [h1, Micro.ok_andThen, Bs.skip_inside (by rw [hb]; dsimp only; omega)]
  generalize ht : ({ s with pass := { s.pass with
    bs := { s.pass.bs with pos := s.pass.bs.pos + coveredSideBits s.pass.desc }, joint := joint, scf := scf } } : State) = t
  have h2 : crcCheck t = .ok { t with pass := { t.pass with crc := crcOf bits } } := by
    unfold crcCheck; rw [← ht]; dsimp only; rw [hcov]; dsimp only; rw [if_pos hcrc.symm]
  rw [h2, Micro.ok_andThen]
  generalize hu : ({ t with pass := { t.pass with crc := crcOf bits } } : State) = u
  generalize hx : (sbScale u) = x
  have h3 : ∃ v, x = .ok { u with pass := { u.pass with sbScale := v } } := ⟨_, hx.symm⟩
  obtain ⟨v, rfl⟩ := h3
  rw [Micro.ok_andThen]
  have hd : ({ u with pass := { u.pass with sbScale := v } } : State).pass.desc = s.pass.desc := by rw [← hu, ← ht]
  obtain ⟨needs, nbits, h4, h5⟩ := bitAllocFrame_ok (s := { u with pass := { u.pass with sbScale := v } }) (by rw [hd]; exact hv)
  rw [h4, Micro.ok_andThen]
  generalize hy : ({ ({ u with pass := { u.pass with sbScale := v } } : State) with
    pass := { ({ u with pass := { u.pass with sbScale := v } } : State).pass with bitneed := needs, nbits := nbits } } : State) = y
  have hyd : y.pass.desc = s.pass.desc := by rw [← hy, ← hu, ← ht]
  have hyb : y.pass.bs = ⟨.read, size, 32 + coveredSideBits s.pass.desc, [], false⟩ := by rw [← hy, ← hu, ← ht]; simp only [hb]
  have hym : y.frameBuf = s.frameBuf := by rw [← hy, ← hu, ← ht]
  have hbits : 32 + coveredSideBits s.pass.desc + sampleBits y.pass (sampleOrder y.pass.desc) = 32 + payloadBits s.pass.desc := by
    rw [hd] at h5; rw [hyd, ← hy]; exact h5
  obtain ⟨sb, h6⟩ := payloadRead_ok (s := y) (by rw [hyb]; dsimp only; omega) (fun k hk => by
    rw [frameBit_isSome, hym, hyb]; dsimp only
    exact hw _ (Nat.zero_le _) (by omega))
  rw [h6, Micro.ok_andThen, Bs.skip_inside (by rw [hyb]; dsimp only; omega)]
  generalize hz : ({ y with pass := { y.pass with
    bs := { y.pass.bs with pos := y.pass.bs.pos + sampleBits y.pass (sampleOrder y.pass.desc) }, sbDec := sb } } : State) = z
  obtain ⟨sb', h7⟩ := jointUncouple_effect z
  rw [h7, Micro.ok_andThen, if_neg (by rw [← hz]; simp [hyb])]
  refine ⟨{ z.pass with sbDec := sb' }, ?_, ?_⟩
  · rw [← hz, ← hy, ← hu, ← ht]
  · rw [← hz]; exact hyd

end Sys2Proof.Machine
end

