-- ==== Sys2Proof/Laws/Encode.lean ====
section
/-! SUPPORT. Writing a whole frame (R131): header, side information, samples and CRC of a valid effective descriptor fill
the declared size exactly, and the header read back is the one written. -/

namespace Sys2Proof.Machine

/-- R120: with its samples written, the analysis of a frame completes; each used channel's Index advances by the blocks. -/
theorem analyzeFrame_ok {s : State} (hv : validEff s.pass.desc)
    (hl : Mem.written s.pcmL 0 (s.pass.desc.blocks * s.pass.desc.subbands))
    (hr : s.pass.desc.mode ≠ .mono → Mem.written s.pcmR 0 (s.pass.desc.blocks * s.pass.desc.subbands)) :
    ∃ e0 e1 sb, analyzeFrame s = .ok { s with enc0 := e0, enc1 := e1, pass := { s.pass with sbEnc := sb } }
      ∧ e0.aidx.val = (s.enc0.aidx.val + s.pass.desc.blocks) % 10
      ∧ (s.pass.desc.mode = .mono → e1 = s.enc1)
      ∧ (s.pass.desc.mode ≠ .mono → e1.aidx.val = (s.enc1.aidx.val + s.pass.desc.blocks) % 10) := by
  obtain ⟨m, hm, hb⟩ := hv.bands
  rw [← hm] at hl hr
  obtain ⟨e0, sb0, h1, h2, -, -⟩ := analyzeChannel_some (List.range s.pass.desc.blocks) s.enc0 (blocks_written hl)
  rw [List.length_range] at h2
  unfold analyzeFrame
  rw [hb]
  dsimp only
  rw [h1]
  dsimp only
  rw [twoChannels_eq]
  by_cases hmode : s.pass.desc.mode = .mono
  · rw [if_neg (by simp [hmode])]
    exact ⟨e0, s.enc1, [sb0], rfl, h2, fun _ => rfl, fun h => absurd hmode h⟩
  · obtain ⟨e1, sb1, g1, g2, -, -⟩ := analyzeChannel_some (List.range s.pass.desc.blocks) s.enc1 (blocks_written (hr hmode))
    rw [List.length_range] at g2
    rw [if_pos (by simp [hmode]), g1]
    exact ⟨e0, e1, [sb0, sb1], rfl, h2, fun h => absurd h hmode, fun _ => g2⟩

/-- The header word of a valid effective descriptor is 24 bits of it and the CRC byte. -/
theorem headerInstr_word {d : Desc} (hv : validEff d) : ∃ x : BitVec 24, ∀ c : BitVec 8, encode (headerInstr d c) = .header (x ++ c) := by
  rcases hv.blocks with rfl | ⟨hm, -⟩
  · exact ⟨0xAD#8 ++ 0#16, fun c => rfl⟩
  · refine ⟨0x9C#8 ++ d.freq.code ++ BitVec.ofNat 2 (codeOfCount d.blocks) ++ d.mode.code ++ d.alloc.code
      ++ BitVec.ofNat 1 (codeOfCount d.subbands) ++ BitVec.ofNat 8 d.bitpool, fun c => ?_⟩
    rw [headerInstr, hm]
    rfl

/-- The fields of a whole frame. -/
def frameFields (p : Pass) : List (Word × Nat) := headerFields p.desc ++ (sideFields p ++ payloadFields p)

theorem putFields_append (fs gs : List (Word × Nat)) (w : Mem 8 × Bs) :
    Bs.putFields (fs ++ gs) w = Bs.putFields gs (Bs.putFields fs w) := by
  induction fs generalizing w with
  | nil => rfl
  | cons f fs ih => exact ih _

theorem headerFields_ok (d : Desc) : (headerFields d).all (fun f => widthOk f.2) = true := by
  unfold headerFields
  split <;> rfl

/-- The writes of R131 up to the CRC. -/
def writeFrame (s : State) : Micro := (hdrWrite s).andThen fun s => (sideWrite s).andThen payloadWrite

theorem writeFrame_eq {s : State} (hs : s.pass.desc.subbands = 4 ∨ s.pass.desc.subbands = 8) :
    writeFrame s = .ok (s.setWriter (Bs.flush (Bs.putFields (frameFields s.pass) s.writer))) := by
  unfold writeFrame hdrWrite writeFields
  rw [if_pos (headerFields_ok _), Micro.ok_andThen]
  unfold sideWrite writeFields
  rw [if_pos (sideFields_ok (by exact hs)), Micro.ok_andThen]
  unfold payloadWrite writeFields
  rw [if_pos (payloadFields_ok _), Micro.ok_andThen, frameFields, putFields_append, putFields_append]
  rfl

/-- The frame of a valid effective descriptor whose samples take the counted bits: it fills the declared size exactly, the
flag stays clear, its header is the descriptor's with a zero CRC byte, and its bits are those of the fields, padded with zeros. -/
theorem writeFrame_ok {s : State} (hv : validEff s.pass.desc)
    (hbits : 32 + coveredSideBits s.pass.desc + sampleBits s.pass (sampleOrder s.pass.desc) = 32 + payloadBits s.pass.desc) :
    ∃ m, writeFrame (s.bind .write (frameSize s.pass.desc)) = .ok { s with
        frameBuf := m
        pass := { s.pass with bs := ⟨.write, frameSize s.pass.desc, 8 * frameSize s.pass.desc, [], false⟩ } }
      ∧ Mem.written m 0 (frameSize s.pass.desc) ∧ Mem.sameOutside s.frameBuf m 0 (frameSize s.pass.desc)
      ∧ (∃ w, encode (headerInstr s.pass.desc 0) = .header w ∧ HoldsHeader m w)
      ∧ ∀ p < 8 * frameSize s.pass.desc, frameBit m p
        = (bitsOfFields (frameFields s.pass) ++ fieldBits 0 ((8 - (bitsOfFields (frameFields s.pass)).length % 8) % 8))[p]? := by
  obtain ⟨hfs1, hfs2, hfs3⟩ := frameSize_bits s.pass.desc
  obtain ⟨w0, hw0, hhead⟩ := headerFields_bits hv
  generalize hB : Bs.bind .write (frameSize s.pass.desc) = B
  have W := ((Wrote.start s.frameBuf B (by simp [← hB, Bs.bind]) (by simp [← hB, Bs.bind])).putFields (frameFields s.pass)).flush
  have hacc : B.acc = [] := by rw [← hB]; rfl
  rw [hacc, List.nil_append] at W
  have hl1 : (bitsOfFields (frameFields s.pass)).length = 32 + payloadBits s.pass.desc := by
    rw [frameFields, bitsOfFields_append, bitsOfFields_append, hhead, List.length_append, List.length_append, fieldBits_length,
      bitsOfFields_length, bitsOfFields_length, sideFields_bits, payloadFields_eq, codedFields_widths]
    omega
  have hl2 : (bitsOfFields (frameFields s.pass) ++ fieldBits 0 ((8 - (bitsOfFields (frameFields s.pass)).length % 8) % 8)).length
      = 8 * frameSize s.pass.desc := by
    rw [List.length_append, fieldBits_length, hl1]
    omega
  have hposB : B.pos = 0 := by rw [← hB]; rfl
  have hsizeB : B.size = frameSize s.pass.desc := by rw [← hB]; rfl
  generalize hg : Bs.flush (Bs.putFields (frameFields s.pass) (s.frameBuf, B)) = out at W
  have bit : ∀ p < 8 * frameSize s.pass.desc, frameBit out.1 p
      = (bitsOfFields (frameFields s.pass) ++ fieldBits 0 ((8 - (bitsOfFields (frameFields s.pass)).length % 8) % 8))[p]? := by
    intro p hp
    have := W.frameBit (by rw [hl2]; omega) (p := p) (by rw [hl2]; exact hp) (by rw [hposB, hsizeB]; omega)
    rw [hposB] at this
    simpa using this
  refine ⟨out.1, ?_, ?_, ?_, ⟨w0, hw0, ?_⟩, bit⟩
  · rw [writeFrame_eq (by exact hv.subbands)]
    have e : Bs.flush (Bs.putFields (frameFields (s.bind .write (frameSize s.pass.desc)).pass) (s.bind .write (frameSize s.pass.desc)).writer)
        = out := by rw [← hg, ← hB]; rfl
    rw [e]
    have h2 : out.2 = ⟨.write, frameSize s.pass.desc, 8 * frameSize s.pass.desc, [], false⟩ := by
      rw [W.snd, hl2, hacc, hposB, hsizeB, ← hB]
      simp only [Bs.bind, Bs.mk.injEq, true_and, Bool.false_or, decide_eq_false_iff_not]
      exact ⟨by omega, List.drop_eq_nil_of_le (by rw [hl2]; omega), by omega⟩
    unfold State.setWriter
    rw [h2]
    rfl
  · intro a _ ha
    have h := bit (8 * a) (by omega)
    rw [List.getElem?_eq_getElem (by rw [hl2]; omega)] at h
    have hs : (frameBit out.1 (8 * a)).isSome = true := by rw [h]; rfl
    rwa [frameBit_isSome, show 8 * a / 8 = a by omega] at hs
  · intro a ha
    refine W.other a ?_
    rw [hl2, hposB, hsizeB]
    omega
  · intro p hp
    have h6 := hv.bounds.2.2.2
    rw [bit p (by omega), List.getElem?_append_left (by rw [hl1]; omega), frameFields, bitsOfFields_append,
      List.getElem?_append_left (by rw [hhead]; simpa using hp), hhead, fieldBits_eq_ofFn, List.getElem?_ofFn, dif_pos hp]

/-- R80: the CRC of a written frame goes into its fourth byte, and the header is then the descriptor's with that CRC. -/
theorem crcInsert_ok {s : State} (hv : validEff s.pass.desc) (hw : Mem.written s.frameBuf 0 (frameSize s.pass.desc))
    (hh : ∃ w, encode (headerInstr s.pass.desc 0) = .header w ∧ HoldsHeader s.frameBuf w) :
    ∃ (bits : List Bool) (m : Mem 8), crcInsert s = .ok { s with frameBuf := m, pass := { s.pass with crc := crcOf bits } }
      ∧ coverage m s.pass.desc = some bits ∧ Mem.written m 0 (frameSize s.pass.desc)
      ∧ Mem.sameOutside s.frameBuf m 0 (frameSize s.pass.desc)
      ∧ ∃ w, encode (headerInstr s.pass.desc (crcOf bits)) = .header w ∧ HoldsHeader m w := by
  obtain ⟨hfs1, -, -⟩ := frameSize_bits s.pass.desc
  have hpb := payloadBits_eq s.pass.desc
  obtain ⟨x, hx⟩ := headerInstr_word hv
  obtain ⟨bits, hl, hbit⟩ := exists_bits (n := 16 + coveredSideBits s.pass.desc)
    (f := fun k => frameBit s.frameBuf (if k < 16 then 8 + k else 16 + k)) (fun k hk => by
      rw [frameBit_isSome]
      exact hw _ (Nat.zero_le _) (by split <;> omega))
  have hget : ∀ k < 16 + coveredSideBits s.pass.desc, bits[k]? = frameBit s.frameBuf (if k < 16 then 8 + k else 16 + k) := by
    intro k hk
    rw [hbit k (by omega), List.getElem?_eq_getElem (by omega)]
  refine ⟨bits, Mem.write s.frameBuf 3 (crcOf bits), ?_, ?_, ?_, ?_, x ++ crcOf bits, hx _, ?_⟩
  · unfold crcInsert
    rw [coverage_some hl hget]
  · refine coverage_some hl fun k hk => ?_
    rw [hget k hk, frameBit, frameBit, Mem.read_write_other]
    split <;> omega
  · intro a h0 ha
    rw [Mem.read_write]
    split
    · rfl
    · exact hw a h0 ha
  · intro a ha
    exact Mem.read_write_other _ _ (by omega)
  · obtain ⟨w, hw0, hold⟩ := hh
    have e : w = x ++ 0#8 := by
      have := (hw0.symm.trans (hx 0))
      exact Fetched.header.inj this
    intro p hp
    by_cases h3 : p / 8 = 3
    · rw [frameBit, h3, Mem.read_write_same, Option.map_some]
      refine congrArg some (Eq.symm ((BitVec.getLsbD_append ..).trans ?_))
      rw [if_pos (by omega)]
      congr 1
      omega
    · rw [frameBit, Mem.read_write_other _ _ h3]
      have := hold p hp
      rw [frameBit] at this
      rw [this, e]
      refine congrArg some ((BitVec.getLsbD_append ..).trans (Eq.symm ((BitVec.getLsbD_append ..).trans ?_)))
      rw [if_neg (by omega), if_neg (by omega)]

/-- R131 after its checks: with the samples written, the frame is encoded without a failure. -/
theorem encodeFrame_ok {s : State} {d : Desc} (hv : validEff d) (hl : Mem.written s.pcmL 0 (d.blocks * d.subbands))
    (hr : d.mode ≠ .mono → Mem.written s.pcmR 0 (d.blocks * d.subbands)) :
    ∃ (m : Mem 8) (e0 e1 : EncChan) (p : Pass) (bits : List Bool),
      encodeFrame d s = .ok { s with
        frameLen := BitVec.ofNat 10 (frameSize d), frameBuf := m, enc0 := e0, enc1 := e1, pass := p }
      ∧ Mem.written m 0 (frameSize d) ∧ Mem.sameOutside s.frameBuf m 0 (frameSize d)
      ∧ e0.aidx.val = (s.enc0.aidx.val + d.blocks) % 10
      ∧ (d.mode = .mono → e1 = s.enc1) ∧ (d.mode ≠ .mono → e1.aidx.val = (s.enc1.aidx.val + d.blocks) % 10)
      ∧ coverage m d = some bits ∧ ∃ w, encode (headerInstr d (crcOf bits)) = .header w ∧ HoldsHeader m w := by
  obtain ⟨e0, e1, sb, h1, h2, h3, h4⟩ := analyzeFrame_ok (s := { s with pass := { s.pass with desc := d } }) hv hl hr
  unfold encodeFrame
  rw [h1, Micro.ok_andThen]
  generalize ht : ({ ({ s with pass := { s.pass with desc := d } } : State) with
    enc0 := e0, enc1 := e1, pass := { ({ s with pass := { s.pass with desc := d } } : State).pass with sbEnc := sb } } : State) = t
  generalize hx : scfCompute t = x
  obtain ⟨scf, rfl⟩ : ∃ v, x = .ok { t with pass := { t.pass with scf := v } } := ⟨_, hx.symm⟩
  rw [Micro.ok_andThen]
  obtain ⟨joint, scf', sb', h5⟩ := jointDecide_effect { t with pass := { t.pass with scf := scf } }
  rw [h5, Micro.ok_andThen]
  generalize hu : ({ ({ t with pass := { t.pass with scf := scf } } : State) with
    pass := { ({ t with pass := { t.pass with scf := scf } } : State).pass with joint := joint, scf := scf', sbEnc := sb' } } : State) = u
  have hud : u.pass.desc = d := by rw [← hu, ← ht]
  obtain ⟨needs, nbits, h6, h7⟩ := bitAllocFrame_ok (s := u) (by rw [hud]; exact hv)
  rw [h6, Micro.ok_andThen]
  generalize hy : ({ u with pass := { u.pass with bitneed := needs, nbits := nbits } } : State) = y
  have hyd : y.pass.desc = d := by rw [← hy, ← hud]
  obtain ⟨m, h8, h9, h10, h11, -⟩ := writeFrame_ok (s := y) (by rw [hyd]; exact hv) (by rw [← hy]; exact h7)
  have hassoc : ∀ f, ((hdrWrite (y.bind .write (frameSize d))).andThen fun s => (sideWrite s).andThen fun s => (payloadWrite s).andThen f)
      = (writeFrame (y.bind .write (frameSize y.pass.desc))).andThen f := by
    intro f
    rw [hyd]
    unfold writeFrame
    simp only [Micro.andThen_assoc]
  rw [hassoc, h8, Micro.ok_andThen]
  generalize hz : ({ y with
    frameBuf := m
    pass := { y.pass with bs := ⟨.write, frameSize y.pass.desc, 8 * frameSize y.pass.desc, [], false⟩ } } : State) = z
  have hzd : z.pass.desc = d := by rw [← hz, ← hyd]
  rw [hyd] at h9 h10 h11
  obtain ⟨bits, m', g1, g2, g3, g4, g5⟩ := crcInsert_ok (s := z) (by rw [hzd]; exact hv) (by rw [hzd, ← hz]; exact h9)
    (by rw [hzd, ← hz]; exact h11)
  rw [g1, Micro.ok_andThen, if_neg (by rw [← hz]; simp)]
  rw [hzd] at g2 g3 g4 g5
  refine ⟨m', e0, e1, { z.pass with crc := crcOf bits }, bits, ?_, g3, ?_, h2, h3, h4, g2, g5⟩
  · rw [← hz, ← hy, ← hu, ← ht]
  · intro a ha
    rw [g4 a ha, ← hz]
    have := h10 a ha
    rw [← hy, ← hu, ← ht] at this
    exact this

end Sys2Proof.Machine
end

