-- ==== Sys2Proof/Laws/PerInstr.lean ====
section
/-! SUPPORT. Facts about every constructor of Instr, one lemma each. Family TableWord: the word of an instruction, numbered
as the opcode table numbers it, is fetched back as the same kind of word, so a header is never taken for a command. -/

namespace Sys2Proof

/-- How many bits the opcode table gives a word. -/
def Fetched.nbits : Fetched → Nat
  | .cmd _ => 32
  | .uop _ => 8
  | .header _ => 32

/-- A word as the opcode table numbers it. -/
def Fetched.value : Fetched → Nat
  | .cmd w => w.toNat
  | .uop c => c.toNat
  | .header w => w.toNat

/-- A word whose first byte is a syncword is fetched as a header. -/
theorem fetchedOfTable_header {w : BitVec 32} (h : isHeaderWord w = true) : fetchedOfTable 32 w.toNat = .header w := by
  rw [fetchedOfTable, if_neg (by decide), BitVec.ofNat_toNat, BitVec.setWidth_eq, if_pos h]

namespace Laws.TableWord

/-- The word of `i` is fetched as what it is. -/
def Statement (i : Instr) : Prop := fetchedOfTable (encode i).nbits (encode i).value = encode i

theorem resetEnc : Statement .resetEnc := rfl
theorem resetDec : Statement .resetDec := rfl
theorem resetAll : Statement .resetAll := rfl
theorem validate : Statement .validate := rfl
theorem frameSize : Statement .frameSize := rfl
theorem encode : Statement .encode := rfl
theorem probe : Statement .probe := rfl
theorem decode : Statement .decode := rfl
theorem bsBind : Statement .bsBind := rfl
theorem bsGetBits : Statement .bsGetBits := rfl
theorem bsGetFixedBits : Statement .bsGetFixedBits := rfl
theorem bsPutBits : Statement .bsPutBits := rfl
theorem bsFlush : Statement .bsFlush := rfl
theorem bsBitPos : Statement .bsBitPos := rfl
theorem descIsValid : Statement .descIsValid := rfl
theorem descFrameSize : Statement .descFrameSize := rfl
theorem hdrWrite : Statement .hdrWrite := rfl
theorem hdrRead : Statement .hdrRead := rfl
theorem crcCompute : Statement .crcCompute := rfl
theorem crcInsert : Statement .crcInsert := rfl
theorem crcCheck : Statement .crcCheck := rfl
theorem sideWrite : Statement .sideWrite := rfl
theorem sideRead : Statement .sideRead := rfl
theorem payloadWrite : Statement .payloadWrite := rfl
theorem payloadRead : Statement .payloadRead := rfl
theorem bitAlloc : Statement .bitAlloc := rfl
theorem bitAllocFrame : Statement .bitAllocFrame := rfl
theorem scfCompute : Statement .scfCompute := rfl
theorem jointDecide : Statement .jointDecide := rfl
theorem jointUncouple : Statement .jointUncouple := rfl
theorem sbScale : Statement .sbScale := rfl
theorem quant : Statement .quant := rfl
theorem dequant : Statement .dequant := rfl
theorem dct : Statement .dct := rfl
theorem analyzeBlock : Statement .analyzeBlock := rfl
theorem analyzeFrame : Statement .analyzeFrame := rfl
theorem synthBlock : Statement .synthBlock := rfl
theorem synthFrame : Statement .synthFrame := rfl
theorem fbReset : Statement .fbReset := rfl

theorem sbcFrameHeader (freq : Freq) (blocks : Nat) (mode : Mode) (alloc : Alloc) (subbands bitpool : Nat) (crc : BitVec 8) :
    Statement (.sbcFrameHeader freq blocks mode alloc subbands bitpool crc) := by
  refine fetchedOfTable_header ?_
  unfold isHeaderWord
  have h : (headerOfFields 0x9C#8 freq.code (BitVec.ofNat 2 (codeOfCount blocks)) mode.code alloc.code
      (BitVec.ofNat 1 (codeOfCount subbands)) (BitVec.ofNat 8 bitpool) crc).extractLsb' 24 8 = 0x9C := headerOfFields_sync ..
  unfold headerOfFields at h
  rw [h]
  rfl

theorem msbcFrameHeader (crc : BitVec 8) : Statement (.msbcFrameHeader crc) := by
  refine fetchedOfTable_header ?_
  rw [isHeaderWord, msbcWord_sync]
  rfl

end Laws.TableWord

end Sys2Proof
end

