-- ==== Sys2Proof/Laws/Sequence.lean ====
section
/-! SUPPORT. A command is its operations run one after another (R131, R133): the operations that make up `ENCODE` and
`DECODE` do not read the phase, `DONE` or the latches, so run alone they do what they do inside the command. -/

namespace Sys2Proof.Machine

/-- The same data under another phase, `DONE` and latches. -/
def State.rebase (ph : Phase) (dn : Bool) (o : Operands) (s : State) : State := { s with phase := ph, done := dn, op := o }

/-- A change of the states an outcome holds. -/
def Micro.map (g : State → State) : Micro → Micro
  | .ok s => .ok (g s)
  | .raised k s => .raised k (g s)
  | .fault f => .fault f
  | .refused r => .refused r

theorem Micro.map_ite (g : State → State) (c : Prop) [Decidable c] (a b : Micro) :
    (if c then a else b).map g = if c then a.map g else b.map g := by split <;> rfl

section

variable (ph : Phase) (dn : Bool) (o : Operands) (s : State)

theorem acceptHeader_rebase (d : Desc) (crc : BitVec 8) :
    acceptHeader d crc (s.rebase ph dn o) = (acceptHeader d crc s).map (State.rebase ph dn o) := by
  simp only [acceptHeader, Micro.map_ite]
  rfl

theorem hdrRead_rebase : hdrRead (s.rebase ph dn o) = (hdrRead s).map (State.rebase ph dn o) := by
  rcases h : parseHeader s.frameBuf s.pass.bs with _ | ⟨_ | ⟨d, crc⟩, bs⟩ <;> simp only [hdrRead, State.rebase, h]
  · rfl
  · rfl
  · exact acceptHeader_rebase ph dn o (s.setBs bs) d crc

theorem readScaleFactors_rebase (j : BitVec 8) :
    readScaleFactors j (s.rebase ph dn o) = (readScaleFactors j s).map (State.rebase ph dn o) := by
  rcases h : Bs.getFields s.frameBuf ((pairOrder s.pass.desc).map fun _ => 4) s.pass.bs with _ | ⟨vs, bs⟩ <;>
    simp only [readScaleFactors, State.rebase, h] <;> rfl

theorem sideRead_rebase : sideRead (s.rebase ph dn o) = (sideRead s).map (State.rebase ph dn o) := by
  by_cases hj : jointStereo s.pass.desc = true
  · by_cases hw : widthOk s.pass.desc.subbands = true
    · rcases h : s.pass.bs.getBits s.frameBuf s.pass.desc.subbands with _ | ⟨f, bs⟩ <;> simp only [sideRead, State.rebase, hj, hw, h, if_true]
      · rfl
      · exact readScaleFactors_rebase ph dn o (s.setBs bs) _
    · simp only [sideRead, State.rebase, hj, hw, if_true]; rfl
  · simp only [sideRead, State.rebase, hj]
    exact readScaleFactors_rebase ph dn o s 0

theorem crcCheck_rebase : crcCheck (s.rebase ph dn o) = (crcCheck s).map (State.rebase ph dn o) := by
  rcases h : coverage s.frameBuf s.pass.desc with _ | bits <;> simp only [crcCheck, State.rebase, h, Micro.map_ite] <;> rfl

theorem crcInsert_rebase : crcInsert (s.rebase ph dn o) = (crcInsert s).map (State.rebase ph dn o) := by
  rcases h : coverage s.frameBuf s.pass.desc with _ | bits <;> simp only [crcInsert, State.rebase, h] <;> rfl

theorem sbScale_rebase : sbScale (s.rebase ph dn o) = (sbScale s).map (State.rebase ph dn o) := rfl
theorem scfCompute_rebase : scfCompute (s.rebase ph dn o) = (scfCompute s).map (State.rebase ph dn o) := rfl

theorem storeAllocation_rebase (r : Option (List (List Int) × List (List (Fin 17)))) :
    storeAllocation r (s.rebase ph dn o) = (storeAllocation r s).map (State.rebase ph dn o) := by
  cases r <;> rfl

theorem bitAllocFrame_rebase : bitAllocFrame (s.rebase ph dn o) = (bitAllocFrame s).map (State.rebase ph dn o) := by
  rcases h : bandsOf s.pass.desc.subbands with _ | m <;> simp only [bitAllocFrame, State.rebase, h]
  · rfl
  · exact storeAllocation_rebase ph dn o s _

theorem payloadRead_rebase : payloadRead (s.rebase ph dn o) = (payloadRead s).map (State.rebase ph dn o) := by
  rcases h : readSamples Config.rangeScale s.frameBuf s.pass (sampleOrder s.pass.desc) s.pass.bs with _ | ⟨vs, bs⟩ <;>
    simp only [payloadRead, State.rebase, h] <;> rfl

theorem jointDecide_rebase : jointDecide (s.rebase ph dn o) = (jointDecide s).map (State.rebase ph dn o) := by
  simp only [jointDecide, Micro.map_ite]; rfl

theorem jointUncouple_rebase : jointUncouple (s.rebase ph dn o) = (jointUncouple s).map (State.rebase ph dn o) := by
  simp only [jointUncouple, Micro.map_ite]; rfl

theorem writeFields_rebase (fs : List (Word × Nat)) :
    writeFields fs (s.rebase ph dn o) = (writeFields fs s).map (State.rebase ph dn o) := by
  simp only [writeFields, Micro.map_ite]; rfl

theorem hdrWrite_rebase : hdrWrite (s.rebase ph dn o) = (hdrWrite s).map (State.rebase ph dn o) := writeFields_rebase ..
theorem sideWrite_rebase : sideWrite (s.rebase ph dn o) = (sideWrite s).map (State.rebase ph dn o) := writeFields_rebase ..

theorem payloadWrite_rebase : payloadWrite (s.rebase ph dn o) = (payloadWrite s).map (State.rebase ph dn o) := by
  unfold payloadWrite
  rw [show payloadFields (s.rebase ph dn o).pass = payloadFields s.pass from rfl, writeFields_rebase]
  cases writeFields (payloadFields s.pass) s <;> rfl

theorem analyzeFrame_rebase : analyzeFrame (s.rebase ph dn o) = (analyzeFrame s).map (State.rebase ph dn o) := by
  rcases h : bandsOf s.pass.desc.subbands with _ | m
  · simp only [analyzeFrame, State.rebase, h]; rfl
  · rcases h0 : analyzeChannel m s.pcmL (List.range s.pass.desc.blocks) s.enc0 with _ | ⟨e0, sb0⟩
    · simp only [analyzeFrame, State.rebase, h, h0]; rfl
    · by_cases h2 : twoChannels s.pass.desc = true
      · rcases h1 : analyzeChannel m s.pcmR (List.range s.pass.desc.blocks) s.enc1 with _ | ⟨e1, sb1⟩ <;>
          simp only [analyzeFrame, State.rebase, h, h0, h1, h2, if_true] <;> rfl
      · simp only [analyzeFrame, State.rebase, h, h0, h2]; rfl

theorem synthFrame_rebase : synthFrame (s.rebase ph dn o) = (synthFrame s).map (State.rebase ph dn o) := by
  rcases h : bandsOf s.pass.desc.subbands with _ | m <;> simp only [synthFrame, State.rebase, h, Micro.map_ite] <;> rfl

end

/-- An operation that runs inside a command runs alone, first of a list of instructions. -/
theorem runAll_cons {i : Instr} {is : List Instr} {f : State → Micro} {ph : Phase} {dn : Bool} {o : Operands} {s t : State}
    (hi : ∀ s, exec i s = runUop f s) (hf : f (s.rebase ph dn o) = (f s).map (State.rebase ph dn o)) (h : f s = .ok t) :
    runAll (i :: is) (s.rebase ph dn o) = runAll is (t.rebase ph dn o) := by
  rw [runAll, hi, runUop, hf, h]
  rfl

/-- `BS_BIND` with its operands in the latches. -/
theorem runAll_bind {is : List Instr} {ph : Phase} {dn : Bool} {o : Operands} {s : State} {dir : Dir} {size : Nat}
    (hd : o.dir = dir) (hs : o.size.val = size) :
    runAll (.bsBind :: is) (s.rebase ph dn o) = runAll is ((s.bind dir size).rebase ph dn o) := by
  subst hd hs
  rfl

/-- R131: an `ENCODE` that succeeds leaves what its operations leave, run alone one after another. -/
theorem encodeFrame_runs {d : Desc} {s t : State} (h : encodeFrame d s = .ok t) :
    ∃ u : State, t = { u with frameLen := BitVec.ofNat 10 (frameSize d) } ∧ u.pass.bs.err = false
      ∧ ∀ (ph : Phase) (dn : Bool) (o : Operands), o.dir = .write → o.size.val = frameSize d →
        runAll [.analyzeFrame, .scfCompute, .jointDecide, .bitAllocFrame, .bsBind, .hdrWrite, .sideWrite, .payloadWrite, .crcInsert]
            (({ s with pass := { s.pass with desc := d } } : State).rebase ph dn o) = .next (u.rebase ph dn o) := by
  unfold encodeFrame at h
  simp only [Micro.andThen_ok] at h
  obtain ⟨u1, h1, u2, h2, u3, h3, u4, h4, u5, h5, u6, h6, u7, h7, u8, h8, h9⟩ := h
  split at h9
  · cases h9
  · rename_i he
    simp only [Micro.ok.injEq] at h9
    refine ⟨u8, h9.symm, by simpa using he, fun ph dn o hd hs => ?_⟩
    rw [runAll_cons (f := analyzeFrame) (fun _ => rfl) (analyzeFrame_rebase ..) h1,
      runAll_cons (f := scfCompute) (fun _ => rfl) (scfCompute_rebase ..) h2,
      runAll_cons (f := jointDecide) (fun _ => rfl) (jointDecide_rebase ..) h3,
      runAll_cons (f := bitAllocFrame) (fun _ => rfl) (bitAllocFrame_rebase ..) h4,
      runAll_bind hd hs,
      runAll_cons (f := hdrWrite) (fun _ => rfl) (hdrWrite_rebase ..) h5,
      runAll_cons (f := sideWrite) (fun _ => rfl) (sideWrite_rebase ..) h6,
      runAll_cons (f := payloadWrite) (fun _ => rfl) (payloadWrite_rebase ..) h7,
      runAll_cons (f := crcInsert) (fun _ => rfl) (crcInsert_rebase ..) h8]
    rfl

/-- R133: a `DECODE` that succeeds leaves what its operations leave, run alone one after another. -/
theorem decodeBody_runs {s t : State} (h : decodeBody s = .ok t) :
    ∃ u : State, t = decodeOutputs u ∧ u.pass.bs.err = false
      ∧ ∀ (ph : Phase) (dn : Bool) (o : Operands), o.dir = .read → o.size.val = s.frameBytes →
        runAll [.bsBind, .hdrRead, .sideRead, .crcCheck, .sbScale, .bitAllocFrame, .payloadRead, .jointUncouple, .synthFrame]
            (s.rebase ph dn o) = .next (u.rebase ph dn o) := by
  unfold decodeBody at h
  simp only [Micro.andThen_ok] at h
  obtain ⟨u1, h1, u2, h2, u3, h3, h4⟩ := h
  unfold receiveFrame at h1
  split at h1
  · cases h1
  unfold decodeSamples at h2
  split at h2
  · cases h2
  simp only [Micro.andThen_ok] at h2
  obtain ⟨v1, g1, v2, g2, v3, g3, v4, g4, v5, g5, v6, g6, g7⟩ := h2
  split at g7
  · cases g7
  rename_i he
  simp only [Micro.ok.injEq] at g7 h4
  subst g7
  have herr : u3.pass.bs.err = false := by
    have : u3.pass = v6.pass := by
      unfold synthFrame at h3
      split at h3
      · cases h3
      · dsimp only at h3
        split at h3 <;> cases h3 <;> rfl
    rw [this]; simpa using he
  refine ⟨u3, h4.symm, herr, fun ph dn o hd hs => ?_⟩
  rw [runAll_bind hd hs,
    runAll_cons (f := hdrRead) (fun _ => rfl) (hdrRead_rebase ..) h1,
    runAll_cons (f := sideRead) (fun _ => rfl) (sideRead_rebase ..) g1,
    runAll_cons (f := crcCheck) (fun _ => rfl) (crcCheck_rebase ..) g2,
    runAll_cons (f := sbScale) (fun _ => rfl) (sbScale_rebase ..) g3,
    runAll_cons (f := bitAllocFrame) (fun _ => rfl) (bitAllocFrame_rebase ..) g4,
    runAll_cons (f := payloadRead) (fun _ => rfl) (payloadRead_rebase ..) g5,
    runAll_cons (f := jointUncouple) (fun _ => rfl) (jointUncouple_rebase ..) g6,
    runAll_cons (f := synthFrame) (fun _ => rfl) (synthFrame_rebase ..) h3]
  rfl

end Sys2Proof.Machine
end

