-- ==== Sys2Proof/Laws/Receive.lean ====
section
/-! SUPPORT. Frames that cannot be received: reads of bytes never written stop (R140), and what is no header is
malformed (R64, R77). -/

namespace Sys2Proof.Machine

/-! ### Bytes never written -/

theorem bitAt_none {m : Mem 8} {size p : Nat} (hp : p < 8 * size) (h : Mem.read m (p / 8) = none) : bitAt m size p = none := by
  rw [bitAt, if_pos hp, frameBit, h]
  rfl

theorem Bs.getBits_none {m : Mem 8} {n k : Nat} {bs : Bs} (hk : k < n) (h : bitAt m bs.size (bs.pos + k) = none) :
    bs.getBits m n = none := Bs.getBitsInto_none hk h

theorem Bs.getFields_none {m : Mem 8} {ns : List Nat} {bs : Bs} {k : Nat} (hk : k < ns.sum) (h : bitAt m bs.size (bs.pos + k) = none) :
    Bs.getFields m ns bs = none := by
  induction ns generalizing bs k with
  | nil => simp at hk
  | cons n ns ih =>
    simp only [List.sum_cons] at hk
    rw [Bs.getFields]
    cases hg : bs.getBits m n with
    | none => rfl
    | some r =>
      dsimp only
      by_cases hkn : k < n
      · rw [Bs.getBits_none hkn h] at hg; cases hg
      · rw [ih (k := k - n) (by omega)]
        · rfl
        · rw [Bs.getBits_skip hg]
          show bitAt m bs.size (bs.pos + n + (k - n)) = none
          rw [← h]; congr 1; omega

theorem readSamples_none {rs : Fin 16 → I32} {m : Mem 8} {p : Pass} {is : List (Nat × Nat × Nat)} {bs : Bs} {k : Nat}
    (hk : k < sampleBits p is) (h : bitAt m bs.size (bs.pos + k) = none) : readSamples rs m p is bs = none := by
  induction is generalizing bs k with
  | nil => simp [sampleBits] at hk
  | cons i is ih =>
    obtain ⟨j, c, s⟩ := i
    have hbits : sampleBits p ((j, c, s) :: is) = p.nbitsAt c s + sampleBits p is := by simp [sampleBits]
    rw [hbits] at hk
    by_cases h0 : p.nbitsAt c s = 0
    · rw [readSamples, dif_pos h0, ih (by omega) h]; rfl
    · rw [readSamples, dif_neg h0]
      cases hg : bs.getBits m (p.nbitsAt c s) with
      | none => rfl
      | some r =>
        dsimp only
        by_cases hkn : k < p.nbitsAt c s
        · rw [Bs.getBits_none hkn h] at hg; cases hg
        · rw [ih (k := k - p.nbitsAt c s) (by omega)]
          · rfl
          · rw [Bs.getBits_skip hg]
            show bitAt m bs.size (bs.pos + p.nbitsAt c s + (k - p.nbitsAt c s)) = none
            rw [← h]; congr 1; omega

/-- `SIDE_READ` stops at a side bit whose byte was never written. -/
theorem sideRead_none {s : State} {k : Nat} (hs : s.pass.desc.subbands = 4 ∨ s.pass.desc.subbands = 8) (hk : k < coveredSideBits s.pass.desc)
    (h : bitAt s.frameBuf s.pass.bs.size (s.pass.bs.pos + k) = none) : sideRead s = .fault .unwrittenFrameByte := by
  unfold coveredSideBits at hk
  unfold sideRead
  split
  · rename_i hj
    rw [if_pos hj] at hk
    rw [if_pos (widthOk_subbands hs)]
    split
    · rfl
    · rename_i f bs hg
      unfold readScaleFactors
      by_cases hkn : k < s.pass.desc.subbands
      · rw [Bs.getBits_none hkn h] at hg; cases hg
      · rw [Bs.getFields_none (k := k - s.pass.desc.subbands)]
        · rw [pairOrder_widths]; show _ < 4 * s.pass.desc.subbands * channelCount s.pass.desc; omega
        · rw [Bs.getBits_skip hg]
          show bitAt s.frameBuf s.pass.bs.size (s.pass.bs.pos + s.pass.desc.subbands + (k - s.pass.desc.subbands)) = none
          rw [← h]; congr 1; omega
  · rename_i hj
    rw [if_neg hj] at hk
    unfold readScaleFactors
    rw [Bs.getFields_none (k := k) (by rw [pairOrder_widths]; omega) h]

theorem payloadRead_none {s : State} {k : Nat} (hk : k < sampleBits s.pass (sampleOrder s.pass.desc))
    (h : bitAt s.frameBuf s.pass.bs.size (s.pass.bs.pos + k) = none) : payloadRead s = .fault .unwrittenFrameByte := by
  unfold payloadRead
  rw [readSamples_none hk h]

/-! ### Headers -/

/-- The first byte of a fresh reader. -/
theorem Bs.getBits_first {m : Mem 8} {size : Nat} {b : Byte} (hsize : 1 ≤ size) (hb : Mem.read m 0 = some b) :
    Bs.getBits m 8 ⟨.read, size, 0, [], false⟩ = some (b.setWidth 32, ⟨.read, size, 8, [], false⟩) := by
  have hl : (List.ofFn fun k : Fin 8 => b.getLsbD (7 - k.val)).length = 8 := by simp
  have := Bs.getBits_inside (m := m) (bits := List.ofFn fun k : Fin 8 => b.getLsbD (7 - k.val)) (bs := ⟨.read, size, 0, [], false⟩)
    (by rw [hl]; dsimp only; omega) (fun k hk => by
      rw [hl] at hk
      rw [frameBit, show (0 + k) / 8 = 0 by omega, hb]
      simp only [Option.map_some, List.getElem_ofFn]
      congr 2; omega)
  rw [hl] at this
  rw [this]
  congr 2
  apply BitVec.eq_of_getLsbD_eq
  intro j hj
  rw [wordOfBits_getLsbD (by rw [hl]; omega), hl, BitVec.getLsbD_setWidth, decide_eq_true hj, Bool.true_and]
  by_cases h : j < 8
  · rw [if_pos h, List.getD_eq_getElem?_getD, List.getElem?_eq_getElem (by rw [hl]; omega)]
    simp only [List.getElem_ofFn, Option.getD_some]
    congr 1; omega
  · rw [if_neg h, BitVec.getLsbD_of_ge _ _ (by omega)]

/-- A header with a byte never written has no value, its first byte or any of a header that has a syncword (log 25). -/
theorem parseHeader_none {m : Mem 8} {size : Nat} (hsize : 4 ≤ size) (h : Mem.read m 0 = none
      ∨ ((Mem.read m 0 = some 0x9C ∨ Mem.read m 0 = some 0xAD) ∧ ∃ a < 4, Mem.read m a = none)) :
    parseHeader m ⟨.read, size, 0, [], false⟩ = none := by
  rcases h with h | ⟨h, a, ha, hn⟩
  · unfold parseHeader
    rw [Bs.getBits_none (k := 0) (by omega)]
    exact bitAt_none (by dsimp only; omega) (by simpa using h)
  · have ha1 : 1 ≤ a := by
      by_contra hc
      have : a = 0 := by omega
      subst this
      rcases h with h | h <;> rw [h] at hn <;> cases hn
    have hbit : bitAt m size (8 + 8 * (a - 1)) = none :=
      bitAt_none (by omega) (by rw [show (8 + 8 * (a - 1)) / 8 = a by omega]; exact hn)
    unfold parseHeader
    rcases h with h | h
    · rw [Bs.getBits_first (by omega) h]
      dsimp only
      rw [if_neg (by decide), if_pos (by decide), Bs.getFields_none (k := 8 * (a - 1)) (by simp; omega)]
      exact hbit
    · rw [Bs.getBits_first (by omega) h]
      dsimp only
      rw [if_pos (by decide)]
      by_cases ha3 : a = 3
      · cases hg : Bs.getFixedBits m 16 0 ⟨.read, size, 8, [], false⟩ with
        | none => rfl
        | some bs =>
          dsimp only
          obtain ⟨v, -, rfl⟩ := Bs.getFixedBits_some hg
          rw [Bs.getBits_none (k := 0) (by omega)]
          · rfl
          · exact bitAt_none (by dsimp only [Bs.noteError]; omega) (by dsimp only [Bs.noteError]; rw [← hn, ha3])
      · rw [Bs.getFixedBits, Bs.getBits_none (k := 8 * (a - 1)) (by omega)]
        · rfl
        · exact hbit

theorem hdrRead_none {s : State} {size : Nat} (hsize : 4 ≤ size) (hb : s.pass.bs = ⟨.read, size, 0, [], false⟩)
    (h : Mem.read s.frameBuf 0 = none
      ∨ ((Mem.read s.frameBuf 0 = some 0x9C ∨ Mem.read s.frameBuf 0 = some 0xAD) ∧ ∃ a < 4, Mem.read s.frameBuf a = none)) :
    hdrRead s = .fault .unwrittenFrameByte := by
  unfold hdrRead
  rw [hb, parseHeader_none hsize h]

/-- R64, R77: what is no header raises `MalformedHeader`; only the bitstream has moved. -/
theorem hdrRead_bad {s : State} {size : Nat} (hsize : 4 ≤ size) (hb : s.pass.bs = ⟨.read, size, 0, [], false⟩) (h : badHeader s) :
    ∃ bs, hdrRead s = .raised .malformedHeader (s.setBs bs) := by
  rcases h with ⟨b, h0, h1, h2⟩ | ⟨w, hw, h⟩
  · have ne : ∀ c : Byte, b ≠ c → (b.setWidth 32 : Word) ≠ c.setWidth 32 := by
      intro c hc he
      exact hc (by simpa using congrArg (fun v : Word => v.setWidth 8) he)
    refine ⟨⟨.read, size, 8, [], false⟩, ?_⟩
    have hp : parseHeader s.frameBuf s.pass.bs = some (none, ⟨.read, size, 8, [], false⟩) := by
      unfold parseHeader
      rw [hb, Bs.getBits_first (by omega) h0]
      dsimp only
      rw [if_neg (show ¬((b.setWidth 32 : Word) = 0xAD) from ne 0xAD h2), if_neg (show ¬((b.setWidth 32 : Word) = 0x9C) from ne 0x9C h1)]
    unfold hdrRead
    rw [hp]
  · have hp := parseHeader_word (State.headerWord_holds.1 hw) hsize
    rw [← hb] at hp
    simp only [decode, decodeHeader] at h
    by_cases c1 : w.extractLsb' 24 8 = 0x9C#8
    · rw [if_pos c1] at h
      rw [if_neg (by rw [c1]; decide), if_pos c1] at hp
      rcases h with h | ⟨f, bl, m, a, sb, bp, crc, h, hv⟩
      · cases h
      · cases h
        refine ⟨⟨.read, size, 32, [], false⟩, ?_⟩
        unfold hdrRead
        rw [hp]
        dsimp only
        unfold acceptHeader
        rw [if_neg (by simp [State.setBs]), hv]
        rfl
    · rw [if_neg c1] at h
      by_cases c2 : w.extractLsb' 24 8 = 0xAD#8
      · rw [if_pos c2] at h hp
        by_cases c3 : w.extractLsb' 8 16 = 0#16
        · rw [if_pos c3] at h
          rcases h with h | ⟨_, _, _, _, _, _, _, h, -⟩ <;> cases h
        · refine ⟨⟨.read, size, 32, [], true⟩, ?_⟩
          unfold hdrRead
          rw [hp, decide_eq_true c3]
          rfl
      · rw [if_neg c2] at h
        rcases h with h | ⟨_, _, _, _, _, _, _, h, -⟩ <;> cases h

/-- The first steps of `PROBE` and `DECODE`, in the order of R132 and R133. -/
theorem receiveFrame_short {s : State} (h : s.frameBytes < 4) : receiveFrame s = .raised .bufferTooShort s := if_pos h

theorem receiveFrame_bad {s : State} (h4 : 4 ≤ s.frameBytes) (h : badHeader s) :
    ∃ p, receiveFrame s = .raised .malformedHeader { s with pass := p } := by
  obtain ⟨bs, hbs⟩ := hdrRead_bad (s := s.bind .read s.frameBytes) h4 rfl h
  exact ⟨_, by rw [receiveFrame, if_neg (by omega), hbs]; rfl⟩

theorem receiveFrame_none {s : State} (h4 : 4 ≤ s.frameBytes) (h : Mem.read s.frameBuf 0 = none
      ∨ ((Mem.read s.frameBuf 0 = some 0x9C ∨ Mem.read s.frameBuf 0 = some 0xAD) ∧ ∃ a < 4, Mem.read s.frameBuf a = none)) :
    receiveFrame s = .fault .unwrittenFrameByte := by
  rw [receiveFrame, if_neg (by omega)]
  exact hdrRead_none h4 rfl h

theorem receiveFrame_header {s : State} {d : Desc} {crc : BitVec 8} {w : Word} (h4 : 4 ≤ s.frameBytes) (hv : validEff d)
    (hw : encode (headerInstr d crc) = .header w) (hh : s.headerWord = some w) :
    receiveFrame s = .ok { s with
      pass := { s.pass with bs := ⟨.read, s.frameBytes, 32, [], false⟩, desc := d, crcRx := crc } } := by
  rw [receiveFrame, if_neg (by omega)]
  exact hdrRead_header (s := s.bind .read s.frameBytes) hv hw (State.headerWord_holds.1 hh) h4 rfl

/-! ### `DECODE` after the header -/

/-- R133: a declared frame longer than what is there. -/
theorem decodeSamples_short {s : State} (h : s.frameBytes < frameSize s.pass.desc) : decodeSamples s = .raised .bufferTooShort s := if_pos h

/-- A covered bit is a bit of the side information or of the first two bytes after the syncword. -/
theorem coverage_side {m : Mem 8} {d : Desc} {bits : List Bool} (h : coverage m d = some bits) {k : Nat} (hk : k < coveredSideBits d) :
    (frameBit m (32 + k)).isSome = true := by
  obtain ⟨hl, hb⟩ := coverage_bits h
  have := hb (16 + k) (by omega)
  rw [if_neg (by omega), List.getElem?_eq_getElem (by omega), show 16 + (16 + k) = 32 + k by omega] at this
  rw [← this]; rfl

/-- R133: a wrong CRC ends the command before the samples are read (log 30). -/
theorem decodeSamples_mismatch {s : State} {size : Nat} {bits : List Bool} (hv : validEff s.pass.desc)
    (hb : s.pass.bs = ⟨.read, size, 32, [], false⟩) (hfb : s.frameBytes = size) (hsize : frameSize s.pass.desc ≤ size)
    (hcov : coverage s.frameBuf s.pass.desc = some bits) (hcrc : s.pass.crcRx ≠ crcOf bits) :
    ∃ p, decodeSamples s = .raised .checksumMismatch { s with pass := p } := by
  obtain ⟨hfs1, -, -⟩ := frameSize_bits s.pass.desc
  have hpb := payloadBits_eq s.pass.desc
  obtain ⟨joint, scf, h1⟩ := sideRead_ok (s := s) hv.subbands fun k hk => by
    rw [bitAt, hb]; dsimp only; rw [if_pos (by omega)]; exact coverage_side hcov hk
  unfold decodeSamples
  rw [if_neg (by omega), h1, Micro.ok_andThen]
  have h2 : ∀ t : State, t.frameBuf = s.frameBuf → t.pass.desc = s.pass.desc → t.pass.crcRx = s.pass.crcRx →
      crcCheck t = .raised .checksumMismatch { t with pass := { t.pass with crc := crcOf bits } } := by
    intro t e1 e2 e3
    unfold crcCheck; rw [e1, e2, hcov]; dsimp only; rw [if_neg (by rw [e3]; exact fun h => hcrc h.symm)]
  rw [h2 ({ s with pass := { s.pass with bs := s.pass.bs.skip (coveredSideBits s.pass.desc), joint := joint, scf := scf } } : State) rfl rfl rfl,
    Micro.raised_andThen]
  exact ⟨_, rfl⟩

/-- R140: past the checks before it, a byte of the declared frame that was never written stops the command. -/
theorem decodeSamples_none {s : State} {size a : Nat} (hv : validEff s.pass.desc) (hb : s.pass.bs = ⟨.read, size, 32, [], false⟩)
    (hfb : s.frameBytes = size) (hsize : frameSize s.pass.desc ≤ size) (ha4 : 4 ≤ a) (ha : a < frameSize s.pass.desc)
    (hn : Mem.read s.frameBuf a = none) (hcrc : ∀ bits, coverage s.frameBuf s.pass.desc = some bits → s.pass.crcRx = crcOf bits) :
    decodeSamples s = .fault .unwrittenFrameByte := by
  obtain ⟨hfs1, hfs2, hfs3⟩ := frameSize_bits s.pass.desc
  have hbit : ∀ p < 8 * size, p / 8 = a → bitAt s.frameBuf size p = none := fun p hp he => bitAt_none hp (by rw [he]; exact hn)
  unfold decodeSamples
  rw [if_neg (by omega)]
  by_cases hside : 8 * a < 32 + coveredSideBits s.pass.desc
  · rw [sideRead_none (k := 8 * a - 32) hv.subbands (by omega) (by rw [hb]; exact hbit _ (by dsimp only; omega) (by dsimp only; omega))]
    rfl
  · rcases sideRead_effect s with h | h | ⟨joint, scf, h⟩
    · rw [h]; rfl
    · exfalso
      unfold sideRead at h
      split at h
      · rw [if_pos (widthOk_subbands hv.subbands)] at h
        split at h
        · cases h
        · unfold readScaleFactors at h; split at h <;> cases h
      · unfold readScaleFactors at h; split at h <;> cases h
    · rw [h, Micro.ok_andThen]
      have hcs : ∀ t : State, t.frameBuf = s.frameBuf → t.pass.desc = s.pass.desc → t.pass.crcRx = s.pass.crcRx →
          crcCheck t = .fault .unwrittenFrameByte ∨ ∃ c, crcCheck t = .ok { t with pass := { t.pass with crc := c } } := by
        intro t e1 e2 e3
        unfold crcCheck
        rw [e1, e2]
        split
        · exact .inl rfl
        · rename_i bits hc
          exact .inr ⟨crcOf bits, by dsimp only; rw [if_pos (by rw [e3]; exact (hcrc bits hc).symm)]⟩
      rcases hcs ({ s with pass := { s.pass with bs := s.pass.bs.skip (coveredSideBits s.pass.desc), joint := joint, scf := scf } } : State)
        rfl rfl rfl with hc | ⟨c, hc⟩
      · rw [hc]; rfl
      · rw [hc, Micro.ok_andThen]
        generalize hu : ({ ({ s with pass := { s.pass with
            bs := s.pass.bs.skip (coveredSideBits s.pass.desc), joint := joint, scf := scf } } : State) with
          pass := { ({ s with pass := { s.pass with
            bs := s.pass.bs.skip (coveredSideBits s.pass.desc), joint := joint, scf := scf } } : State).pass with crc := c } } : State) = u
        generalize hx : sbScale u = x
        obtain ⟨v, rfl⟩ : ∃ v, x = .ok { u with pass := { u.pass with sbScale := v } } := ⟨_, hx.symm⟩
        rw [Micro.ok_andThen]
        have hd : ({ u with pass := { u.pass with sbScale := v } } : State).pass.desc = s.pass.desc := by rw [← hu]
        obtain ⟨needs, nbits, h4, h5⟩ := bitAllocFrame_ok (s := { u with pass := { u.pass with sbScale := v } }) (by rw [hd]; exact hv)
        rw [h4, Micro.ok_andThen]
        rw [hd] at h5
        generalize hy : ({ ({ u with pass := { u.pass with sbScale := v } } : State) with
          pass := { ({ u with pass := { u.pass with sbScale := v } } : State).pass with bitneed := needs, nbits := nbits } } : State) = y
        have hyd : y.pass.desc = s.pass.desc := by rw [← hy, ← hu]
        have hyb : y.pass.bs = ⟨.read, size, 32 + coveredSideBits s.pass.desc, [], false⟩ := by
          have hpb := payloadBits_eq s.pass.desc
          rw [← hy, ← hu]; dsimp only
          rw [Bs.skip_inside (by rw [hb]; dsimp only; omega), hb]
        have hym : y.frameBuf = s.frameBuf := by rw [← hy, ← hu]
        have hys : 32 + coveredSideBits s.pass.desc + sampleBits y.pass (sampleOrder y.pass.desc) = 32 + payloadBits s.pass.desc := by
          rw [hyd, ← hy]; exact h5
        -- the first bit of byte `a` past the side fields is a sample bit
        rw [payloadRead_none (s := y) (k := max (8 * a) (32 + coveredSideBits s.pass.desc) - (32 + coveredSideBits s.pass.desc)) (by omega)
          (by rw [hyb, hym]; exact hbit _ (by dsimp only; omega) (by dsimp only; omega))]
        rfl

end Sys2Proof.Machine
end

