-- ==== Sys2Proof/Tests/Slice0.lean ====
section
/-! SUPPORT. The model's own tests. Expected values come from spec/95_test_vectors.md and the rules' own examples, named in
each docstring; and one witness for the hypotheses of every statement that has some. -/

namespace Sys2Proof.Tests

-- One after another: many kernel evaluations at once need more threads than the memory limit allows.
set_option Elab.async false

open Sys2Proof Sys2Proof.Machine

/-- What `f` says of the next state; none where there is no next state. -/
def got {α : Type} (f : State → α) : Host.Outcome State Fault Refusal → Option α
  | .next t => some (f t)
  | .fault _ => none
  | .refused _ => none

def faultOf : Host.Outcome State Fault Refusal → Option Fault
  | .next _ => none
  | .fault f => some f
  | .refused _ => none

def refusalOf : Host.Outcome State Fault Refusal → Option Refusal
  | .next _ => none
  | .fault _ => none
  | .refused r => some r

/-- A buffer holding values from index 0 on. -/
def memOf {w : Nat} (vs : List (BitVec w)) : Mem w := Mem.writeList [] 0 vs

/-- What a buffer holds at some indexes. -/
def at_ {w : Nat} (m : Mem w) (is : List Nat) : List (Option (BitVec w)) := is.map (Mem.read m)

def withPass (p : Pass) : State := { State.reset with pass := p }
def withOp (o : Operands) : State := { State.reset with op := o }
def withCfg (c : Word) (len : BitVec 8) : State := { State.reset with cfg := c, pcmLeft := len }
def withFrame (n : BitVec 10) (bytes : List Byte) : State := { State.reset with frameLen := n, frameBuf := memOf bytes }

/-! ### Well-formedness: one ill-formed term for each check -/

theorem test_wellFormed_blocks : (Instr.sbcFrameHeader .f16k 15 .mono .snr 4 8 0).wellFormed = false := by decide
theorem test_wellFormed_subbands : (Instr.sbcFrameHeader .f16k 4 .mono .snr 6 8 0).wellFormed = false := by decide
theorem test_wellFormed_bitpool : (Instr.sbcFrameHeader .f16k 4 .mono .snr 4 256 0).wellFormed = false := by decide
theorem test_wellFormed_ok : (Instr.sbcFrameHeader .f48k 16 .jointStereo .snr 8 255 0xFF).wellFormed = true := by decide

/-! ### Decoding, from the tables of R50, R52 and the layouts of R55, R58 -/

theorem test_decode_commands : [0x01, 0x02, 0x03, 0x10, 0x11, 0x20, 0x30, 0x31].map (decodeTableWord 32)
    = [some .resetEnc, some .resetDec, some .resetAll, some .validate, some .frameSize, some .encode, some .probe, some .decode] := by
  decide
theorem test_decode_bitstream : [0x80, 0x81, 0x82, 0x83, 0x84, 0x85].map (decodeTableWord 8)
    = [some .bsBind, some .bsGetBits, some .bsGetFixedBits, some .bsPutBits, some .bsFlush, some .bsBitPos] := by decide
theorem test_decode_framer : [0x88, 0x89, 0x8A, 0x8B, 0x8C, 0x8D, 0x8E, 0x8F, 0x90, 0x91, 0x92].map (decodeTableWord 8)
    = [some .descIsValid, some .descFrameSize, some .hdrWrite, some .hdrRead, some .crcCompute, some .crcInsert,
      some .crcCheck, some .sideWrite, some .sideRead, some .payloadWrite, some .payloadRead] := by decide
theorem test_decode_allocator : [0x94, 0x95].map (decodeTableWord 8) = [some .bitAlloc, some .bitAllocFrame] := by decide
theorem test_decode_quantizer : [0x98, 0x99, 0x9A, 0x9B, 0x9C, 0x9D].map (decodeTableWord 8)
    = [some .scfCompute, some .jointDecide, some .jointUncouple, some .sbScale, some .quant, some .dequant] := by decide
theorem test_decode_filterBanks : [0xA0, 0xA1, 0xA2, 0xA3, 0xA4, 0xA5].map (decodeTableWord 8)
    = [some .dct, some .analyzeBlock, some .analyzeFrame, some .synthBlock, some .synthFrame, some .fbReset] := by decide
/-- HDR-5: 9C A9 35 53, byte 1 = `10 10 10 0 1`. -/
theorem test_decode_sbcHeader : decodeTableWord 32 0b10011100_10_10_10_0_1_00110101_01010011
    = some (.sbcFrameHeader .f44k1 12 .stereo .loudness 8 53 0x53) := by decide
/-- HDR-6 and HDR-7: AD 00 00 C5 and AD 00 01 C5. -/
theorem test_decode_msbcHeader : decodeTableWord 32 0b10101101_0000000000000000_11000101 = some (.msbcFrameHeader 0xC5)
    ∧ decodeTableWord 32 0b10101101_0000000000000001_11000101 = none := by decide
/-- The codes R50 and R52 leave out. -/
theorem test_decode_unassigned : [0x7F, 0x86, 0x87, 0x93, 0x96, 0x97, 0x9E, 0x9F, 0xA6].map (decodeTableWord 8) = List.replicate 9 none
    ∧ [0x00, 0x04, 0x12, 0x21, 0x32, 0x120].map (decodeTableWord 32) = List.replicate 6 none := by decide

/-! ### Primitives (R9) and addressing -/

/-- FB-12, FB-13. -/
theorem test_rshr_sat16 : rshr 5 1 = some 3 ∧ rshr (-5) 1 = some (-2) ∧ rshr (-6) 2 = some (-1) ∧ rshr 0 7 = some 0 ∧ rshr 5 0 = none
    ∧ sat16 40000 = 32767 ∧ sat16 (-40000) = -32768 ∧ sat16 (-32768) = -32768 := by decide
/-- FB-5, FB-6. -/
theorem test_addressing : (List.ofFn fun i : Fin 10 => DecChan.dctIdx (DecChan.zeroAt i)) = [0, 9, 8, 7, 6, 5, 4, 3, 2, 1]
    ∧ (List.ofFn fun i : Fin 10 => EncChan.odd (EncChan.zeroAt i)) = [0, 1, 0, 1, 0, 1, 0, 1, 0, 1] := by
  decide +kernel

/-! ### Host window and step -/

/-- CM-1, CM-21. -/
theorem test_step_window : got (·.hostData) (step { State.reset with inputs := [.hostRead 4 4] }) = some 0
    ∧ faultOf (step { State.reset with inputs := [.hostRead 0x14 4] }) = some (.hostBadAccess 0x14 4 .read)
    ∧ faultOf (step { State.reset with inputs := [.hostRead 4 2] }) = some (.hostBadAccess 4 2 .read) := by decide +kernel
/-- CM-4, CM-5, CM-6: `STATUS = 0x62`. -/
theorem test_step_illegal : [0x04, 0x120, 0x00].map
    (fun w : Word => got (·.statusWord) (step { State.reset with inputs := [.sequencer], phase := .busy (.cmd w) })) = List.replicate 3 (some 0x62) := by
  decide +kernel

/-! ### Commands (2.8) -/

/-- CM-2. -/
theorem test_resetEnc : got (fun t => (t.statusWord, t.enc0.aidx, t.dec0.sidx))
    (exec .resetEnc { State.reset with enc0 := .zeroAt 3, dec0 := .zeroAt 4 }) = some (2, 0, 4) := by decide +kernel
theorem test_resetDec : got (fun t => (t.statusWord, t.enc1.aidx, t.dec1.sidx))
    (exec .resetDec { State.reset with enc1 := .zeroAt 3, dec1 := .zeroAt 4 }) = some (2, 3, 0) := by decide +kernel
/-- CM-3. -/
theorem test_resetAll : got (fun t => (t.statusWord, t.enc1.aidx, t.dec0.sidx, t.cfg))
    (exec .resetAll { State.reset with cfg := 1, enc1 := .zeroAt 3, dec0 := .zeroAt 4 }) = some (2, 0, 0, 1) := by decide +kernel
/-- CM-7, CM-8, E9. -/
theorem test_validate : [0x00354314, 0x00F94314, 0x00F94315].map (fun c => got (·.statusWord) (exec .validate (withCfg c 0)))
    = [some 0x02, some 0x42, some 0x02] := by decide +kernel
/-- E2, CM-9, CM-10. -/
theorem test_frameSize : [0x00354314, 0x00000001, 0x001A43C0].map
    (fun c => got (fun t => (t.statusWord, t.frameLen)) (exec .frameSize (withCfg c 0)))
    = [some (0x02, 92), some (0x02, 57), some (0x42, 0)] := by decide +kernel
/-- E8, CM-11, CM-12. -/
theorem test_encode : [(0x00F94314, 128), (0x00354314, 0x60), (0x00000001, 0x77)].map
    (fun c : Word × BitVec 8 => got (·.statusWord) (exec .encode (withCfg c.1 c.2))) = [some 0x42, some 0x22, some 0x22] := by
  decide +kernel
/-- HDR-1 (P3 step 7), E4, CM-14, HDR-4. -/
theorem test_probe : [(4, [0x9C, 0x02, 0x08, 0x75]), (4, [0x00, 0x02, 0x08, 0x75]), (3, [0x9C]), (4, [0x9C, 0xFF, 0xFF, 0x00])].map
    (fun f : BitVec 10 × List Byte => got (fun t => (t.statusWord, t.cfg)) (exec .probe (withFrame f.1 f.2)))
    = [some (0x02, 0x00082120), some (0x12, 0), some (0x22, 0), some (0x12, 0)] := by decide +kernel
/-- FR-1. -/
def fr1 : List Byte := [0x9C, 0x02, 0x08, 0x75, 0x86, 0x30, 0x92, 0x34, 0xBB, 0x79]
/-- CM-16, FR-8, FR-7, HDR-7. -/
theorem test_decode : [(4, fr1.take 4), (9, fr1), (10, fr1.set 3 0x74), (57, [0xAD, 0x00, 0x01, 0xC5])].map
    (fun f : BitVec 10 × List Byte => got (·.statusWord) (exec .decode (withFrame f.1 f.2)))
    = [some 0x22, some 0x22, some 0x32, some 0x12] := by decide +kernel

/-! ### Bitstream (2.1) -/

def reader (size pos : Nat) (bytes : List Byte) (n : Nat) : State :=
  { State.reset with frameBuf := memOf bytes, pass := { Pass.reset with bs := ⟨.read, size, pos, [], false⟩ }, op := { Operands.reset with width := n } }
def writer (size pos : Nat) (acc : List Bool) (v : Word) (n : Nat) : State :=
  { State.reset with
    frameBuf := memOf [0x9C]
    pass := { Pass.reset with bs := ⟨.write, size, pos, acc, false⟩ }
    op := { Operands.reset with value := v, width := n } }

theorem test_bsBind : got (fun t => (t.pass.bs.size, t.pass.bs.pos, t.pass.bs.err))
    (exec .bsBind { withPass { Pass.reset with bs := ⟨.write, 3, 7, [true], true⟩ } with op := { Operands.reset with size := 57 } })
      = some (57, 0, false) := by decide +kernel
/-- BS-4: the second read. -/
theorem test_bsGetBits : got (fun t => (t.out.value, t.pass.bs.pos, t.pass.bs.err)) (exec .bsGetBits (reader 1 4 [0x9C] 8))
    = some (0xC0, 12, true) := by decide +kernel
/-- BS-5. -/
theorem test_bsGetFixedBits : got (fun t => (t.pass.bs.pos, t.pass.bs.err)) (exec .bsGetFixedBits (reader 4 8 [0xAD, 0x00, 0x01] 16))
    = some (24, true) := by decide +kernel
/-- BS-6. -/
theorem test_bsPutBits : got (fun t => (t.pass.bs.acc, t.pass.bs.pos, t.pass.bs.err)) (exec .bsPutBits (writer 2 8 [] 0x1FF 3))
    = some ([true, true, true], 11, false) := by decide +kernel
/-- BS-8: the discarded byte. -/
theorem test_bsPutBits_past : got (fun t => (at_ t.frameBuf [0, 1], t.pass.bs.pos, t.pass.bs.err)) (exec .bsPutBits (writer 1 8 [] 0xCD 8))
    = some ([some 0x9C, none], 16, true) := by decide +kernel
/-- BS-7. -/
theorem test_bsFlush : got (fun t => (at_ t.frameBuf [0, 1], t.pass.bs.pos)) (exec .bsFlush (writer 2 11 [true, false, true] 0 1))
    = some ([some 0x9C, some 0xA0], 16) := by decide +kernel
/-- BS-10. -/
theorem test_bsBitPos : got (·.out.bitPos) (exec .bsBitPos (writer 10 48 [] 0 1)) = some 48 := by decide +kernel

/-! ### Framer (2.2, 2.3, 2.6) -/

/-- DS-5, DS-7, DS-8. -/
def mono : Desc := ⟨false, .f16k, .mono, .snr, 4, 4, 8⟩
def dual : Desc := ⟨false, .f32k, .dualChannel, .snr, 4, 4, 6⟩
def joint : Desc := ⟨false, .f44k1, .jointStereo, .loudness, 4, 4, 16⟩

/-- DS-9, DS-10, DS-4. -/
theorem test_descIsValid : [(⟨false, .f48k, .jointStereo, .loudness, 16, 8, 249⟩ : Desc), ⟨false, .f48k, .jointStereo, .loudness, 16, 8, 250⟩,
      ⟨false, .f16k, .mono, .loudness, 15, 8, 26⟩].map (fun d => got (·.out.valid) (exec .descIsValid (withOp { Operands.reset with desc := d })))
    = [some true, some false, some false] := by decide +kernel
/-- DS-1, DS-6, DS-8, DS-11. -/
theorem test_descFrameSize : [(⟨false, .f44k1, .stereo, .loudness, 12, 8, 53⟩ : Desc), { mono with bitpool := 0 }, joint,
      ⟨false, .f16k, .dualChannel, .loudness, 16, 8, 125⟩].map
      (fun d => got (·.out.frameSize) (exec .descFrameSize (withOp { Operands.reset with desc := d })))
    = [some 92, some 6, some 17, some 512] := by decide +kernel
/-- R76's example: 9C 02 08 00. -/
theorem test_hdrWrite : got (fun t => at_ t.frameBuf [0, 1, 2, 3])
    (exec .hdrWrite (withPass { Pass.reset with desc := mono, bs := ⟨.write, 10, 0, [], false⟩ }))
      = some [some 0x9C, some 0x02, some 0x08, some 0x00] := by decide +kernel
/-- HDR-2. -/
theorem test_hdrRead : got (fun t => (t.pass.desc, t.pass.crcRx)) (exec .hdrRead (reader 17 0 [0x9C, 0x8C, 0x10, 0x03] 1))
    = some (joint, 0x03) := by decide +kernel
/-- CRC-2, CRC-4 (bytes 02 08 86 30), CRC-3. -/
theorem test_crcCompute : [[true], (List.range 32).map fun k => (0x02088630 : Word).getLsbD (31 - k), List.replicate 48 false].map
    (fun bits => got (·.pass.crc) (exec .crcCompute (withOp { Operands.reset with crcBits := bits })))
      = [some 0x03, some 0x75, some 0xC5] := by decide +kernel
/-- FR-1: byte 3; CRC-5. -/
theorem test_crcInsert :
    got (fun t => at_ t.frameBuf [3]) (exec .crcInsert { withFrame 0 (fr1.set 3 0) with pass := { Pass.reset with desc := mono } })
      = some [some 0x75]
    ∧ got (·.pass.crc) (exec .crcInsert { withFrame 0 [0x9C, 0x8C, 0x10, 0x00, 0xE9, 0x74, 0x20, 0x00, 0x2F] with
        pass := { Pass.reset with desc := joint } }) = some 0x03 := by decide +kernel
/-- FR-1, FR-7. -/
theorem test_crcCheck : [(0x75 : BitVec 8), 0x74].map (fun c => got (·.statusWord)
    (exec .crcCheck { withFrame 0 fr1 with pass := { Pass.reset with desc := mono, crcRx := c } })) = [some 0, some 0x32] := by
  decide +kernel
/-- FR-2: the mask bits 1110 and the first scale factor make 0xE9; bytes 5 to 7. -/
theorem test_sideWrite : got (fun t => (at_ t.frameBuf [4, 5, 6, 7], t.pass.bs.acc)) (exec .sideWrite (withPass { Pass.reset with
      desc := joint, bs := ⟨.write, 17, 32, [], false⟩, joint := 0b0111, scf := [[9, 7, 4, 2], [0, 0, 0, 2]] }))
    = some ([some 0xE9, some 0x74, some 0x20, some 0x00], [false, false, true, false]) := by decide +kernel
/-- FR-2 read back. -/
theorem test_sideRead : got (fun t => (t.pass.joint, t.pass.scf, t.pass.bs.pos)) (exec .sideRead
      { reader 17 32 [0x9C, 0x8C, 0x10, 0x03, 0xE9, 0x74, 0x20, 0x00, 0x2F] 1 with
        pass := { Pass.reset with desc := joint, bs := ⟨.read, 17, 32, [], false⟩ } })
    = some (0b0111, [[9, 7, 4, 2], [0, 0, 0, 2]], 68) := by decide +kernel
/-- FR-1's samples, scale factors and bits. -/
def fr1Pass : Pass := { Pass.reset with
  desc := mono
  sbEnc := [[[100, -50, 7, 0], [-300, 20, -7, 0], [255, 0, 1, 0], [0, -64, -8, 0]]]
  scf := [[8, 6, 3, 0]]
  nbits := [[5, 3, 0, 0]]
  sbScale := [6] }
theorem test_payloadWrite : got (fun t => at_ t.frameBuf [6, 7, 8, 9])
    (exec .payloadWrite (withPass { fr1Pass with bs := ⟨.write, 10, 48, [], false⟩ })) = some [some 0x92, some 0x34, some 0xBB, some 0x79] := by
  decide +kernel
/-- FR-6: no bits, all samples 0, nothing read. -/
theorem test_payloadRead : got (fun t => (t.pass.sbDec, t.pass.bs.pos))
    (exec .payloadRead (withPass { fr1Pass with nbits := [[0, 0, 0, 0]], bs := ⟨.read, 6, 48, [], false⟩ }))
      = some (List.replicate 1 (List.replicate 4 (List.replicate 4 0)), 48) := by decide +kernel
/-- FR-1's decoded samples, with the reference table of R104. -/
theorem test_payloadRead_fr1 : (readSamples referenceRangeScale (memOf fr1) fr1Pass (sampleOrder mono) ⟨.read, 10, 48, [], false⟩).map Prod.fst
    = some [6342, -2341, 0, 0, -19027, 2340, 0, 0, 16912, -1, 0, 0, -1, -4682, 0, 0] := by decide +kernel
/-- HDR-1, HDR-4. -/
theorem test_sbcFrameHeader : got (fun t => (t.pass.desc, t.pass.crcRx)) (exec (.sbcFrameHeader .f16k 4 .mono .snr 4 8 0x75) State.reset)
      = some (mono, 0x75)
    ∧ got (·.result) (exec (.sbcFrameHeader .f48k 16 .jointStereo .snr 8 255 0) State.reset) = some .malformedHeader := by decide +kernel
/-- HDR-6. -/
theorem test_msbcFrameHeader : got (fun t => (t.pass.desc, t.pass.crcRx)) (exec (.msbcFrameHeader 0xC5) (withPass { Pass.reset with desc := mono }))
    = some (⟨true, .f16k, .mono, .loudness, 15, 8, 26⟩, 0xC5) := by decide +kernel

/-! ### Bit allocator (2.4) -/

/-- BA-3. -/
theorem test_bitAlloc : got (fun t => (t.pass.bitneed, t.pass.nbits)) (exec .bitAlloc (withOp { Operands.reset with
      alloc := ⟨[10, 9, 8, 7, 6, 5, 4, 3], some [9, 9, 7, 7, 5, 5, 3, 3], .eight, .f48k, .loudness, 53⟩ }))
    = some ([[7, 4, 4, 3, 3, 2, 1, 0], [6, 4, 3, 3, 2, 2, 1, 0]], [[8, 5, 5, 4, 4, 2, 0, 0], [7, 5, 4, 4, 3, 2, 0, 0]]) := by decide +kernel
/-- BA-11, BA-8, BA-5, BA-7. -/
theorem test_bitAlloc_corners : [(⟨[4, 4, 4, 4], none, .four, .f16k, .snr, 3⟩ : AllocIn), ⟨[3, 14, 2, 1], none, .four, .f32k, .loudness, 1⟩,
      ⟨[2, 2, 2, 2], none, .four, .f16k, .snr, 16⟩, ⟨List.replicate 8 15, some (List.replicate 8 15), .eight, .f16k, .snr, 256⟩].map
      (fun a => got (·.pass.nbits) (exec .bitAlloc (withOp { Operands.reset with alloc := a })))
    = [some [[3, 0, 0, 0]], some [[1, 0, 0, 0]], some [[4, 4, 4, 4]], some [List.replicate 8 16, List.replicate 8 16]] := by decide +kernel
/-- FR-4. -/
theorem test_bitAllocFrame : got (·.pass.nbits) (exec .bitAllocFrame (withPass { Pass.reset with desc := dual, scf := [[9, 7, 4, 2], [2, 1, 0, 0]] }))
    = some [[4, 2, 0, 0], [4, 2, 0, 0]] := by decide +kernel

/-! ### Quantizer and dequantizer (2.5) -/

/-- FR-1's scale factors; SCF-3, SCF-4. -/
theorem test_scfCompute : got (·.pass.scf) (exec .scfCompute (withPass { fr1Pass with scf := [] })) = some [[8, 6, 3, 0]]
    ∧ scfOf [-32768, 5] = 15 ∧ scfOf [1, -1] = 0 := by decide +kernel
/-- FR-5: subband 1 is coupled (mid 100, -90, 80, -70), subband 0 is a tie (JD-2). -/
theorem test_jointDecide : got (fun t => (t.pass.joint, t.pass.scf, (t.pass.sbEnc.getD 0 []).map fun v => v.getD 1 0))
    (exec .jointDecide (withPass { Pass.reset with
      desc := joint
      scf := [[3, 6, 0, 0], [0, 6, 0, 0]]
      sbEnc := [[[3, 101, 0, 0], [5, -89, 0, 0], [7, 81, 0, 0], [-9, -69, 0, 0]], [[0, 100, 0, 0], [0, -90, 0, 0], [0, 80, 0, 0], [0, -70, 0, 0]]] }))
      = some (0b0010, [[3, 6, 0, 0], [0, 0, 0, 0]], [100, -90, 80, -70]) := by decide +kernel
/-- JU-1, with a received mask bit of the top subband (R64). -/
theorem test_jointUncouple : got (fun t => (t.pass.sbDecAt 0 0 3, t.pass.sbDecAt 1 0 3, t.pass.sbDecAt 0 0 0)) (exec .jointUncouple (withPass
      { Pass.reset with desc := joint, joint := 0b1000, sbDec := [[[9, 0, 0, 6342]], [[5, 0, 0, -1]]] })) = some (6341, 6343, 9) := by decide +kernel
/-- SB-3, SB-4. -/
theorem test_sbScale :
    got (·.pass.sbScale) (exec .sbScale (withPass { Pass.reset with desc := joint, scf := [[9, 7, 4, 2], [0, 0, 0, 2]] })) = some [5, 5]
    ∧ got (·.pass.sbScale) (exec .sbScale (withPass { Pass.reset with desc := dual, scf := [[9, 7, 4, 2], [2, 1, 0, 0]] })) = some [5, 12] := by
  decide +kernel
/-- Q-2, Q-7, Q-9, Q-12. -/
theorem test_quant : [((-50 : I16), (2 : Fin 16), (6 : BitVec 4)), (32767, 15, 14), (-32768, 15, 15), (511, 3, 8)].map (fun q => got (·.out.code)
      (exec .quant (withOp { Operands.reset with sample := q.1, nIdx := q.2.1, scf := q.2.2 })))
    = [some 2, some 65534, some 16383, some 14] := by decide +kernel
/-- DQ-1, DQ-5, DQ-7, DQ-10, DQ-11, with the reference table of R104. -/
theorem test_dequant : [((18 : Word), (4 : Fin 16), 8, (6 : Int)), (1, 0, 0, 14), (0, 15, 15, -1), (31, 4, 8, 6), (2, 1, 0, 0)].map
      (fun q => dequantizeWith referenceRangeScale q.1 q.2.1 q.2.2.1 q.2.2.2)
    = [6342, 65536, -32768, 33825, 1] := by decide +kernel

/-! ### Filter banks (2.7), by the named properties -/

/-- FB-11 (D-Z). -/
theorem test_dct : ∃ t, exec .dct (withOp { Operands.reset with bands := .eight }) = .next t ∧ t.out.dctOut = List.replicate 8 0 := by
  refine ⟨_, rfl, ?_⟩
  show (Config.dct .eight (blockOf 8 [])).toList = _
  rw [blockOf_zero 8 [] (by simp)]
  exact congrArg Vector.toList (Config.dct_zero .eight)
/-- FB-1 (A-Z, A-I). -/
theorem test_analyzeBlock : ∃ t, exec .analyzeBlock (withOp { Operands.reset with bands := .eight }) = .next t
    ∧ t.out.subbands = List.replicate 8 0 ∧ t.enc0 = .zeroAt 1 := by
  have h : Config.analyze .eight (.zeroAt 0) (blockOf 8 []) = (.zeroAt (0 + 1), Vector.replicate 8 0) := by
    rw [blockOf_zero 8 [] (by simp)]
    exact Config.analyze_zero ..
  refine ⟨_, rfl, ?_, ?_⟩
  · exact congrArg (fun r : EncChan × Vector I16 8 => r.2.toList) h
  · exact congrArg Prod.fst h
/-- FB-7 (S-Z1, S-I). -/
theorem test_synthBlock (k : Int) : ∃ t, exec .synthBlock (withOp { Operands.reset with bands := .eight, sbScale := k }) = .next t
    ∧ t.out.pcm = List.replicate 8 0 ∧ t.dec0 = .zeroAt 1 := by
  have h : Config.synthesize .eight (.zeroAt 0) (blockOf 8 []) k = (.zeroAt (0 + 1), Vector.replicate 8 0) := by
    rw [blockOf_zero 8 [] (by simp)]
    exact Config.synthesize_zero ..
  refine ⟨_, rfl, ?_, ?_⟩
  · exact congrArg (fun r : DecChan × Vector I16 8 => r.2.toList) h
  · exact congrArg Prod.fst h
theorem test_fbReset : got (fun t => (t.enc0.aidx, t.dec0.sidx)) (exec .fbReset { withOp { Operands.reset with set := .dec } with
    enc0 := .zeroAt 3, dec0 := .zeroAt 4 }) = some (3, 0) := by decide +kernel

/-! ### Witnesses: for each statement with hypotheses, a state and operands that meet them together, clause by clause -/

theorem witness_DecodeEncodeAgree : (Instr.sbcFrameHeader .f48k 16 .jointStereo .snr 8 255 0xFF).wellFormed = true
    ∧ (Instr.msbcFrameHeader 0).wellFormed = true ∧ Instr.encode.wellFormed = true := by decide
theorem witness_EveryWordHasOneMeaning : decode (.header 0x9CFFFFFF) = .ok (.sbcFrameHeader .f48k 16 .jointStereo .snr 8 255 0xFF)
    ∧ decode (.cmd 0x31) = .ok .decode ∧ decode (.uop 0xA5) = .ok .fbReset := ⟨rfl, rfl, rfl⟩
/-- The largest and the smallest codes. -/
theorem witness_HeaderFieldsDecode :
    decode (.header (BitVec.ofNat 32 (0x9C * 2 ^ 24 + 3 * 2 ^ 22 + 3 * 2 ^ 20 + 3 * 2 ^ 18 + 1 * 2 ^ 17 + 1 * 2 ^ 16 + 255 * 2 ^ 8 + 255)))
        = .ok (.sbcFrameHeader .f48k 16 .jointStereo .snr 8 255 0xFF)
      ∧ decode (.header 0x9C000000) = .ok (.sbcFrameHeader .f16k 4 .mono .loudness 4 0 0) := ⟨rfl, rfl⟩
theorem witness_StepRunsDecodedInstruction :
    (∃ s : State, s.phase = .busy (.cmd 0x10) ∧ s.fetch (.cmd 0x10) = some (.cmd 0x10) ∧ decode (.cmd 0x10) = .ok .validate
      ∧ s.inputs = [.sequencer])
    ∧ (∃ s : State, s.phase = .busy .header ∧ s.fetch .header = some (.header 0x9C020875)
      ∧ decode (.header 0x9C020875) = .ok (.sbcFrameHeader .f16k 4 .mono .snr 4 8 0x75) ∧ s.inputs = [])
    ∧ decodeTableWord 8 0x80 = some .bsBind :=
  ⟨⟨{ State.reset with inputs := [.sequencer], phase := .busy (.cmd 0x10) }, rfl, rfl, rfl, rfl⟩,
    ⟨{ withFrame 4 (fr1.take 4) with phase := .busy .header }, rfl, rfl, rfl, rfl⟩, rfl⟩
theorem witness_OtherWordsAreIllegal : ∃ s : State, s.phase = .busy (.cmd 0x120) ∧ s.inputs = [.sequencer]
    ∧ (0x120 : Word) ∉ [(0x01 : Word), 0x02, 0x03, 0x10, 0x11, 0x20, 0x30, 0x31] :=
  ⟨{ State.reset with inputs := [.sequencer], phase := .busy (.cmd 0x120) }, rfl, rfl, by decide⟩
/-- Both ends of each reserved range, another width, an unaligned offset. -/
theorem witness_BadAccessFaults : [((0x000 : Word), 2), (0x002, 4), (0x014, 4), (0x3FC, 4), (0xC00, 4), (0xFFC, 4), (0x1400, 4), (0x1FFC, 4)].map
    (fun p => (faultOf (step { State.reset with inputs := [.hostRead p.1 p.2] }), faultOf (step { State.reset with inputs := [.hostWrite p.1 p.2 0] })))
    = [((0x000 : Word), 2), (0x002, 4), (0x014, 4), (0x3FC, 4), (0xC00, 4), (0xFFC, 4), (0x1400, 4), (0x1FFC, 4)].map
      fun p => (some (.hostBadAccess p.1 p.2 .read), some (.hostBadAccess p.1 p.2 .write)) := by decide +kernel
theorem witness_BusyAccessFaults :
    faultOf (step { State.reset with phase := .busy (.cmd 1), inputs := [.hostWrite 4 4 0] }) = some (.hostBadAccess 4 4 .write)
    ∧ faultOf (step { State.reset with phase := .busy (.cmd 1), inputs := [.hostRead 8 4] }) = some (.hostBadAccess 8 4 .read)
    ∧ got (·.hostData) (step { State.reset with phase := .busy (.cmd 1), inputs := [.hostRead 4 4] }) = some 1 := by decide +kernel
/-- The first and the last word of each buffer. -/
theorem witness_BufferWindows :
    [(0x400 : Word), 0xBFC].map (fun off => (got (fun t => at_ t.frameBuf [0, 511])) (step { State.reset with inputs := [.hostWrite off 4 0xFFFFFF80] }))
      = [some [some 0x80, none], some [none, some 0x80]]
    ∧ [(0x1000 : Word), 0x11FC].map (fun off => (got (fun t => at_ t.pcmL [0, 127])) (step { State.reset with inputs := [.hostWrite off 4 0x18000] }))
      = [some [some 0x8000, none], some [none, some 0x8000]]
    ∧ [(0x1200 : Word), 0x13FC].map (fun off => (got (fun t => at_ t.pcmR [0, 127])) (step { State.reset with inputs := [.hostWrite off 4 0x18000] }))
      = [some [some 0x8000, none], some [none, some 0x8000]]
    ∧ got (·.hostData) (step { State.reset with inputs := [.hostRead 0xBFC 4], frameBuf := [(511, 0x80)] }) = some 0x80
    ∧ got (·.hostData) (step { State.reset with inputs := [.hostRead 0x11FC 4], pcmL := [(127, 0x8000)] }) = some 0xFFFF8000
    ∧ got (·.hostData) (step { State.reset with inputs := [.hostRead 0x13FC 4], pcmR := [(127, 0x8000)] }) = some 0xFFFF8000
    ∧ [(0x400 : Word), 0x1000, 0x1200].map (fun off => faultOf (step { State.reset with inputs := [.hostRead off 4] }))
      = [some .unwrittenFrameByte, some .unwrittenPcmSample, some .unwrittenPcmSample] := by decide +kernel
/-- The offset 0x2008 is that of `CFG` again (R34). -/
theorem witness_RegisterWindow :
    [(0x2008 : Word), 0x00C, 0x010, 0x004].map (fun off => (got (·.hostData)) (match step { State.reset with inputs := [.hostWrite off 4 0xFFFFFFFF, .hostRead off 4] } with
      | .next t => step t | r => r)) = [some 0x00FF7FFF, some 0x3FF, some 0xFFFF, some 0]
    ∧ got (·.hostData) (step { State.reset with hostData := 7, inputs := [.hostRead 0 4] }) = some 0
    ∧ got (·.statusWord) (step { State.reset with done := true, inputs := [.hostWrite 0 4 0x10] }) = some 1 := by decide +kernel
theorem witness_CoreReset : got (fun t => (t.cfg, t.phase, t.hostData))
    (step { State.reset with cfg := 1, hostData := 5, phase := .busy (.cmd 1), inputs := [.platformReset] }) = some (0, .idle, 5) := by decide +kernel
theorem witness_FilterResets : (withOp { Operands.reset with set := .enc }).op.set = .enc ∧ (withOp { Operands.reset with set := .dec }).op.set = .dec :=
  ⟨rfl, rfl⟩
theorem witness_DescriptorFormulas :
    refusalOf (exec .descIsValid (withOp { Operands.reset with desc := ⟨true, .f16k, .mono, .snr, 0, 8, 0⟩ })) = some .divisionByZero
    ∧ got (·.out.valid) (exec .descIsValid (withOp { Operands.reset with desc := ⟨true, .f16k, .mono, .snr, 0, 6, 0⟩ })) = some false := by decide +kernel
theorem witness_DescriptorBounds : isValid ⟨false, .f16k, .mono, .snr, 16, 8, 124⟩ = true ∧ frameSize ⟨false, .f16k, .mono, .snr, 16, 8, 124⟩ = 256 := by
  decide
/-- Widths 1 and 32, a refused width on either side, and a byte never written. -/
theorem witness_GetBitsReads :
    refusalOf (exec .bsGetBits (reader 4 0 [1, 2, 3, 4] 0)) = some .bitWidth ∧ refusalOf (exec .bsGetBits (reader 4 0 [1, 2, 3, 4] 33)) = some .bitWidth
    ∧ got (·.out.value) (exec .bsGetBits (reader 4 31 [1, 2, 3, 5] 1)) = some 1
    ∧ got (·.out.value) (exec .bsGetBits (reader 4 0 [1, 2, 3, 4] 32)) = some 0x01020304
    ∧ faultOf (exec .bsGetBits (reader 4 23 [1, 2, 3] 2)) = some .unwrittenFrameByte
    ∧ refusalOf (exec .bsGetFixedBits (reader 4 0 [1, 2, 3, 4] 0)) = some .bitWidth ∧ refusalOf (exec .bsGetFixedBits (reader 4 0 [1, 2, 3, 4] 33)) = some .bitWidth
    ∧ got (·.pass.bs.err) (exec .bsGetFixedBits (reader 4 0 [1, 2, 3, 4] 7)) = some false
    ∧ faultOf (exec .bsGetFixedBits (reader 4 23 [1, 2, 3] 2)) = some .unwrittenFrameByte := by decide +kernel
theorem witness_PutBitsAppends : (writer 4 11 [true, false, true] 0 32).pass.bs.acc.length = 3
    ∧ got (·.pass.bs) (exec .bsPutBits (writer 4 11 [true, false, true] 0 32)) = some ⟨.write, 4, 43, [false, false, false], true⟩
    ∧ refusalOf (exec .bsPutBits (writer 4 0 [] 0 0)) = some .bitWidth ∧ refusalOf (exec .bsPutBits (writer 4 0 [] 0 33)) = some .bitWidth := by
  decide +kernel
theorem witness_FlushCompletesByte : got (·.pass.bs) (exec .bsFlush (writer 2 16 [] 0 1)) = some ⟨.write, 2, 16, [], false⟩
    ∧ got (·.pass.bs) (exec .bsFlush (writer 2 15 (List.replicate 7 true) 0 1)) = some ⟨.write, 2, 16, [], false⟩ := by
  decide +kernel
theorem witness_ErrorFlagIsSticky : got (·.pass.bs.err)
    (exec .bsFlush { writer 2 16 [] 0 1 with pass := { Pass.reset with bs := ⟨.write, 2, 16, [], true⟩ } }) = some true := by decide +kernel
theorem valid_mono : validEff mono := ⟨by decide, by decide⟩
theorem valid_dual : validEff dual := ⟨by decide, by decide⟩
theorem valid_joint : validEff joint := ⟨by decide, by decide⟩
theorem valid_msbc : validEff msbcDesc := ⟨by decide, fun _ => rfl⟩
theorem witness_HdrWritePlacesHeader : ∃ s : State, validEff s.pass.desc ∧ s.pass.bs = ⟨.write, 4, 0, [], false⟩ :=
  ⟨withPass { Pass.reset with desc := mono, bs := ⟨.write, 4, 0, [], false⟩ }, valid_mono, rfl⟩
/-- HDR-1, HDR-8, HDR-7. -/
theorem witness_HdrReadIsTheHeaderInstruction :
    (reader 4 0 (fr1.take 4) 1).headerWord = some 0x9C020875 ∧ decode (.header 0x9C020875) = .ok (.sbcFrameHeader .f16k 4 .mono .snr 4 8 0x75)
    ∧ (reader 4 0 [0x00, 0x02, 0x08, 0x75] 1).headerWord = some 0x00020875 ∧ decode (.header 0x00020875) = .error .badSyncword
    ∧ (reader 4 0 [0xAD, 0x00, 0x01, 0xC5] 1).headerWord = some 0xAD0001C5 ∧ decode (.header 0xAD0001C5) = .error .reservedNotZero :=
  ⟨rfl, rfl, rfl, rfl, rfl, rfl⟩
/-- The largest valid bitpool and the next one (DS-9, DS-10). -/
theorem witness_SbcHeaderIsAccepted : ∀ bp ∈ [249, 250], (Instr.sbcFrameHeader .f48k 16 .jointStereo .loudness 8 bp 0).wellFormed = true
    ∧ isValid ⟨false, .f48k, .jointStereo, .loudness, 16, 8, bp⟩ = decide (bp = 249) := by decide
theorem witness_MsbcHeaderIsAccepted : (1 : BitVec 16) ≠ 0 ∧ (0x8000 : BitVec 16) ≠ 0 ∧ State.reset.pass.bs.err = false
    ∧ (withPass { Pass.reset with bs := ⟨.read, 4, 0, [], true⟩ }).pass.bs.err = true := by decide
theorem witness_CrcCoverage : coverage (memOf fr1) mono = some ((List.range 32).map fun k => (0x02088630 : Word).getLsbD (31 - k))
    ∧ ∀ a < 6, (Mem.read (memOf fr1) a).isSome = true := by decide +kernel
theorem witness_CrcInsertThenCheck : ∃ bits, coverage (withFrame 10 fr1).frameBuf mono = some bits ∧ crcOf bits = 0x75 ∧ crcOf bits ≠ 0x74 :=
  ⟨(List.range 32).map fun k => (0x02088630 : Word).getLsbD (31 - k), by decide +kernel⟩
theorem written_fr1 : Mem.written (memOf fr1) 0 10 := by unfold Mem.written; decide +kernel
theorem witness_SideWriteLayout : validEff joint ∧ 32 + (4 + 4 * 4 * 2) ≤ 8 * 9 ∧ validEff mono ∧ 32 + (0 + 4 * 4 * 1) ≤ 8 * 6 :=
  ⟨valid_joint, by decide, valid_mono, by decide⟩
theorem witness_SideReadFields : validEff mono ∧ 32 + (0 + 4 * 4 * 1) ≤ 8 * 6 ∧ Mem.written (memOf fr1) 4 ((32 + 16 + 7) / 8) :=
  ⟨valid_mono, by decide, fun a _ h => written_fr1 a (Nat.zero_le _) (by omega)⟩
/-- Three pending bits before FR-1's samples: the last sample bit is 82, the padding ends at bit 87. -/
theorem witness_PayloadWriteCompletes : ({ fr1Pass with bs := ⟨.write, 11, 51, [true, true, false], false⟩ } : Pass).bs.acc.length = 3
    ∧ fr1Pass.nbitsAt 0 1 = 3 ∧ 8 * 6 + 3 + fr1Pass.sampleStart 3 0 1 + 2 = 82 ∧ 82 < 8 * 11 ∧ 2 < 8 * min (6 + 5) 11
    ∧ 8 * 6 + 3 + 4 * ((List.range (channelCount mono)).map fr1Pass.channelBits).sum = 83 ∧ 87 < 8 * min (6 + 5) 11
    ∧ got (fun t => (List.range 8).map fun k => frameBit t.frameBuf (80 + k))
        (exec .payloadWrite (withPass { fr1Pass with bs := ⟨.write, 11, 51, [true, true, false], false⟩ }))
      = some ([false, false, true, false, false, false, false, false].map some) := by decide +kernel
/-- FR-1's samples end at the last bit of the frame. -/
theorem witness_PayloadReadCompletes : 48 + 4 * ((List.range (channelCount mono)).map fr1Pass.channelBits).sum = 8 * 10
    ∧ Mem.written (memOf fr1) (48 / 8) ((48 + 32 + 7) / 8) ∧ fr1Pass.nbitsAt 0 2 = 0 ∧ fr1Pass.nbitsAt 0 0 = (4 : Fin 16).val + 1 :=
  ⟨by decide, fun a _ h => written_fr1 a (Nat.zero_le _) (by omega), by decide, by decide⟩
theorem witness_PayloadRoundTrip : ∃ t, exec .payloadWrite (withPass { fr1Pass with bs := ⟨.write, 10, 48, [], false⟩ }) = .next t := ⟨_, rfl⟩
/-- No bits, all of them (BA-6, BA-7), and one more; needs by each rule of step 1 (BA-3's left channel, an offset that is not
above the scale factor, a zero scale factor). -/
theorem witness_BitAllocUsesTheBitpool :
    (∀ bp ∈ [0, 256], bp ≤ 16 * (AllocIn.channels ⟨List.replicate 8 15, some (List.replicate 8 15), .eight, .f16k, .snr, bp⟩).length * Bands.eight.n)
    ∧ got (·.pass.nbits) (exec .bitAlloc (withOp { Operands.reset with alloc := ⟨List.replicate 8 0, none, .eight, .f16k, .loudness, 0⟩ }))
      = some [List.replicate 8 0]
    ∧ faultOf (exec .bitAlloc (withOp { Operands.reset with alloc := ⟨List.replicate 8 0, none, .eight, .f16k, .loudness, 129⟩ }))
      = some .allocatorDiverges
    ∧ loudnessOffset .eight .f48k 0 < (10 : Int) ∧ (1 : Int) ≤ loudnessOffset .four .f32k 3 := by decide +kernel
theorem witness_BitAllocFrameCalls : validEff mono ∧ mono.mode = .mono ∧ validEff dual ∧ dual.mode = .dualChannel
    ∧ validEff joint ∧ joint.mode = .jointStereo := ⟨valid_mono, rfl, valid_dual, rfl, valid_joint, rfl⟩
theorem witness_JointDecision : validEff mono ∧ mono.mode ≠ .jointStereo ∧ validEff joint ∧ joint.mode = .jointStereo :=
  ⟨valid_mono, by decide, valid_joint, rfl⟩
theorem witness_JointUncoupling : mono.mode ≠ .jointStereo ∧ joint.mode = .jointStereo ∧ (0b1000 : BitVec 8).getLsbD 3 = true
    ∧ (0b1000 : BitVec 8).getLsbD 2 = false := by decide
theorem witness_GlobalScale : 0 < joint.subbands ∧ joint.mode = .jointStereo ∧ 0 < dual.subbands ∧ dual.mode ≠ .jointStereo := by decide
/-- The bound's two ends (Q-7, Q-9). -/
theorem witness_QuantFormula : (32767 : I16).toInt.natAbs < 2 ^ ((14 : BitVec 4).toNat + 1) ∧ (-32768 : I16).toInt.natAbs < 2 ^ ((15 : BitVec 4).toNat + 1) := by
  decide
/-- `sh = 13` with the largest code (DQ-6), and `sh = 0`. -/
theorem witness_DequantFormula : (28 : Int) - (((15 : BitVec 4).toNat : Int) + 1 + -1) = 13 ∧ (65535 : Word).toNat < 2 ^ ((15 : Fin 16).val + 1)
    ∧ (28 : Int) - (((15 : BitVec 4).toNat : Int) + 1 + 12) = 0 := by decide
theorem witness_OperationStops :
    (∀ i ∈ [Instr.analyzeFrame, .synthFrame, .bitAllocFrame], ∀ n ∈ [3, 5, 7, 9],
      refusalOf (exec i (withPass { Pass.reset with desc := { mono with subbands := n } })) = some .invalidDescriptor)
    ∧ (∀ i ∈ [Instr.sideWrite, .sideRead], ∀ n ∈ [0, 33],
      refusalOf (exec i (withPass { Pass.reset with desc := { joint with subbands := n } })) = some .bitWidth)
    ∧ (∀ i ∈ [Instr.crcInsert, .crcCheck], faultOf (exec i (withPass { Pass.reset with desc := mono })) = some .unwrittenFrameByte)
    ∧ (∀ bytes ∈ [([] : List Byte), [0x9C, 0x02, 0x08], [0xAD, 0x00, 0x00]], faultOf (exec .hdrRead (reader 4 0 bytes 1)) = some .unwrittenFrameByte)
    ∧ faultOf (exec .sideRead { withFrame 10 (fr1.take 5) with pass := { Pass.reset with desc := mono, bs := ⟨.read, 10, 32, [], false⟩ } })
      = some .unwrittenFrameByte
    ∧ 31 < mono.blocks * ((List.range (channelCount mono)).map fr1Pass.channelBits).sum
    ∧ 48 + 31 < 8 * 10 ∧ Mem.read (memOf (fr1.take 9)) ((48 + 31) / 8) = none
    ∧ faultOf (exec .analyzeFrame (withPass { Pass.reset with desc := mono })) = some .unwrittenPcmSample
    ∧ validEff mono ∧ validEff dual ∧ dual.mode ≠ .mono :=
  ⟨by decide +kernel, by decide +kernel, by decide +kernel, by decide +kernel, by decide +kernel, by decide +kernel, by decide +kernel,
    by decide +kernel, by decide +kernel, valid_mono, valid_dual, by decide⟩
theorem witness_DctCompletes : ∀ k < (Bands.eight).n, Operands.reset.dctIn.getD k 0 = 0 := by decide
/-- Row `M`, the other half; a state that differs in a row above `M` only; two histories that are alike at different Indexes. -/
theorem witness_AnalyzeBlockProperties : State.reset.enc State.reset.op.chan = .zeroAt 0
    ∧ (∀ k < State.reset.op.bands.n, State.reset.op.pcm.getD k 0 = 0) ∧ State.reset.op.bands.n ≤ (4 : Fin 8).val
    ∧ (1 : Fin 2).val ≠ (0 : Fin 10).val % 2
    ∧ (∃ c c' : EncChan, c ≠ c' ∧ c.ay = c'.ay ∧ c.aidx = c'.aidx ∧ ∀ (h : Fin 2) (r : Fin 8), r.val < Bands.four.n → c.ax[h][r] = c'.ax[h][r])
    ∧ (∀ j age, Config.analysisPast .four (.zeroAt 0) j age = Config.analysisPast .four (.zeroAt 1) j age)
    ∧ ∃ t, exec .analyzeBlock State.reset = .next t := by
  refine ⟨rfl, by decide, by decide, by decide, ⟨.zeroAt 0, { EncChan.zeroAt 0 with ax := buildHist fun _ r _ => if r = 4 then 1 else 0 }, ?_, rfl, rfl, ?_⟩,
    fun j age => (histAt_ax_zero ..).trans (histAt_ax_zero ..).symm, _, rfl⟩
  · exact fun h => absurd (congrArg (fun c : EncChan => histAt c.ax 0 4 0) h) (by rw [histAt_ax_zero]; simp)
  · intro h r hr
    exact hist_row_ext fun t => by rw [histAt_ax_zero, histAt_buildHist, if_neg (by rintro rfl; exact absurd hr (by decide))]
/-- Row `M`, a tap beside `dctIdx`; two histories that are alike at different Indexes. -/
theorem witness_SynthBlockProperties : State.reset.dec State.reset.op.chan = .zeroAt 0
    ∧ (∀ k < State.reset.op.bands.n, State.reset.op.subbands.getD k 0 = 0) ∧ State.reset.op.bands.n ≤ (4 : Fin 8).val
    ∧ (1 : Fin 10).val ≠ (10 - (0 : Fin 10).val) % 10
    ∧ (∀ e age, Config.synthesisPast .four (.zeroAt 0) e age = Config.synthesisPast .four (.zeroAt 1) e age)
    ∧ ∃ t, exec .synthBlock State.reset = .next t :=
  ⟨rfl, by decide, by decide, by decide, fun _ _ => (histAt_sv_zero ..).trans (histAt_sv_zero ..).symm, _, rfl⟩
/-- A buffer of zero samples is written. -/
theorem zeros_written (n : Nat) : Mem.written (memOf (List.replicate n (0 : I16))) 0 n := by
  intro a _ ha
  rw [memOf, Mem.read_writeList, if_pos ⟨by omega, by simp; omega⟩]
  simp [ha]
theorem witness_AnalyzeFrameCompletes : ∃ s : State, validEff s.pass.desc ∧ Bands.four.n = s.pass.desc.subbands ∧ s.pass.desc.mode ≠ .mono
    ∧ Mem.written s.pcmL 0 (s.pass.desc.blocks * s.pass.desc.subbands) ∧ Mem.written s.pcmR 0 (s.pass.desc.blocks * s.pass.desc.subbands) :=
  ⟨{ withPass { Pass.reset with desc := dual } with pcmL := memOf (List.replicate 16 0), pcmR := memOf (List.replicate 16 0) },
    valid_dual, rfl, by decide, zeros_written 16, zeros_written 16⟩
theorem witness_AnalyzeFrameCompletes_mono : ∃ s : State, validEff s.pass.desc ∧ Bands.eight.n = s.pass.desc.subbands ∧ s.pass.desc.mode = .mono
    ∧ Mem.written s.pcmL 0 (s.pass.desc.blocks * s.pass.desc.subbands) :=
  ⟨{ withPass { Pass.reset with desc := msbcDesc } with pcmL := memOf (List.replicate 120 0) }, valid_msbc, rfl, rfl, zeros_written 120⟩
theorem witness_SynthFrameCompletes : validEff msbcDesc ∧ Bands.eight.n = msbcDesc.subbands ∧ msbcDesc.mode = .mono
    ∧ validEff dual ∧ Bands.four.n = dual.subbands ∧ dual.mode ≠ .mono := ⟨valid_msbc, rfl, rfl, valid_dual, rfl, by decide⟩
theorem witness_DescriptorCommands : isValid (eff (descOfCfg 0x00354314)) = true ∧ isValid (eff (descOfCfg 0x00F94314)) = false
    ∧ (0x00F94315 : Word).getLsbD 0 = true := by decide
/-- CM-12 and CM-11 at their bounds. -/
theorem witness_EncodeChecksInOrder : isValid (eff (descOfCfg 0x00F94314)) = false ∧ isValid (eff (descOfCfg 1)) = true
    ∧ min (0x77 : BitVec 8).toNat 128 < (eff (descOfCfg 1)).blocks * (eff (descOfCfg 1)).subbands
    ∧ isValid (eff (descOfCfg 0x00354314)) = true ∧ (eff (descOfCfg 0x00354314)).blocks * (eff (descOfCfg 0x00354314)).subbands ≤ min (0x60 : BitVec 8).toNat 128
    ∧ (eff (descOfCfg 0x00354314)).mode ≠ .mono
    ∧ min (0 : BitVec 8).toNat 128 < (eff (descOfCfg 0x00354314)).blocks * (eff (descOfCfg 0x00354314)).subbands := by decide
/-- P1's state before its `ENCODE`. -/
def p1 : State := { withCfg 1 120 with pcmL := memOf (List.replicate 120 0) }
theorem p1_desc : eff (descOfCfg p1.cfg) = msbcDesc := by decide
theorem witness_EncodeCompletes : isValid (eff (descOfCfg p1.cfg)) = true
    ∧ (eff (descOfCfg p1.cfg)).blocks * (eff (descOfCfg p1.cfg)).subbands ≤ p1.pcmLeft.toNat
    ∧ Mem.written p1.pcmL 0 ((eff (descOfCfg p1.cfg)).blocks * (eff (descOfCfg p1.cfg)).subbands)
    ∧ (eff (descOfCfg p1.cfg)).mode = .mono := by
  rw [p1_desc]
  exact ⟨by decide, by decide, zeros_written 120, rfl⟩
/-- E2's Stereo frame of 96 samples a channel. -/
theorem witness_EncodeCompletes_stereo : ∃ s : State, isValid (eff (descOfCfg s.cfg)) = true ∧ (eff (descOfCfg s.cfg)).mode ≠ .mono
    ∧ (eff (descOfCfg s.cfg)).blocks * (eff (descOfCfg s.cfg)).subbands = 96 ∧ s.pcmLeft.toNat = 96 ∧ s.pcmRight.toNat = 96
    ∧ Mem.written s.pcmL 0 96 ∧ Mem.written s.pcmR 0 96 :=
  ⟨{ withCfg 0x00354314 96 with pcmRight := 96, pcmL := memOf (List.replicate 96 0), pcmR := memOf (List.replicate 96 0) },
    by decide, by decide, by decide, by decide, by decide, zeros_written 96, zeros_written 96⟩
/-- HDR-8, HDR-7, HDR-4. -/
theorem bad_headers : badHeader (withFrame 4 [0x00]) ∧ badHeader (withFrame 4 [0xAD, 0x00, 0x01, 0xC5]) ∧ badHeader (withFrame 4 [0x9C, 0xFF, 0xFF, 0x00]) :=
  ⟨.inl ⟨0, by decide +kernel, by decide, by decide⟩, .inr ⟨0xAD0001C5, by decide +kernel, .inl (by decide +kernel)⟩,
    .inr ⟨0x9CFFFF00, by decide +kernel, .inr ⟨.f48k, 16, .jointStereo, .snr, 8, 255, 0, by decide +kernel, by decide⟩⟩⟩
/-- P3 step 7: `9C 02 08 75` is the word of DS-5. -/
theorem witness_ProbeReadsHeader : validEff mono ∧ encode (headerInstr mono 0x75) = .header 0x9C020875
    ∧ (withFrame 4 (fr1.take 4)).headerWord = some 0x9C020875 ∧ min (3 : BitVec 10).toNat 512 < 4
    ∧ 4 ≤ (withFrame 4 [0x00]).frameLen.toNat ∧ badHeader (withFrame 4 [0x00]) := ⟨valid_mono, rfl, rfl, by decide, by decide, bad_headers.1⟩
/-- FR-1 is a complete frame; one byte less (FR-8) and another CRC byte (FR-7) are the failures. -/
theorem witness_DecodeCompletes :
    (∃ (s : State) (bits : List Bool) (w : Word), validEff mono ∧ frameSize mono ≤ min s.frameLen.toNat 512
      ∧ Mem.written s.frameBuf 0 (frameSize mono) ∧ coverage s.frameBuf mono = some bits
      ∧ encode (headerInstr mono (crcOf bits)) = .header w ∧ s.headerWord = some w)
    ∧ (∃ (s : State) (bits : List Bool) (w : Word), frameSize mono ≤ min s.frameLen.toNat 512 ∧ coverage s.frameBuf mono = some bits
      ∧ 0x74 ≠ crcOf bits ∧ encode (headerInstr mono 0x74) = .header w ∧ s.headerWord = some w)
    ∧ (∃ (s : State) (w : Word), 4 ≤ min s.frameLen.toNat 512 ∧ min s.frameLen.toNat 512 < frameSize mono
      ∧ encode (headerInstr mono 0x75) = .header w ∧ s.headerWord = some w)
    ∧ 4 ≤ min (withFrame 4 [0xAD, 0x00, 0x01, 0xC5]).frameLen.toNat 512 ∧ badHeader (withFrame 4 [0xAD, 0x00, 0x01, 0xC5]) :=
  ⟨⟨withFrame 10 fr1, (List.range 32).map fun k => (0x02088630 : Word).getLsbD (31 - k), 0x9C020875, valid_mono, by decide +kernel,
      written_fr1, by decide +kernel, by decide +kernel, rfl⟩,
    ⟨withFrame 10 (fr1.set 3 0x74), (List.range 32).map fun k => (0x02088630 : Word).getLsbD (31 - k), 0x9C020874, by decide +kernel,
      by decide +kernel, by decide +kernel, by decide +kernel, rfl⟩,
    ⟨withFrame 9 fr1, 0x9C020875, by decide +kernel, by decide +kernel, rfl, rfl⟩, by decide +kernel, bad_headers.2.1⟩
/-- The `ENCODE` of P1 succeeds. -/
theorem witness_EncodedFrameDecodes : ∃ t, exec .encode p1 = .next t ∧ t.result = .ok := by
  have hd : (p1.start 0x20).cfgDesc = msbcDesc := p1_desc
  obtain ⟨m, e0, e1, p, bits, h, -⟩ := encodeFrame_ok (s := p1.start 0x20) (d := msbcDesc) valid_msbc (zeros_written 120) (fun h => absurd rfl h)
  have hb : encodeBody (p1.start 0x20) = encodeFrame msbcDesc (p1.start 0x20) := by
    unfold encodeBody
    rw [hd]
    rfl
  exact ⟨_, runCommand_of_ok (hb.trans h), rfl⟩
/-- E8. -/
theorem witness_FailuresArePrecise : Instr.encode ∈ hostCommands ∧ got (·.result) (exec .encode (withCfg 0x00F94314 0)) = some .invalidConfiguration := by
  decide +kernel
theorem witness_CommandsIgnoreWorkingState : got (·.result) (exec .validate (withCfg 1 0)) = some .ok
    ∧ faultOf (exec .probe { State.reset with frameLen := 4 }) = some .unwrittenFrameByte := by decide +kernel
theorem witness_FilterStateWriters : (∃ t, exec .probe (withFrame 3 []) = .next t)
    ∧ Instr.probe ∉ [Instr.encode, .resetEnc, .resetAll, .analyzeBlock, .analyzeFrame, .fbReset]
    ∧ Instr.probe ∉ [Instr.decode, .resetDec, .resetAll, .synthBlock, .synthFrame, .fbReset] := ⟨⟨_, rfl⟩, by decide, by decide⟩
theorem witness_UnwrittenReadsFault : isValid (eff (descOfCfg 1)) = true ∧ (eff (descOfCfg 1)).blocks * (eff (descOfCfg 1)).subbands ≤ (120 : BitVec 8).toNat
    ∧ Mem.read (withCfg 1 120).pcmL 119 = none ∧ 119 < (eff (descOfCfg 1)).blocks * (eff (descOfCfg 1)).subbands ∧ (eff (descOfCfg 1)).mode = .mono
    ∧ Mem.read State.reset.frameBuf 0 = none ∧ Mem.read (withFrame 4 [0x9C, 0x02, 0x08]).frameBuf 0 = some 0x9C
    ∧ Mem.read (withFrame 4 [0x9C, 0x02, 0x08]).frameBuf 3 = none := by decide +kernel
/-- SC-1. -/
def sc1 : List Byte := [0xAD, 0x00, 0x00, 0xC5, 0x00, 0x00, 0x00, 0x00,
  0x77, 0x6D, 0xB6, 0xDD, 0xDB, 0x6D, 0xB7, 0x76, 0xDB, 0x6D, 0xDD, 0xB6, 0xDB, 0x77, 0x6D, 0xB6,
  0xDD, 0xDB, 0x6D, 0xB7, 0x76, 0xDB, 0x6D, 0xDD, 0xB6, 0xDB, 0x77, 0x6D, 0xB6, 0xDD, 0xDB, 0x6D,
  0xB7, 0x76, 0xDB, 0x6D, 0xDD, 0xB6, 0xDB, 0x77, 0x6D, 0xB6, 0xDD, 0xDB, 0x6D, 0xB7, 0x76, 0xDB, 0x6C]
/-- CM-19: byte 40 was never written. -/
theorem witness_UnwrittenReadsFault_payload : ∃ (s : State) (bits : List Bool) (w : Word), validEff msbcDesc
    ∧ encode (headerInstr msbcDesc 0xC5) = .header w ∧ s.headerWord = some w ∧ frameSize msbcDesc ≤ min s.frameLen.toNat 512
    ∧ coverage s.frameBuf msbcDesc = some bits ∧ 0xC5 = crcOf bits ∧ 40 < frameSize msbcDesc ∧ Mem.read s.frameBuf 40 = none :=
  ⟨{ withFrame 57 [] with frameBuf := Mem.writeList (memOf (sc1.take 40)) 41 (sc1.drop 41) }, List.replicate 48 false, 0xAD0000C5,
    valid_msbc, by decide +kernel, by decide +kernel, by decide +kernel, by decide +kernel, by decide +kernel, by decide, by decide +kernel⟩
theorem witness_MsbcSilence : p1.cfg.getLsbD 0 = true ∧ 120 ≤ p1.pcmLeft.toNat ∧ p1.enc0 = .zeroAt 0 ∧ (∀ a < 120, Mem.read p1.pcmL a = some 0)
    ∧ 57 ≤ (withFrame 57 sc1).frameLen.toNat ∧ (withFrame 57 sc1).dec0 = .zeroAt 0
    ∧ (List.range 57).map (Mem.read (withFrame 57 sc1).frameBuf) = sc1.map some := by
  refine ⟨by decide, by decide, rfl, ?_, by decide, rfl, by decide +kernel⟩
  intro a ha
  show Mem.read (memOf (List.replicate 120 (0 : I16))) a = some 0
  rw [memOf, Mem.read_writeList, if_pos ⟨by omega, by rw [List.length_replicate]; omega⟩, List.getElem?_replicate, if_pos (by omega)]
/-- A host write of `CFG` keeps the invariant of the state it starts from. -/
theorem witness_StepKeepsInvariant : ∃ s t : State, CoreInv s ∧ step s = .next t :=
  ⟨{ State.reset with inputs := [.hostWrite 8 4 1] }, _,
    ⟨by decide, by decide, by decide, by decide, by decide, by decide, by decide, by decide, by decide, by decide⟩, rfl⟩

end Sys2Proof.Tests
end

section
/-! PROOF. Failures are precise (R11, R125, R135, R146): which failures the body of each host command can raise, and that
the state it raises in differs from the one it started from in the working state only. An `ENCODE` and a `DECODE` stay
inside the declared size, so that `BS.ERR` is clear where they look at it and `BitstreamError` is never reached. -/

namespace Sys2Proof.Machine

/-! ### What a micro-operation can raise -/

/-- Started from `s`, the outcome is no failure but one of `ks`, and a failure has changed nothing of `s` but the working
state. -/
def Micro.RaisesOnly (ks : List ResultCode) (s : State) : Micro → Prop
  | .ok _ => True
  | .raised k t => k ∈ ks ∧ ∃ p : Pass, t = { s with pass := p }
  | .fault _ => True
  | .refused _ => True

theorem Micro.raisesOnly_raised {ks : List ResultCode} {k : ResultCode} (hk : k ∈ ks) (s : State) (p : Pass) :
    (Micro.raised k { s with pass := p }).RaisesOnly ks s := ⟨hk, p, rfl⟩

/-- A failure of a sequence is one of its first part, or one of the rest from where the first part ended. -/
theorem Micro.RaisesOnly.andThen {ks : List ResultCode} {s : State} {m : Micro} {f : State → Micro}
    (hm : m.RaisesOnly ks s) (hf : ∀ u, m = .ok u → (f u).RaisesOnly ks s) : (m.andThen f).RaisesOnly ks s := by
  cases m with
  | ok u => exact hf u rfl
  | raised k t => exact hm
  | fault e => trivial
  | refused r => trivial

theorem Micro.RaisesOnly.mono {ks js : List ResultCode} {s : State} {m : Micro} (h : m.RaisesOnly ks s) (hsub : ks ⊆ js) :
    m.RaisesOnly js s := by
  cases m with
  | raised k t => exact ⟨hsub h.1, h.2⟩
  | ok u => trivial
  | fault e => trivial
  | refused r => trivial

/-- Where nothing is raised, the state it is measured against does not matter. -/
theorem Micro.RaisesOnly.of_nil {ks : List ResultCode} {s u : State} {m : Micro} (h : m.RaisesOnly [] u) : m.RaisesOnly ks s := by
  cases m with
  | raised k t => exact absurd h.1 List.not_mem_nil
  | ok u => trivial
  | fault e => trivial
  | refused r => trivial

/-- The working state of the state it is measured against does not matter. -/
theorem Micro.RaisesOnly.of_pass {ks : List ResultCode} {s : State} {q : Pass} {m : Micro}
    (h : m.RaisesOnly ks { s with pass := q }) : m.RaisesOnly ks s := h

/-- A command whose body raises no `BitstreamError` leaves everything but `STATUS` and the working state as it was, unless it
completes as `OK` (R11, R125). -/
theorem runCommand_precise {w : Word} {body : State → Micro} {ks : List ResultCode} {s t : State}
    (hbody : (body (s.start w)).RaisesOnly ks (s.start w)) (hks : .bitstreamError ∉ ks)
    (ht : runCommand w body s = .next t) (hne : t.result ≠ .ok) :
    t.result ≠ .bitstreamError ∧ ∃ p : Pass, t = { s with phase := .idle, done := true, result := t.result, pass := p } := by
  rcases runCommand_next.1 ht with ⟨u, -, rfl⟩ | ⟨k, u, hu, rfl⟩
  · exact absurd rfl hne
  · rw [hu] at hbody
    obtain ⟨hk, p, rfl⟩ := hbody
    exact ⟨fun he => hks (he ▸ hk), p, rfl⟩

/-! ### `VALIDATE` and `FRAME_SIZE` -/

theorem validateBody_raises (s : State) : (validateBody s).RaisesOnly [.invalidConfiguration] s := by
  unfold validateBody
  split
  · trivial
  · exact Micro.raisesOnly_raised (by decide) s s.pass

theorem frameSizeBody_raises (s : State) : (frameSizeBody s).RaisesOnly [.invalidConfiguration] s := by
  unfold frameSizeBody
  split
  · trivial
  · exact Micro.raisesOnly_raised (by decide) s s.pass

/-! ### `ENCODE` -/

/-- The blocks of a channel that was analysed had all their samples written (R140). -/
theorem analyzeChannel_written {m : Bands} {pcm : Mem 16} {B : Nat} {e : EncChan} {r : EncChan × List (List I16)}
    (h : analyzeChannel m pcm (List.range B) e = some r) : Mem.written pcm 0 (B * m.n) := by
  intro a _ ha
  by_contra hn
  have hpos : 0 < m.n := by cases m <;> decide
  have hread : Mem.read pcm (a / m.n * m.n + a % m.n) = none := by rw [Nat.div_add_mod']; simpa using hn
  have hblock : readBlock m pcm (a / m.n) = none := readBlock_none (Nat.mod_lt a hpos) hread
  rw [analyzeChannel_none (List.mem_range.2 ((Nat.div_lt_iff_lt_mul hpos).2 ha)) hblock] at h
  cases h

/-- An `ANALYZE_FRAME` that runs had its samples written: those of the left channel, and of the right one when it is used. -/
theorem analyzeFrame_written {s t : State} (h : analyzeFrame s = .ok t) :
    Mem.written s.pcmL 0 (s.pass.desc.blocks * s.pass.desc.subbands)
      ∧ (s.pass.desc.mode ≠ .mono → Mem.written s.pcmR 0 (s.pass.desc.blocks * s.pass.desc.subbands)) := by
  unfold analyzeFrame at h
  split at h
  · cases h
  rename_i m hm
  rw [← bandsOf_some.1 hm]
  split at h
  · cases h
  rename_i hleft
  refine ⟨analyzeChannel_written hleft, fun hmode => ?_⟩
  rw [if_pos (by simp [twoChannels_eq, hmode])] at h
  split at h
  · cases h
  · rename_i hright
    exact analyzeChannel_written hright

/-- R131 after its checks raises nothing: either a sample was never written and the analysis stops, or the frame fills the
declared size exactly and `BS.ERR` is clear at the end. -/
theorem encodeFrame_raises {d : Desc} (hv : validEff d) (s : State) : (encodeFrame d s).RaisesOnly [] s := by
  rcases analyzeFrame_effect { s with pass := { s.pass with desc := d } } with h | h | ⟨e0, e1, sb, h⟩
  · rw [encodeFrame, h]
    trivial
  · rw [encodeFrame, h]
    trivial
  · obtain ⟨hl, hr⟩ := analyzeFrame_written h
    obtain ⟨m, e0, e1, p, bits, hok, -⟩ := encodeFrame_ok (s := s) hv hl hr
    rw [hok]
    trivial

/-- R131, R145: `ENCODE` fails in its checks only. -/
theorem encodeBody_raises (s : State) : (encodeBody s).RaisesOnly [.invalidConfiguration, .bufferTooShort] s := by
  unfold encodeBody
  dsimp only
  split
  · exact Micro.raisesOnly_raised (by decide) s s.pass
  rename_i hvalid
  split
  · exact Micro.raisesOnly_raised (by decide) s s.pass
  split
  · exact Micro.raisesOnly_raised (by decide) s s.pass
  · have hv : validEff s.cfgDesc := validEff_eff (by simpa [State.cfgDesc] using hvalid)
    exact (encodeFrame_raises hv s).of_nil

/-! ### `PROBE` and `DECODE` -/

/-- The first steps of `PROBE` and `DECODE` in full: too few bytes, an unwritten one, a bad header, or a valid effective
descriptor taken over with the reader 32 bits on and its flag clear (R77, R132, R133). -/
theorem receiveFrame_effect (s : State) :
    receiveFrame s = .raised .bufferTooShort s ∨ receiveFrame s = .fault .unwrittenFrameByte
      ∨ (∃ p, receiveFrame s = .raised .malformedHeader { s with pass := p })
      ∨ ∃ p, validEff p.desc ∧ p.bs = ⟨.read, s.frameBytes, 32, [], false⟩ ∧ receiveFrame s = .ok { s with pass := p } := by
  unfold receiveFrame
  split
  · exact .inl rfl
  rcases hdrRead_effect (s.bind .read s.frameBytes) with h | ⟨bs, -, h | ⟨d, crc, hv, hbs, h⟩⟩ <;> rw [h]
  · exact .inr (.inl rfl)
  · exact .inr (.inr (.inl ⟨_, rfl⟩))
  · exact .inr (.inr (.inr ⟨_, hv, hbs, rfl⟩))

theorem receiveFrame_raises (s : State) : (receiveFrame s).RaisesOnly [.bufferTooShort, .malformedHeader] s := by
  rcases receiveFrame_effect s with h | h | ⟨p, h⟩ | ⟨p, -, -, h⟩ <;> rw [h]
  · exact Micro.raisesOnly_raised (by decide) s s.pass
  · trivial
  · exact Micro.raisesOnly_raised (by decide) s p
  · trivial

theorem receiveFrame_taken {s t : State} (h : receiveFrame s = .ok t) :
    ∃ p : Pass, validEff p.desc ∧ p.bs = ⟨.read, s.frameBytes, 32, [], false⟩ ∧ t = { s with pass := p } := by
  rcases receiveFrame_effect s with h' | h' | ⟨p, h'⟩ | ⟨p, hv, hb, h'⟩ <;> rw [h'] at h <;> cases h
  exact ⟨p, hv, hb, rfl⟩

/-- R132: `PROBE` fails in its first steps only. -/
theorem probeBody_raises (s : State) : (probeBody s).RaisesOnly [.bufferTooShort, .malformedHeader] s :=
  (receiveFrame_raises s).andThen fun _ _ => trivial

/-- What R133 does between the CRC check and synthesis. -/
def readFrameSamples (s : State) : Micro :=
  (sbScale s).andThen fun s => (bitAllocFrame s).andThen fun s => (payloadRead s).andThen fun s => (jointUncouple s).andThen fun s =>
    if s.pass.bs.err then .raised .bitstreamError s else .ok s

theorem decodeSamples_eq (s : State) : decodeSamples s = if s.frameBytes < frameSize s.pass.desc then .raised .bufferTooShort s
    else (sideRead s).andThen fun s => (crcCheck s).andThen readFrameSamples := rfl

/-- With the side information read and the declared frame inside the reader's size, the samples take the bits the frame size
counts for them (R74), so `BS.ERR` stays clear. -/
theorem readFrameSamples_raises {s : State} {size : Nat} (hv : validEff s.pass.desc)
    (hb : s.pass.bs = ⟨.read, size, 32 + coveredSideBits s.pass.desc, [], false⟩) (hsize : frameSize s.pass.desc ≤ size) :
    (readFrameSamples s).RaisesOnly [] s := by
  obtain ⟨u, hscale, hdesc, hbs⟩ : ∃ u, sbScale s = .ok u ∧ u.pass.desc = s.pass.desc ∧ u.pass.bs = s.pass.bs := ⟨_, rfl, rfl, rfl⟩
  rw [← hdesc] at hv hb hsize
  rw [← hbs] at hb
  obtain ⟨hfs, -, -⟩ := frameSize_bits u.pass.desc
  obtain ⟨needs, nbits, halloc, hbits⟩ := bitAllocFrame_ok hv
  have hroom : u.pass.bs.pos + sampleBits { u.pass with bitneed := needs, nbits := nbits } (sampleOrder u.pass.desc)
      ≤ 8 * u.pass.bs.size := by
    rw [hb]
    exact hbits.le.trans (by dsimp only; omega)
  rw [readFrameSamples, hscale, Micro.ok_andThen, halloc, Micro.ok_andThen]
  rcases payloadRead_effect { u with pass := { u.pass with bitneed := needs, nbits := nbits } } with hread | ⟨sb, hread⟩ <;> rw [hread]
  · trivial
  rw [Micro.ok_andThen, Bs.skip_inside hroom]
  obtain ⟨sb', hjoint⟩ := jointUncouple_effect _
  rw [hjoint, Micro.ok_andThen, if_neg (by simp [hb])]
  trivial

/-- R133 between the header and synthesis fails for a frame longer than what is there or for a wrong CRC. -/
theorem decodeSamples_raises {s : State} (hv : validEff s.pass.desc) (hb : s.pass.bs = ⟨.read, s.frameBytes, 32, [], false⟩) :
    (decodeSamples s).RaisesOnly [.bufferTooShort, .checksumMismatch] s := by
  rw [decodeSamples_eq]
  split
  · exact Micro.raisesOnly_raised (by decide) s s.pass
  rename_i hlen
  obtain ⟨hfs, -, -⟩ := frameSize_bits s.pass.desc
  have hpb := payloadBits_eq s.pass.desc
  rcases sideRead_effect s with hside | hside | ⟨joint, scf, hside⟩ <;> rw [hside]
  · trivial
  · trivial
  rw [Micro.ok_andThen, Bs.skip_inside (by rw [hb]; dsimp only; omega), hb]
  rcases crcCheck_effect _ with hcrc | ⟨c, hcrc | hcrc⟩ <;> rw [hcrc]
  · trivial
  · refine Micro.RaisesOnly.of_nil (readFrameSamples_raises (size := s.frameBytes) ?_ ?_ ?_)
    · exact hv
    · rfl
    · exact Nat.not_lt.1 hlen
  · exact Micro.raisesOnly_raised (by decide) s _

theorem synthFrame_raises (s : State) : (synthFrame s).RaisesOnly [] s := by
  rcases synthFrame_effect s with h | ⟨e0, e1, v0, v1, -, -, h⟩ <;> rw [h]
  · trivial
  · trivial

/-- R133: `DECODE` fails before synthesis only. -/
theorem decodeBody_raises (s : State) : (decodeBody s).RaisesOnly [.bufferTooShort, .malformedHeader, .checksumMismatch] s := by
  refine ((receiveFrame_raises s).mono (by decide)).andThen fun u hu => ?_
  obtain ⟨p, hv, hb, rfl⟩ := receiveFrame_taken hu
  refine ((decodeSamples_raises hv hb).mono (by decide)).of_pass.andThen fun v _ => ?_
  exact (synthFrame_raises v).of_nil.andThen fun _ _ => trivial

/-! ### The eight host commands -/

/-- Settles O54: each host command is a body between its start and its completion, and what each body can raise is said
above. -/
theorem failuresArePrecise : Obligations.FailuresArePrecise := by
  unfold Obligations.FailuresArePrecise
  intro i hi s t ht hne
  simp only [hostCommands, List.mem_cons, List.not_mem_nil, or_false] at hi
  rcases hi with rfl | rfl | rfl | rfl | rfl | rfl | rfl | rfl
  · exact runCommand_precise (body := fun s => .ok (fbReset .enc s)) (ks := []) trivial (by decide) ht hne
  · exact runCommand_precise (body := fun s => .ok (fbReset .dec s)) (ks := []) trivial (by decide) ht hne
  · exact runCommand_precise (body := fun s => .ok (fbReset .dec (fbReset .enc s))) (ks := []) trivial (by decide) ht hne
  · exact runCommand_precise (validateBody_raises _) (by decide) ht hne
  · exact runCommand_precise (frameSizeBody_raises _) (by decide) ht hne
  · exact runCommand_precise (encodeBody_raises _) (by decide) ht hne
  · exact runCommand_precise (probeBody_raises _) (by decide) ht hne
  · exact runCommand_precise (decodeBody_raises _) (by decide) ht hne

end Sys2Proof.Machine
end

section
/-! PROOF. What one instruction can do to the invariant and to the filter state sets (R20, R23, R26, R157): said once for
each operation, carried through the sequences of the commands, and from there to every step. -/

namespace Sys2Proof.Machine

/-! ### The invariant by its parts -/

/-- The buffer and the bitstream of a state that has the invariant are those of a writer inside `FRAME_BUF`. -/
theorem CoreInv.writer_ok {s : State} (h : CoreInv s) : WriterOk 512 s.writer :=
  ⟨h.frameBuf_wf, h.size_le, h.acc_lt, h.acc_le_pos⟩

theorem CoreInv.desc_ok {s : State} (h : CoreInv s) : validEff s.pass.desc := ⟨h.desc_valid, h.desc_eff⟩

/-- The invariant from its parts. -/
theorem CoreInv.of_parts {s : State} (hwriter : WriterOk 512 s.writer) (hdesc : validEff s.pass.desc)
    (hl : Mem.wf 128 s.pcmL) (hr : Mem.wf 128 s.pcmR) (hcfg : s.cfg &&& ~~~cfgMask = 0)
    (hdone : s.phase.isBusy = true → s.done = false) : CoreInv s :=
  ⟨hwriter.wf, hl, hr, hcfg, hdone, hwriter.size_le, hwriter.acc_lt, hwriter.acc_le_pos, hdesc.1, hdesc.2⟩

/-- A change that leaves the PCM buffers, `CFG`, the phase and `DONE` keeps the invariant when it keeps the writer's part of it
and leaves a valid effective descriptor. -/
theorem CoreInv.replace {s t : State} (h : CoreInv s)
    (hsame : (t.pcmL, t.pcmR, t.cfg, t.phase, t.done) = (s.pcmL, s.pcmR, s.cfg, s.phase, s.done))
    (hwriter : WriterOk 512 t.writer) (hdesc : validEff t.pass.desc) : CoreInv t := by
  simp only [Prod.mk.injEq] at hsame
  obtain ⟨hl, hr, hcfg, hphase, hdone⟩ := hsame
  exact .of_parts hwriter hdesc (hl ▸ h.pcmL_wf) (hr ▸ h.pcmR_wf) (hcfg ▸ h.cfg_reserved) (hphase ▸ hdone ▸ h.busy_not_done)

/-- R125: a command's start clears `DONE`, its completion `BUSY`. -/
theorem CoreInv.start {s : State} (h : CoreInv s) (w : Word) : CoreInv (s.start w) :=
  .of_parts h.writer_ok h.desc_ok h.pcmL_wf h.pcmR_wf h.cfg_reserved fun _ => rfl

theorem CoreInv.complete {s : State} (h : CoreInv s) (k : ResultCode) : CoreInv (s.complete k) :=
  .of_parts h.writer_ok h.desc_ok h.pcmL_wf h.pcmR_wf h.cfg_reserved fun hbusy => by simp at hbusy

/-- The sequencer's slot is emptied before the instruction runs. -/
theorem CoreInv.toIdle {s : State} (h : CoreInv s) : CoreInv { s with phase := .idle } :=
  .of_parts h.writer_ok h.desc_ok h.pcmL_wf h.pcmR_wf h.cfg_reserved fun hbusy => by simp at hbusy

/-! ### What writers and readers keep -/

/-- R65: binding a stream inside the buffer. -/
theorem WriterOk.bind {bound size : Nat} {m : Mem 8} (hm : Mem.wf bound m) (hsize : size ≤ bound) (dir : Dir) :
    WriterOk bound (m, Bs.bind dir size) :=
  ⟨hm, hsize, Nat.zero_lt_succ 7, Nat.le_refl 0⟩

/-- R66: reading moves the position on and leaves the pending bits. -/
theorem WriterOk.advanced {bound : Nat} {m : Mem 8} {b b' : Bs} (h : WriterOk bound (m, b)) (ha : b.Advanced b') :
    WriterOk bound (m, b') :=
  ⟨h.wf, ha.size ▸ h.size_le, ha.acc ▸ h.acc_lt, ha.acc ▸ h.acc_le_pos.trans ha.pos⟩

theorem WriterOk.write {bound a : Nat} {m : Mem 8} {b : Bs} (h : WriterOk bound (m, b)) (ha : a < bound) (v : Byte) :
    WriterOk bound (Mem.write m a v, b) :=
  ⟨Mem.write_wf h.wf ha v, h.size_le, h.acc_lt, h.acc_le_pos⟩

/-! ### Framed changes -/

/-- From `s` to `t` the invariant is kept, and so is the encoder state set unless `enc` holds, and the decoder state set
unless `dec` holds (R26). -/
structure Framed (enc dec : Prop) (s t : State) : Prop where
  inv : CoreInv s → CoreInv t
  enc_same : ¬enc → t.enc0 = s.enc0 ∧ t.enc1 = s.enc1
  dec_same : ¬dec → t.dec0 = s.dec0 ∧ t.dec1 = s.dec1

section
variable {enc dec enc' dec' : Prop} {s t u : State}

theorem Framed.trans (h : Framed enc dec s t) (h' : Framed enc dec t u) : Framed enc dec s u where
  inv hs := h'.inv (h.inv hs)
  enc_same hn := ⟨(h'.enc_same hn).1.trans (h.enc_same hn).1, (h'.enc_same hn).2.trans (h.enc_same hn).2⟩
  dec_same hn := ⟨(h'.dec_same hn).1.trans (h.dec_same hn).1, (h'.dec_same hn).2.trans (h.dec_same hn).2⟩

theorem Framed.mono (h : Framed enc dec s t) (henc : enc → enc') (hdec : dec → dec') : Framed enc' dec' s t :=
  ⟨h.inv, fun hn => h.enc_same (mt henc hn), fun hn => h.dec_same (mt hdec hn)⟩

/-- A change that keeps the invariant and names no filter state set. -/
theorem Framed.of_inv (hsame : (t.enc0, t.enc1, t.dec0, t.dec1) = (s.enc0, s.enc1, s.dec0, s.dec1))
    (hinv : CoreInv s → CoreInv t) : Framed enc dec s t := by
  simp only [Prod.mk.injEq] at hsame
  obtain ⟨h0, h1, h2, h3⟩ := hsame
  exact ⟨hinv, fun _ => ⟨h0, h1⟩, fun _ => ⟨h2, h3⟩⟩

theorem Framed.refl (s : State) : Framed enc dec s s := .of_inv rfl id

theorem Framed.start (w : Word) (s : State) : Framed enc dec s (s.start w) := .of_inv rfl fun h => h.start w

theorem Framed.complete (k : ResultCode) (s : State) : Framed enc dec s (s.complete k) := .of_inv rfl fun h => h.complete k

end

/-- A sequence is framed when each part is framed from where it starts. -/
theorem Micro.framed_andThen {enc dec : Prop} {s : State} {m : Micro} {f : State → Micro} (hm : m.All (Framed enc dec s))
    (hf : ∀ u, (f u).All (Framed enc dec u)) : (m.andThen f).All (Framed enc dec s) :=
  Micro.all_andThen hm fun u hu => (hf u).imp fun _ hv => hu.trans hv

/-- A command or an operation is framed when its body is. -/
theorem runCommand_framed {enc dec : Prop} {w : Word} {body : State → Micro} {s t : State}
    (hbody : ∀ u, (body u).All (Framed enc dec u)) (ht : runCommand w body s = .next t) : Framed enc dec s t :=
  runCommand_all ((hbody (s.start w)).imp fun _ hu => (Framed.start w s).trans hu) (fun k u hu => hu.trans (.complete k u)) ht

theorem runUop_framed {enc dec : Prop} {body : State → Micro} {s t : State} (hbody : ∀ u, (body u).All (Framed enc dec u))
    (ht : runUop body s = .next t) : Framed enc dec s t :=
  runUop_all (hbody s) (fun k u hu => hu.trans (.complete k u)) ht

/-- An operation whose body never raises or stops. -/
theorem runUop_total_framed {enc dec : Prop} {f : State → State} {s t : State} (ht : runUop (fun u => .ok (f u)) s = .next t)
    (hf : ∀ u, Framed enc dec u (f u)) : Framed enc dec s t :=
  runUop_framed (body := fun u => .ok (f u)) hf ht

/-! ### The operations on the bitstream and the working state -/

section
variable {enc dec : Prop}

/-- A change of the working state that leaves the descriptor and moves the bitstream as a reader does, or not at all. -/
theorem Framed.read {s : State} {p : Pass} (ha : s.pass.bs.Advanced p.bs) (hdesc : p.desc = s.pass.desc) :
    Framed enc dec s { s with pass := p } :=
  .of_inv rfl fun h => h.replace rfl (h.writer_ok.advanced ha) (hdesc ▸ h.desc_ok)

theorem Framed.setBs {s : State} {bs : Bs} (ha : s.pass.bs.Advanced bs) : Framed enc dec s (s.setBs bs) := .read ha rfl

/-- A change of the working state outside the bitstream and the descriptor. -/
theorem Framed.compute {s : State} {p : Pass} (hbs : p.bs = s.pass.bs) (hdesc : p.desc = s.pass.desc) :
    Framed enc dec s { s with pass := p } :=
  .read (hbs ▸ .refl _) hdesc

/-- The result latches and `FRAME_LEN` are outside the invariant. -/
theorem Framed.setOut (s : State) (x : Results) : Framed enc dec s { s with out := x } :=
  .of_inv rfl fun h => h.replace rfl h.writer_ok h.desc_ok

theorem Framed.setFrameLen (s : State) (n : BitVec 10) : Framed enc dec s { s with frameLen := n } :=
  .of_inv rfl fun h => h.replace rfl h.writer_ok h.desc_ok

theorem Framed.setWriter {s : State} {w : Mem 8 × Bs} (hw : WriterOk 512 s.writer → WriterOk 512 w) :
    Framed enc dec s (s.setWriter w) :=
  .of_inv rfl fun h => h.replace rfl (hw h.writer_ok) h.desc_ok

theorem Framed.bind {size : Nat} (hsize : size ≤ 512) (dir : Dir) (s : State) : Framed enc dec s (s.bind dir size) :=
  .of_inv rfl fun h => h.replace rfl (.bind h.frameBuf_wf hsize dir) h.desc_ok

/-- The descriptor of a pass is replaced by a valid effective one. -/
theorem Framed.setDesc {d : Desc} (hd : validEff d) (s : State) :
    Framed enc dec s { s with pass := { s.pass with desc := d } } :=
  .of_inv rfl fun h => h.replace rfl h.writer_ok hd

variable (s : State)

theorem getBitsOp_framed : (getBitsOp s).All (Framed enc dec s) := by
  unfold getBitsOp
  split
  · split
    · trivial
    · rename_i hread
      exact (Framed.setBs (Bs.getBits_advanced hread)).trans (.setOut _ _)
  · trivial

theorem getFixedBitsOp_framed : (getFixedBitsOp s).All (Framed enc dec s) := by
  unfold getFixedBitsOp
  split
  · split
    · trivial
    · rename_i hread
      exact Framed.setBs (Bs.getFixedBits_advanced hread)
  · trivial

theorem writeFields_framed (fs : List (Word × Nat)) : (writeFields fs s).All (Framed enc dec s) := by
  rcases writeFields_effect fs s with h | h <;> rw [h]
  · trivial
  · exact Framed.setWriter fun hw => hw.putFields fs

theorem flushWriter_framed : (flushWriter s).All (Framed enc dec s) := Framed.setWriter fun hw => hw.flush

theorem payloadWrite_framed : (payloadWrite s).All (Framed enc dec s) :=
  Micro.framed_andThen (writeFields_framed s _) flushWriter_framed

theorem descIsValidOp_framed : (descIsValidOp s).All (Framed enc dec s) := by
  unfold descIsValidOp
  split
  · trivial
  · exact Framed.setOut s _

theorem hdrRead_framed : (hdrRead s).All (Framed enc dec s) := by
  rcases hdrRead_effect s with h | ⟨bs, ha, h | ⟨d, crc, hv, -, h⟩⟩ <;> rw [h]
  · trivial
  · exact Framed.setBs ha
  · exact Framed.of_inv rfl fun hinv => hinv.replace rfl (hinv.writer_ok.advanced ha) hv

theorem receiveHeader_framed {d : Desc} (crc : BitVec 8) (hd : d.msbc = true → d = msbcDesc) :
    (receiveHeader d crc s).All (Framed enc dec s) := by
  have ha : s.pass.bs.Advanced { s.pass.bs with pos := s.pass.bs.pos + 32 } := ⟨rfl, rfl, rfl, Nat.le_add_right _ _, id⟩
  unfold receiveHeader
  rcases acceptHeader_effect d crc (s.setBs { s.pass.bs with pos := s.pass.bs.pos + 32 }) hd with h | ⟨hv, -, h⟩ <;> rw [h]
  · exact Framed.setBs ha
  · exact Framed.of_inv rfl fun hinv => hinv.replace rfl (hinv.writer_ok.advanced ha) hv

theorem sideRead_framed : (sideRead s).All (Framed enc dec s) := by
  rcases sideRead_effect s with h | h | ⟨joint, scf, h⟩ <;> rw [h]
  · trivial
  · trivial
  · exact Framed.read (Bs.skip_advanced _ _) rfl

theorem crcCheck_framed : (crcCheck s).All (Framed enc dec s) := by
  rcases crcCheck_effect s with h | ⟨c, h | h⟩ <;> rw [h]
  · trivial
  · exact Framed.compute rfl rfl
  · exact Framed.compute rfl rfl

theorem crcInsert_framed : (crcInsert s).All (Framed enc dec s) := by
  rcases crcInsert_effect s with h | ⟨c, h⟩ <;> rw [h]
  · trivial
  · exact Framed.of_inv rfl fun hinv => hinv.replace rfl (hinv.writer_ok.write (by decide) c) hinv.desc_ok

theorem storeAllocation_framed (r : Option (List (List Int) × List (List (Fin 17)))) :
    (storeAllocation r s).All (Framed enc dec s) := by
  rcases storeAllocation_effect r s with h | ⟨needs, nbits, h⟩ <;> rw [h]
  · trivial
  · exact Framed.compute rfl rfl

theorem bitAllocFrame_framed : (bitAllocFrame s).All (Framed enc dec s) := by
  rcases bitAllocFrame_effect s with h | h | ⟨needs, nbits, h⟩ <;> rw [h]
  · trivial
  · trivial
  · exact Framed.compute rfl rfl

theorem payloadRead_framed : (payloadRead s).All (Framed enc dec s) := by
  rcases payloadRead_effect s with h | ⟨sb, h⟩ <;> rw [h]
  · trivial
  · exact Framed.read (Bs.skip_advanced _ _) rfl

theorem scfCompute_framed : (scfCompute s).All (Framed enc dec s) := Framed.compute rfl rfl

theorem sbScale_framed : (sbScale s).All (Framed enc dec s) := Framed.compute rfl rfl

theorem jointDecide_framed : (jointDecide s).All (Framed enc dec s) := by
  obtain ⟨joint, scf, sb, h⟩ := jointDecide_effect s
  rw [h]
  exact Framed.compute rfl rfl

theorem jointUncouple_framed : (jointUncouple s).All (Framed enc dec s) := by
  obtain ⟨sb, h⟩ := jointUncouple_effect s
  rw [h]
  exact Framed.compute rfl rfl

/-! ### The filter banks -/

theorem analyzeFrame_framed : (analyzeFrame s).All (Framed True dec s) := by
  rcases analyzeFrame_effect s with h | h | ⟨e0, e1, sb, h⟩ <;> rw [h]
  · trivial
  · trivial
  · exact ⟨fun hinv => hinv.replace rfl hinv.writer_ok hinv.desc_ok, fun hn => absurd trivial hn, fun _ => ⟨rfl, rfl⟩⟩

/-- R122: the samples of a valid descriptor lie inside the PCM buffers. -/
theorem synthFrame_framed : (synthFrame s).All (Framed enc True s) := by
  rcases synthFrame_effect s with h | ⟨e0, e1, v0, v1, hv0, hv1, h⟩ <;> rw [h]
  · trivial
  · refine ⟨fun hinv => ?_, fun _ => ⟨rfl, rfl⟩, fun hn => absurd trivial hn⟩
    have hroom := hinv.desc_ok.samples
    exact .of_parts hinv.writer_ok hinv.desc_ok (Mem.writeList_wf v0 hinv.pcmL_wf (by omega))
      (Mem.writeList_wf v1 hinv.pcmR_wf (by omega)) hinv.cfg_reserved hinv.busy_not_done

theorem analyzeBlockOp_framed : (analyzeBlockOp s).All (Framed True dec s) := by
  unfold analyzeBlockOp State.setEnc
  dsimp only
  split <;> exact ⟨fun hinv => hinv.replace rfl hinv.writer_ok hinv.desc_ok, fun hn => absurd trivial hn, fun _ => ⟨rfl, rfl⟩⟩

theorem synthBlockOp_framed : (synthBlockOp s).All (Framed enc True s) := by
  unfold synthBlockOp State.setDec
  dsimp only
  split <;> exact ⟨fun hinv => hinv.replace rfl hinv.writer_ok hinv.desc_ok, fun _ => ⟨rfl, rfl⟩, fun hn => absurd trivial hn⟩

theorem fbReset_framed (set : FilterSet) : Framed (set = .enc) (set = .dec) s (fbReset set s) := by
  cases set
  · exact ⟨fun hinv => hinv.replace rfl hinv.writer_ok hinv.desc_ok, fun hn => absurd rfl hn, fun _ => ⟨rfl, rfl⟩⟩
  · exact ⟨fun hinv => hinv.replace rfl hinv.writer_ok hinv.desc_ok, fun _ => ⟨rfl, rfl⟩, fun hn => absurd rfl hn⟩

end

end Sys2Proof.Machine
end

section
/-! PROOF. Every instruction and every step keep the invariant (R17, R19, R20, R23, R28, R33), and only the instructions of
R26 and R157 write a filter state set. -/

namespace Sys2Proof.Machine

/-! ### The commands -/

section
variable {enc dec : Prop} (s : State)

theorem validateBody_framed : (validateBody s).All (Framed enc dec s) := by
  unfold validateBody
  split <;> exact Framed.refl s

theorem frameSizeBody_framed : (frameSizeBody s).All (Framed enc dec s) := by
  unfold frameSizeBody
  split
  · exact Framed.setFrameLen s _
  · exact Framed.refl s

/-- R131 after its checks, for a descriptor that passed them: its frame fits the buffer (R75). -/
theorem encodeFrame_framed {d : Desc} (hd : validEff d) : (encodeFrame d s).All (Framed True dec s) := by
  unfold encodeFrame
  refine Micro.framed_andThen ((analyzeFrame_framed _).imp fun _ hu => (Framed.setDesc hd s).trans hu) fun s => ?_
  refine Micro.framed_andThen (scfCompute_framed s) fun s => ?_
  refine Micro.framed_andThen (jointDecide_framed s) fun s => ?_
  refine Micro.framed_andThen (bitAllocFrame_framed s) fun s => ?_
  refine Micro.framed_andThen ((writeFields_framed _ _).imp fun _ hu => (Framed.bind hd.bounds.1 .write s).trans hu) fun s => ?_
  refine Micro.framed_andThen (writeFields_framed s _) fun s => ?_
  refine Micro.framed_andThen (payloadWrite_framed s) fun s => ?_
  refine Micro.framed_andThen (crcInsert_framed s) fun s => ?_
  split
  · exact Framed.refl s
  · exact Framed.setFrameLen s _

theorem encodeBody_framed : (encodeBody s).All (Framed True dec s) := by
  unfold encodeBody
  dsimp only
  split
  · exact Framed.refl s
  rename_i hvalid
  split
  · exact Framed.refl s
  split
  · exact Framed.refl s
  · have hd : validEff s.cfgDesc := validEff_eff (by simpa [State.cfgDesc] using hvalid)
    exact encodeFrame_framed s hd

theorem receiveFrame_framed : (receiveFrame s).All (Framed enc dec s) := by
  unfold receiveFrame
  split
  · exact Framed.refl s
  · exact (hdrRead_framed _).imp fun _ hu => (Framed.bind (Nat.min_le_right _ _) .read s).trans hu

theorem probeBody_framed : (probeBody s).All (Framed enc dec s) :=
  Micro.framed_andThen (receiveFrame_framed s) fun u => Framed.of_inv rfl fun h =>
    .of_parts h.writer_ok h.desc_ok h.pcmL_wf h.pcmR_wf (cfgOfDesc_reserved u.pass.desc) h.busy_not_done

theorem decodeSamples_framed : (decodeSamples s).All (Framed enc dec s) := by
  unfold decodeSamples
  split
  · exact Framed.refl s
  refine Micro.framed_andThen (sideRead_framed s) fun s => ?_
  refine Micro.framed_andThen (crcCheck_framed s) fun s => ?_
  refine Micro.framed_andThen (sbScale_framed s) fun s => ?_
  refine Micro.framed_andThen (bitAllocFrame_framed s) fun s => ?_
  refine Micro.framed_andThen (payloadRead_framed s) fun s => ?_
  refine Micro.framed_andThen (jointUncouple_framed s) fun s => ?_
  split <;> exact Framed.refl s

theorem decodeOutputs_framed : Framed enc dec s (decodeOutputs s) :=
  .of_inv rfl fun h => .of_parts h.writer_ok h.desc_ok h.pcmL_wf h.pcmR_wf (cfgOfDesc_reserved s.pass.desc) h.busy_not_done

theorem decodeBody_framed : (decodeBody s).All (Framed enc True s) :=
  Micro.framed_andThen (receiveFrame_framed s) fun s =>
  Micro.framed_andThen (decodeSamples_framed s) fun s =>
  Micro.framed_andThen (synthFrame_framed s) decodeOutputs_framed

end

/-! ### Every instruction -/

/-- The instructions that may write the encoder state set, and those that may write the decoder state set (R26, R157). -/
def encWriters : List Instr := [.encode, .resetEnc, .resetAll, .analyzeBlock, .analyzeFrame, .fbReset]
def decWriters : List Instr := [.decode, .resetDec, .resetAll, .synthBlock, .synthFrame, .fbReset]

/-- What one instruction can do to the invariant and to the filter state sets. -/
theorem exec_framed {i : Instr} {s t : State} (h : exec i s = .next t) : Framed (i ∈ encWriters) (i ∈ decWriters) s t := by
  cases i with
  | resetEnc =>
    refine runCommand_framed (body := fun u => .ok (fbReset .enc u)) (fun u => ?_) h
    exact (fbReset_framed u .enc).mono (fun _ => by decide) nofun
  | resetDec =>
    refine runCommand_framed (body := fun u => .ok (fbReset .dec u)) (fun u => ?_) h
    exact (fbReset_framed u .dec).mono nofun (fun _ => by decide)
  | resetAll =>
    refine runCommand_framed (body := fun u => .ok (fbReset .dec (fbReset .enc u))) (fun u => ?_) h
    exact ((fbReset_framed u .enc).mono (fun _ => by decide) nofun).trans ((fbReset_framed _ .dec).mono nofun fun _ => by decide)
  | validate => exact runCommand_framed validateBody_framed h
  | frameSize => exact runCommand_framed frameSizeBody_framed h
  | encode => exact (runCommand_framed encodeBody_framed h).mono (fun _ => by decide) id
  | probe => exact runCommand_framed probeBody_framed h
  | decode => exact (runCommand_framed decodeBody_framed h).mono id (fun _ => by decide)
  | bsBind =>
    exact runUop_total_framed (show execBsBind s = _ from h) fun u => .bind (Nat.le_of_lt_succ u.op.size.isLt) u.op.dir u
  | bsGetBits => exact runUop_framed getBitsOp_framed h
  | bsGetFixedBits => exact runUop_framed getFixedBitsOp_framed h
  | bsPutBits => exact runUop_framed (fun u => writeFields_framed u _) h
  | bsFlush => exact runUop_framed flushWriter_framed h
  | bsBitPos => exact runUop_total_framed (show execBsBitPos s = _ from h) fun u => .setOut u _
  | descIsValid => exact runUop_framed descIsValidOp_framed h
  | descFrameSize => exact runUop_total_framed (show execDescFrameSize s = _ from h) fun u => .setOut u _
  | hdrWrite => exact runUop_framed (fun u => writeFields_framed u _) h
  | hdrRead => exact runUop_framed hdrRead_framed h
  | crcCompute => exact runUop_total_framed (show execCrcCompute s = _ from h) fun _ => .compute rfl rfl
  | crcInsert => exact runUop_framed crcInsert_framed h
  | crcCheck => exact runUop_framed crcCheck_framed h
  | sideWrite => exact runUop_framed (fun u => writeFields_framed u _) h
  | sideRead => exact runUop_framed sideRead_framed h
  | payloadWrite => exact runUop_framed payloadWrite_framed h
  | payloadRead => exact runUop_framed payloadRead_framed h
  | bitAlloc => exact runUop_framed (fun u => storeAllocation_framed u _) h
  | bitAllocFrame => exact runUop_framed bitAllocFrame_framed h
  | scfCompute => exact runUop_framed scfCompute_framed h
  | jointDecide => exact runUop_framed jointDecide_framed h
  | jointUncouple => exact runUop_framed jointUncouple_framed h
  | sbScale => exact runUop_framed sbScale_framed h
  | quant => exact runUop_total_framed (show execQuant s = _ from h) fun u => .setOut u _
  | dequant => exact runUop_total_framed (show execDequant s = _ from h) fun u => .setOut u _
  | dct => exact runUop_total_framed (show execDct s = _ from h) fun u => .setOut u _
  | analyzeBlock => exact (runUop_framed analyzeBlockOp_framed h).mono (fun _ => by decide) id
  | analyzeFrame => exact (runUop_framed analyzeFrame_framed h).mono (fun _ => by decide) id
  | synthBlock => exact (runUop_framed synthBlockOp_framed h).mono id (fun _ => by decide)
  | synthFrame => exact (runUop_framed synthFrame_framed h).mono id (fun _ => by decide)
  | fbReset =>
    refine runUop_total_framed (show execFbReset s = _ from h) fun u => ?_
    exact (fbReset_framed u u.op.set).mono (fun _ => by decide) (fun _ => by decide)
  | sbcFrameHeader freq blocks mode alloc subbands bitpool crc =>
    exact runUop_framed (fun u => receiveHeader_framed u crc fun hm => by cases hm) h
  | msbcFrameHeader crc => exact runUop_framed (fun u => receiveHeader_framed u crc fun _ => rfl) h

/-- Settles O56: an instruction outside the list of a filter state set leaves that set as it was. -/
theorem filterStateWriters : Obligations.FilterStateWriters := by
  unfold Obligations.FilterStateWriters
  intro i s t h
  have hframed := exec_framed h
  exact ⟨hframed.enc_same, hframed.dec_same⟩

/-! ### Every step -/

/-- The reset state has the invariant; what waits outside and what the host has read are no part of it (R155). -/
theorem coreInv_reset (inputs : List Input) (hostData : Word) :
    CoreInv { State.reset with inputs := inputs, hostData := hostData } :=
  .of_parts (.bind (Mem.wf_nil 512) (Nat.zero_le 512) .read) validEff_msbcDesc (Mem.wf_nil 128) (Mem.wf_nil 128) BitVec.zero_and nofun

theorem rejectFetched_keeps {r : Reject} {s t : State} (hs : CoreInv s) (h : rejectFetched r s = .next t) : CoreInv t := by
  cases r <;> cases h
  · exact hs.complete .illegalCommand
  · exact hs.complete .malformedHeader
  · exact hs.complete .malformedHeader

/-- The sequencer's turn: it waits, runs an instruction, or answers a word that is none. -/
theorem sequencerTurn_keeps {s t : State} (hs : CoreInv s) (h : sequencerTurn s = .next t) : CoreInv t := by
  unfold sequencerTurn at h
  split at h
  · cases h
    exact hs
  unfold runPending at h
  split at h
  · cases h
  split at h
  · exact (exec_framed h).inv hs.toIdle
  · exact rejectFetched_keeps hs h

/-- R35, R36, R43: a host read changes nothing of the core. -/
theorem hostRead_keeps {off : Word} {width : Nat} {s t : State} (hs : CoreInv s) (h : hostRead off width s = .next t) : CoreInv t := by
  unfold hostRead at h
  split at h
  · cases h
  split at h
  · split at h <;> cases h
    exact hs.replace rfl hs.writer_ok hs.desc_ok
  · cases h

/-- A write of a window word whose index lies inside its buffer. -/
theorem windowWrite_keeps {n : Nat} {w : WindowWord} {s : State} (hs : CoreInv s) (hw : windowWordAt n = some w) (v : Word) :
    CoreInv (s.windowWrite w v) := by
  have hbound := windowWordAt_bound hw
  cases w with
  | cmd => exact hs.start v
  | status => exact hs
  | cfg =>
    refine .of_parts hs.writer_ok hs.desc_ok hs.pcmL_wf hs.pcmR_wf ?_ hs.busy_not_done
    show v &&& cfgMask &&& ~~~cfgMask = 0
    rw [BitVec.and_assoc, BitVec.and_not_self]
    exact BitVec.and_zero
  | frameLen => exact hs.replace rfl hs.writer_ok hs.desc_ok
  | pcmLen => exact hs.replace rfl hs.writer_ok hs.desc_ok
  | frameByte i => exact hs.replace rfl (hs.writer_ok.write hbound _) hs.desc_ok
  | pcmLeft i =>
    exact .of_parts hs.writer_ok hs.desc_ok (Mem.write_wf hs.pcmL_wf hbound _) hs.pcmR_wf hs.cfg_reserved hs.busy_not_done
  | pcmRight i =>
    exact .of_parts hs.writer_ok hs.desc_ok hs.pcmL_wf (Mem.write_wf hs.pcmR_wf hbound _) hs.cfg_reserved hs.busy_not_done

theorem hostWrite_keeps {off v : Word} {width : Nat} {s t : State} (hs : CoreInv s) (h : hostWrite off width v s = .next t) :
    CoreInv t := by
  unfold hostWrite at h
  split at h
  · cases h
  rename_i w hw
  split at h <;> cases h
  exact windowWrite_keeps hs (accessedWord_some hw).2.2 v

/-- Settles O59, by the input that takes effect: the sequencer's turn, a host access, or the platform's reset. -/
theorem stepKeepsInvariant : Obligations.StepKeepsInvariant := by
  unfold Obligations.StepKeepsInvariant
  intro s t hs h
  have hrest : ∀ rest, CoreInv { s with inputs := rest } := fun _ => hs.replace rfl hs.writer_ok hs.desc_ok
  unfold step at h
  split at h
  · exact sequencerTurn_keeps hs h
  · exact sequencerTurn_keeps (hrest _) h
  · exact hostRead_keeps (hrest _) h
  · exact hostWrite_keeps (hrest _) h
  · cases h
    exact coreInv_reset _ _

/-- Settles O60: the reset state is one with nothing waiting outside. -/
theorem resetHasInvariant : Obligations.ResetHasInvariant := coreInv_reset [] 0

end Sys2Proof.Machine
end

section
/-! PROOF. No host command depends on the working state or the latches it starts with (R27, R32). Two runs are followed side
by side. At every point `known` names the fields of the working state that the command has written so far: they agree, the
rest of the working state is whatever each run has, and every other field of the state agrees. -/

namespace Sys2Proof.Machine

/-! ### Two runs side by side -/

/-- `s` with another working state and other latches. -/
def State.withScratch (s : State) (p : Pass) (o : Operands) (r : Results) : State := { s with pass := p, op := o, out := r }

/-- `t` is `s` with the latches `o` and `r` and a working state of its own, of which `known` keeps what it takes from that of
`s`. -/
def State.Alike (o : Operands) (r : Results) (known : Pass → Pass → Pass) (s t : State) : Prop :=
  ∃ q : Pass, t = s.withScratch (known s.pass q) o r

/-- Nothing of the working state is known. -/
def Pass.fresh (_ q : Pass) : Pass := q

/-- The two outcomes are of one kind; states that ran agree in what is `known`, states that raised need not. -/
def Micro.Alike (o : Operands) (r : Results) (known : Pass → Pass → Pass) : Micro → Micro → Prop
  | .ok s, m => ∃ t, m = .ok t ∧ s.Alike o r known t
  | .raised k s, m => ∃ t, m = .raised k t ∧ s.Alike o r Pass.fresh t
  | .fault f, m => m = .fault f
  | .refused e, m => m = .refused e

section
variable {o : Operands} {r : Results} {known known' : Pass → Pass → Pass}

theorem Micro.alike_ok {s t : State} (q : Pass) (h : t = s.withScratch (known s.pass q) o r) :
    (Micro.ok s).Alike o r known (.ok t) := ⟨t, rfl, q, h⟩

theorem Micro.alike_raised {k : ResultCode} {s t : State} (q : Pass) (h : t = s.withScratch q o r) :
    (Micro.raised k s).Alike o r known (.raised k t) := ⟨t, rfl, q, h⟩

theorem Micro.alike_fault (f : Fault) : (Micro.fault f).Alike o r known (.fault f) := rfl

theorem Micro.alike_refused (e : Refusal) : (Micro.refused e).Alike o r known (.refused e) := rfl

/-- Both runs take the same branch. -/
theorem Micro.alike_ite {c : Prop} [Decidable c] {m m' n n' : Micro} (h : m.Alike o r known n) (h' : m'.Alike o r known n') :
    (if c then m else m').Alike o r known (if c then n else n') := by
  split
  · exact h
  · exact h'

/-- Sequences whose parts go alike go alike. -/
theorem Micro.Alike.andThen {m n : Micro} {f g : State → Micro} (hm : m.Alike o r known n)
    (hf : ∀ (u : State) (q : Pass), (f u).Alike o r known' (g (u.withScratch (known u.pass q) o r))) :
    (m.andThen f).Alike o r known' (n.andThen g) := by
  cases m with
  | ok u =>
    obtain ⟨_, rfl, q, rfl⟩ := hm
    exact hf u q
  | raised k u =>
    obtain ⟨_, rfl, q, rfl⟩ := hm
    exact Micro.alike_raised q rfl
  | fault e =>
    cases hm
    rfl
  | refused e =>
    cases hm
    rfl

theorem runCommand_fault {w : Word} {body : State → Micro} {s : State} {f : Fault} :
    runCommand w body s = .fault f ↔ body (s.start w) = .fault f := by
  unfold runCommand
  cases body (s.start w) <;> simp

/-- Commands whose bodies go alike answer alike. -/
theorem runCommand_alike {w : Word} {body : State → Micro} {s : State} {p : Pass}
    (hbody : ∀ u : State, (body u).Alike o r known (body (u.withScratch p o r))) :
    (∀ t, runCommand w body s = .next t → ∃ q, runCommand w body (s.withScratch p o r) = .next (t.withScratch q o r))
      ∧ ∀ f, runCommand w body s = .fault f → runCommand w body (s.withScratch p o r) = .fault f := by
  have h := hbody (s.start w)
  refine ⟨fun t ht => ?_, fun f hf => ?_⟩
  · rcases runCommand_next.1 ht with ⟨u, hu, rfl⟩ | ⟨k, u, hu, rfl⟩ <;> rw [hu] at h
    · obtain ⟨_, hv, q, rfl⟩ := h
      exact ⟨known u.pass q, runCommand_of_ok (u := u.withScratch (known u.pass q) o r) hv⟩
    · obtain ⟨_, hv, q, rfl⟩ := h
      exact ⟨q, runCommand_of_raised (u := u.withScratch q o r) hv⟩
  · rw [runCommand_fault.1 hf] at h
    exact runCommand_fault.2 h

end

/-! ### What a pass has written so far

Each is the one before it with what the next operation writes taken from `p`. First `PROBE` and `DECODE` (R132, R133): the reader
bound, the header read, then `SIDE_READ`, `SBSCALE`, `BITALLOC_FRAME` and `PAYLOAD_READ`. -/

def Pass.bound (p q : Pass) : Pass := { q with bs := p.bs }
def Pass.received (p q : Pass) : Pass := { p.bound q with desc := p.desc, crcRx := p.crcRx }
def Pass.sided (p q : Pass) : Pass := { p.received q with joint := p.joint, scf := p.scf }
def Pass.scaled (p q : Pass) : Pass := { p.sided q with sbScale := p.sbScale }
def Pass.allotted (p q : Pass) : Pass := { p.scaled q with nbits := p.nbits }
def Pass.sampled (p q : Pass) : Pass := { p.allotted q with sbDec := p.sbDec }

/-! Then `ENCODE` (R131): the descriptor taken from `CFG`, then `ANALYZE_FRAME`, `SCF_COMPUTE`, `JOINT_DECIDE`, `BITALLOC_FRAME`
and the writer bound. -/

def Pass.described (p q : Pass) : Pass := { q with desc := p.desc }
def Pass.analyzed (p q : Pass) : Pass := { p.described q with sbEnc := p.sbEnc }
def Pass.factored (p q : Pass) : Pass := { p.analyzed q with scf := p.scf }
def Pass.decided (p q : Pass) : Pass := { p.factored q with joint := p.joint }
def Pass.budgeted (p q : Pass) : Pass := { p.decided q with nbits := p.nbits }
def Pass.framing (p q : Pass) : Pass := { p.budgeted q with bs := p.bs }

section
variable (o : Operands) (r : Results) (s : State) (q : Pass)

/-! ### `VALIDATE` and `FRAME_SIZE` -/

theorem validateBody_alike : (validateBody s).Alike o r Pass.fresh (validateBody (s.withScratch q o r)) :=
  Micro.alike_ite (Micro.alike_ok q rfl) (Micro.alike_raised q rfl)

theorem frameSizeBody_alike : (frameSizeBody s).Alike o r Pass.fresh (frameSizeBody (s.withScratch q o r)) :=
  Micro.alike_ite (Micro.alike_ok q rfl) (Micro.alike_raised q rfl)

/-! ### `PROBE` and `DECODE` -/

theorem acceptHeader_alike (d : Desc) (crc : BitVec 8) :
    (acceptHeader d crc s).Alike o r Pass.received (acceptHeader d crc (s.withScratch (s.pass.bound q) o r)) :=
  Micro.alike_ite (Micro.alike_raised _ rfl) (Micro.alike_ite (Micro.alike_raised _ rfl) (Micro.alike_ok q rfl))

theorem hdrRead_alike : (hdrRead s).Alike o r Pass.received (hdrRead (s.withScratch (s.pass.bound q) o r)) := by
  rcases h : parseHeader s.frameBuf s.pass.bs with _ | ⟨_ | ⟨d, crc⟩, bs⟩ <;>
    simp only [hdrRead, State.withScratch, Pass.bound, h]
  · exact Micro.alike_fault _
  · exact Micro.alike_raised _ rfl
  · exact acceptHeader_alike o r (s.setBs bs) q d crc

theorem receiveFrame_alike : (receiveFrame s).Alike o r Pass.received (receiveFrame (s.withScratch q o r)) :=
  Micro.alike_ite (Micro.alike_raised _ rfl) (hdrRead_alike o r (s.bind .read s.frameBytes) q)

theorem readScaleFactors_alike (j : BitVec 8) :
    (readScaleFactors j s).Alike o r Pass.sided (readScaleFactors j (s.withScratch (s.pass.received q) o r)) := by
  rcases h : Bs.getFields s.frameBuf ((pairOrder s.pass.desc).map fun _ => 4) s.pass.bs with _ | ⟨vs, bs⟩ <;>
    simp only [readScaleFactors, State.withScratch, Pass.received, Pass.bound, h]
  · exact Micro.alike_fault _
  · exact Micro.alike_ok q rfl

theorem sideRead_alike : (sideRead s).Alike o r Pass.sided (sideRead (s.withScratch (s.pass.received q) o r)) := by
  refine Micro.alike_ite (Micro.alike_ite ?_ (Micro.alike_refused _)) (readScaleFactors_alike o r s q 0)
  rcases h : s.pass.bs.getBits s.frameBuf s.pass.desc.subbands with _ | ⟨f, bs⟩ <;>
    simp only [State.withScratch, Pass.received, Pass.bound, h]
  · exact Micro.alike_fault _
  · exact readScaleFactors_alike o r (s.setBs bs) q _

theorem crcCheck_alike : (crcCheck s).Alike o r Pass.sided (crcCheck (s.withScratch (s.pass.sided q) o r)) := by
  rcases h : coverage s.frameBuf s.pass.desc with _ | bits <;>
    simp only [crcCheck, State.withScratch, Pass.sided, Pass.received, Pass.bound, h]
  · exact Micro.alike_fault _
  · exact Micro.alike_ite (Micro.alike_ok { q with crc := crcOf bits } rfl) (Micro.alike_raised _ rfl)

theorem sbScale_alike : (sbScale s).Alike o r Pass.scaled (sbScale (s.withScratch (s.pass.sided q) o r)) :=
  Micro.alike_ok q rfl

/-- R96 reads the scale factors and the descriptor, and writes `BITNEED` and `NBITS`. -/
theorem bitAllocFrame_alike {known known' : Pass → Pass → Pass} (hdesc : (known s.pass q).desc = s.pass.desc)
    (hscf : (known s.pass q).scf = s.pass.scf)
    (hknown : ∀ needs nbits, ({ known s.pass q with bitneed := needs, nbits := nbits } : Pass)
      = known' { s.pass with bitneed := needs, nbits := nbits } { q with bitneed := needs }) :
    (bitAllocFrame s).Alike o r known' (bitAllocFrame (s.withScratch (known s.pass q) o r)) := by
  have hcalls : ∀ m, frameCalls (known s.pass q) m = frameCalls s.pass m := fun m => by simp only [frameCalls, hdesc, hscf]
  rcases hm : bandsOf s.pass.desc.subbands with _ | m <;> simp only [bitAllocFrame, State.withScratch, hdesc, hm, hcalls]
  · exact Micro.alike_refused _
  rcases allocateAll (frameCalls s.pass m) with _ | ⟨needs, nbits⟩
  · exact Micro.alike_fault _
  · exact Micro.alike_ok _ (congrArg (fun p => s.withScratch p o r) (hknown needs nbits))

/-- R85 reads the bit counts, the scale factors and the global scale. -/
theorem readSamples_allotted (rs : Fin 16 → I32) (m : Mem 8) (p q : Pass) (is : List (Nat × Nat × Nat)) (bs : Bs) :
    readSamples rs m (p.allotted q) is bs = readSamples rs m p is bs := by
  induction is generalizing bs with
  | nil => rfl
  | cons i is ih =>
    simp only [readSamples, ih]
    rfl

theorem payloadRead_alike : (payloadRead s).Alike o r Pass.sampled (payloadRead (s.withScratch (s.pass.allotted q) o r)) := by
  have hread := readSamples_allotted Config.rangeScale s.frameBuf s.pass q (sampleOrder s.pass.desc) s.pass.bs
  unfold payloadRead
  rw [show readSamples Config.rangeScale (s.withScratch (s.pass.allotted q) o r).frameBuf
    (s.withScratch (s.pass.allotted q) o r).pass (sampleOrder (s.withScratch (s.pass.allotted q) o r).pass.desc)
    (s.withScratch (s.pass.allotted q) o r).pass.bs = _ from hread]
  split
  · exact Micro.alike_fault _
  · exact Micro.alike_ok q rfl

theorem jointUncouple_alike : (jointUncouple s).Alike o r Pass.sampled (jointUncouple (s.withScratch (s.pass.sampled q) o r)) :=
  Micro.alike_ite (Micro.alike_ok q rfl) (Micro.alike_ok q rfl)

theorem decodeSamples_alike : (decodeSamples s).Alike o r Pass.sampled (decodeSamples (s.withScratch (s.pass.received q) o r)) := by
  refine Micro.alike_ite (Micro.alike_raised _ rfl) ?_
  refine (sideRead_alike o r s q).andThen fun s q => ?_
  refine (crcCheck_alike o r s q).andThen fun s q => ?_
  refine (sbScale_alike o r s q).andThen fun s q => ?_
  refine (bitAllocFrame_alike (known := Pass.scaled) (known' := Pass.allotted) o r s q rfl rfl fun _ _ => rfl).andThen fun s q => ?_
  refine (payloadRead_alike o r s q).andThen fun s q => ?_
  refine (jointUncouple_alike o r s q).andThen fun s q => ?_
  exact Micro.alike_ite (Micro.alike_raised _ rfl) (Micro.alike_ok q rfl)

theorem synthFrame_alike : (synthFrame s).Alike o r Pass.sampled (synthFrame (s.withScratch (s.pass.sampled q) o r)) := by
  unfold synthFrame
  rw [show bandsOf (s.withScratch (s.pass.sampled q) o r).pass.desc.subbands = bandsOf s.pass.desc.subbands from rfl]
  split
  · exact Micro.alike_refused _
  · dsimp only
    exact Micro.alike_ite (Micro.alike_ok q rfl) (Micro.alike_ok q rfl)

theorem probeBody_alike : (probeBody s).Alike o r Pass.received (probeBody (s.withScratch q o r)) :=
  (receiveFrame_alike o r s q).andThen fun _ q => Micro.alike_ok q rfl

theorem decodeBody_alike : (decodeBody s).Alike o r Pass.sampled (decodeBody (s.withScratch q o r)) :=
  (receiveFrame_alike o r s q).andThen fun s q =>
  (decodeSamples_alike o r s q).andThen fun s q =>
  (synthFrame_alike o r s q).andThen fun _ q => Micro.alike_ok q rfl

/-! ### `ENCODE` -/

theorem analyzeFrame_alike : (analyzeFrame s).Alike o r Pass.analyzed (analyzeFrame (s.withScratch (s.pass.described q) o r)) := by
  unfold analyzeFrame
  rw [show bandsOf (s.withScratch (s.pass.described q) o r).pass.desc.subbands = bandsOf s.pass.desc.subbands from rfl]
  split
  · exact Micro.alike_refused _
  rename_i m _
  rw [show analyzeChannel m (s.withScratch (s.pass.described q) o r).pcmL
    (List.range (s.withScratch (s.pass.described q) o r).pass.desc.blocks) (s.withScratch (s.pass.described q) o r).enc0
    = analyzeChannel m s.pcmL (List.range s.pass.desc.blocks) s.enc0 from rfl]
  split
  · exact Micro.alike_fault _
  refine Micro.alike_ite ?_ (Micro.alike_ok q rfl)
  rw [show analyzeChannel m (s.withScratch (s.pass.described q) o r).pcmR
    (List.range (s.withScratch (s.pass.described q) o r).pass.desc.blocks) (s.withScratch (s.pass.described q) o r).enc1
    = analyzeChannel m s.pcmR (List.range s.pass.desc.blocks) s.enc1 from rfl]
  split
  · exact Micro.alike_fault _
  · exact Micro.alike_ok q rfl

theorem scfCompute_alike : (scfCompute s).Alike o r Pass.factored (scfCompute (s.withScratch (s.pass.analyzed q) o r)) :=
  Micro.alike_ok q rfl

theorem jointDecide_alike : (jointDecide s).Alike o r Pass.decided (jointDecide (s.withScratch (s.pass.factored q) o r)) :=
  Micro.alike_ite (Micro.alike_ok q rfl) (Micro.alike_ok q rfl)

/-- R68: the writer is known, and its fields are. -/
theorem writeFields_alike {fs fs' : List (Word × Nat)} (h : fs' = fs) :
    (writeFields fs s).Alike o r Pass.framing (writeFields fs' (s.withScratch (s.pass.framing q) o r)) := by
  subst h
  exact Micro.alike_ite (Micro.alike_ok q rfl) (Micro.alike_refused _)

theorem payloadWrite_alike : (payloadWrite s).Alike o r Pass.framing (payloadWrite (s.withScratch (s.pass.framing q) o r)) :=
  (writeFields_alike o r s q rfl).andThen fun _ q => Micro.alike_ok q rfl

theorem crcInsert_alike : (crcInsert s).Alike o r Pass.framing (crcInsert (s.withScratch (s.pass.framing q) o r)) := by
  unfold crcInsert
  rw [show coverage (s.withScratch (s.pass.framing q) o r).frameBuf (s.withScratch (s.pass.framing q) o r).pass.desc
    = coverage s.frameBuf s.pass.desc from rfl]
  split
  · exact Micro.alike_fault _
  · rename_i bits _
    exact Micro.alike_ok { q with crc := crcOf bits } rfl

theorem encodeFrame_alike (d : Desc) : (encodeFrame d s).Alike o r Pass.framing (encodeFrame d (s.withScratch q o r)) := by
  refine (analyzeFrame_alike o r { s with pass := { s.pass with desc := d } } q).andThen fun s q => ?_
  refine (scfCompute_alike o r s q).andThen fun s q => ?_
  refine (jointDecide_alike o r s q).andThen fun s q => ?_
  refine (bitAllocFrame_alike (known := Pass.decided) (known' := Pass.budgeted) o r s q rfl rfl fun _ _ => rfl).andThen fun s q => ?_
  refine (writeFields_alike o r (s.bind .write (frameSize d)) q rfl).andThen fun s q => ?_
  refine (writeFields_alike o r s q rfl).andThen fun s q => ?_
  refine (payloadWrite_alike o r s q).andThen fun s q => ?_
  refine (crcInsert_alike o r s q).andThen fun s q => ?_
  exact Micro.alike_ite (Micro.alike_raised _ rfl) (Micro.alike_ok q rfl)

theorem encodeBody_alike : (encodeBody s).Alike o r Pass.framing (encodeBody (s.withScratch q o r)) :=
  Micro.alike_ite (Micro.alike_raised _ rfl) <| Micro.alike_ite (Micro.alike_raised _ rfl) <|
    Micro.alike_ite (Micro.alike_raised _ rfl) (encodeFrame_alike o r s q _)

end

/-! ### The eight host commands -/

/-- Settles O55: the body of each host command goes alike from any working state and any latches. -/
theorem commandsIgnoreWorkingState : Obligations.CommandsIgnoreWorkingState := by
  unfold Obligations.CommandsIgnoreWorkingState
  intro i hi s p o r
  simp only [hostCommands, List.mem_cons, List.not_mem_nil, or_false] at hi
  rcases hi with rfl | rfl | rfl | rfl | rfl | rfl | rfl | rfl
  · exact runCommand_alike (known := Pass.fresh) (body := fun u => .ok (fbReset .enc u)) fun _ => Micro.alike_ok p rfl
  · exact runCommand_alike (known := Pass.fresh) (body := fun u => .ok (fbReset .dec u)) fun _ => Micro.alike_ok p rfl
  · exact runCommand_alike (known := Pass.fresh) (body := fun u => .ok (fbReset .dec (fbReset .enc u))) fun _ => Micro.alike_ok p rfl
  · exact runCommand_alike fun u => validateBody_alike o r u p
  · exact runCommand_alike fun u => frameSizeBody_alike o r u p
  · exact runCommand_alike fun u => encodeBody_alike o r u p
  · exact runCommand_alike fun u => probeBody_alike o r u p
  · exact runCommand_alike fun u => decodeBody_alike o r u p

end Sys2Proof.Machine
end

section
/-! PROOF. The sequencer's turn (R29, R125), the register window (R18 to R22, R34, R43) and the reset state (R32). -/

namespace Sys2Proof.Machine

/-! ### The sequencer's turn -/

theorem decode_of_decodeTableWord {nbits w : Nat} {i : Instr} (h : decodeTableWord nbits w = some i) :
    decode (fetchedOfTable nbits w) = .ok i := by
  unfold decodeTableWord at h
  cases hd : decode (fetchedOfTable nbits w) <;> rw [hd] at h <;> cases h
  rfl

/-- A word placed before the sequencer is the one its next turn fetches, decodes and runs. -/
theorem step_withPending {s : State} {p : Pending} {f : Fetched} {i : Instr} (hfetch : s.fetch p = some f)
    (hdecode : decode f = .ok i) : step (s.withPending p) = exec i { s with phase := .idle } := by
  rw [step_sequencer (State.withPending_inputs s p)]
  exact sequencerTurn_ok rfl ((State.fetch_congr rfl p).trans hfetch) hdecode

/-- Settles O5: either way the step is the sequencer's turn, and the word it fetches is decoded before it is run. -/
theorem stepRunsDecodedInstruction : Obligations.StepRunsDecodedInstruction := by
  unfold Obligations.StepRunsDecodedInstruction
  refine ⟨fun s p f i hphase hfetch hdecode => ⟨fun rest hin => ?_, fun hin => ?_⟩, fun s nbits w i htable => ?_⟩
  · rw [step_sequencer hin]
    exact sequencerTurn_ok hphase ((State.fetch_congr rfl p).trans hfetch) hdecode
  · rw [step_nil hin]
    exact sequencerTurn_ok hphase hfetch hdecode
  · have hdecode := decode_of_decodeTableWord htable
    unfold State.withFetchWord
    cases hword : fetchedOfTable nbits w <;> rw [hword] at hdecode
    case cmd v => exact step_withPending rfl hdecode
    case uop code => exact step_withPending rfl hdecode
    case header v =>
      refine step_withPending ?_ hdecode
      rw [State.fetch, State.headerWord_withHeaderWord]
      rfl

/-! ### The registers -/

@[simp] theorem State.windowWrite_inputs (s : State) (w : WindowWord) (v : Word) : (s.windowWrite w v).inputs = s.inputs := by
  cases w <;> rfl

/-- Only a write of `CMD` starts the sequencer (R125). -/
theorem State.windowWrite_phase {w : WindowWord} (hw : w ≠ .cmd) (s : State) (v : Word) : (s.windowWrite w v).phase = s.phase := by
  cases w with
  | cmd => exact absurd rfl hw
  | status | cfg | frameLen | pcmLen | frameByte i | pcmLeft i | pcmRight i => rfl

/-- What waits outside is no part of what a write does. -/
theorem State.windowWrite_setInputs (s : State) (w : WindowWord) (v : Word) (inputs : List Input) :
    ({ s with inputs := inputs } : State).windowWrite w v = { s.windowWrite w v with inputs := inputs } := by
  cases w <;> rfl

/-- R43: a host write of a window word other than `CMD`, and then a read of it, in an idle core. -/
theorem step_write_read {s : State} {rest : List Input} {off v x : Word} {w : WindowWord} (hphase : s.phase = .idle)
    (hin : s.inputs = .hostWrite off 4 v :: .hostRead off 4 :: rest) (hword : accessedWord off 4 = some w) (hw : w ≠ .cmd)
    (hread : ({ s.windowWrite w v with inputs := rest } : State).windowRead w = .ok x) :
    ∃ t u, step s = .next t ∧ step t = .next u ∧ u = { s.windowWrite w v with inputs := rest, hostData := x } := by
  have hwrite : step s = .next { s.windowWrite w v with inputs := .hostRead off 4 :: rest } := by
    rw [step_hostWrite hin, hostWrite_idle (by exact hphase) hword, State.windowWrite_setInputs]
  have hidle : ({ s.windowWrite w v with inputs := rest } : State).phase = .idle := (State.windowWrite_phase hw s v).trans hphase
  refine ⟨_, _, hwrite, ?_, rfl⟩
  rw [step_hostRead (off := off) (width := 4) (rest := rest) rfl]
  exact hostRead_idle hidle hword hread

/-- The low `n` bits of a word, zero-extended. -/
theorem setWidth_setWidth_eq_and (v : Word) (n : Nat) :
    (v.setWidth n).setWidth 32 = v &&& BitVec.ofNat 32 (2 ^ n - 1) := by
  apply BitVec.eq_of_getLsbD_eq
  intro i hi
  rw [BitVec.getLsbD_and, BitVec.getLsbD_ofNat, Nat.testBit_two_pow_sub_one, BitVec.getLsbD_setWidth, BitVec.getLsbD_setWidth]
  simp [hi, Bool.and_comm]

/-- R22: the two length fields are the low 16 bits. -/
theorem pcmLen_word (v : Word) : (0#16 ++ v.extractLsb' 8 8 ++ v.setWidth 8 : Word) = v &&& 0x0000FFFF := by
  rw [show (0x0000FFFF : Word) = BitVec.ofNat 32 (2 ^ 16 - 1) from rfl, ← setWidth_setWidth_eq_and v]
  apply BitVec.eq_of_getLsbD_eq
  intro i hi
  simp only [BitVec.getLsbD_append, BitVec.getLsbD_setWidth, BitVec.getLsbD_extractLsb', BitVec.getLsbD_zero, hi]
  by_cases hlow : i < 8
  · simp [hlow, show i < 16 by omega]
  · by_cases hhigh : i < 16
    · simp [hlow, hhigh, show i - 8 < 8 by omega, show 8 + (i - 8) = i by omega]
    · simp [hlow, hhigh, show ¬ i - 8 < 8 by omega]

theorem extractLsb'_eq_div (v : Word) : v.extractLsb' 8 8 = BitVec.ofNat 8 (v.toNat / 256) := by
  show BitVec.ofNat 8 (v.toNat >>> 8) = _
  rw [Nat.shiftRight_eq_div_pow]

/-- R19, R143: the fields of the `STATUS` word as numbers. -/
theorem statusFields_toNat : ∀ (code : BitVec 4) (done busy : Bool),
    (0#24 ++ code ++ 0#2 ++ BitVec.ofBool done ++ BitVec.ofBool busy : Word).toNat
      = busy.toNat + 2 * done.toNat + 16 * code.toNat := by
  decide

theorem statusWord_toNat (s : State) : s.statusWord.toNat
    = (if s.phase = .idle then 0 else 1) + (if s.done then 2 else 0)
      + 16 * (match s.result with
        | .ok => 0 | .malformedHeader => 1 | .bufferTooShort => 2 | .checksumMismatch => 3
        | .invalidConfiguration => 4 | .bitstreamError => 5 | .illegalCommand => 6) := by
  have hphase : s.phase.isBusy.toNat = if s.phase = .idle then 0 else 1 := by cases s.phase <;> rfl
  have hdone : 2 * s.done.toNat = if s.done then 2 else 0 := by cases s.done <;> rfl
  rw [State.statusWord, statusFields_toNat, hphase, hdone]
  cases s.result <;> rfl

/-- Settles O10: each register through `step_write_read`, and `CMD` by itself. -/
theorem registerWindow : Obligations.RegisterWindow := by
  unfold Obligations.RegisterWindow
  refine ⟨fun s rest off v hphase => ⟨fun hin => ⟨fun hoff => ?_, fun hoff => ?_, fun hoff => ?_, fun hoff => ?_⟩, fun hin hoff => ?_⟩,
    fun s rest off v hphase hin hoff => ?_, statusWord_toNat⟩
  · exact step_write_read hphase hin (accessedWord_of hoff rfl) (w := .cfg) (by decide) rfl
  · have hfield := setWidth_setWidth_eq_and v 10
    rw [BitVec.ofNat_toNat]
    exact step_write_read hphase hin (accessedWord_of hoff rfl) (w := .frameLen) (by decide) (congrArg Except.ok hfield)
  · rw [BitVec.ofNat_toNat, ← extractLsb'_eq_div]
    exact step_write_read hphase hin (accessedWord_of hoff rfl) (w := .pcmLen) (by decide) (congrArg Except.ok (pcmLen_word v))
  · exact step_write_read hphase hin (accessedWord_of hoff rfl) (w := .status) (by decide) rfl
  · rw [step_hostRead hin]
    exact hostRead_idle (w := .cmd) hphase (accessedWord_of hoff rfl) rfl
  · rw [step_hostWrite hin]
    exact hostWrite_idle (s := { s with inputs := rest }) (w := .cmd) hphase (accessedWord_of hoff rfl) v

/-! ### The reset state -/

theorem State.reset_enc (c : Fin 2) : State.reset.enc c = .zeroAt 0 := ite_self _

theorem State.reset_dec (c : Fin 2) : State.reset.dec c = .zeroAt 0 := ite_self _

/-- Settles O11: both channels of a filter state set are zero ones at Index 0, and the buffers are empty. -/
theorem resetState : Obligations.ResetState := by
  refine ⟨rfl, rfl, rfl, rfl, rfl, rfl, fun c => ?_, fun c h r t => ?_, fun c j => ?_, fun c h r t => ?_,
    fun a => ⟨rfl, rfl, rfl⟩⟩
  · rw [State.reset_enc, State.reset_dec]
    exact ⟨rfl, rfl⟩
  · simp [State.reset_enc, EncChan.zeroAt]
  · simp [State.reset_enc, EncChan.zeroAt]
  · simp [State.reset_dec, DecChan.zeroAt]

end Sys2Proof.Machine
end

section
/-! PROOF. Bad accesses (R35, R36, R37) and the buffer windows (R38, R39, R140). -/

namespace Sys2Proof.Machine

/-! ### Bad accesses -/

/-- R37: from the end of the registers to `FRAME_BUF`, from there to `PCM_L`, and past `PCM_R`, no word is mapped. -/
theorem windowWordAt_reserved {n : Nat} (h : (0x014 ≤ n ∧ n ≤ 0x3FF) ∨ (0xC00 ≤ n ∧ n ≤ 0xFFF) ∨ 0x1400 ≤ n) :
    windowWordAt n = none := by
  unfold windowWordAt
  repeat rw [if_neg (by omega)]

/-- An access of another width, at an unaligned offset or at one that maps no word, reaches nothing. -/
theorem accessedWord_eq_none {off : Word} {width : Nat}
    (h : width ≠ 4 ∨ off.toNat % 4 ≠ 0 ∨ windowWordAt (off.toNat % 0x2000) = none) : accessedWord off width = none := by
  unfold accessedWord
  split
  · rename_i hc
    obtain ⟨hwidth, haligned⟩ := hc
    exact (h.resolve_left (· hwidth)).resolve_left (· haligned)
  · rfl

theorem hostRead_bad {off : Word} {width : Nat} (h : accessedWord off width = none) (s : State) :
    hostRead off width s = .fault (.hostBadAccess off width .read) := by
  unfold hostRead
  rw [h]

theorem hostWrite_bad {off : Word} {width : Nat} (h : accessedWord off width = none) (v : Word) (s : State) :
    hostWrite off width v s = .fault (.hostBadAccess off width .write) := by
  unfold hostWrite
  rw [h]

/-- Settles O7: such an access reaches no word of the window, whatever the phase. -/
theorem badAccessFaults : Obligations.BadAccessFaults := by
  unfold Obligations.BadAccessFaults
  intro s rest off width h
  have hnone : accessedWord off width = none := accessedWord_eq_none (h.imp_right (Or.imp_right windowWordAt_reserved))
  refine ⟨fun hin => ?_, fun v hin => ?_⟩
  · rw [step_hostRead hin]
    exact hostRead_bad hnone _
  · rw [step_hostWrite hin]
    exact hostWrite_bad hnone v _

/-! ### The map of the buffers -/

theorem accessedWord_frameByte {off : Word} {i : Nat} (hi : i < 512) (hoff : off.toNat % 0x2000 = 0x400 + 4 * i) :
    accessedWord off 4 = some (.frameByte i) := by
  rw [accessedWord_of hoff (by omega)]
  unfold windowWordAt
  iterate 5 rw [if_neg (by omega)]
  rw [if_pos (by omega), show (0x400 + 4 * i - 0x400) / 4 = i by omega]

theorem accessedWord_pcmLeft {off : Word} {i : Nat} (hi : i < 128) (hoff : off.toNat % 0x2000 = 0x1000 + 4 * i) :
    accessedWord off 4 = some (.pcmLeft i) := by
  rw [accessedWord_of hoff (by omega)]
  unfold windowWordAt
  iterate 6 rw [if_neg (by omega)]
  rw [if_pos (by omega), show (0x1000 + 4 * i - 0x1000) / 4 = i by omega]

theorem accessedWord_pcmRight {off : Word} {i : Nat} (hi : i < 128) (hoff : off.toNat % 0x2000 = 0x1200 + 4 * i) :
    accessedWord off 4 = some (.pcmRight i) := by
  rw [accessedWord_of hoff (by omega)]
  unfold windowWordAt
  iterate 7 rw [if_neg (by omega)]
  rw [if_pos (by omega), show (0x1200 + 4 * i - 0x1200) / 4 = i by omega]

/-! ### An access of an idle core -/

section
variable {s : State} {rest : List Input} {off : Word} {w : WindowWord}

theorem step_write_idle {v : Word} (hphase : s.phase = .idle) (hword : accessedWord off 4 = some w)
    (hin : s.inputs = .hostWrite off 4 v :: rest) : step s = .next { s.windowWrite w v with inputs := rest } := by
  rw [step_hostWrite hin, hostWrite_idle (by exact hphase) hword, State.windowWrite_setInputs]

theorem step_read_idle {x : Word} (hphase : s.phase = .idle) (hword : accessedWord off 4 = some w)
    (hin : s.inputs = .hostRead off 4 :: rest) (hread : ({ s with inputs := rest } : State).windowRead w = .ok x) :
    step s = .next { s with inputs := rest, hostData := x } := by
  rw [step_hostRead hin]
  exact hostRead_idle hphase hword hread

theorem step_read_idle_fault {f : Fault} (hphase : s.phase = .idle) (hword : accessedWord off 4 = some w)
    (hin : s.inputs = .hostRead off 4 :: rest) (hread : ({ s with inputs := rest } : State).windowRead w = .error f) :
    step s = .fault f := by
  rw [step_hostRead hin]
  exact hostRead_idle_fault hphase hword hread

end

/-! ### What a buffer word stores and returns -/

theorem Mem.sameOutside_write {n : Nat} (m : Mem n) (i : Nat) (x : BitVec n) :
    Mem.sameOutside m (Mem.write m i x) i (i + 1) :=
  fun a ha => Mem.read_write_other m x (by omega)

/-- A buffer word that a write stores the low bits of reads them, and the write leaves every other word alone. -/
theorem Mem.write_lowBits {n : Nat} (hn : n ≤ 32) (m : Mem n) (i : Nat) (v : Word) :
    Mem.read (Mem.write m i (v.setWidth n)) i = some (v.extractLsb' 0 n)
      ∧ Mem.sameOutside m (Mem.write m i (v.setWidth n)) i (i + 1) := by
  rw [BitVec.setWidth_eq_extractLsb' hn]
  exact ⟨Mem.read_write_same m i _, Mem.sameOutside_write m i _⟩

section
variable {s : State} {i : Nat}

theorem windowRead_frameByte {b : BitVec 8} (h : Mem.read s.frameBuf i = some b) :
    s.windowRead (.frameByte i) = .ok (0#24 ++ b) := by
  have hzext : b.setWidth 32 = 0#24 ++ b := BitVec.setWidth_eq_append (by decide)
  simp only [State.windowRead, h, hzext]

theorem windowRead_pcmLeft {x : BitVec 16} (h : Mem.read s.pcmL i = some x) :
    s.windowRead (.pcmLeft i) = .ok (x.signExtend 32) := by
  simp only [State.windowRead, h]

theorem windowRead_pcmRight {x : BitVec 16} (h : Mem.read s.pcmR i = some x) :
    s.windowRead (.pcmRight i) = .ok (x.signExtend 32) := by
  simp only [State.windowRead, h]

theorem windowRead_frameByte_unwritten (h : Mem.read s.frameBuf i = none) :
    s.windowRead (.frameByte i) = .error .unwrittenFrameByte := by
  simp only [State.windowRead, h]

theorem windowRead_pcmLeft_unwritten (h : Mem.read s.pcmL i = none) :
    s.windowRead (.pcmLeft i) = .error .unwrittenPcmSample := by
  simp only [State.windowRead, h]

theorem windowRead_pcmRight_unwritten (h : Mem.read s.pcmR i = none) :
    s.windowRead (.pcmRight i) = .error .unwrittenPcmSample := by
  simp only [State.windowRead, h]

end

/-- Settles O9: in each of the three buffers a write, a read of a word with a value, and a read of one without. -/
theorem bufferWindows : Obligations.BufferWindows := by
  unfold Obligations.BufferWindows
  refine ⟨fun s rest off i hphase hi hoff => ?_, fun s rest off i hphase hi => ⟨fun hoff => ?_, fun hoff => ?_⟩⟩
  · have hword := accessedWord_frameByte hi hoff
    refine ⟨fun v hin => ?_, fun hin b hb => ?_, fun hin hnone => ?_⟩
    · exact ⟨_, step_write_idle hphase hword hin, Mem.write_lowBits (by decide) s.frameBuf i v⟩
    · exact step_read_idle hphase hword hin (windowRead_frameByte hb)
    · exact step_read_idle_fault hphase hword hin (windowRead_frameByte_unwritten hnone)
  · have hword := accessedWord_pcmLeft hi hoff
    refine ⟨fun v hin => ?_, fun hin x hx => ?_, fun hin hnone => ?_⟩
    · exact ⟨_, step_write_idle hphase hword hin, Mem.write_lowBits (by decide) s.pcmL i v⟩
    · exact step_read_idle hphase hword hin (windowRead_pcmLeft hx)
    · exact step_read_idle_fault hphase hword hin (windowRead_pcmLeft_unwritten hnone)
  · have hword := accessedWord_pcmRight hi hoff
    refine ⟨fun v hin => ?_, fun hin x hx => ?_, fun hin hnone => ?_⟩
    · exact ⟨_, step_write_idle hphase hword hin, Mem.write_lowBits (by decide) s.pcmR i v⟩
    · exact step_read_idle hphase hword hin (windowRead_pcmRight hx)
    · exact step_read_idle_fault hphase hword hin (windowRead_pcmRight_unwritten hnone)

end Sys2Proof.Machine
end

section
/-! PROOF. The encodings (R49, R50, R52 to R58): each word and its instruction determine each other; what a word outside the
table does, and what a received header does. -/

namespace Sys2Proof

/-! ### Frame headers -/

/-- R55, R56: a word of the fields of a normal header decodes to what their codes stand for. -/
theorem decodeHeader_headerOfFields (f b m : BitVec 2) (a s : BitVec 1) (p c : BitVec 8) :
    decodeHeader (headerOfFields 0x9C#8 f b m a s p c) = .ok (.sbcFrameHeader (Freq.ofCode f) (countOfCode b.toNat)
      (Mode.ofCode m) (Alloc.ofCode a) (countOfCode s.toNat) p.toNat c) := by
  rw [decodeHeader, if_pos (headerOfFields_sync ..), headerOfFields_freq, headerOfFields_blocks, headerOfFields_mode,
    headerOfFields_alloc, headerOfFields_subbands, headerOfFields_bitpool, headerOfFields_crc]

/-- R58: a word with the mSBC syncword is a header exactly when its reserved bits are zero. -/
theorem decodeHeader_msbcWord (r : BitVec 16) (c : BitVec 8) :
    decodeHeader (0xAD#8 ++ r ++ c) = if r = 0#16 then .ok (.msbcFrameHeader c) else .error .reservedNotZero := by
  rw [decodeHeader, msbcWord_sync, if_neg (by decide), if_pos rfl, msbcWord_reserved, msbcWord_crc]

/-- Well-formed header fields are numbers their codes stand for (R56, R57). -/
theorem wellFormed_sbcFrameHeader {freq : Freq} {blocks : Nat} {mode : Mode} {alloc : Alloc} {subbands bitpool : Nat} {crc : BitVec 8} :
    (Instr.sbcFrameHeader freq blocks mode alloc subbands bitpool crc).wellFormed = true
      ↔ blocksEncodable blocks = true ∧ subbandsEncodable subbands = true ∧ bitpool < 256 := by
  simp only [Instr.wellFormed, bitpoolEncodable, Bool.and_eq_true, decide_eq_true_eq, and_assoc]

theorem decode_encode_sbcFrameHeader (freq : Freq) {blocks : Nat} (mode : Mode) (alloc : Alloc) {subbands bitpool : Nat}
    (crc : BitVec 8) (hblocks : blocksEncodable blocks = true) (hsubbands : subbandsEncodable subbands = true) (hpool : bitpool < 256) :
    decode (encode (.sbcFrameHeader freq blocks mode alloc subbands bitpool crc))
      = .ok (.sbcFrameHeader freq blocks mode alloc subbands bitpool crc) := by
  refine (decodeHeader_headerOfFields ..).trans ?_
  rw [Freq.ofCode_code, Mode.ofCode_code, Alloc.ofCode_code, codeOfCount_blocks hblocks, codeOfCount_subbands hsubbands,
    BitVec.toNat_ofNat, Nat.mod_eq_of_lt hpool]

theorem decode_encode_msbcFrameHeader (crc : BitVec 8) : decode (encode (.msbcFrameHeader crc)) = .ok (.msbcFrameHeader crc) :=
  (decodeHeader_msbcWord 0 crc).trans (if_pos rfl)

/-- Settles O1: command words and internal codes are read back from the tables, headers field by field. -/
theorem decodeEncodeAgree : Obligations.DecodeEncodeAgree := by
  unfold Obligations.DecodeEncodeAgree
  intro i hwf
  cases i
  case sbcFrameHeader freq blocks mode alloc subbands bitpool crc =>
    obtain ⟨hblocks, hsubbands, hpool⟩ := wellFormed_sbcFrameHeader.1 hwf
    exact decode_encode_sbcFrameHeader freq mode alloc crc hblocks hsubbands hpool
  case msbcFrameHeader crc => exact decode_encode_msbcFrameHeader crc
  all_goals rfl

/-! ### A word has one meaning -/

theorem encode_of_decodeCmd {w : BitVec 32} {i : Instr} (h : decodeCmd w = .ok i) : i.wellFormed = true ∧ encode i = .cmd w := by
  unfold decodeCmd at h
  split at h <;> cases h
  all_goals
    rename_i hw
    exact ⟨rfl, congrArg Fetched.cmd (BitVec.eq_of_toNat_eq hw.symm)⟩

theorem encode_of_decodeUop {code : BitVec 8} {i : Instr} (h : decodeUop code = .ok i) :
    i.wellFormed = true ∧ encode i = .uop code := by
  unfold decodeUop at h
  split at h <;> cases h
  all_goals
    rename_i hcode
    exact ⟨rfl, congrArg Fetched.uop (BitVec.eq_of_toNat_eq hcode.symm)⟩

/-- The fields of a header are the whole word (R55, R58), and each count has the one code it came from (R57). -/
theorem encode_of_decodeHeader {w : BitVec 32} {i : Instr} (h : decodeHeader w = .ok i) :
    i.wellFormed = true ∧ encode i = .header w := by
  unfold decodeHeader at h
  split at h
  next hsync =>
    cases h
    obtain ⟨hblocks, hblocksCode⟩ := countOfCode_blocks (w.extractLsb' 20 2)
    obtain ⟨hsubbands, hsubbandsCode⟩ := countOfCode_subbands (w.extractLsb' 16 1)
    refine ⟨wellFormed_sbcFrameHeader.2 ⟨hblocks, hsubbands, (w.extractLsb' 8 8).isLt⟩, congrArg Fetched.header ?_⟩
    rw [Freq.code_ofCode, Mode.code_ofCode, Alloc.code_ofCode, hblocksCode, hsubbandsCode, BitVec.ofNat_toNat, BitVec.setWidth_eq,
      ← hsync]
    exact headerOfFields_extract w
  next =>
    split at h
    next hsync =>
      split at h <;> cases h
      rename_i hreserved
      refine ⟨rfl, congrArg Fetched.header ?_⟩
      rw [← hsync, ← hreserved]
      exact msbcWord_extract w
    next => cases h

/-- Settles O2, by the kind of word. -/
theorem everyWordHasOneMeaning : Obligations.EveryWordHasOneMeaning := by
  unfold Obligations.EveryWordHasOneMeaning
  intro f i h
  cases f with
  | cmd w => exact encode_of_decodeCmd h
  | uop code => exact encode_of_decodeUop h
  | header w => exact encode_of_decodeHeader h

/-! ### Header words as numbers -/

theorem toNat_append_eq_add {n k : Nat} (x : BitVec n) (y : BitVec k) : (x ++ y).toNat = x.toNat * 2 ^ k + y.toNat := by
  rw [BitVec.toNat_append, ← Nat.shiftLeft_add_eq_or_of_lt y.isLt, Nat.shiftLeft_eq]

/-- R55: the word of a header as the number of its fields, each at its place. -/
theorem headerOfFields_ofNat {y f b m a s p c : Nat} (hf : f < 4) (hb : b < 4) (hm : m < 4) (ha : a < 2)
    (hs : s < 2) (hp : p < 256) (hc : c < 256) :
    headerOfFields (BitVec.ofNat 8 y) (BitVec.ofNat 2 f) (BitVec.ofNat 2 b) (BitVec.ofNat 2 m) (BitVec.ofNat 1 a)
        (BitVec.ofNat 1 s) (BitVec.ofNat 8 p) (BitVec.ofNat 8 c)
      = BitVec.ofNat 32 (y * 2 ^ 24 + f * 2 ^ 22 + b * 2 ^ 20 + m * 2 ^ 18 + a * 2 ^ 17 + s * 2 ^ 16 + p * 2 ^ 8 + c) := by
  apply BitVec.eq_of_toNat_eq
  unfold headerOfFields
  iterate 7 rw [toNat_append_eq_add]
  simp only [BitVec.toNat_ofNat]
  omega

theorem freq_ofCode_ofNat {f : Nat} (hf : f < 4) :
    Freq.ofCode (BitVec.ofNat 2 f) = [Freq.f16k, .f32k, .f44k1, .f48k].getD f .f16k := by
  interval_cases f <;> rfl

theorem mode_ofCode_ofNat {m : Nat} (hm : m < 4) :
    Mode.ofCode (BitVec.ofNat 2 m) = [Mode.mono, .dualChannel, .stereo, .jointStereo].getD m .mono := by
  interval_cases m <;> rfl

theorem alloc_ofCode_ofNat {a : Nat} (ha : a < 2) : Alloc.ofCode (BitVec.ofNat 1 a) = [Alloc.loudness, .snr].getD a .loudness := by
  interval_cases a <;> rfl

/-- R56: a count is four times its code and one more. -/
theorem countOfCode_ofNat {n code : Nat} (hcode : code < 2 ^ n) : countOfCode (BitVec.ofNat n code).toNat = 4 * (1 + code) := by
  rw [BitVec.toNat_ofNat, Nat.mod_eq_of_lt hcode, countOfCode, Nat.shiftLeft_eq, Nat.mul_comm]

/-- Settles O3: the number is the word of those codes, and each field is decoded by itself. -/
theorem headerFieldsDecode : Obligations.HeaderFieldsDecode := by
  unfold Obligations.HeaderFieldsDecode
  intro f bc m a sc bp crc hf hbc hm ha hsc hbp hcrc
  rw [← headerOfFields_ofNat hf hbc hm ha hsc hbp hcrc]
  refine (decodeHeader_headerOfFields ..).trans ?_
  rw [freq_ofCode_ofNat hf, countOfCode_ofNat hbc, mode_ofCode_ofNat hm, alloc_ofCode_ofNat ha, countOfCode_ofNat hsc,
    BitVec.toNat_ofNat, Nat.mod_eq_of_lt hbp]

/-- Settles O4: each word is looked up, or its fields taken apart. -/
theorem specWordsDecode : Obligations.SpecWordsDecode := by
  unfold Obligations.SpecWordsDecode
  decide

namespace Machine

/-! ### Words outside the table -/

/-- R53: the eight words of R52 are all that decode. -/
theorem decodeCmd_illegal {w : Word} (hw : w ∉ [0x01, 0x02, 0x03, 0x10, 0x11, 0x20, 0x30, 0x31]) :
    decodeCmd w = .error .illegalCommand := by
  unfold decodeCmd
  split
  case h_9 => rfl
  all_goals
    rename_i hvalue
    have hword : BitVec.ofNat 32 w.toNat = w := BitVec.ofNat_toNat .. |>.trans (BitVec.setWidth_eq w)
    rw [hvalue] at hword
    exact absurd (hword ▸ by decide) hw

/-- What the sequencer's turn does with a word that does not decode. -/
theorem sequencerTurn_error {s : State} {p : Pending} {f : Fetched} {r : Reject} (hphase : s.phase = .busy p)
    (hfetch : s.fetch p = some f) (hdecode : decode f = .error r) : sequencerTurn s = rejectFetched r s := by
  unfold sequencerTurn runPending
  simp only [hphase, hfetch, hdecode]

/-- Settles O6: the sequencer's turn rejects the word, and rejecting a command word only completes it. -/
theorem otherWordsAreIllegal : Obligations.OtherWordsAreIllegal := by
  unfold Obligations.OtherWordsAreIllegal
  intro s rest w hphase hin hw
  rw [step_sequencer hin]
  exact sequencerTurn_error (s := { s with inputs := rest }) hphase rfl (decodeCmd_illegal hw)

/-! ### Received headers -/

/-- R77: with the flag clear the header of a valid descriptor becomes the frame's. -/
theorem receiveHeader_accepted {s : State} {d : Desc} (herr : s.pass.bs.err = false) (hvalid : isValid d = true) (crc : BitVec 8) :
    receiveHeader d crc s = .ok { s with pass := { s.pass with
      bs := { s.pass.bs with pos := s.pass.bs.pos + 32 }, desc := d, crcRx := crc } } := by
  unfold receiveHeader acceptHeader
  rw [if_neg (by simp [herr]), if_neg (by simp [hvalid])]
  rfl

/-- R77: with the flag set, or with a descriptor that is not valid, a header raises. -/
theorem receiveHeader_raised {s : State} {d : Desc} (h : s.pass.bs.err = true ∨ isValid d = false) (crc : BitVec 8) :
    receiveHeader d crc s = .raised .malformedHeader (s.setBs { s.pass.bs with pos := s.pass.bs.pos + 32 }) := by
  unfold receiveHeader acceptHeader
  rcases h with herr | hinvalid
  · rw [if_pos (by exact herr)]
  · simp only [hinvalid, Bool.not_false, if_true, ite_self]

/-- Settles O23: the checks of a received header, on the descriptor of its fields. -/
theorem sbcHeaderIsAccepted : Obligations.SbcHeaderIsAccepted := by
  unfold Obligations.SbcHeaderIsAccepted
  intro s freq blocks mode alloc subbands bitpool crc i d bs _
  exact ⟨fun herr hvalid => runUop_of_ok (receiveHeader_accepted herr hvalid crc),
    fun h => runUop_of_raised (receiveHeader_raised h crc)⟩

/-- Settles O24: the word of an mSBC header, and the checks of a received header on `MSBC_D`. -/
theorem msbcHeaderIsAccepted : Obligations.MsbcHeaderIsAccepted := by
  unfold Obligations.MsbcHeaderIsAccepted
  refine ⟨fun crc => ?_, fun r crc hr => ?_, fun s crc herr => ?_, fun s crc herr => ?_, rfl⟩
  · have hword : encode (.msbcFrameHeader crc) = .header (0xAD0000#24 ++ crc) := rfl
    exact ⟨hword, hword ▸ decode_encode_msbcFrameHeader crc⟩
  · exact (decodeHeader_msbcWord r crc).trans (if_neg hr)
  · exact runUop_of_ok (receiveHeader_accepted herr isValid_msbcDesc crc)
  · exact runUop_of_raised (receiveHeader_raised (.inl herr) crc)

end Machine

end Sys2Proof
end

section
/-! PROOF. What a writer has stored once its last byte is flushed (R68, R69). -/

namespace Sys2Proof.Machine

/-- `bits` with zero bits up to the byte boundary (R69). -/
def padded (bits : List Bool) : List Bool := bits ++ fieldBits 0 ((8 - bits.length % 8) % 8)

theorem padded_length (bits : List Bool) : (padded bits).length = 8 * ((bits.length + 7) / 8) := by
  rw [padded, List.length_append, fieldBits_length]
  omega

theorem padded_get {bits : List Bool} {q : Nat} (hq : q < bits.length) : (padded bits)[q]? = bits[q]? :=
  List.getElem?_append_left hq

theorem padded_get_zero {bits : List Bool} {q : Nat} (hq : bits.length ≤ q) (hend : q < 8 * ((bits.length + 7) / 8)) :
    (padded bits)[q]? = some false := by
  rw [padded, List.getElem?_append_right hq, fieldBits_eq_ofFn, List.getElem?_ofFn, dif_pos (by omega)]
  exact congrArg some BitVec.getLsbD_zero

section
variable {m : Mem 8} {b : Bs} {bits : List Bool} {w : Mem 8 × Bs}

/-- Inside the declared size the flag stays as it was. -/
theorem Wrote.inside (h : Wrote m b bits w) (hroom : b.pos - b.acc.length + bits.length ≤ 8 * b.size) :
    w.2 = { b with pos := b.pos - b.acc.length + bits.length, acc := bits.drop (8 * (bits.length / 8)) } := by
  have herr : ¬(0 < bits.length / 8 ∧ b.size < (b.pos - b.acc.length) / 8 + bits.length / 8) := by omega
  rw [h.snd, decide_eq_false herr, Bool.or_false]

/-- Whole bytes written leave nothing pending. -/
theorem Wrote.padded_bs (h : Wrote m b (padded bits) w) : w.2 = { b with
    pos := b.pos - b.acc.length + 8 * ((bits.length + 7) / 8)
    acc := []
    err := b.err || decide (0 < (bits.length + 7) / 8 ∧ b.size < (b.pos - b.acc.length) / 8 + (bits.length + 7) / 8) } := by
  rw [h.snd, padded_length, Nat.mul_div_cancel_left _ (by decide), ← padded_length, List.drop_length]

theorem Wrote.padded_bs_inside (h : Wrote m b (padded bits) w)
    (hroom : b.pos - b.acc.length + 8 * ((bits.length + 7) / 8) ≤ 8 * b.size) :
    w.2 = { b with pos := b.pos - b.acc.length + 8 * ((bits.length + 7) / 8), acc := [] } := by
  have herr : ¬(0 < (bits.length + 7) / 8 ∧ b.size < (b.pos - b.acc.length) / 8 + (bits.length + 7) / 8) := by omega
  rw [h.padded_bs, decide_eq_false herr, Bool.or_false]

/-- A bit inside the declared size, counted from the byte of the first pending one. -/
theorem Wrote.padded_bit (h : Wrote m b (padded bits) w) {q : Nat} (hq : q < 8 * ((bits.length + 7) / 8))
    (hroom : 8 * ((b.pos - b.acc.length) / 8) + q < 8 * b.size) :
    Machine.frameBit w.1 (8 * ((b.pos - b.acc.length) / 8) + q) = (padded bits)[q]? := by
  have hlen := padded_length bits
  exact h.frameBit (by omega) (by omega) (by omega)

/-- A writer whose position says how many bits are pending has its bits in the frame from its position on. -/
theorem Wrote.aligned_bit (h : Wrote m b (padded bits) w) (haligned : b.acc.length = b.pos % 8) {q : Nat}
    (hq : b.acc.length + q < bits.length) (hroom : b.pos + q < 8 * b.size) :
    Machine.frameBit w.1 (b.pos + q) = bits[b.acc.length + q]? := by
  have hbit := h.padded_bit (q := b.acc.length + q) (by omega) (by omega)
  rwa [padded_get hq, show 8 * ((b.pos - b.acc.length) / 8) + (b.acc.length + q) = b.pos + q by omega] at hbit

end

end Sys2Proof.Machine
end

section
/-! PROOF. The side information of a frame, bit by bit (R60, R61, R82, R83). -/

namespace Sys2Proof.Machine

/-! ### Its place -/

/-- The bits of the joint mask: one a subband in JointStereo, none in the other modes (R60). -/
def maskBits (d : Desc) : Nat := if d.mode = .jointStereo then d.subbands else 0

theorem coveredSideBits_eq_maskBits (d : Desc) : coveredSideBits d = maskBits d + 4 * d.subbands * channelCount d := by
  rw [coveredSideBits, maskBits, jointStereo_eq]
  simp only [decide_eq_true_eq]

theorem maskBits_of_joint {d : Desc} (h : d.mode = .jointStereo) : maskBits d = d.subbands := if_pos h

theorem maskBits_of_not_joint {d : Desc} (h : d.mode ≠ .jointStereo) : maskBits d = 0 := if_neg h

/-- A pair's index lies among the pairs. -/
theorem pairIndex_lt {C M c b : Nat} (hc : c < C) (hb : b < M) : c * M + b < C * M :=
  calc c * M + b < c * M + M := by omega
    _ = (c + 1) * M := (Nat.succ_mul c M).symm
    _ ≤ C * M := Nat.mul_le_mul_right M hc

/-- The bits of a scale factor lie among those of all of them. -/
theorem scaleFactorBit_lt {C M c b k : Nat} (hc : c < C) (hb : b < M) (hk : k < 4) : 4 * (c * M + b) + k < 4 * M * C := by
  have hpair := pairIndex_lt hc hb
  have hcomm : 4 * M * C = 4 * (C * M) := by ring
  omega

/-! ### `SIDE_WRITE` -/

/-- The scale factors as fields (R61). -/
def scaleFactorFields (p : Pass) : List (Word × Nat) := (pairOrder p.desc).map fun cs => ((p.scfAt cs.1 cs.2).setWidth 32, 4)

theorem scaleFactorFields_bit (p : Pass) {c b k : Nat} (hc : c < channelCount p.desc) (hb : b < p.desc.subbands) (hk : k < 4) :
    (bitsOfFields (scaleFactorFields p))[4 * (c * p.desc.subbands + b) + k]? = some ((p.scfAt c b).getLsbD (3 - k)) := by
  have hfield : (scaleFactorFields p)[c * p.desc.subbands + b]? = some ((p.scfAt c b).setWidth 32, 4) := by
    rw [scaleFactorFields, List.getElem?_map, pairOrder_get p.desc hc hb]
    rfl
  have hwidth : ∀ f ∈ scaleFactorFields p, f.2 = 4 := by
    intro f hf
    obtain ⟨cs, -, rfl⟩ := List.mem_map.1 hf
    rfl
  rw [bitsOfFields_uniform hwidth hfield hk, BitVec.getLsbD_setWidth, decide_eq_true (by omega), Bool.true_and]

/-- The bits of the side information are the mask's and then the scale factors'. -/
theorem sideFields_split (p : Pass) : ∃ mask : List Bool, bitsOfFields (sideFields p) = mask ++ bitsOfFields (scaleFactorFields p)
    ∧ mask.length = maskBits p.desc
    ∧ (p.desc.subbands = 4 ∨ p.desc.subbands = 8 → ∀ b < maskBits p.desc, mask[b]? = some (p.joint.getLsbD b)) := by
  unfold sideFields
  by_cases hmode : p.desc.mode = .jointStereo
  · refine ⟨fieldBits (maskField p.desc.subbands p.joint) p.desc.subbands, ?_, ?_, fun hM b hb => ?_⟩
    · rw [jointStereo_eq, if_pos (decide_eq_true hmode)]
      rfl
    · rw [fieldBits_length, maskBits_of_joint hmode]
    · rw [maskBits_of_joint hmode] at hb
      rw [fieldBits_eq_ofFn, List.getElem?_ofFn, dif_pos hb, maskField_getLsbD hM p.joint hb]
  · refine ⟨[], ?_, ?_, fun _ b hb => ?_⟩
    · rw [jointStereo_eq, if_neg (by simp [hmode])]
      rfl
    · rw [maskBits_of_not_joint hmode, List.length_nil]
    · rw [maskBits_of_not_joint hmode] at hb
      omega

/-- R82: what `SIDE_WRITE` writes. -/
theorem sideWrite_wrote {s : State} (hsub : s.pass.desc.subbands = 4 ∨ s.pass.desc.subbands = 8) (hacc : s.pass.bs.acc.length < 8)
    (hpos : s.pass.bs.acc.length ≤ s.pass.bs.pos) : ∃ w : Mem 8 × Bs, sideWrite s = .ok (s.setWriter w)
      ∧ Wrote s.frameBuf s.pass.bs (s.pass.bs.acc ++ bitsOfFields (sideFields s.pass)) w := by
  refine ⟨_, ?_, (Wrote.start s.frameBuf s.pass.bs hacc hpos).putFields (sideFields s.pass)⟩
  rw [sideWrite, writeFields, if_pos (sideFields_ok hsub)]
  rfl

/-- Settles O28: the bits written are those of the side fields, and the flush stores the last of them. -/
theorem sideWriteLayout : Obligations.SideWriteLayout := by
  unfold Obligations.SideWriteLayout
  intro s size d js len hv hbs hroom
  have hacc : s.pass.bs.acc = [] := by rw [hbs]
  have hpending : s.pass.bs.acc.length = 0 := by rw [hacc, List.length_nil]
  have hpos : s.pass.bs.pos = 32 := by rw [hbs]
  have hsize : s.pass.bs.size = size := by rw [hbs]
  obtain ⟨w, hwrite, hwrote⟩ := sideWrite_wrote hv.subbands (by omega) (by omega)
  obtain ⟨mask, hsplit, hmask, hjoint⟩ := sideFields_split s.pass
  have hmask : mask.length = js := hmask
  rw [hacc, List.nil_append] at hwrote
  have hflush : Wrote s.frameBuf s.pass.bs (padded (bitsOfFields (sideFields s.pass))) (Bs.flush w) := hwrote.flush
  have hlen : (bitsOfFields (sideFields s.pass)).length = len := by
    rw [bitsOfFields_length, sideFields_bits]
    exact coveredSideBits_eq_maskBits d
  have hwritten : w.2 = ⟨.write, size, 32 + len, w.2.acc, false⟩ := by
    rw [hwrote.inside (by omega), hlen, hbs]
    rfl
  have hflushed : (Bs.flush w).2 = ⟨.write, size, 8 * ((32 + len + 7) / 8), [], false⟩ := by
    have hend : 8 * ((32 + len + 7) / 8) = 32 + 8 * ((len + 7) / 8) := by omega
    rw [hflush.padded_bs_inside (by omega), hlen, hbs, hend]
    rfl
  have hbit : ∀ q < len, frameBit (Bs.flush w).1 (32 + q) = (bitsOfFields (sideFields s.pass))[q]? := by
    intro q hq
    have hbit := hflush.aligned_bit (q := q) (by omega) (by omega) (by omega)
    rwa [hpos, hpending, Nat.zero_add] at hbit
  refine ⟨w.1, (Bs.flush w).1, w.2.acc, ?_, ?_, fun b hb => ?_, fun c hc b hb k hk => ?_, fun a ha => ?_⟩
  · rw [← hwritten]
    exact runUop_of_ok hwrite
  · rw [← hwritten, ← hflushed]
    rfl
  · rw [hbit b (by omega), hsplit, List.getElem?_append_left (by rw [hmask]; exact hb)]
    exact hjoint hv.subbands b hb
  · have hlt := scaleFactorBit_lt hc hb hk
    rw [Nat.add_assoc, Nat.add_assoc, hbit _ (by omega), hsplit, List.getElem?_append_right (by omega), hmask,
      Nat.add_sub_cancel_left]
    exact scaleFactorFields_bit s.pass hc hb hk
  · refine hflush.other a ?_
    rw [padded_length, hlen, hpos, hpending, hsize]
    omega

/-! ### `SIDE_READ` -/

/-- Fields of one width, where every bit has a value. -/
theorem Bs.getFields_replicate {m : Mem 8} {n : Nat} (hn : n ≤ 32) (count : Nat) {bs : Bs} (hroom : bs.pos + n * count ≤ 8 * bs.size)
    (hwritten : ∀ q < n * count, (frameBit m (bs.pos + q)).isSome = true) :
    ∃ vs, Bs.getFields m (List.replicate count n) bs = some (vs, { bs with pos := bs.pos + n * count })
      ∧ ∀ i < count, ∀ k < n, some ((vs.getD i 0).getLsbD (n - 1 - k)) = frameBit m (bs.pos + (n * i + k)) := by
  induction count generalizing bs with
  | zero => exact ⟨[], rfl, fun i hi => absurd hi (Nat.not_lt_zero i)⟩
  | succ count ih =>
    rw [Nat.mul_succ] at hroom hwritten ⊢
    obtain ⟨bits, hlen, hbit⟩ := exists_bits (n := n) (f := fun q => frameBit m (bs.pos + q)) fun q hq => hwritten q (by omega)
    have hfirst := Bs.getBits_inside (m := m) (bs := bs) (bits := bits) (by omega) hbit
    rw [hlen] at hfirst
    obtain ⟨vs, hrest, hvs⟩ := ih (bs := { bs with pos := bs.pos + n }) (by dsimp only; omega) fun q hq => by
      rw [Nat.add_assoc]
      exact hwritten (n + q) (by omega)
    refine ⟨wordOfBits bits :: vs, ?_, fun i hi k hk => ?_⟩
    · rw [List.replicate_succ, Bs.getFields, hfirst]
      dsimp only
      rw [hrest, Option.map_some, Nat.add_assoc, Nat.add_comm n]
    · cases i with
      | zero =>
        have hplace : bits.length - 1 - (n - 1 - k) = k := by omega
        rw [List.getD_cons_zero, wordOfBits_getLsbD (by omega), if_pos (by omega), hplace, Nat.mul_zero, Nat.zero_add,
          hbit k (by omega), List.getD_eq_getElem]
      | succ i =>
        rw [List.getD_cons_succ, hvs i (by omega) k hk, Nat.mul_succ]
        congr 1
        dsimp only
        omega

/-- R83: the scale-factor reads, where every bit has a value. -/
theorem readScaleFactors_bits (joint : BitVec 8) {s : State}
    (hroom : s.pass.bs.pos + 4 * s.pass.desc.subbands * channelCount s.pass.desc ≤ 8 * s.pass.bs.size)
    (hwritten : ∀ q < 4 * s.pass.desc.subbands * channelCount s.pass.desc, (frameBit s.frameBuf (s.pass.bs.pos + q)).isSome = true) :
    ∃ scf, readScaleFactors joint s = .ok { s with pass := { s.pass with
        bs := { s.pass.bs with pos := s.pass.bs.pos + 4 * s.pass.desc.subbands * channelCount s.pass.desc }
        joint := joint
        scf := scf } }
      ∧ ∀ c < channelCount s.pass.desc, ∀ b < s.pass.desc.subbands, ∀ k < 4,
          some ((at2 0 scf c b).getLsbD (3 - k)) = frameBit s.frameBuf (s.pass.bs.pos + (4 * (c * s.pass.desc.subbands + b) + k)) := by
  have hwidths : (pairOrder s.pass.desc).map (fun _ => 4) = List.replicate (channelCount s.pass.desc * s.pass.desc.subbands) 4 := by
    rw [List.map_const', pairOrder_length]
  have hbits : 4 * s.pass.desc.subbands * channelCount s.pass.desc = 4 * (channelCount s.pass.desc * s.pass.desc.subbands) := by ring
  rw [hbits] at hroom hwritten ⊢
  obtain ⟨vs, hread, hvs⟩ := Bs.getFields_replicate (by decide) _ hroom hwritten
  refine ⟨_, by rw [readScaleFactors, hwidths, hread], fun c hc b hb k hk => ?_⟩
  rw [at2_build2 0 _ hc hb, BitVec.getLsbD_setWidth, decide_eq_true (by omega), Bool.true_and]
  exact hvs _ (pairIndex_lt hc hb) k hk

/-- R60, R83: `JOINT` holds the bits of the mask in the order they were transmitted. -/
theorem maskOfField_wordOfBits {mask : List Bool} (hlen : mask.length ≤ 32) {b : Nat} (hb : b < 8) :
    (maskOfField mask.length (wordOfBits mask)).getLsbD b = mask.getD b false := by
  rw [maskOfField_getLsbD _ _ hb, wordOfBits_getLsbD hlen]
  by_cases hmem : b < mask.length
  · rw [decide_eq_true hmem, Bool.true_and, if_pos (by omega), show mask.length - 1 - (mask.length - 1 - b) = b by omega]
  · rw [decide_eq_false hmem, Bool.false_and, List.getD_eq_default _ _ (by omega)]

/-- R83: `SIDE_READ` of a valid frame, where every bit has a value. -/
theorem sideRead_bits {s : State} (hsub : s.pass.desc.subbands = 4 ∨ s.pass.desc.subbands = 8)
    (hroom : s.pass.bs.pos + coveredSideBits s.pass.desc ≤ 8 * s.pass.bs.size)
    (hwritten : ∀ q < coveredSideBits s.pass.desc, (frameBit s.frameBuf (s.pass.bs.pos + q)).isSome = true) :
    ∃ joint scf, sideRead s = .ok { s with pass := { s.pass with
        bs := { s.pass.bs with pos := s.pass.bs.pos + coveredSideBits s.pass.desc }
        joint := joint
        scf := scf } }
      ∧ (∀ b < 8, joint.getLsbD b
          = if b < maskBits s.pass.desc then (frameBit s.frameBuf (s.pass.bs.pos + b)).getD false else false)
      ∧ ∀ c < channelCount s.pass.desc, ∀ b < s.pass.desc.subbands, ∀ k < 4, some ((at2 0 scf c b).getLsbD (3 - k))
          = frameBit s.frameBuf (s.pass.bs.pos + maskBits s.pass.desc + (4 * (c * s.pass.desc.subbands + b) + k)) := by
  rw [coveredSideBits_eq_maskBits] at hroom hwritten ⊢
  unfold sideRead
  by_cases hmode : s.pass.desc.mode = .jointStereo
  · rw [maskBits_of_joint hmode] at hroom hwritten ⊢
    obtain ⟨mask, hlen, hbit⟩ := exists_bits (n := s.pass.desc.subbands) fun q hq => hwritten q (by omega)
    have hread := Bs.getBits_inside (m := s.frameBuf) (bs := s.pass.bs) (bits := mask) (by omega) hbit
    rw [hlen] at hread
    obtain ⟨scf, hok, hscf⟩ := readScaleFactors_bits (maskOfField s.pass.desc.subbands (wordOfBits mask))
      (s := s.setBs { s.pass.bs with pos := s.pass.bs.pos + s.pass.desc.subbands })
      (by simp only [State.setBs_pass]; omega)
      (fun q hq => by
        have hvalue := hwritten (s.pass.desc.subbands + q) (Nat.add_lt_add_left hq _)
        rwa [← Nat.add_assoc] at hvalue)
    refine ⟨maskOfField s.pass.desc.subbands (wordOfBits mask), scf, ?_, fun b hb => ?_, hscf⟩
    · rw [jointStereo_eq, if_pos (decide_eq_true hmode), if_pos (widthOk_subbands hsub), hread,
        ← Nat.add_assoc]
      exact hok
    · rw [← hlen, maskOfField_wordOfBits (by omega) hb, List.getD_eq_getElem?_getD]
      split
      next hmem => rw [hbit b hmem, List.getElem?_eq_getElem hmem]
      next hpast => rw [List.getElem?_eq_none (by omega), Option.getD_none]
  · rw [maskBits_of_not_joint hmode, Nat.zero_add] at hroom hwritten ⊢
    obtain ⟨scf, hok, hscf⟩ := readScaleFactors_bits 0 hroom hwritten
    refine ⟨0, scf, ?_, fun b hb => ?_, hscf⟩
    · rw [jointStereo_eq, if_neg (by simp [hmode])]
      exact hok
    · rw [if_neg (Nat.not_lt_zero b)]
      exact BitVec.getLsbD_zero

/-- Settles O29: first the joint mask, then the scale factors, each from the bits at its place. -/
theorem sideReadFields : Obligations.SideReadFields := by
  unfold Obligations.SideReadFields
  intro s size d js len hv hbs hroom hwritten
  have hlen : coveredSideBits s.pass.desc = len := coveredSideBits_eq_maskBits d
  have hread := sideRead_bits (s := s) hv.subbands
  rw [hbs, hlen] at hread
  obtain ⟨joint, scf, hok, hjoint, hscf⟩ := hread hroom fun q hq => by
    rw [frameBit_isSome]
    exact hwritten _ (by dsimp only; omega) (by dsimp only; omega)
  refine ⟨joint, scf, runUop_of_ok hok, hjoint, fun c hc b hb k hk => ?_⟩
  rw [Nat.add_assoc _ _ k]
  exact hscf c hc b hb k hk

end Sys2Proof.Machine
end

section
/-! PROOF. The samples of a frame, bit by bit (R62, R84, R85, R106). -/

namespace Sys2Proof.Machine

/-! ### `PAYLOAD_WRITE` -/

theorem payloadFields_length (p : Pass) : (bitsOfFields (payloadFields p)).length = sampleBits p (sampleOrder p.desc) := by
  rw [bitsOfFields_length, payloadFields_eq, codedFields_widths]

/-- R62: the field of sample `(b, c, k)` stands at the place `sampleStart` counts. -/
theorem payloadFields_bit (p : Pass) {b c k q : Nat} (hb : b < p.desc.blocks) (hc : c < channelCount p.desc)
    (hk : k < p.desc.subbands) (hq : q < p.nbitsAt c k) : (bitsOfFields (payloadFields p))[p.sampleStart b c k + q]?
      = some ((quantize (p.sbEncAt c b k) (p.nbitsAt c k) (p.scfAt c k).toNat).getLsbD (p.nbitsAt c k - 1 - q)) := by
  obtain ⟨pre, post, horder, -, hstart⟩ := sampleOrder_split p hb hc hk
  rw [payloadFields_eq, horder, ← hstart]
  exact codedFields_bit (i := (b, c, k)) hq

/-- Settles O30: the pending bits, the sample fields and the padding are read off what was written. -/
theorem payloadWriteCompletes : Obligations.PayloadWriteCompletes := by
  unfold Obligations.PayloadWriteCompletes
  intro s d bs base start len bytes hacc hpos
  obtain ⟨w, hwrite, hwrote⟩ := payloadWrite_wrote s hacc hpos
  have hwrote : Wrote s.frameBuf bs (padded (bs.acc ++ bitsOfFields (payloadFields s.pass))) w := hwrote
  have hfields : (bitsOfFields (payloadFields s.pass)).length = len := (payloadFields_length s.pass).trans (sampleBits_total s.pass)
  have hlen : (bs.acc ++ bitsOfFields (payloadFields s.pass)).length = bs.acc.length + len := by rw [List.length_append, hfields]
  have hbytes : ((bs.acc ++ bitsOfFields (payloadFields s.pass)).length + 7) / 8 = bytes := by rw [hlen]
  have hbit : ∀ q < 8 * bytes, 8 * base + q < 8 * bs.size →
      frameBit w.1 (8 * base + q) = (padded (bs.acc ++ bitsOfFields (payloadFields s.pass)))[q]? := by
    intro q hq hroom
    exact hwrote.padded_bit (by rw [hbytes]; exact hq) hroom
  refine ⟨w.1, ?_, fun a ha => ?_, fun q hq hroom => ?_, ?_, fun p hp hroom => ?_⟩
  · rw [← hbytes, ← hwrote.padded_bs]
    exact runUop_of_ok hwrite
  · refine hwrote.other a ?_
    rw [padded_length, hbytes, Nat.mul_div_cancel_left _ (by decide)]
    exact ha
  · rw [hbit q (by omega) (by omega), padded_get (by omega), List.getElem?_append_left hq, List.getElem?_eq_getElem hq,
      List.getD_eq_getElem]
  · intro b hb c hc k hk n code q hq hroom
    have hfield := payloadFields_bit s.pass hb hc hk hq
    obtain ⟨hlt, -⟩ := List.getElem?_eq_some_iff.1 hfield
    rw [show start + s.pass.sampleStart b c k + q = 8 * base + (bs.acc.length + (s.pass.sampleStart b c k + q)) by omega,
      hbit _ (by omega) (by omega), padded_get (by omega), List.getElem?_append_right (by omega), Nat.add_sub_cancel_left]
    exact hfield
  · obtain ⟨q, rfl⟩ : ∃ q, p = 8 * base + q := ⟨p - 8 * base, by omega⟩
    rw [hbit q (by omega) (by omega)]
    exact padded_get_zero (by omega) (by omega)

/-! ### `PAYLOAD_READ` -/

/-- R85: the samples read are stored as `SB[c][b][s]`. -/
theorem payloadRead_samples {s : State} {vs : List I32} {bs : Bs}
    (hread : readSamples Config.rangeScale s.frameBuf s.pass (sampleOrder s.pass.desc) s.pass.bs = some (vs, bs)) :
    ∃ sb, payloadRead s = .ok { s with pass := { s.pass with bs := bs, sbDec := sb } }
      ∧ ∀ c < channelCount s.pass.desc, ∀ b < s.pass.desc.blocks, ∀ k < s.pass.desc.subbands,
          at3 0 sb c b k = vs.getD ((b * channelCount s.pass.desc + c) * s.pass.desc.subbands + k) 0 := by
  refine ⟨_, by rw [payloadRead, hread], fun c hc b hb k hk => ?_⟩
  exact at3_build3 0 _ hc hb hk

/-- Settles O31: the samples are read in the order of R62, each from the bits at its place. -/
theorem payloadReadCompletes : Obligations.PayloadReadCompletes := by
  unfold Obligations.PayloadReadCompletes
  intro s d bs len hroom hwritten
  have hlen : sampleBits s.pass (sampleOrder d) = len := sampleBits_total s.pass
  obtain ⟨vs, hread, -, hsample⟩ := readSamples_bits (rs := Config.rangeScale) (m := s.frameBuf) (p := s.pass) (is := sampleOrder d)
    (bs := bs) (by rw [hlen]; exact hroom) fun q hq => by
      rw [frameBit_isSome]
      exact hwritten _ (by omega) (by omega)
  rw [hlen] at hread
  obtain ⟨sb, hok, hsb⟩ := payloadRead_samples hread
  refine ⟨sb, runUop_of_ok hok, fun c hc b hb k hk => ?_⟩
  obtain ⟨pre, post, horder, hindex, hstart⟩ := sampleOrder_split s.pass hb hc hk
  obtain ⟨hzero, hcode⟩ := hsample _ (b, c, k) (sampleOrder_get d hb hc hk)
  have htake : (sampleOrder d).take ((b * channelCount d + c) * d.subbands + k) = pre := by
    rw [horder]
    exact List.take_left' hindex
  rw [hsb c hc b hb k hk, List.getD_eq_getElem?_getD]
  refine ⟨fun h0 => by rw [hzero h0, Option.getD_some], fun n hn => ?_⟩
  obtain ⟨raw, hraw, hbits, hvalue⟩ := hcode n hn
  rw [htake, hstart] at hbits
  exact ⟨raw, hraw, hbits, by rw [hvalue, Option.getD_some]; rfl⟩

/-- Settles O32: the bits from the position on are those of the sample fields, and each is read with the width it was written
with. -/
theorem payloadRoundTrip : Obligations.PayloadRoundTrip := by
  unfold Obligations.PayloadRoundTrip
  intro s t u d bs len haligned hroom hwritten hu
  obtain ⟨w, hwrite, hwrote⟩ := payloadWrite_wrote s (by rw [haligned]; exact Nat.mod_lt _ (by decide)) (haligned ▸ Nat.mod_le ..)
  have hwrote : Wrote s.frameBuf bs (padded (bs.acc ++ bitsOfFields (payloadFields s.pass))) w := hwrote
  have hfields : (bitsOfFields (payloadFields s.pass)).length = len := payloadFields_length s.pass
  have ht : t = s.setWriter w := (Host.Outcome.next.inj ((runUop_of_ok hwrite).symm.trans hwritten)).symm
  subst ht hu
  have hbit : ∀ q < len, frameBit w.1 (bs.pos + q) = (bitsOfFields (payloadFields s.pass))[q]? := by
    intro q hq
    rw [hwrote.aligned_bit haligned (by rw [List.length_append, hfields]; omega) (by omega),
      List.getElem?_append_right (by omega), Nat.add_sub_cancel_left]
  obtain ⟨vs, hread, -, hsample⟩ := readSamples_codes (rs := Config.rangeScale) (m := w.1) (is := sampleOrder d)
    (p := { s.pass with bs := ⟨.read, bs.size, bs.pos, [], false⟩ }) (bs := ⟨.read, bs.size, bs.pos, [], false⟩)
    (g := fun i => quantize (s.pass.sbEncAt i.2.1 i.1 i.2.2) (s.pass.nbitsAt i.2.1 i.2.2) (s.pass.scfAt i.2.1 i.2.2).toNat)
    hroom hbit
  obtain ⟨sb, hok, hsb⟩ := payloadRead_samples
    (s := { s.setWriter w with pass := { s.pass with bs := ⟨.read, bs.size, bs.pos, [], false⟩ } }) hread
  refine ⟨sb, runUop_of_ok hok, fun c hc b hb k hk n hn => ?_⟩
  obtain ⟨-, hcode⟩ := hsample _ (b, c, k) (sampleOrder_get d hb hc hk)
  rw [hsb c hc b hb k hk, List.getD_eq_getElem?_getD]
  have hvalue := hcode n hn
  dsimp only at hvalue ⊢
  rw [hvalue, Option.getD_some, hn]
  rfl

end Sys2Proof.Machine
end

section
/-! PROOF. What the operations of the bitstream read and write, bit by bit (R65 to R70). -/

namespace Sys2Proof.Machine

/-! ### Operations that stop -/

theorem runUop_of_fault {body : State → Micro} {s : State} {f : Fault} (h : body s = .fault f) : runUop body s = .fault f := by
  simp [runUop, h]

theorem runUop_of_refused {body : State → Micro} {s : State} {r : Refusal} (h : body s = .refused r) :
    runUop body s = .refused r := by
  simp [runUop, h]

/-- R66, R68: the widths the source defines, and those a model refuses. -/
theorem widthOk_of_inside {n : Nat} (h1 : 1 ≤ n) (h32 : n ≤ 32) : widthOk n = true := decide_eq_true ⟨h1, h32⟩

theorem widthOk_of_outside {n : Nat} (h : n = 0 ∨ 32 < n) : widthOk n = false := decide_eq_false (by omega)

/-! ### Binding and position -/

/-- Settles O16: both operations always run. -/
theorem bindAndPosition : Obligations.BindAndPosition := by
  unfold Obligations.BindAndPosition
  exact fun s => ⟨runUop_of_ok rfl, runUop_of_ok rfl⟩

/-! ### Reading -/

section
variable {m : Mem 8} {n : Nat} {bs : Bs}

/-- The value of a bit as the reader sees it (R66). -/
theorem bitAt_eq_some {size p : Nat} {b : Bool} (h : bitAt m size p = some b) :
    b = if p < 8 * size then ((Mem.read m (p / 8)).getD 0).getLsbD (7 - p % 8) else false := by
  unfold bitAt at h
  split at h
  · obtain ⟨x, hx, rfl⟩ := Option.map_eq_some_iff.1 h
    rw [if_pos ‹_›, hx, Option.getD_some]
  · rw [if_neg ‹_›]
    exact (Option.some.inj h).symm

theorem Bs.skip_eq_of_pos (hn : 1 ≤ n) (bs : Bs) :
    bs.skip n = { bs with pos := bs.pos + n, err := bs.err || decide (8 * bs.size < bs.pos + n) } := by
  have herr : (0 < n ∧ 8 * bs.size < bs.pos + n) ↔ 8 * bs.size < bs.pos + n := and_iff_right hn
  simp only [Bs.skip, Bs.noteError, herr]

/-- R66: where the next `n` bits have values, they are the `n` low bits of the word read, the first of them most significant. -/
theorem Bs.getBits_reads (hn : n ≤ 32) (h : ∀ k < n, (bitAt m bs.size (bs.pos + k)).isSome = true) :
    ∃ v, bs.getBits m n = some (v, bs.skip n)
      ∧ (∀ k < n, bitAt m bs.size (bs.pos + k) = some (v.getLsbD (n - 1 - k))) ∧ ∀ j, n ≤ j → v.getLsbD j = false := by
  obtain ⟨bits, rfl, hbits⟩ := exists_bits h
  refine ⟨wordOfBits bits, Bs.getBits_of_bits hbits, fun k hk => ?_, fun j hj => ?_⟩
  · rw [hbits k hk, wordOfBits_getLsbD hn, if_pos (by omega),
      show bits.length - 1 - (bits.length - 1 - k) = k by omega, List.getD_eq_getElem]
  · rw [wordOfBits_getLsbD hn, if_neg (by omega)]

end

section
variable {s : State}

/-- A bit of the next `s.op.width` lies inside the declared size, and its byte was never written (R140). -/
def State.ReadsUnwritten (s : State) : Prop :=
  ∃ k < s.op.width, s.pass.bs.pos + k < 8 * s.pass.bs.size ∧ Mem.read s.frameBuf ((s.pass.bs.pos + k) / 8) = none

theorem State.ReadsUnwritten.getBits_eq_none (h : s.ReadsUnwritten) : s.pass.bs.getBits s.frameBuf s.op.width = none := by
  obtain ⟨k, hk, hinside, hnone⟩ := h
  exact Bs.getBits_none hk (bitAt_none hinside hnone)

theorem getBitsOp_refused (hw : s.op.width = 0 ∨ 32 < s.op.width) : getBitsOp s = .refused .bitWidth := by
  rw [getBitsOp, widthOk_of_outside hw]
  rfl

theorem getFixedBitsOp_refused (hw : s.op.width = 0 ∨ 32 < s.op.width) : getFixedBitsOp s = .refused .bitWidth := by
  rw [getFixedBitsOp, widthOk_of_outside hw]
  rfl

variable (h1 : 1 ≤ s.op.width) (h32 : s.op.width ≤ 32)
include h1 h32

theorem getBitsOp_fault (h : s.ReadsUnwritten) : getBitsOp s = .fault .unwrittenFrameByte := by
  rw [getBitsOp, if_pos (widthOk_of_inside h1 h32), h.getBits_eq_none]

theorem getFixedBitsOp_fault (h : s.ReadsUnwritten) : getFixedBitsOp s = .fault .unwrittenFrameByte := by
  rw [getFixedBitsOp, if_pos (widthOk_of_inside h1 h32), Bs.getFixedBits, h.getBits_eq_none, Option.map_none]

theorem getBitsOp_ok {v : Word} {bs : Bs} (h : s.pass.bs.getBits s.frameBuf s.op.width = some (v, bs)) :
    getBitsOp s = .ok { s.setBs bs with out := { s.out with value := v } } := by
  rw [getBitsOp, if_pos (widthOk_of_inside h1 h32), h]

/-- R67: the same bits, compared with the value expected. -/
theorem getFixedBitsOp_ok {v : Word} {bs : Bs} (h : s.pass.bs.getBits s.frameBuf s.op.width = some (v, bs)) :
    getFixedBitsOp s = .ok (s.setBs { bs with err := bs.err || decide (v ≠ s.op.value) }) := by
  have hfixed : s.pass.bs.getFixedBits s.frameBuf s.op.width s.op.value
      = some { bs with err := bs.err || decide (v ≠ s.op.value) } := by
    have hne : (v != s.op.value) = decide (v ≠ s.op.value) := by rw [bne, beq_eq_decide, ← decide_not]
    rw [Bs.getFixedBits, h, Option.map_some, Bs.noteError, hne]
  rw [getFixedBitsOp, if_pos (widthOk_of_inside h1 h32), hfixed]

end

/-- Settles O17: the reader gets the next bits where they have values, and both operations stop where it does. -/
theorem getBitsReads : Obligations.GetBitsReads := by
  unfold Obligations.GetBitsReads
  refine ⟨fun s => ?_, fun s => ?_⟩ <;> intro n bs
  · refine ⟨fun hw => runUop_of_refused (getBitsOp_refused hw), fun h1 h32 hwritten => ?_,
      fun h1 h32 hnone => runUop_of_fault (getBitsOp_fault h1 h32 hnone)⟩
    obtain ⟨v, hread, hbits, hzero⟩ := Bs.getBits_reads h32 fun k hk => bitAt_isSome (hwritten k hk)
    rw [Bs.skip_eq_of_pos h1] at hread
    exact ⟨v, runUop_of_ok (getBitsOp_ok h1 h32 hread), fun k hk => bitAt_eq_some (hbits k hk), hzero⟩
  · refine ⟨fun hw => runUop_of_refused (getFixedBitsOp_refused hw), fun h1 h32 hwritten => ?_,
      fun h1 h32 hnone => runUop_of_fault (getFixedBitsOp_fault h1 h32 hnone)⟩
    obtain ⟨v, hread, -⟩ := Bs.getBits_reads h32 fun k hk => bitAt_isSome (hwritten k hk)
    exact ⟨v, bs.skip n, runUop_of_ok (getBitsOp_ok h1 h32 hread), runUop_of_ok (getFixedBitsOp_ok h1 h32 hread)⟩

/-! ### Writing -/

theorem writeFields_singleton {s : State} {v : Word} {n : Nat} (h1 : 1 ≤ n) (h32 : n ≤ 32) :
    writeFields [(v, n)] s = .ok (s.setWriter (Bs.putBits v n s.writer)) := by
  rw [writeFields, if_pos (by simpa using widthOk_of_inside h1 h32)]
  rfl

/-- A field of a refused width is not written. -/
theorem writeFields_refused {fs : List (Word × Nat)} {s : State} {f : Word × Nat} (hf : f ∈ fs) (hw : f.2 = 0 ∨ 32 < f.2) :
    writeFields fs s = .refused .bitWidth := by
  rw [writeFields, if_neg]
  intro hall
  have hok := List.all_eq_true.1 hall f hf
  rw [widthOk_of_outside hw] at hok
  exact absurd hok Bool.false_ne_true

/-- Pending bits and then a field, by index. -/
theorem append_fieldBits_get (acc : List Bool) (v : Word) {n q : Nat} (hq : q < acc.length + n) :
    (acc ++ fieldBits v n)[q]? = some (if q < acc.length then acc.getD q false else v.getLsbD (n - 1 - (q - acc.length))) := by
  split
  · rename_i h
    rw [List.getElem?_append_left h, List.getElem?_eq_getElem h, List.getD_eq_getElem]
  · rename_i h
    rw [List.getElem?_append_right (by omega), List.getElem?_eq_getElem (by rw [fieldBits_length]; omega),
      ← fieldBits_getD v n _ (by omega), List.getD_eq_getElem]

section
variable {m : Mem 8} {b : Bs} {bits : List Bool} {w : Mem 8 × Bs}

/-- A bit of a completed byte is stored, one of the last byte is pending. -/
theorem Wrote.bit (h : Wrote m b bits w) {q : Nat} {x : Bool} (hx : bits[q]? = some x) :
    (q / 8 < bits.length / 8 → (b.pos - b.acc.length) / 8 + q / 8 < b.size →
      Machine.frameBit w.1 (8 * ((b.pos - b.acc.length) / 8) + q) = some x)
    ∧ (bits.length / 8 ≤ q / 8 → w.2.acc.getD (q % 8) false = x) := by
  obtain ⟨hq, rfl⟩ := List.getElem?_eq_some_iff.1 hx
  refine ⟨fun hdone hroom => (h.stored q (by omega) hroom).trans hx, fun hlast => ?_⟩
  rw [h.acc, List.getD_eq_getElem?_getD, List.getElem?_drop, show 8 * (bits.length / 8) + q % 8 = q by omega, hx, Option.getD_some]

theorem Wrote.sameOutside (h : Wrote m b bits w) :
    Mem.sameOutside m w.1 ((b.pos - b.acc.length) / 8) (min ((b.pos - b.acc.length) / 8 + bits.length / 8) b.size) := h.other

theorem Wrote.acc_length (h : Wrote m b bits w) : w.2.acc.length = bits.length % 8 := by
  rw [h.acc, List.length_drop]
  omega

/-- R68, R70: where the writer stands; the flag is set when a completed byte lay outside the declared size. -/
theorem Wrote.putBits_bs {v : Word} {n : Nat} (h : Wrote m b (b.acc ++ fieldBits v n) w) (hpos : b.acc.length ≤ b.pos) :
    w.2 = { b with
      pos := b.pos + n
      acc := w.2.acc
      err := b.err || decide (8 ≤ b.acc.length + n
        ∧ b.size < (b.pos - b.acc.length) / 8 + (b.acc.length + n) / 8) } := by
  have hlen : (b.acc ++ fieldBits v n).length = b.acc.length + n := by rw [List.length_append, fieldBits_length]
  have hposn : b.pos - b.acc.length + (b.acc.length + n) = b.pos + n := by omega
  have hdone : 0 < (b.acc.length + n) / 8 ↔ 8 ≤ b.acc.length + n := by omega
  rw [h.acc]
  refine h.snd.trans ?_
  simp only [hlen, hposn, hdone]

end

/-- Settles O18: the field follows the pending bits, and the bytes they complete are stored. -/
theorem putBitsAppends : Obligations.PutBitsAppends := by
  unfold Obligations.PutBitsAppends
  intro s n bs base len
  refine ⟨fun hw => runUop_of_refused (writeFields_refused (List.mem_singleton_self _) hw), fun h1 h32 hacc hpos => ?_⟩
  have hwrote := (Wrote.start s.frameBuf bs hacc hpos).putBits s.op.value n
  have hlen : (bs.acc ++ fieldBits s.op.value n).length = len := by rw [List.length_append, fieldBits_length]
  refine ⟨_, _, (runUop_of_ok (writeFields_singleton h1 h32)).trans ?_, hlen ▸ hwrote.acc_length,
    fun q hq => hlen ▸ hwrote.bit (append_fieldBits_get bs.acc s.op.value hq), hlen ▸ hwrote.sameOutside⟩
  exact congrArg (fun b => Host.Outcome.next (s.setWriter ((Bs.putBits s.op.value n s.writer).1, b))) (hwrote.putBits_bs hpos)

theorem Bs.flush_of_nil {w : Mem 8 × Bs} (h : w.2.acc = []) : Bs.flush w = w := if_pos h

theorem padded_eq_getD {bits : List Bool} {q : Nat} (hq : q < 8 * ((bits.length + 7) / 8)) :
    (padded bits)[q]? = some (bits.getD q false) := by
  by_cases h : q < bits.length
  · rw [padded_get h, List.getElem?_eq_getElem h, List.getD_eq_getElem]
  · rw [padded_get_zero (by omega) hq, List.getD_eq_default _ _ (by omega)]

/-- R69: where the writer stands once its pending bits, one to seven, are completed; the flag is set when the byte lay outside the
declared size. -/
theorem Wrote.flush_bs {m : Mem 8} {b : Bs} {w : Mem 8 × Bs} (h : Wrote m b (padded b.acc) w) (hpos : b.acc.length ≤ b.pos)
    (hbyte : (b.acc.length + 7) / 8 = 1) : w.2 = { b with
      pos := b.pos + (8 - b.acc.length)
      acc := []
      err := b.err || decide (b.size ≤ (b.pos - b.acc.length) / 8) } := by
  have hposn : b.pos - b.acc.length + 8 * 1 = b.pos + (8 - b.acc.length) := by omega
  have hdone : (0 < 1 ∧ b.size < (b.pos - b.acc.length) / 8 + 1) ↔ b.size ≤ (b.pos - b.acc.length) / 8 := by omega
  refine h.padded_bs.trans ?_
  simp only [hbyte, hposn, hdone]

/-- Settles O19: flushing appends the zeros that complete the byte of the pending bits. -/
theorem flushCompletesByte : Obligations.FlushCompletesByte := by
  unfold Obligations.FlushCompletesByte
  intro s bs base hacc hpos
  refine ⟨fun hnil => runUop_of_ok (congrArg (fun w => Micro.ok (s.setWriter w)) (Bs.flush_of_nil hnil)), fun hne => ?_⟩
  have hwrote : Wrote s.frameBuf bs (padded bs.acc) (Bs.flush s.writer) := (Wrote.start s.frameBuf bs hacc hpos).flush
  have hpending := List.length_pos_iff.2 hne
  have hbyte : (bs.acc.length + 7) / 8 = 1 := by omega
  have hlen : (padded bs.acc).length / 8 = 1 := by rw [padded_length, hbyte]
  refine ⟨_, (runUop_of_ok rfl).trans ?_, fun hroom k hk => ?_, hlen ▸ hwrote.sameOutside⟩
  · exact congrArg (fun b => Host.Outcome.next (s.setWriter ((Bs.flush s.writer).1, b))) (hwrote.flush_bs hpos hbyte)
  · exact (hwrote.padded_bit (by omega) (by omega)).trans (padded_eq_getD (by omega))

end Sys2Proof.Machine
end
section
/-! PROOF. The error flag of the bitstream stays set through every operation but a new bind (R71). -/

namespace Sys2Proof.Machine

/-- `BS.ERR` is set. -/
def State.Flagged (s : State) : Prop := s.pass.bs.err = true

/-- An operation leaves the flag set, whether it runs or raises. -/
theorem runUop_flagged {body : State → Micro} {s t : State} (hbody : (body s).All State.Flagged) (ht : runUop body s = .next t) :
    t.Flagged :=
  runUop_all hbody (fun _ _ h => h) ht

/-- So does a command, which starts and completes around its body. -/
theorem runCommand_flagged {w : Word} {body : State → Micro} {s t : State} (hbody : (body (s.start w)).All State.Flagged)
    (ht : runCommand w body s = .next t) : t.Flagged :=
  runCommand_all hbody (fun _ _ h => h) ht

/-- Operations and commands that neither raise nor stop. -/
theorem runUop_total_flagged {f : State → State} {s t : State} (ht : runUop (fun u => .ok (f u)) s = .next t)
    (hf : (f s).Flagged) : t.Flagged :=
  runUop_flagged (body := fun u => .ok (f u)) hf ht

theorem runCommand_total_flagged {w : Word} {f : State → State} {s t : State} (ht : runCommand w (fun u => .ok (f u)) s = .next t)
    (hf : (f (s.start w)).Flagged) : t.Flagged :=
  runCommand_flagged (body := fun u => .ok (f u)) hf ht

theorem Bs.putFields_err (fs : List (Word × Nat)) {w : Mem 8 × Bs} (h : w.2.err = true) : (Bs.putFields fs w).2.err = true := by
  induction fs generalizing w with
  | nil => exact h
  | cons f fs ih => exact ih (Bs.putBits_err f.1 f.2 w h)

theorem Bs.flush_err {w : Mem 8 × Bs} (h : w.2.err = true) : (Bs.flush w).2.err = true := by
  unfold Bs.flush
  split
  · exact h
  · exact Bs.putBits_err _ _ _ h

section
variable {s : State} (herr : s.Flagged)
include herr

/-! ### Operations that read or write the bitstream -/

theorem getBitsOp_flagged : (getBitsOp s).All State.Flagged := by
  unfold getBitsOp
  split
  · split
    · trivial
    · rename_i hread
      exact (Bs.getBits_advanced hread).err herr
  · trivial

theorem getFixedBitsOp_flagged : (getFixedBitsOp s).All State.Flagged := by
  unfold getFixedBitsOp
  split
  · split
    · trivial
    · rename_i hread
      exact (Bs.getFixedBits_advanced hread).err herr
  · trivial

theorem writeFields_flagged (fs : List (Word × Nat)) : (writeFields fs s).All State.Flagged := by
  rcases writeFields_effect fs s with hw | hw <;> rw [hw]
  · trivial
  · exact Bs.putFields_err fs herr

theorem payloadWrite_flagged : (payloadWrite s).All State.Flagged :=
  Micro.all_andThen (writeFields_flagged herr _) fun _ hu => Bs.flush_err hu

theorem hdrRead_flagged : (hdrRead s).All State.Flagged := by
  rcases hdrRead_effect s with hr | ⟨bs, ha, hr | ⟨d, crc, -, hbs, -⟩⟩
  · rw [hr]; trivial
  · rw [hr]; exact ha.err herr
  · exact absurd (ha.err herr) (by rw [hbs]; exact Bool.false_ne_true)

/-- R77: a header is not taken over while the flag is set. -/
theorem receiveHeader_flagged (d : Desc) (crc : BitVec 8) : (receiveHeader d crc s).All State.Flagged := by
  rw [receiveHeader_raised (.inl herr)]
  exact herr

theorem sideRead_flagged : (sideRead s).All State.Flagged := by
  rcases sideRead_effect s with hr | hr | ⟨joint, scf, hr⟩ <;> rw [hr]
  · trivial
  · trivial
  · exact (Bs.skip_advanced _ _).err herr

theorem payloadRead_flagged : (payloadRead s).All State.Flagged := by
  rcases payloadRead_effect s with hr | ⟨sb, hr⟩ <;> rw [hr]
  · trivial
  · exact (Bs.skip_advanced _ _).err herr

/-! ### Operations that leave it alone -/

theorem descIsValidOp_flagged : (descIsValidOp s).All State.Flagged := by
  unfold descIsValidOp
  split
  · trivial
  · exact herr

theorem crcInsert_flagged : (crcInsert s).All State.Flagged := by
  rcases crcInsert_effect s with hr | ⟨c, hr⟩ <;> rw [hr]
  · trivial
  · exact herr

theorem crcCheck_flagged : (crcCheck s).All State.Flagged := by
  rcases crcCheck_effect s with hr | ⟨c, hr | hr⟩ <;> rw [hr]
  · trivial
  · exact herr
  · exact herr

theorem storeAllocation_flagged (r : Option (List (List Int) × List (List (Fin 17)))) :
    (storeAllocation r s).All State.Flagged := by
  rcases storeAllocation_effect r s with hr | ⟨needs, nbits, hr⟩ <;> rw [hr]
  · trivial
  · exact herr

theorem bitAllocFrame_flagged : (bitAllocFrame s).All State.Flagged := by
  rcases bitAllocFrame_effect s with hr | hr | ⟨needs, nbits, hr⟩ <;> rw [hr]
  · trivial
  · trivial
  · exact herr

theorem jointDecide_flagged : (jointDecide s).All State.Flagged := by
  obtain ⟨joint, scf, sb, hr⟩ := jointDecide_effect s
  rw [hr]
  exact herr

theorem jointUncouple_flagged : (jointUncouple s).All State.Flagged := by
  obtain ⟨sb, hr⟩ := jointUncouple_effect s
  rw [hr]
  exact herr

theorem analyzeFrame_flagged : (analyzeFrame s).All State.Flagged := by
  rcases analyzeFrame_effect s with hr | hr | ⟨e0, e1, sb, hr⟩ <;> rw [hr]
  · trivial
  · trivial
  · exact herr

theorem synthFrame_flagged : (synthFrame s).All State.Flagged := by
  rcases synthFrame_effect s with hr | ⟨e0, e1, v0, v1, -, -, hr⟩ <;> rw [hr]
  · trivial
  · exact herr

theorem analyzeBlockOp_flagged : (analyzeBlockOp s).All State.Flagged := by
  unfold analyzeBlockOp State.setEnc
  dsimp only
  split <;> exact herr

theorem synthBlockOp_flagged : (synthBlockOp s).All State.Flagged := by
  unfold synthBlockOp State.setDec
  dsimp only
  split <;> exact herr

theorem fbReset_flagged (set : FilterSet) : (fbReset set s).Flagged := by
  cases set <;> exact herr

/-! ### The two commands that look at `CFG` -/

theorem validateBody_flagged : (validateBody s).All State.Flagged := by
  unfold validateBody
  split <;> exact herr

theorem frameSizeBody_flagged : (frameSizeBody s).All State.Flagged := by
  unfold frameSizeBody
  split <;> exact herr

end

/-- Settles O20: by the instruction; the four that bind are left out. -/
theorem errorFlagIsSticky : Obligations.ErrorFlagIsSticky := by
  unfold Obligations.ErrorFlagIsSticky
  intro i s t hbind hencode hprobe hdecode ht hs
  cases i with
  | bsBind => exact absurd rfl hbind
  | encode => exact absurd rfl hencode
  | probe => exact absurd rfl hprobe
  | decode => exact absurd rfl hdecode
  | resetEnc => exact runCommand_total_flagged (show execResetEnc s = _ from ht) (fbReset_flagged (s := s.start 0x01) hs .enc)
  | resetDec => exact runCommand_total_flagged (show execResetDec s = _ from ht) (fbReset_flagged (s := s.start 0x02) hs .dec)
  | resetAll =>
    exact runCommand_total_flagged (show execResetAll s = _ from ht)
      (fbReset_flagged (fbReset_flagged (s := s.start 0x03) hs .enc) .dec)
  | validate => exact runCommand_flagged (validateBody_flagged (s := s.start 0x10) hs) ht
  | frameSize => exact runCommand_flagged (frameSizeBody_flagged (s := s.start 0x11) hs) ht
  | bsGetBits => exact runUop_flagged (getBitsOp_flagged hs) ht
  | bsGetFixedBits => exact runUop_flagged (getFixedBitsOp_flagged hs) ht
  | bsPutBits => exact runUop_flagged (writeFields_flagged hs _) ht
  | bsFlush => exact runUop_flagged (body := flushWriter) (Bs.flush_err hs) ht
  | hdrWrite => exact runUop_flagged (writeFields_flagged hs _) ht
  | hdrRead => exact runUop_flagged (hdrRead_flagged hs) ht
  | sideWrite => exact runUop_flagged (writeFields_flagged hs _) ht
  | sideRead => exact runUop_flagged (sideRead_flagged hs) ht
  | payloadWrite => exact runUop_flagged (payloadWrite_flagged hs) ht
  | payloadRead => exact runUop_flagged (payloadRead_flagged hs) ht
  | sbcFrameHeader freq blocks mode alloc subbands bitpool crc => exact runUop_flagged (receiveHeader_flagged hs _ crc) ht
  | msbcFrameHeader crc => exact runUop_flagged (receiveHeader_flagged hs _ crc) ht
  | descIsValid => exact runUop_flagged (descIsValidOp_flagged hs) ht
  | crcInsert => exact runUop_flagged (crcInsert_flagged hs) ht
  | crcCheck => exact runUop_flagged (crcCheck_flagged hs) ht
  | bitAlloc => exact runUop_flagged (storeAllocation_flagged hs _) ht
  | bitAllocFrame => exact runUop_flagged (bitAllocFrame_flagged hs) ht
  | jointDecide => exact runUop_flagged (jointDecide_flagged hs) ht
  | jointUncouple => exact runUop_flagged (jointUncouple_flagged hs) ht
  | analyzeFrame => exact runUop_flagged (analyzeFrame_flagged hs) ht
  | synthFrame => exact runUop_flagged (synthFrame_flagged hs) ht
  | analyzeBlock => exact runUop_flagged (analyzeBlockOp_flagged hs) ht
  | synthBlock => exact runUop_flagged (synthBlockOp_flagged hs) ht
  | fbReset => exact runUop_total_flagged (show execFbReset s = _ from ht) (fbReset_flagged hs s.op.set)
  | bsBitPos => exact runUop_total_flagged (show execBsBitPos s = _ from ht) hs
  | descFrameSize => exact runUop_total_flagged (show execDescFrameSize s = _ from ht) hs
  | crcCompute => exact runUop_total_flagged (show execCrcCompute s = _ from ht) hs
  | scfCompute => exact runUop_flagged (body := scfCompute) hs ht
  | sbScale => exact runUop_flagged (body := sbScale) hs ht
  | quant => exact runUop_total_flagged (show execQuant s = _ from ht) hs
  | dequant => exact runUop_total_flagged (show execDequant s = _ from ht) hs
  | dct => exact runUop_total_flagged (show execDct s = _ from ht) hs

end Sys2Proof.Machine
end

section
/-! PROOF. Where an operation run on its own stops (R66, R68, R118, R140). -/

namespace Sys2Proof.Machine

section
variable {s : State}

/-! ### Working descriptors no filter bank exists for, and masks no field holds (log 20) -/

theorem bandsOf_eq_none {n : Nat} (h4 : n ≠ 4) (h8 : n ≠ 8) : bandsOf n = none := by
  rw [bandsOf, if_neg h4, if_neg h8]

theorem analyzeFrame_refused (h : bandsOf s.pass.desc.subbands = none) : analyzeFrame s = .refused .invalidDescriptor := by
  rw [analyzeFrame, h]

theorem synthFrame_refused (h : bandsOf s.pass.desc.subbands = none) : synthFrame s = .refused .invalidDescriptor := by
  rw [synthFrame, h]

theorem bitAllocFrame_refused (h : bandsOf s.pass.desc.subbands = none) : bitAllocFrame s = .refused .invalidDescriptor := by
  rw [bitAllocFrame, h]

/-- R82: the mask is the first side field of a JointStereo frame. -/
theorem mask_mem_sideFields {p : Pass} (hmode : p.desc.mode = .jointStereo) :
    (maskField p.desc.subbands p.joint, p.desc.subbands) ∈ sideFields p := by
  rw [sideFields, jointStereo_eq, if_pos (decide_eq_true hmode)]
  exact List.mem_append_left _ (List.mem_singleton_self _)

theorem sideRead_refused (hmode : s.pass.desc.mode = .jointStereo) (hw : s.pass.desc.subbands = 0 ∨ 32 < s.pass.desc.subbands) :
    sideRead s = .refused .bitWidth := by
  rw [sideRead, jointStereo_eq, if_pos (decide_eq_true hmode), widthOk_of_outside hw]
  rfl

/-! ### Bytes and samples never written (R140, log 10) -/

theorem crcInsert_fault (h : coverage s.frameBuf s.pass.desc = none) : crcInsert s = .fault .unwrittenFrameByte := by
  rw [crcInsert, h]

theorem crcCheck_fault (h : coverage s.frameBuf s.pass.desc = none) : crcCheck s = .fault .unwrittenFrameByte := by
  rw [crcCheck, h]

/-- A sample of the first `B` blocks never written stops the analysis of its channel. -/
theorem analyzeChannel_unwritten {m : Bands} {pcm : Mem 16} {B a : Nat} (e : EncChan) (ha : a < B * m.n)
    (h : Mem.read pcm a = none) : analyzeChannel m pcm (List.range B) e = none := by
  have hpos : 0 < m.n := by cases m <;> decide
  have hblock : readBlock m pcm (a / m.n) = none :=
    readBlock_none (Nat.mod_lt a hpos) (by rw [Nat.div_add_mod']; exact h)
  exact analyzeChannel_none (List.mem_range.2 ((Nat.div_lt_iff_lt_mul hpos).2 ha)) hblock

theorem analyzeFrame_fault_left (hv : validEff s.pass.desc) {a : Nat} (ha : a < s.pass.desc.blocks * s.pass.desc.subbands)
    (h : Mem.read s.pcmL a = none) : analyzeFrame s = .fault .unwrittenPcmSample := by
  obtain ⟨m, hm, hbands⟩ := hv.bands
  unfold analyzeFrame
  rw [hbands]
  dsimp only
  rw [analyzeChannel_unwritten s.enc0 (hm ▸ ha) h]

/-- R120: the right buffer is read in a two-channel mode. -/
theorem analyzeFrame_fault_right (hv : validEff s.pass.desc) (hmode : s.pass.desc.mode ≠ .mono) {a : Nat}
    (ha : a < s.pass.desc.blocks * s.pass.desc.subbands) (h : Mem.read s.pcmR a = none) :
    analyzeFrame s = .fault .unwrittenPcmSample := by
  obtain ⟨m, hm, hbands⟩ := hv.bands
  unfold analyzeFrame
  rw [hbands]
  dsimp only
  split
  · rfl
  · rw [twoChannels_eq, if_pos (decide_eq_true hmode), analyzeChannel_unwritten s.enc1 (hm ▸ ha) h]

end

/-- Settles O47: each operation by itself, through what its body stops with. -/
theorem operationStops : Obligations.OperationStops := by
  unfold Obligations.OperationStops
  intro s d
  refine ⟨fun h4 h8 => ?_, fun hmode hw => ?_, fun hcov => ?_, fun size hsize hbs hnone => ?_, fun hv hnone => ?_, fun hnone => ?_,
    fun hv hnone => ?_⟩
  · have hbands : bandsOf d.subbands = none := bandsOf_eq_none h4 h8
    intro i hi
    simp only [List.mem_cons, List.not_mem_nil, or_false] at hi
    rcases hi with rfl | rfl | rfl
    · exact runUop_of_refused (analyzeFrame_refused hbands)
    · exact runUop_of_refused (synthFrame_refused hbands)
    · exact runUop_of_refused (bitAllocFrame_refused hbands)
  · exact ⟨runUop_of_refused (writeFields_refused (mask_mem_sideFields hmode) hw), runUop_of_refused (sideRead_refused hmode hw)⟩
  · exact ⟨runUop_of_fault (crcInsert_fault hcov), runUop_of_fault (crcCheck_fault hcov)⟩
  · exact runUop_of_fault (hdrRead_none hsize hbs hnone)
  · obtain ⟨k, hk, hinside, hread⟩ := hnone
    have hside : k < coveredSideBits d := by rw [coveredSideBits_eq_maskBits]; exact hk
    exact runUop_of_fault (sideRead_none hv.subbands hside (bitAt_none hinside hread))
  · obtain ⟨k, hk, hinside, hread⟩ := hnone
    exact runUop_of_fault (payloadRead_none (by rw [sampleBits_total]; exact hk) (bitAt_none hinside hread))
  · rcases hnone with ⟨a, ha, hread⟩ | ⟨hmode, a, ha, hread⟩
    · exact runUop_of_fault (analyzeFrame_fault_left hv ha hread)
    · exact runUop_of_fault (analyzeFrame_fault_right hv hmode ha hread)

end Sys2Proof.Machine
end

section
/-! PROOF. The descriptor formulas, their bounds and their table (R73, R74, R75). -/

namespace Sys2Proof.Machine

/-! ### The formulas with factors for shifts -/

theorem maxBits_eq (d : Desc) : maxBits d = 16 * d.subbands * d.blocks * (if d.mode = .mono then 1 else 2) - 32
    - 4 * d.subbands * (if d.mode = .mono then 1 else 2) - (if d.mode = .jointStereo then (d.subbands : Int) else 0) := by
  unfold maxBits headerSize
  rw [shiftLeft_toNat, shiftLeft_toNat, twoChannels_eq, jointStereo_eq]
  cases d.mode <;> simp

/-- R73: with a positive count of blocks the division is a product on the other side. -/
theorem le_maxBitpool_iff {d : Desc} (hblocks : 0 < d.blocks) {p : Int} :
    p ≤ maxBitpool d ↔ p * (d.blocks * (if d.mode = .dualChannel then 2 else 1)) ≤ maxBits d
      ∧ p ≤ 16 * (if d.mode = .stereo ∨ d.mode = .jointStereo then 2 else 1) * d.subbands := by
  have hdivisor : 0 < ((d.blocks <<< (dualChannel d).toNat : Nat) : Int) := by
    rw [shiftLeft_toNat]
    exact_mod_cast Nat.mul_pos hblocks (by split <;> decide)
  rw [maxBitpool, le_min_iff, Int.le_ediv_iff_mul_le hdivisor, shiftLeft_toNat, shiftLeft_toNat, dualChannel_eq, stereoOrJoint_eq]
  push_cast
  simp only [decide_eq_true_eq]

theorem dividesByZero_iff {d : Desc} :
    dividesByZero d = true ↔ d.msbc = true ∧ (d.subbands = 4 ∨ d.subbands = 8) ∧ d.blocks = 0 := by
  simp only [dividesByZero, Bool.and_eq_true, Bool.or_eq_true, beq_iff_eq, and_assoc]

/-- R73, where nothing divides by zero. -/
theorem isValid_iff {d : Desc} (hdiv : ¬(d.msbc = true ∧ (d.subbands = 4 ∨ d.subbands = 8) ∧ d.blocks = 0)) :
    isValid d = true ↔ (d.msbc = true ∨ d.blocks = 4 ∨ d.blocks = 8 ∨ d.blocks = 12 ∨ d.blocks = 16)
      ∧ (d.subbands = 4 ∨ d.subbands = 8)
      ∧ (d.bitpool : Int) * (d.blocks * (if d.mode = .dualChannel then 2 else 1)) ≤ maxBits d
      ∧ (d.bitpool : Int) ≤ 16 * (if d.mode = .stereo ∨ d.mode = .jointStereo then 2 else 1) * d.subbands := by
  have hcount : (4 ≤ d.blocks ∧ d.blocks ≤ 16) ∧ d.blocks % 4 = 0
      ↔ d.blocks = 4 ∨ d.blocks = 8 ∨ d.blocks = 12 ∨ d.blocks = 16 := by omega
  simp only [isValid, Bool.and_eq_true, Bool.or_eq_true, beq_iff_eq, decide_eq_true_eq, hcount, and_assoc]
  refine and_congr_right fun hb => and_congr_right fun hs => le_maxBitpool_iff ?_
  rcases hb with hm | hb
  · exact Nat.pos_of_ne_zero fun h0 => hdiv ⟨hm, hs, h0⟩
  · omega

theorem frameSize_eq (d : Desc) : frameSize d = 4 + (4 * d.subbands * (if d.mode = .mono then 1 else 2)
    + d.blocks * d.bitpool * (if d.mode = .dualChannel then 2 else 1) + (if d.mode = .jointStereo then d.subbands else 0) + 7) / 8 := by
  rw [frameSize, headerSize, ceilDiv8, payloadBits, shiftLeft_toNat, shiftLeft_toNat, twoChannels_eq, dualChannel_eq, jointStereo_eq]
  cases d.mode <;> rfl

/-- Settles O14: the division of the bitpool bound is a product, since the one descriptor without blocks that gets there is refused. -/
theorem descriptorFormulas : Obligations.DescriptorFormulas := by
  unfold Obligations.DescriptorFormulas
  refine ⟨fun s => ?_, fun s => ?_⟩
  · intro d two dual sj js maximum
    have hmax : maxBits d = maximum := maxBits_eq d
    refine ⟨fun hdiv => runUop_of_refused (if_pos (dividesByZero_iff.2 hdiv)), fun hdiv => ?_⟩
    have hok : descIsValidOp s = .ok { s with out := { s.out with valid := isValid d } } :=
      if_neg fun h => hdiv (dividesByZero_iff.1 h)
    have hvalid : isValid d = decide _ := Bool.eq_iff_iff.2 ((isValid_iff hdiv).trans decide_eq_true_iff.symm)
    rw [hvalid, hmax] at hok
    exact runUop_of_ok hok
  · intro d
    rw [← frameSize_eq d]
    exact runUop_of_ok rfl

/-! ### Bounds -/

/-- The bound asks for the mode and the two counts alone. -/
theorem maxBitpool_of_counts (f : Freq) (m : Mode) (a : Alloc) (blocks subbands bitpool : Nat) :
    maxBitpool ⟨false, f, m, a, blocks, subbands, bitpool⟩ = maxBitpool ⟨false, .f16k, m, .loudness, blocks, subbands, 0⟩ := rfl

/-- Settles O15: the bounds are those of every valid effective descriptor, and the table is computed. -/
theorem descriptorBounds : Obligations.DescriptorBounds := by
  unfold Obligations.DescriptorBounds
  refine ⟨fun d hmsbc hvalid => ?_, fun m hm => ?_, ?_, by decide⟩
  · have heff : validEff d := ⟨hvalid, fun h => absurd h (by simp [hmsbc])⟩
    obtain ⟨hsize, hmono, hpool, -⟩ := heff.bounds
    exact ⟨hsize, hmono, hpool⟩
  · rcases hm with rfl | rfl
    · exact ⟨125, by decide⟩
    · exact ⟨250, by decide⟩
  · intro row hrow f a bp
    simp only [maxBitpool_of_counts f row.1 a]
    revert row
    decide

end Sys2Proof.Machine
end

section
/-! PROOF. The header of a frame, written and read (R57, R58, R64, R76, R77). -/

namespace Sys2Proof.Machine

/-! ### `HDR_WRITE` -/

/-- R76: what `HDR_WRITE` writes. -/
theorem hdrWrite_wrote {s : State} (hacc : s.pass.bs.acc.length < 8) (hpos : s.pass.bs.acc.length ≤ s.pass.bs.pos) :
    ∃ w : Mem 8 × Bs, hdrWrite s = .ok (s.setWriter w)
      ∧ Wrote s.frameBuf s.pass.bs (s.pass.bs.acc ++ bitsOfFields (headerFields s.pass.desc)) w :=
  ⟨_, if_pos (headerFields_ok _), (Wrote.start s.frameBuf s.pass.bs hacc hpos).putFields (headerFields s.pass.desc)⟩

/-- The 32 bits of a word, written from the start of the frame, are its header. -/
theorem Wrote.holdsHeader {m : Mem 8} {b : Bs} {v : Word} {w : Mem 8 × Bs} (h : Wrote m b (fieldBits v 32) w)
    (hpos : b.pos = 0) (hsize : 4 ≤ b.size) : HoldsHeader w.1 v := by
  intro p hp
  have hbit := h.frameBit (p := p) (by rw [fieldBits_length]) (by rw [fieldBits_length]; exact hp) (by omega)
  rwa [hpos, Nat.zero_sub, Nat.zero_div, Nat.mul_zero, Nat.zero_add, fieldBits_eq_ofFn, List.getElem?_ofFn, dif_pos hp] at hbit

/-- Settles O21: the fields written are the 32 bits of the header's word. -/
theorem hdrWritePlacesHeader : Obligations.HdrWritePlacesHeader := by
  unfold Obligations.HdrWritePlacesHeader
  intro s size hv hsize hbs
  have hacc : s.pass.bs.acc = [] := by rw [hbs]
  have hpos : s.pass.bs.pos = 0 := by rw [hbs]
  have hdeclared : s.pass.bs.size = size := by rw [hbs]
  obtain ⟨v, hword, hbits⟩ := headerFields_bits hv
  obtain ⟨w, hwrite, hwrote⟩ := hdrWrite_wrote (s := s) (by simp [hacc]) (by simp [hacc])
  rw [hacc, List.nil_append, hbits] at hwrote
  have hwritten : w.2 = ⟨.write, size, 32, [], false⟩ := by
    rw [hwrote.inside (by rw [fieldBits_length]; omega), hbs, fieldBits_length,
      List.drop_eq_nil_of_le (by rw [fieldBits_length])]
    rfl
  refine ⟨w.1, v, ?_, hword, State.headerWord_holds.2 (hwrote.holdsHeader hpos (by omega)), fun a ha => hwrote.other a ?_⟩
  · rw [← hwritten]
    exact runUop_of_ok hwrite
  · rw [fieldBits_length, hpos, hdeclared]
    omega

/-! ### `HDR_READ` -/

theorem runUop_congr {body body' : State → Micro} {s : State} (h : body s = body' s) : runUop body s = runUop body' s := by
  rw [runUop, h, runUop]

/-- R54, R58: which words are headers, and of which instruction. -/
theorem decodeHeader_ok {w : Word} {i : Instr} (h : decodeHeader w = .ok i) :
    (w.extractLsb' 24 8 = 0x9C#8 ∧ i = .sbcFrameHeader (Freq.ofCode (w.extractLsb' 22 2))
        (countOfCode (w.extractLsb' 20 2).toNat) (Mode.ofCode (w.extractLsb' 18 2)) (Alloc.ofCode (w.extractLsb' 17 1))
        (countOfCode (w.extractLsb' 16 1).toNat) (w.extractLsb' 8 8).toNat (w.extractLsb' 0 8))
      ∨ (w.extractLsb' 24 8 = 0xAD#8 ∧ w.extractLsb' 8 16 = 0#16 ∧ i = .msbcFrameHeader (w.extractLsb' 0 8)) := by
  unfold decodeHeader at h
  split at h
  next hsync =>
    cases h
    exact .inl ⟨hsync, rfl⟩
  next =>
    split at h
    next hsync =>
      split at h <;> cases h
      rename_i hreserved
      exact .inr ⟨hsync, hreserved, rfl⟩
    next => cases h

/-- R54, R64: the two kinds of words that are no header. -/
theorem decodeHeader_badSyncword {w : Word} (h : decodeHeader w = .error .badSyncword) :
    w.extractLsb' 24 8 ≠ 0x9C#8 ∧ w.extractLsb' 24 8 ≠ 0xAD#8 := by
  unfold decodeHeader at h
  split at h
  · cases h
  next hsbc =>
    split at h
    · split at h <;> cases h
    next hmsbc => exact ⟨hsbc, hmsbc⟩

theorem decodeHeader_reservedNotZero {w : Word} (h : decodeHeader w = .error .reservedNotZero) :
    w.extractLsb' 24 8 = 0xAD#8 ∧ w.extractLsb' 8 16 ≠ 0#16 := by
  unfold decodeHeader at h
  split at h
  · cases h
  · split at h
    next hsync =>
      split at h <;> cases h
      rename_i hreserved
      exact ⟨hsync, hreserved⟩
    next => cases h

section
variable {s : State} {size : Nat} {w : Word} (hsize : 4 ≤ size) (hbs : s.pass.bs = ⟨.read, size, 0, [], false⟩)
  (hword : s.headerWord = some w)
include hsize hbs hword

/-- R77: from a fresh reader the reads of a header move past it, and the rest is what its own instruction does. -/
theorem hdrRead_of_decode {i : Instr} (h : decodeHeader w = .ok i) : exec .hdrRead s = exec i s := by
  have hparse := parseHeader_word (State.headerWord_holds.1 hword) hsize
  rw [← hbs] at hparse
  have hmoved : (⟨.read, size, 32, [], false⟩ : Bs) = { s.pass.bs with pos := s.pass.bs.pos + 32 } := by rw [hbs]
  have hreceive : ∀ d crc, parseHeader s.frameBuf s.pass.bs = some (some (d, crc), ⟨.read, size, 32, [], false⟩) →
      hdrRead s = receiveHeader d crc s := by
    intro d crc hp
    rw [hdrRead, hp, receiveHeader, hmoved]
  rcases decodeHeader_ok h with ⟨hsync, rfl⟩ | ⟨hsync, hreserved, rfl⟩
  · rw [if_neg (by rw [hsync]; decide), if_pos hsync] at hparse
    exact runUop_congr (hreceive _ _ hparse)
  · rw [if_pos hsync, decide_eq_false (not_not.2 hreserved)] at hparse
    exact runUop_congr (hreceive _ _ hparse)

/-- R54, log 25: a bad syncword raises after its 8 bits. -/
theorem hdrRead_badSyncword (h : decodeHeader w = .error .badSyncword) :
    hdrRead s = .raised .malformedHeader (s.setBs ⟨.read, size, 8, [], false⟩) := by
  obtain ⟨hsbc, hmsbc⟩ := decodeHeader_badSyncword h
  rw [hdrRead, hbs, parseHeader_word (State.headerWord_holds.1 hword) hsize, if_neg hmsbc, if_neg hsbc]

/-- R58, R64, R77: non-zero reserved bits set the flag, which raises after all 32 bits. -/
theorem hdrRead_reservedNotZero (h : decodeHeader w = .error .reservedNotZero) :
    hdrRead s = .raised .malformedHeader (s.setBs ⟨.read, size, 32, [], true⟩) := by
  obtain ⟨hsync, hreserved⟩ := decodeHeader_reservedNotZero h
  rw [hdrRead, hbs, parseHeader_word (State.headerWord_holds.1 hword) hsize, if_pos hsync, decide_eq_true hreserved]
  exact if_pos rfl

end

/-- Settles O22, by what the word decodes to. -/
theorem hdrReadIsTheHeaderInstruction : Obligations.HdrReadIsTheHeaderInstruction := by
  unfold Obligations.HdrReadIsTheHeaderInstruction
  intro s size w hsize hbs hword
  exact ⟨fun i h => hdrRead_of_decode hsize hbs hword h,
    fun d crc hv h => runUop_of_ok (hdrRead_header hv h (State.headerWord_holds.1 hword) hsize hbs),
    fun h => runUop_of_raised (hdrRead_badSyncword hsize hbs hword h),
    fun h => runUop_of_raised (hdrRead_reservedNotZero hsize hbs hword h)⟩

end Sys2Proof.Machine
end

section
/-! PROOF. The CRC of a frame: the rule of its register, what it covers, and its byte (R78 to R81). -/

namespace Sys2Proof.Machine

/-! ### The register -/

theorem crcOf_concat (bits : List Bool) (b : Bool) : crcOf (bits ++ [b]) = crcBit (crcOf bits) b := crcOf_append bits [b]

/-- R79: the register shifts, and takes up the polynomial where its top bit is not the next bit. -/
theorem crcBit_eq (crc : BitVec 8) (b : Bool) :
    crcBit crc b = if crc.getLsbD 7 = b then crc <<< 1 else crc <<< 1 ^^^ 0x1D := by
  unfold crcBit crcBitWith crcPoly
  cases crc.getLsbD 7 <;> cases b <;> rfl

/-- The low bit of the register tells whether the polynomial was taken up. -/
theorem crcBit_getLsbD_zero (crc : BitVec 8) (b : Bool) : (crcBit crc b).getLsbD 0 = (crc.getLsbD 7 ^^ b) := by
  rw [crcBit_eq]
  split
  next h =>
    rw [h, Bool.xor_self]
    simp
  next h =>
    rw [Bool.eq_not_of_ne h, Bool.not_xor_self]
    simp

/-- The register before a bit can be told from the register after it. -/
theorem crcBit_injective (b : Bool) : Function.Injective (crcBit · b) := by
  intro x y h
  have htop : x.getLsbD 7 = y.getLsbD 7 := by
    have hlow := congrArg (BitVec.getLsbD · 0) h
    simpa only [crcBit_getLsbD_zero, Bool.xor_left_inj] using hlow
  have hshift : x <<< 1 = y <<< 1 := by
    simp only [crcBit_eq, htop] at h
    split at h
    · exact h
    · exact BitVec.xor_left_inj _ |>.1 h
  apply BitVec.eq_of_getElem_eq
  intro i hi
  by_cases h7 : i = 7
  · subst h7
    exact htop
  · have hbit := congrArg (BitVec.getLsbD · (i + 1)) hshift
    simpa [BitVec.getLsbD_shiftLeft, show i + 1 < 8 by omega] using hbit

theorem foldl_crcBit_injective (ys : List Bool) : Function.Injective (ys.foldl crcBit) := by
  induction ys with
  | nil => exact Function.injective_id
  | cons y ys ih => exact ih.comp (crcBit_injective y)

/-- Either value of a bit leaves another register. -/
theorem crcBit_ne_not (crc : BitVec 8) (b : Bool) : crcBit crc b ≠ crcBit crc (!b) := by
  intro h
  have hlow : (crcBit crc b).getLsbD 0 = (crcBit crc !b).getLsbD 0 := congrArg (BitVec.getLsbD · 0) h
  rw [crcBit_getLsbD_zero, crcBit_getLsbD_zero] at hlow
  simp at hlow

/-- R79: a single wrong bit changes the CRC, since the bits after it keep registers apart. -/
theorem crcOf_flip_ne (xs ys : List Bool) (b : Bool) : crcOf (xs ++ b :: ys) ≠ crcOf (xs ++ (!b) :: ys) := by
  rw [crcOf_append, crcOf_append]
  exact (foldl_crcBit_injective ys).ne (crcBit_ne_not (crcOf xs) b)

/-- Settles O25: the fold takes the bits one by one, and each step is injective. -/
theorem crcRule : Obligations.CrcRule := by
  unfold Obligations.CrcRule
  exact ⟨fun s => runUop_of_ok rfl, rfl, fun bits b => (crcOf_concat bits b).trans (crcBit_eq _ b), by decide +kernel, crcOf_flip_ne⟩

/-! ### The coverage -/

/-- Settles O26: where every covered bit has a value, those values are the coverage. -/
theorem crcCoverage : Obligations.CrcCoverage := by
  unfold Obligations.CrcCoverage
  intro m d len place hwritten
  have hlen : len = 16 + coveredSideBits d := by rw [coveredSideBits_eq, ← Nat.add_assoc]
  obtain ⟨bits, hbits, hget⟩ := exists_bits (n := len) (f := fun k => frameBit m (place k)) fun k hk => by
    rw [frameBit_isSome]
    exact hwritten k hk
  have hcovered : ∀ k < len, bits[k]? = frameBit m (place k) := by
    intro k hk
    rw [hget k (by omega), List.getElem?_eq_getElem]
  rw [hlen] at hbits hcovered
  exact ⟨bits, coverage_some hbits hcovered, by omega, fun k hk => hcovered k (by omega)⟩

/-- R78: the CRC byte itself is not covered. -/
theorem coverage_write_crc {m : Mem 8} {d : Desc} {bits : List Bool} (h : coverage m d = some bits) (crc : BitVec 8) :
    coverage (Mem.write m 3 crc) d = some bits := by
  obtain ⟨hlen, hget⟩ := coverage_bits h
  refine coverage_some hlen fun k hk => ?_
  have hplace : (if k < 16 then 8 + k else 16 + k) / 8 ≠ 3 := by split <;> omega
  rw [hget k hk, frameBit, frameBit, Mem.read_write_other m crc hplace]

/-! ### The CRC byte -/

theorem crcInsert_of_coverage {s : State} {bits : List Bool} (h : coverage s.frameBuf s.pass.desc = some bits) :
    crcInsert s = .ok { s with frameBuf := Mem.write s.frameBuf 3 (crcOf bits), pass := { s.pass with crc := crcOf bits } } := by
  rw [crcInsert, h]

theorem crcCheck_of_coverage {s : State} {bits : List Bool} (h : coverage s.frameBuf s.pass.desc = some bits) :
    crcCheck s = if s.pass.crcRx = crcOf bits then .ok { s with pass := { s.pass with crc := crcOf bits } }
      else .raised .checksumMismatch { s with pass := { s.pass with crc := crcOf bits } } := by
  rw [crcCheck, h]
  simp only [eq_comm]

/-- Settles O27: byte 3 holds none of the covered bits, so `CRC_CHECK` computes what `CRC_INSERT` stored. -/
theorem crcInsertThenCheck : Obligations.CrcInsertThenCheck := by
  unfold Obligations.CrcInsertThenCheck
  intro s bits hcov
  have hkept : coverage (Mem.write s.frameBuf 3 (crcOf bits)) s.pass.desc = some bits := coverage_write_crc hcov _
  refine ⟨_, runUop_of_ok (crcInsert_of_coverage hcov), Mem.read_write_same .., Mem.sameOutside_write _ _ _, hkept,
    fun t hbuf hdesc => ?_⟩
  have hcheck := crcCheck_of_coverage (s := t) (by rw [hbuf, hdesc]; exact hkept)
  exact ⟨fun heq => runUop_of_ok (hcheck.trans (if_pos heq)), fun hne => runUop_of_raised (hcheck.trans (if_neg hne))⟩

end Sys2Proof.Machine
end

section
/-! PROOF. The bit allocator: the needs of a call, how its bits are distributed, and the calls of a frame (R87 to R97). -/

namespace Sys2Proof.Machine

/-! ### Step 1 (R89) -/

theorem bitNeed_bounds (m : Bands) (freq : Freq) (alloc : Alloc) (scf : BitVec 4) (s : Nat) :
    -5 ≤ bitNeed m freq alloc scf s ∧ bitNeed m freq alloc scf s ≤ 15 := by
  have h := bitNeed_range m freq alloc scf s
  cases alloc <;> dsimp only at h <;> omega

section
variable {m : Bands} {freq : Freq} {scf : BitVec 4} {s : Nat}

theorem bitNeed_snr : bitNeed m freq .snr scf s = scf.toNat := rfl

theorem bitNeed_loudness_zero (h : scf.toNat = 0) : bitNeed m freq .loudness scf s = -5 :=
  if_pos (BitVec.eq_of_toNat_eq h)

/-- A loudness that is not positive is the need. -/
theorem bitNeed_loudness_of_le (h0 : scf.toNat ≠ 0) (h : (scf.toNat : Int) ≤ loudnessOffset m freq s) :
    bitNeed m freq .loudness scf s = scf.toNat - loudnessOffset m freq s := by
  have hscf : scf ≠ 0 := fun e => h0 (by rw [e]; rfl)
  rw [bitNeed, bitNeedWith, if_neg hscf, if_neg (by omega)]

/-- A positive loudness is halved, rounding down. -/
theorem bitNeed_loudness_of_lt (h0 : scf.toNat ≠ 0) (h : loudnessOffset m freq s < scf.toNat) :
    bitNeed m freq .loudness scf s = ((scf.toNat : Int) - loudnessOffset m freq s) / 2 := by
  have hscf : scf ≠ 0 := fun e => h0 (by rw [e]; rfl)
  rw [bitNeed, bitNeedWith, if_neg hscf, if_pos (by omega), asr, Int.shiftRight_eq_div_pow]
  rfl

end

/-! ### The rows of a call and its scan order (R94) -/

theorem at2_unscan {α : Type} (z : α) (v : List α) {K S q : Nat} (hq : q < K * S) :
    at2 z (unscan z K S v) (q % K) (q / K) = v.getD q z := by
  have hK : 0 < K := Nat.pos_of_mul_pos_right (Nat.zero_lt_of_lt hq)
  rw [unscan, at2_build2 z _ (Nat.mod_lt _ hK) (Nat.div_lt_of_lt_mul hq), Nat.div_add_mod']

/-- The bits of pair `q` of the scan order, in the rows of the call. -/
theorem val_at2_unscan_bitCount {v : List Nat} (h16 : ∀ n ∈ v, n ≤ 16) {K S q n : Nat} (hq : q < K * S)
    (hn : v[q]? = some n) : (at2 0 (unscan 0 K S (v.map bitCount)) (q % K) (q / K)).val = n := by
  rw [at2_unscan 0 _ hq, List.getD_eq_getElem?_getD, List.getElem?_map, hn]
  exact Nat.min_eq_left (h16 n (List.mem_of_getElem? hn))

/-- The need of a channel's subband, in the rows of the call. -/
theorem AllocIn.at2_needs (a : AllocIn) {c k : Nat} (hc : c < a.channels.length) (hk : k < a.bands.n) :
    at2 0 (unscan 0 a.channels.length a.bands.n a.needs) c k
      = bitNeed a.bands a.freq a.alloc ((a.channels.getD c []).getD k 0) k := by
  rw [unscan, at2_build2 0 _ hc hk, AllocIn.needs, AllocIn.needsWith, List.getD_eq_getElem?_getD,
    getElem?_flatMap_rows _ _ (by simp) hk hc]
  simp [bitNeed, List.getElem?_eq_getElem hc]

theorem AllocIn.needs_ne_nil (a : AllocIn) : a.needs ≠ [] := by
  have hK := a.channels_length
  have hS := bands_n a.bands
  refine List.ne_nil_of_length_pos ?_
  rw [a.needs_length]
  exact Nat.mul_pos (by omega) (by omega)

/-- The need of pair `q` of the scan order, in the rows of the call. -/
def AllocIn.needAt (a : AllocIn) (q : Nat) : Int :=
  at2 0 (unscan 0 a.channels.length a.bands.n a.needs) (q % a.channels.length) (q / a.channels.length)

theorem AllocIn.needs_getElem? (a : AllocIn) {q : Nat} (hq : q < a.channels.length * a.bands.n) :
    a.needs[q]? = some (a.needAt q) := by
  have hlen : q < a.needs.length := by rwa [a.needs_length, Nat.mul_comm]
  rw [needAt, at2_unscan 0 _ hq, List.getD_eq_getElem _ _ hlen, List.getElem?_eq_getElem hlen]

theorem AllocIn.needs_eq_map (a : AllocIn) : a.needs = (List.range (a.channels.length * a.bands.n)).map a.needAt := by
  refine List.ext_getElem (by simp [a.needs_length, Nat.mul_comm]) fun q h1 h2 => ?_
  have hneed := a.needs_getElem? (q := q) (by simpa using h2)
  simpa [List.getElem?_eq_getElem h1] using hneed

/-- R91: what the first thresholds count, summed over the pairs by their place. -/
theorem AllocIn.sliceTotal_needs (a : AllocIn) (top : Int) (i : Nat) : sliceTotal a.needs top i
    = ((List.range i).map fun i' : Nat =>
        ((List.range (a.channels.length * a.bands.n)).map fun q => sliceWeight (top - i') (a.needAt q)).sum).sum := by
  rw [needs_eq_map]
  simp only [sliceTotal, sliceCount, List.map_map, Function.comp_def]

theorem AllocIn.needAt_le_max (a : AllocIn) {q : Nat} (hq : q < a.channels.length * a.bands.n) :
    a.needAt q ≤ maxNeed a.needs := le_maxNeed (List.mem_of_getElem? (a.needs_getElem? hq))

/-- R90: the largest need is that of some pair. -/
theorem AllocIn.needAt_eq_max (a : AllocIn) : ∃ q < a.channels.length * a.bands.n, a.needAt q = maxNeed a.needs := by
  have hmem := maxNeed_mem a.needs_ne_nil
  rw [a.needs_eq_map, List.mem_map, ← a.needs_eq_map] at hmem
  simpa only [List.mem_range] using hmem

/-! ### A call by itself (R87) -/

theorem allocate_none {a : AllocIn} (h : 16 * a.channels.length * a.bands.n < a.bitpool) : allocate a = none := by
  have hpool : 16 * a.needs.length < a.bitpool := by rw [a.needs_length]; linarith
  rw [allocate, allocateWith, ← AllocIn.needs, allocateNeeds, searchSlice_none hpool (Search.counts_start _)]
  rfl

theorem execBitAlloc_of_some {s : State} {needs : List (List Int)} {nbits : List (List (Fin 17))}
    (h : allocate s.op.alloc = some (needs, nbits)) :
    execBitAlloc s = .next { s with pass := { s.pass with bitneed := needs, nbits := nbits } } :=
  runUop_of_ok (by rw [h]; rfl)

theorem execBitAlloc_of_none {s : State} (h : allocate s.op.alloc = none) : execBitAlloc s = .fault .allocatorDiverges :=
  runUop_of_fault (by rw [h]; rfl)

/-- Settles O33: the call's distribution is the trace of its search and of its two passes, read at each pair's place in scan
order. -/
theorem bitAllocUsesTheBitpool : Obligations.BitAllocUsesTheBitpool := by
  unfold Obligations.BitAllocUsesTheBitpool
  refine ⟨fun s h => execBitAlloc_of_none (allocate_none h), fun s hpool => ?_⟩
  generalize ha : s.op.alloc = a at hpool ⊢
  obtain ⟨nbits, halloc, hlen, hrows, hsum, v, hv, h16, rfl⟩ := allocate_total a hpool
  refine ⟨_, _, execBitAlloc_of_some (by rw [ha]; exact halloc), hlen, hrows, hsum, ?_, fun c hc k hk => ?_⟩
  · obtain ⟨j, slice, n1, n2, u, w, hmeets, hfirst, rfl, hu, hw, hpairs⟩ := allocateNeeds_trace hv
    rw [a.needs_length, Nat.mul_comm] at hw
    simp only [a.sliceTotal_needs] at hmeets hfirst hu hpairs
    have hpair := fun q hq => hpairs q _ (a.needs_getElem? hq)
    refine ⟨maxNeed a.needs, j, fun q => a.needAt_le_max, a.needAt_eq_max, hmeets, hfirst, n1, n2, u, w, hu,
      fun q hq => ?_, hw, fun q hq => ?_, fun q hq => ?_⟩ <;> obtain ⟨hpassA, hpassB, hbits⟩ := hpair q hq
    · exact hpassA
    · exact hpassB
    · exact val_at2_unscan_bitCount h16 hq hbits
  · rw [a.at2_needs hc hk]
    obtain ⟨hlow, hhigh⟩ := bitNeed_bounds a.bands a.freq a.alloc ((a.channels.getD c []).getD k 0) k
    refine ⟨hlow, hhigh, fun e => ?_, fun e h0 => ?_, fun e h0 hle => ?_, fun e h0 hlt => ?_⟩ <;> rw [e]
    · exact bitNeed_snr
    · exact bitNeed_loudness_zero h0
    · exact bitNeed_loudness_of_le h0 hle
    · rw [bitNeed_loudness_of_lt h0 hlt]
      omega

/-! ### The calls of a frame (R96) -/

theorem allocateAll_singleton (a : AllocIn) : allocateAll [a] = allocate a := by
  rw [allocateAll, allocateAll]
  cases allocate a <;> simp

theorem allocateAll_pair {a b : AllocIn} {r : List (List Int) × List (List (Fin 17))} (h : allocateAll [a, b] = some r) :
    ∃ r0 r1, allocate a = some r0 ∧ allocate b = some r1 ∧ r = (r0.1 ++ r1.1, r0.2 ++ r1.2) := by
  rw [allocateAll, allocateAll_singleton] at h
  split at h
  next r0 r1 h0 h1 => exact ⟨r0, r1, h0, h1, (Option.some.inj h).symm⟩
  next => cases h

theorem execBitAllocFrame_of_calls {s : State} {m : Bands} {r : List (List Int) × List (List (Fin 17))}
    (hm : bandsOf s.pass.desc.subbands = some m) (hr : allocateAll (frameCalls s.pass m) = some r) :
    execBitAllocFrame s = .next { s with pass := { s.pass with bitneed := r.1, nbits := r.2 } } :=
  runUop_of_ok (by rw [bitAllocFrame, hm]; dsimp only; rw [hr]; rfl)

/-- Settles O34: the calls of a valid frame complete, and which they are is read off its mode. -/
theorem bitAllocFrameCalls : Obligations.BitAllocFrameCalls := by
  unfold Obligations.BitAllocFrameCalls
  intro s d hv
  obtain ⟨m, hm, hbands⟩ := hv.bands
  obtain ⟨r, hcalls, -, -, hsum⟩ := frameCalls_total hv hm
  refine ⟨m, r, hm, execBitAllocFrame_of_calls hbands hcalls, hsum, fun hmode => ?_, fun hmode => ?_, fun hmode => ?_⟩
  · rwa [frameCalls, hmode, allocateAll_singleton] at hcalls
  · rw [frameCalls, hmode] at hcalls
    exact allocateAll_pair hcalls
  · rcases hmode with hmode | hmode <;> rwa [frameCalls, hmode, allocateAll_singleton] at hcalls

end Sys2Proof.Machine
end

section
/-! PROOF. The quantizer and the dequantizer: scale factors, joint stereo, the decoder's global scale and the two sample
formulas (R98 to R105). -/

namespace Sys2Proof.Machine

/-! ### The largest of a list of naturals -/

theorem le_foldl_max {v : List Nat} {n : Nat} (h : n ∈ v) : n ≤ v.foldl max 0 :=
  (List.max?_eq_some_iff.1 (List.max?_cons' (x := 0) (xs := v))).2 n (List.mem_cons_of_mem 0 h)

theorem foldl_max_mem {v : List Nat} (h : v ≠ []) : v.foldl max 0 ∈ v := by
  rcases List.mem_cons.1 (List.max?_eq_some_iff.1 (List.max?_cons' (x := 0) (xs := v))).1 with h0 | hmem
  · obtain ⟨n, hn⟩ := List.exists_mem_of_ne_nil v h
    have hle := le_foldl_max hn
    rwa [h0, ← Nat.le_zero.1 (h0 ▸ hle)]
  · exact hmem

/-! ### `scf_of` (R98) -/

theorem int16_bounds (x : I16) : -32768 ≤ x.toInt ∧ x.toInt < 32768 := ⟨x.le_toInt, x.toInt_lt⟩

theorem natAbs_le_maxMagnitude {v : List I16} {x : I16} (h : x ∈ v) : x.toInt.natAbs ≤ maxMagnitude v :=
  le_foldl_max (List.mem_map_of_mem h)

theorem exists_natAbs_eq_maxMagnitude {v : List I16} (h : v ≠ []) : ∃ x ∈ v, x.toInt.natAbs = maxMagnitude v :=
  List.mem_map.1 (foldl_max_mem (by simpa using h))

theorem maxMagnitude_le (v : List I16) : maxMagnitude v ≤ 32768 := by
  by_cases h : v = []
  · simp [h, maxMagnitude]
  · obtain ⟨x, -, hx⟩ := exists_natAbs_eq_maxMagnitude h
    have hrange := int16_bounds x
    omega

/-- The highest set bit of a magnitude of int16 lies below bit 16. -/
theorem scfOf_toNat (v : List I16) : (scfOf v).toNat = (maxMagnitude v).log2 := by
  have hle := maxMagnitude_le v
  unfold scfOf
  split
  next h0 => rw [h0]; rfl
  next h0 =>
    have hlog : (maxMagnitude v).log2 < 16 := (Nat.log2_lt h0).2 (by omega)
    have hword : (BitVec.ofNat 32 (maxMagnitude v)).toNat = maxMagnitude v := Nat.mod_eq_of_lt (by omega)
    have hne : BitVec.ofNat 32 (maxMagnitude v) ≠ 0 := fun e => h0 (by rw [← hword, e]; rfl)
    rw [clz32, if_neg hne, hword, BitVec.toNat_ofNat]
    omega

/-- The bound R103 needs. -/
theorem natAbs_lt_of_scfOf {v : List I16} {x : I16} (h : x ∈ v) : x.toInt.natAbs < 2 ^ ((scfOf v).toNat + 1) := by
  rw [scfOf_toNat]
  exact (natAbs_le_maxMagnitude h).trans_lt Nat.lt_log2_self

theorem exists_le_natAbs_of_scfOf {v : List I16} (h : scfOf v ≠ 0) : ∃ x ∈ v, 2 ^ (scfOf v).toNat ≤ x.toInt.natAbs := by
  have h0 : maxMagnitude v ≠ 0 := fun e => h (if_pos e)
  obtain ⟨x, hx, hmax⟩ := exists_natAbs_eq_maxMagnitude (v := v) fun e => h0 (by rw [e]; rfl)
  exact ⟨x, hx, by rw [hmax, scfOf_toNat]; exact Nat.log2_self_le h0⟩

theorem Pass.mem_column {p : Pass} {B c k : Nat} {x : I16} : x ∈ p.column B c k ↔ ∃ b < B, p.sbEncAt c b k = x := by
  simp [Pass.column]

/-- Settles O35: each factor is `scf_of` of its column. -/
theorem scaleFactorsBound : Obligations.ScaleFactorsBound := by
  unfold Obligations.ScaleFactorsBound
  intro s d
  refine ⟨_, runUop_of_ok rfl, by simp [build2, d], by simp [build2, d], fun c hc k hk => ?_⟩
  rw [at2_build2 0 _ hc hk]
  refine ⟨fun b hb => natAbs_lt_of_scfOf (Pass.mem_column.2 ⟨b, hb, rfl⟩), fun h => ?_⟩
  obtain ⟨x, hx, hle⟩ := exists_le_natAbs_of_scfOf h
  obtain ⟨b, hb, rfl⟩ := Pass.mem_column.1 hx
  exact ⟨b, hb, hle⟩

/-! ### Joint stereo (R99, R100, R101) -/

theorem jointStereo_iff {d : Desc} : jointStereo d = true ↔ d.mode = .jointStereo := by
  rw [jointStereo_eq, decide_eq_true_iff]

theorem Pass.coupled_iff {p : Pass} {k : Nat} : p.coupled k = true ↔ k + 1 < p.desc.subbands
    ∧ (p.midScf k).toNat + (p.sideScf k).toNat < (p.scfAt 0 k).toNat + (p.scfAt 1 k).toNat := decide_eq_true_iff

/-- Settles O36: what the decision builds, read at one subband. -/
theorem jointDecision : Obligations.JointDecision := by
  unfold Obligations.JointDecision
  intro s d p couple _
  refine ⟨fun hmode => runUop_of_ok (if_neg (mt jointStereo_iff.1 hmode)), fun hmode =>
    ⟨_, _, _, runUop_of_ok (if_pos (jointStereo_iff.2 hmode)), fun k hk => ?_, fun k hk => ?_⟩⟩
  · rw [maskOf_getLsbD _ _ hk, Bool.and_eq_true, decide_eq_true_iff, Pass.coupled_iff]
  · rw [at2_build2 0 _ Nat.zero_lt_two hk, at2_build2 0 _ Nat.one_lt_two hk]
    refine ⟨fun h => ?_, fun h => ?_⟩
    · have hcoupled : s.pass.coupled k = true := Pass.coupled_iff.2 h
      refine ⟨by simp [hcoupled, p], by simp [hcoupled, p], fun b hb => ?_⟩
      rw [at3_build3 0 _ Nat.zero_lt_two hb hk, at3_build3 0 _ Nat.one_lt_two hb hk]
      simp [hcoupled, p, Pass.midAt, Pass.sideAt]
    · have hcoupled : ¬s.pass.coupled k = true := mt Pass.coupled_iff.1 h
      refine ⟨if_neg hcoupled, if_neg hcoupled, fun b hb => ?_⟩
      rw [at3_build3 0 _ Nat.zero_lt_two hb hk, at3_build3 0 _ Nat.one_lt_two hb hk]
      exact ⟨if_neg hcoupled, if_neg hcoupled⟩

/-- Half of a 17-bit sum, rounded down, fits int16. -/
theorem half_toInt {z : Int} (hlow : -65536 ≤ z) (hhigh : z < 65536) : (BitVec.ofInt 16 (asr z 1)).toInt = z / 2 := by
  have hhalf : asr z 1 = z / 2 := Int.shiftRight_eq_div_pow z 1
  rw [hhalf]
  exact BitVec.toInt_ofInt_eq_self (by omega) (by omega) (by omega)

theorem midOf_toInt (l r : I16) : (midOf l r).toInt = (l.toInt + r.toInt) / 2 := by
  have hl := int16_bounds l
  have hr := int16_bounds r
  exact half_toInt (by omega) (by omega)

theorem sideOf_toInt (l r : I16) : (sideOf l r).toInt = (l.toInt - r.toInt) / 2 := by
  have hl := int16_bounds l
  have hr := int16_bounds r
  exact half_toInt (by omega) (by omega)

/-- Settles O37: `l + r` and `l - r` have the same low bit. -/
theorem midSideInverse : Obligations.MidSideInverse := by
  unfold Obligations.MidSideInverse
  intro l r
  rw [midOf_toInt, sideOf_toInt]
  exact ⟨rfl, rfl, by omega, by omega⟩

/-- Settles O38: what the uncoupling builds, read at one subband of one block. -/
theorem jointUncoupling : Obligations.JointUncoupling := by
  unfold Obligations.JointUncoupling
  intro s d p
  refine ⟨fun hmode => runUop_of_ok (if_neg (mt jointStereo_iff.1 hmode)), fun hmode =>
    ⟨_, runUop_of_ok (if_pos (jointStereo_iff.2 hmode)), fun b hb k hk => ?_⟩⟩
  rw [at3_build3 0 _ Nat.zero_lt_two hb hk, at3_build3 0 _ Nat.one_lt_two hb hk]
  refine ⟨fun (h : s.pass.joint.getLsbD k = true) => ?_, fun (h : s.pass.joint.getLsbD k = false) => ?_⟩
  · simp [h, p]
  · simp [h, p]

/-! ### The decoder's global scale (R102) -/

section
variable (p : Pass) (c : Nat)

theorem Pass.ownScale_le {k : Nat} (hk : k < p.desc.subbands) : p.ownScale c ≤ 14 - (p.scfAt c k).toNat := by
  have hle := le_foldl_max (List.mem_map_of_mem (f := fun k => (p.scfAt c k).toNat) (List.mem_range.2 hk))
  rw [Pass.ownScale]
  omega

theorem Pass.exists_ownScale_eq (h : 0 < p.desc.subbands) : ∃ k < p.desc.subbands, p.ownScale c = 14 - (p.scfAt c k).toNat := by
  have hne : (List.range p.desc.subbands).map (fun k => (p.scfAt c k).toNat) ≠ [] := by simpa using h.ne'
  obtain ⟨k, hk, hmax⟩ := List.mem_map.1 (foldl_max_mem hne)
  refine ⟨k, List.mem_range.1 hk, ?_⟩
  rw [Pass.ownScale, ← hmax]
  omega

theorem Pass.ownScale_range (h : 0 < p.desc.subbands) : -1 ≤ p.ownScale c ∧ p.ownScale c ≤ 14 := by
  obtain ⟨k, -, heq⟩ := p.exists_ownScale_eq c h
  have hlt := (p.scfAt c k).isLt
  omega

end

/-- The smaller of the two own scales is one of them. -/
theorem Pass.exists_min_ownScale_eq (p : Pass) : ∃ c < 2, min (p.ownScale 0) (p.ownScale 1) = p.ownScale c := by
  rcases min_choice (p.ownScale 0) (p.ownScale 1) with h | h
  · exact ⟨0, Nat.zero_lt_two, h⟩
  · exact ⟨1, Nat.one_lt_two, h⟩

/-- The scale of channel `c` of the frame (R102). -/
def Pass.frameScale (p : Pass) (c : Nat) : Int :=
  if jointStereo p.desc then min (p.ownScale 0) (p.ownScale 1) else p.ownScale c

theorem execSbScale_eq (s : State) : execSbScale s = .next { s with
    pass := { s.pass with sbScale := (List.range (channelCount s.pass.desc)).map s.pass.frameScale } } := runUop_of_ok rfl

theorem Pass.frameScale_joint {p : Pass} (h : p.desc.mode = .jointStereo) (c : Nat) :
    p.frameScale c = min (p.ownScale 0) (p.ownScale 1) := if_pos (jointStereo_iff.2 h)

theorem Pass.frameScale_separate {p : Pass} (h : p.desc.mode ≠ .jointStereo) (c : Nat) : p.frameScale c = p.ownScale c :=
  if_neg (mt jointStereo_iff.1 h)

theorem Pass.exists_frameScale_eq (p : Pass) (c : Nat) : ∃ c', p.frameScale c = p.ownScale c' := by
  by_cases h : p.desc.mode = .jointStereo
  · obtain ⟨c', -, hmin⟩ := p.exists_min_ownScale_eq
    exact ⟨c', (Pass.frameScale_joint h c).trans hmin⟩
  · exact ⟨c, Pass.frameScale_separate h c⟩

theorem getD_frameScale (p : Pass) {c : Nat} (hc : c < channelCount p.desc) :
    ((List.range (channelCount p.desc)).map p.frameScale).getD c 0 = p.frameScale c := by simp [hc]

/-- Settles O39: every channel's scale is an own scale, its own or the smaller of the two. -/
theorem globalScale : Obligations.GlobalScale := by
  unfold Obligations.GlobalScale
  intro s d p hpos
  refine ⟨_, execSbScale_eq s, by simp [d], fun x hx => ?_, fun hmode c hc => ?_, fun hmode => ?_⟩
  · obtain ⟨c, -, rfl⟩ := List.mem_map.1 hx
    obtain ⟨c', hown⟩ := s.pass.exists_frameScale_eq c
    exact hown ▸ s.pass.ownScale_range c' hpos
  · rw [getD_frameScale _ hc, Pass.frameScale_separate hmode]
    exact ⟨fun k hk => p.ownScale_le c hk, p.exists_ownScale_eq c hpos⟩
  · have hcount : channelCount s.pass.desc = 2 := by rw [channelCount_eq, hmode]; rfl
    rw [getD_frameScale _ (by omega), getD_frameScale _ (by omega), Pass.frameScale_joint hmode, Pass.frameScale_joint hmode]
    refine ⟨rfl, fun c hc k hk => ?_, ?_⟩
    · have hown := s.pass.ownScale_le c hk
      interval_cases c
      · exact (min_le_left _ _).trans hown
      · exact (min_le_right _ _).trans hown
    · obtain ⟨c, hc, hmin⟩ := s.pass.exists_min_ownScale_eq
      obtain ⟨k, hk, hown⟩ := s.pass.exists_ownScale_eq c hpos
      exact ⟨c, hc, k, hk, hmin.trans hown⟩

/-! ### Exact int32 arithmetic (R8, R9) -/

theorem asr32_toInt (x : I32) (s : Nat) : (asr32 x s).toInt = x.toInt / 2 ^ s := by
  rw [asr32, BitVec.toInt_sshiftRight, Int.shiftRight_eq_div_pow]
  norm_cast

/-- A result inside int32 does not wrap. -/
theorem bmod_int32 {z : Int} (hlow : -2 ^ 31 ≤ z) (hhigh : z < 2 ^ 31) : z.bmod (2 ^ 32) = z :=
  Int.bmod_eq_of_le (by omega) (by omega)

/-! ### `QUANT` (R103) -/

/-- The quantizer's range `r`. -/
theorem quantRange_toInt (i : Fin 16) : ((1#32 <<< (i.val + 1)) - 1).toInt = 2 ^ (i.val + 1) - 1 := by decide +revert

theorem quantRange_bounds (i : Fin 16) : 1 ≤ (2 ^ (i.val + 1) - 1 : Int) ∧ (2 ^ (i.val + 1) - 1 : Int) ≤ 65535 := by decide +revert

/-- A magnitude below `2^k` scales into `-r .. r - 1`. -/
theorem scaled_bounds {x r : Int} {k : Nat} (hr : 0 < r) (hx : x.natAbs < 2 ^ k) : -r ≤ x * r / 2 ^ k ∧ x * r / 2 ^ k < r := by
  have hpow : (0 : Int) < 2 ^ k := by positivity
  have habs : |x| < 2 ^ k := by rw [Int.abs_eq_natAbs]; exact_mod_cast hx
  obtain ⟨hlow, hhigh⟩ := abs_lt.1 habs
  exact ⟨(Int.le_ediv_iff_mul_le hpow).2 (by nlinarith), (Int.ediv_lt_iff_lt_mul hpow).2 (by nlinarith)⟩

theorem quantize_toInt {x : I16} {i : Fin 16} {scf : Nat} (hx : x.toInt.natAbs < 2 ^ (scf + 1)) :
    (quantize x (i.val + 1) scf).toInt
      = (x.toInt * (2 ^ (i.val + 1) - 1) / 2 ^ (scf + 1) + (2 ^ (i.val + 1) - 1)) / 2 := by
  obtain ⟨hr, hr16⟩ := quantRange_bounds i
  obtain ⟨hlow, hhigh⟩ := scaled_bounds hr hx
  obtain ⟨hxlow, hxhigh⟩ := int16_bounds x
  rw [quantize, asr32_toInt, BitVec.toInt_add, asr32_toInt, BitVec.toInt_mul, quantRange_toInt,
    BitVec.toInt_signExtend_of_le (by omega), bmod_int32 (z := _ * _) (by nlinarith) (by nlinarith),
    bmod_int32 (by omega) (by omega), pow_one]

theorem execQuant_eq (s : State) : execQuant s = .next { s with
    out := { s.out with code := quantize s.op.sample (s.op.nIdx.val + 1) s.op.scf.toNat } } := runUop_of_ok rfl

/-- Settles O40: the formula does not wrap for a sample its scale factor bounds. -/
theorem quantFormula : Obligations.QuantFormula := by
  unfold Obligations.QuantFormula
  intro s n x r q
  refine ⟨fun hx => ⟨?_, ?_⟩, _, runUop_of_ok rfl⟩
  · have hcode : quantize s.op.sample n s.op.scf.toNat = BitVec.ofInt 32 q := by
      rw [← BitVec.ofInt_toInt (x := quantize ..), quantize_toInt hx]
    exact hcode ▸ execQuant_eq s
  · have hr : 1 ≤ r := (quantRange_bounds s.op.nIdx).1
    obtain ⟨hlow, hhigh⟩ := scaled_bounds hr hx
    have hq : q = (x * r / 2 ^ (s.op.scf.toNat + 1) + r) / 2 := rfl
    have hrn : r = 2 ^ n - 1 := rfl
    omega

/-! ### `DEQUANT` (R104, R105) -/

/-- The code with its half step. -/
theorem halfStep_toInt {raw : Word} {i : Fin 16} (h : raw.toNat < 2 ^ (i.val + 1)) :
    ((raw <<< 1) ||| 1).toInt = (2 * raw.toNat + 1 : Nat) := by
  have hpow : 2 ^ (i.val + 1) ≤ 2 ^ 16 := Nat.pow_le_pow_right (by omega) (by omega)
  have hnat : ((raw <<< 1) ||| 1).toNat = 2 * raw.toNat + 1 := by
    rw [BitVec.toNat_or, BitVec.toNat_shiftLeft, Nat.mod_eq_of_lt (by rw [Nat.shiftLeft_eq]; omega)]
    exact (Nat.shiftLeft_add_eq_or_of_lt (b := 1) (i := 1) (by omega) _).symm.trans (by rw [Nat.shiftLeft_eq]; omega)
  rw [BitVec.toInt_eq_toNat_of_lt (by omega), hnat]

theorem rangeScale_nonneg (i : Fin 16) : 0 ≤ (Config.rangeScale i).toInt := (Config.params.rangeScale_fits i).1

theorem rangeScale_mul_range_le (i : Fin 16) :
    (Config.rangeScale i).toInt * (2 ^ (i.val + 1) - 1) ≤ 2 ^ 28 + (2 ^ (i.val + 1) - 1) :=
  sub_le_iff_le_add'.1 (abs_le.1 (Config.params.rangeScale_near i)).2

/-- R104: a code of `n` bits with its half step, times its entry of the table, fits int32 and lies below `5 * 2^28`. -/
theorem expanded_bounds {a : Nat} {i : Fin 16} (h : a < 2 ^ (i.val + 1)) :
    0 ≤ (2 * a + 1 : Nat) * (Config.rangeScale i).toInt ∧ (2 * a + 1 : Nat) * (Config.rangeScale i).toInt ≤ 5 * 2 ^ 28 := by
  obtain ⟨hr, hr16⟩ := quantRange_bounds i
  have hnear := rangeScale_mul_range_le i
  have hnonneg := rangeScale_nonneg i
  have hcode : ((2 * a + 1 : Nat) : Int) ≤ 2 * (2 ^ (i.val + 1) - 1) + 1 := by
    have : (a : Int) < 2 ^ (i.val + 1) := by exact_mod_cast h
    omega
  generalize (Config.rangeScale i).toInt = t at *
  generalize (2 ^ (i.val + 1) - 1 : Int) = r at *
  refine ⟨by positivity, ?_⟩
  calc ((2 * a + 1 : Nat) : Int) * t ≤ (2 * r + 1) * t := Int.mul_le_mul_of_nonneg_right hcode hnonneg
    _ ≤ 3 * (t * r) := by nlinarith
    _ ≤ 5 * 2 ^ 28 := by omega

theorem dequantize_toInt {raw : Word} {i : Fin 16} {scf : Nat} {sbScale : Int} (hsh : 0 ≤ 28 - ((scf + 1) + sbScale))
    (h : raw.toNat < 2 ^ (i.val + 1)) : (dequantize raw i scf sbScale).toInt
      = ((2 * raw.toNat + 1 : Nat) * (Config.rangeScale i).toInt - 2 ^ 28) / 2 ^ (28 - ((scf + 1) + sbScale)).toNat := by
  obtain ⟨hlow, hhigh⟩ := expanded_bounds h
  have hone : (0x10000000 : I32).toInt = 2 ^ 28 := by decide
  rw [dequantize, dequantizeWith, if_pos hsh, asr32_toInt, BitVec.toInt_sub, BitVec.toInt_mul, halfStep_toInt h, hone,
    bmod_int32 (z := _ * _) (by omega) (by omega), bmod_int32 (by omega) (by omega)]

theorem execDequant_eq (s : State) : execDequant s = .next { s with
    out := { s.out with sample := dequantize s.op.raw s.op.nIdx s.op.scf.toNat s.op.sbScale } } := runUop_of_ok rfl

/-- A shift by 13 or more brings a value within `2^30` to within `2^17`. -/
theorem shifted_bounds {z : Int} {k : Nat} (hk : 13 ≤ k) (hlow : -2 ^ 30 ≤ z) (hhigh : z ≤ 2 ^ 30) :
    -(2 ^ 17) ≤ z / 2 ^ k ∧ z / 2 ^ k ≤ 2 ^ 17 := by
  have hpow : (2 ^ 13 : Int) ≤ 2 ^ k := pow_le_pow_right₀ (by omega) hk
  have hpos : (0 : Int) < 2 ^ k := by omega
  exact ⟨(Int.le_ediv_iff_mul_le hpos).2 (by omega), Int.ediv_le_of_le_mul hpos (by omega)⟩

/-- Settles O41: the constraints of R104 keep the formula inside int32, and its value before the shift within `2^30`. -/
theorem dequantFormula : Obligations.DequantFormula := by
  unfold Obligations.DequantFormula
  intro s n sh y
  refine ⟨fun hsh hraw => ⟨?_, fun h13 => ?_⟩, _, runUop_of_ok rfl⟩
  · have hsample : dequantize s.op.raw s.op.nIdx s.op.scf.toNat s.op.sbScale = BitVec.ofInt 32 y := by
      rw [← BitVec.ofInt_toInt (x := dequantize ..), dequantize_toInt hsh hraw]
    exact hsample ▸ execDequant_eq s
  · obtain ⟨hlow, hhigh⟩ := expanded_bounds hraw
    exact shifted_bounds (by omega) (by omega) (by omega)

end Sys2Proof.Machine
end

section
/-! PROOF. One call of the DCT and of the block functions (R117 to R119, R121): what it writes, and what its result depends
on. -/

namespace Sys2Proof.Machine

/-! ### The DCT (R117, R118) -/

/-- Settles O42: only `dctOut` is written, and D-Z is `Config.dct_zero`. -/
theorem dctCompletes : Obligations.DctCompletes := by
  unfold Obligations.DctCompletes
  intro s
  refine ⟨_, runUop_of_ok rfl, Vector.length_toList, fun hzero => ?_⟩
  rw [blockOf_zero _ _ hzero, Config.dct_zero, Vector.toList_replicate]

/-! ### `ANALYZE_BLOCK` (R119) -/

theorem execAnalyzeBlock_eq (s : State) : exec .analyzeBlock s = .next
    (let r := Config.analyze s.op.bands (s.enc s.op.chan) (blockOf s.op.bands.n s.op.pcm)
    { s.setEnc s.op.chan r.1 with out := { s.out with subbands := r.2.toList } }) := runUop_of_ok rfl

/-- The channel and the outputs after a block are those of `ANALYZE`, for the filter bank `m` of the latch. -/
theorem analyzeBlock_result {s t : State} {m : Bands} (hm : s.op.bands = m) (h : exec .analyzeBlock s = .next t) :
    t.enc s.op.chan = (Config.analyze m (s.enc s.op.chan) (blockOf m.n s.op.pcm)).1
      ∧ t.out.subbands = (Config.analyze m (s.enc s.op.chan) (blockOf m.n s.op.pcm)).2.toList := by
  subst hm
  obtain rfl := Host.Outcome.next.inj ((execAnalyzeBlock_eq s).symm.trans h)
  exact ⟨State.enc_setEnc s _ _, rfl⟩

/-- A-D, A-T, R24: the outputs and the accumulator depend on the accumulator, the block, and either the Index with rows
`0..M-1` or the past samples by age. -/
theorem analyze_congr (m : Bands) {c c' : EncChan} (x : Vector I16 m.n) (hy : c.ay = c'.ay)
    (h : (c.aidx = c'.aidx ∧ ∀ (h : Fin 2) (r : Fin 8), r.val < m.n → c.ax[h][r] = c'.ax[h][r])
      ∨ ∀ j age, Config.analysisPast m c j age = Config.analysisPast m c' j age) :
    (Config.analyze m c x).2 = (Config.analyze m c' x).2 ∧ (Config.analyze m c x).1.ay = (Config.analyze m c' x).1.ay := by
  rcases h with ⟨hi, hr⟩ | hp
  · exact Config.analyze_uses_rows m x hi hy hr
  · exact Config.analyze_time m x hp hy

/-- Settles O43: a block is one `ANALYZE` of its channel, and two equal blocks of one filter bank differ in the channel
only. -/
theorem analyzeBlockProperties : Obligations.AnalyzeBlockProperties := by
  unfold Obligations.AnalyzeBlockProperties
  refine ⟨fun s => ?_, ?_⟩
  · refine ⟨_, _, execAnalyzeBlock_eq s, Vector.length_toList, ?index, Config.analyze_rows _ _ _, fun h hne => ?half,
      fun j age => ?past, fun i hchan hzero => ?zero⟩
    case index => rw [Config.analyze_index, index_add_one]
    case half => exact Config.analyze_half _ _ _ h fun heq => hne (congrArg Fin.val heq)
    case past => rw [Config.analyze_past, blockOf_get]
    case zero =>
      rw [hchan, blockOf_zero _ _ hzero, Config.analyze_zero]
      exact ⟨Vector.toList_replicate, rfl⟩
  · intro s s' t t' c c' hbands hblock ht ht'
    obtain ⟨henc, hout⟩ := analyzeBlock_result rfl ht
    obtain ⟨henc', hout'⟩ := analyzeBlock_result hbands.symm ht'
    rw [← blockOf_congr _ _ _ hblock] at henc' hout'
    rw [henc, henc', hout, hout']
    refine ⟨fun (hc : s.enc s.op.chan = s'.enc s'.op.chan) => by rw [hc]; exact ⟨rfl, rfl⟩, fun hy hpast => ?_⟩
    obtain ⟨hsamples, hacc⟩ := analyze_congr _ (blockOf s.op.bands.n s.op.pcm) hy hpast
    exact ⟨congrArg Vector.toList hsamples, hacc⟩

/-! ### `SYNTH_BLOCK` (R121) -/

/-- R111: `dctIdx` is `(10 - Index) mod 10`. -/
theorem dctIdx_val (c : DecChan) : c.dctIdx.val = (10 - c.sidx.val) % 10 := by
  unfold DecChan.dctIdx dctIdxAt
  split
  · dsimp only; omega
  · next h => rw [not_not.1 h]; rfl

theorem execSynthBlock_eq (s : State) : exec .synthBlock s = .next
    (let r := Config.synthesize s.op.bands (s.dec s.op.chan) (blockOf s.op.bands.n s.op.subbands) s.op.sbScale
    { s.setDec s.op.chan r.1 with out := { s.out with pcm := r.2.toList } }) := runUop_of_ok rfl

/-- The channel and the samples after a block are those of `SYNTHESIZE`, for the filter bank `m` of the latch. -/
theorem synthBlock_result {s t : State} {m : Bands} (hm : s.op.bands = m) (h : exec .synthBlock s = .next t) :
    t.dec s.op.chan = (Config.synthesize m (s.dec s.op.chan) (blockOf m.n s.op.subbands) s.op.sbScale).1
      ∧ t.out.pcm = (Config.synthesize m (s.dec s.op.chan) (blockOf m.n s.op.subbands) s.op.sbScale).2.toList := by
  subst hm
  obtain rfl := Host.Outcome.next.inj ((execSynthBlock_eq s).symm.trans h)
  exact ⟨State.dec_setDec s _ _, rfl⟩

/-- Settles O44: a block is one `SYNTHESIZE` of its channel, and two equal blocks of one filter bank and one scale differ in
the channel only. -/
theorem synthBlockProperties : Obligations.SynthBlockProperties := by
  unfold Obligations.SynthBlockProperties
  refine ⟨fun s => ?_, ?_⟩
  · refine ⟨_, _, execSynthBlock_eq s, Vector.length_toList, ?index, Config.synthesize_rows _ _ _ _, fun h r i hne => ?tap,
      fun i hchan hzero => ?zero⟩
    case index => rw [Config.synthesize_index, index_add_one]
    case tap => exact Config.synthesize_tap _ _ _ _ h r i fun heq => hne (heq ▸ dctIdx_val _)
    case zero =>
      rw [hchan, blockOf_zero _ _ hzero, Config.synthesize_zero]
      exact ⟨Vector.toList_replicate, rfl⟩
  · intro s s' t t' c c' hbands hscale hblock ht ht'
    obtain ⟨hdec, hout⟩ := synthBlock_result rfl ht
    obtain ⟨hdec', hout'⟩ := synthBlock_result hbands.symm ht'
    rw [← blockOf_congr _ _ _ hblock, ← hscale] at hdec' hout'
    rw [hdec, hdec', hout, hout']
    refine ⟨fun (hc : s.dec s.op.chan = s'.dec s'.op.chan) => by rw [hc]; exact ⟨rfl, rfl⟩, fun hpast => ?_⟩
    obtain ⟨hsamples, hnewer⟩ := Config.synthesize_time _ (blockOf s.op.bands.n s.op.subbands) s.op.sbScale hpast
    exact ⟨congrArg Vector.toList hsamples, hnewer⟩

end Sys2Proof.Machine
end

section
/-! PROOF. The frame loops of the filter banks (R120, R122): a used channel's blocks in order, the state threaded through. -/

namespace Sys2Proof.Machine

theorem twoChannels_of_mono {d : Desc} (h : d.mode = .mono) : twoChannels d = false := by rw [twoChannels_eq, h]; rfl

theorem twoChannels_of_ne_mono {d : Desc} (h : d.mode ≠ .mono) : twoChannels d = true := by
  rw [twoChannels_eq]; exact decide_eq_true h

/-! ### `ANALYZE_FRAME` (R120) -/

section
variable {s : State} {m : Bands}

theorem analyzeFrame_mono (hm : bandsOf s.pass.desc.subbands = some m) (hmode : s.pass.desc.mode = .mono)
    {r : EncChan × List (List I16)} (h : analyzeChannel m s.pcmL (List.range s.pass.desc.blocks) s.enc0 = some r) :
    analyzeFrame s = .ok { s with enc0 := r.1, pass := { s.pass with sbEnc := [r.2] } } := by
  simp only [analyzeFrame, hm, h, twoChannels_of_mono hmode, Bool.false_eq_true, if_false]

theorem analyzeFrame_twoChannels (hm : bandsOf s.pass.desc.subbands = some m) (hmode : s.pass.desc.mode ≠ .mono)
    {r r' : EncChan × List (List I16)} (h : analyzeChannel m s.pcmL (List.range s.pass.desc.blocks) s.enc0 = some r)
    (h' : analyzeChannel m s.pcmR (List.range s.pass.desc.blocks) s.enc1 = some r') :
    analyzeFrame s = .ok { s with enc0 := r.1, enc1 := r'.1, pass := { s.pass with sbEnc := [r.2, r'.2] } } := by
  simp only [analyzeFrame, hm, h, h', twoChannels_of_ne_mono hmode, if_true]

end

/-- Settles O45: the blocks of a written channel are read as R114 cuts them, and `analyzeChannel_eq` runs them. -/
theorem analyzeFrameCompletes : Obligations.AnalyzeFrameCompletes := by
  unfold Obligations.AnalyzeFrameCompletes
  intro s M d block blocks after sb _ hM hleft
  have hbands : bandsOf d.subbands = some M := bandsOf_some.2 hM
  rw [← hM] at hleft ⊢
  have hchannel := fun pcm hw e => analyzeChannel_eq (m := M) (pcm := pcm) (List.range d.blocks) e (blocks_written hw)
  refine ⟨?index, fun hmode => ?mono, fun hmode hright => ?twoChannels⟩
  case index => rw [analyze_stream_index, List.length_map, List.length_range]
  case mono => exact runUop_of_ok (analyzeFrame_mono hbands hmode (hchannel _ hleft _))
  case twoChannels => exact runUop_of_ok (analyzeFrame_twoChannels hbands hmode (hchannel _ hleft _) (hchannel _ hright _))

/-! ### `SYNTH_FRAME` (R122) -/

section
variable {s : State} {m : Bands}

theorem synthFrame_mono (hm : bandsOf s.pass.desc.subbands = some m) (hmode : s.pass.desc.mode = .mono) :
    synthFrame s = .ok (let r := synthChannel m (s.pass.sbScaleAt 0) (s.pass.decoderBlocks 0) s.dec0
      { s with dec0 := r.1, pcmL := Mem.writeList s.pcmL 0 r.2 }) := by
  simp only [synthFrame, hm, twoChannels_of_mono hmode, Bool.false_eq_true, if_false]

theorem synthFrame_twoChannels (hm : bandsOf s.pass.desc.subbands = some m) (hmode : s.pass.desc.mode ≠ .mono) :
    synthFrame s = .ok (let r := synthChannel m (s.pass.sbScaleAt 0) (s.pass.decoderBlocks 0) s.dec0
      let r' := synthChannel m (s.pass.sbScaleAt 1) (s.pass.decoderBlocks 1) s.dec1
      { s with dec0 := r.1, dec1 := r'.1, pcmL := Mem.writeList s.pcmL 0 r.2, pcmR := Mem.writeList s.pcmR 0 r'.2 }) := by
  simp only [synthFrame, hm, twoChannels_of_ne_mono hmode, if_true]

end

/-- `SB[c][0..B-1]` as blocks of `M` subbands. -/
theorem decoderBlocks_map_blockOf {p : Pass} {m : Bands} (hm : m.n = p.desc.subbands) (c : Nat) :
    (p.decoderBlocks c).map (blockOf m.n)
      = (List.range p.desc.blocks).map fun b => Vector.ofFn fun k : Fin m.n => p.sbDecAt c b k := by
  rw [Pass.decoderBlocks, List.map_map]
  refine List.map_congr_left fun b _ => Vector.ext fun k hk => ?_
  have hk' : k < p.desc.subbands := hm ▸ hk
  simp [blockOf, hk']

/-- The samples of blocks, written one block after another from index 0: sample `b*M + i` is sample `i` of block `b`, and the
indexes past the last block keep their values. -/
theorem writeList_blocks (mem : Mem 16) {n B : Nat} {outs : List (Vector I16 n)} (hlen : outs.length = B) :
    let m := Mem.writeList mem 0 (outs.flatMap Vector.toList)
    (∀ b < B, ∀ i : Fin n, Mem.read m (b * n + i) = (outs[b]?).map fun x => x[i])
      ∧ Mem.written m 0 (B * n) ∧ Mem.sameOutside mem m 0 (B * n) := by
  have htotal : (outs.flatMap Vector.toList).length = B * n := by simp [List.length_flatMap, hlen]
  refine ⟨fun b hb i => ?_, htotal ▸ Mem.writeList_written mem _⟩
  have hindex : b * n + i < B * n := by
    calc b * n + i < (b + 1) * n := by rw [Nat.succ_mul]; exact Nat.add_lt_add_left i.isLt _
      _ ≤ B * n := Nat.mul_le_mul_right n hb
  rw [Mem.read_writeList, if_pos ⟨Nat.zero_le _, by rwa [Nat.zero_add, htotal]⟩, Nat.sub_zero, getElem?_flatMap_toList]

/-- Settles O46: each used channel's samples are the outputs of its blocks one after another, written from index 0. -/
theorem synthFrameCompletes : Obligations.SynthFrameCompletes := by
  unfold Obligations.SynthFrameCompletes
  intro s M d blocks run after holds n _ hM
  have hbands : bandsOf d.subbands = some M := bandsOf_some.2 hM
  have hblocks : ∀ c, (s.pass.decoderBlocks c).map (blockOf M.n) = blocks c := decoderBlocks_map_blockOf hM
  have hstate : ∀ c e, after c e = (synthChannel M (s.pass.sbScaleAt c) (s.pass.decoderBlocks c) e).1 := fun c e => by
    rw [synthChannel_state, hblocks]
  have hbuffer : ∀ c e mem, let m := Mem.writeList mem 0 (synthChannel M (s.pass.sbScaleAt c) (s.pass.decoderBlocks c) e).2
      holds c e m ∧ Mem.written m 0 n ∧ Mem.sameOutside mem m 0 n := fun c e mem => by
    rw [synthChannel_outputs, hblocks, show n = d.blocks * M.n by rw [hM]]
    exact writeList_blocks mem (by simp [blockOutputs_length, blocks])
  refine ⟨?index, fun hmode => ⟨_, ?mono, hbuffer 0 s.dec0 s.pcmL⟩, fun hmode => ?twoChannels⟩
  case index => rw [hstate, synthChannel_index, Pass.decoderBlocks_length]
  case mono => rw [hstate]; exact runUop_of_ok (synthFrame_mono hbands hmode)
  case twoChannels =>
    obtain ⟨hread, hwritten, hsame⟩ := hbuffer 0 s.dec0 s.pcmL
    refine ⟨_, _, ?_, hread, hwritten, hsame, hbuffer 1 s.dec1 s.pcmR⟩
    rw [hstate, hstate]
    exact runUop_of_ok (synthFrame_twoChannels hbands hmode)

end Sys2Proof.Machine
end

section
/-! PROOF. The reset commands, `VALIDATE` and `FRAME_SIZE` (R126 to R130), and the checks `ENCODE`, `PROBE` and `DECODE` make
before they do anything else (R131 to R133, R145). -/

namespace Sys2Proof.Machine

/-! ### Resets (R123, R126 to R128) -/

theorem exec_fbReset (s : State) : exec .fbReset s = .next (fbReset s.op.set s) := rfl

/-- Settles O13: each command is `fbReset` of its sets between start and completion. -/
theorem filterResets : Obligations.FilterResets := by
  unfold Obligations.FilterResets
  intro s
  refine ⟨rfl, rfl, rfl, fun hset => ?_, fun hset => ?_⟩
  · rw [exec_fbReset, hset, fbReset_enc]
  · rw [exec_fbReset, hset, fbReset_dec]

/-! ### The descriptor in `CFG` (R17, R129, R130) -/

/-- R17: with the mSBC bit set the other fields of `CFG` do not matter. -/
theorem eff_descOfCfg_msbc {w : Word} (h : w.getLsbD 0 = true) : eff (descOfCfg w) = msbcDesc := if_pos h

/-- R21, R75: `FRAME_LEN` holds every valid frame size. -/
theorem validEff.frameLen_toNat {d : Desc} (h : validEff d) : (BitVec.ofNat 10 (frameSize d)).toNat = frameSize d := by
  obtain ⟨hle, -⟩ := h.bounds
  exact (BitVec.toNat_ofNat ..).trans (Nat.mod_eq_of_lt (by omega))

section

variable {s : State}

theorem validateBody_valid (h : isValid s.cfgDesc = true) : validateBody s = .ok s := if_pos h

theorem validateBody_invalid (h : isValid s.cfgDesc = false) : validateBody s = .raised .invalidConfiguration s := by
  simp [validateBody, h]

theorem frameSizeBody_valid (h : isValid s.cfgDesc = true) :
    frameSizeBody s = .ok { s with frameLen := BitVec.ofNat 10 (frameSize s.cfgDesc) } := if_pos h

theorem frameSizeBody_invalid (h : isValid s.cfgDesc = false) : frameSizeBody s = .raised .invalidConfiguration s := by
  simp [frameSizeBody, h]

end

/-- Settles O48: both commands are a test of the effective descriptor. -/
theorem descriptorCommands : Obligations.DescriptorCommands := by
  unfold Obligations.DescriptorCommands
  intro s d
  refine ⟨fun hvalid => ⟨?_, BitVec.ofNat 10 (frameSize d), ?_, (validEff_eff hvalid).frameLen_toNat⟩,
    fun hinvalid => ⟨?_, ?_⟩, fun hmsbc => ?_⟩
  · exact (runCommand_of_ok (validateBody_valid (s := s.start 0x10) hvalid)).trans rfl
  · exact (runCommand_of_ok (frameSizeBody_valid (s := s.start 0x11) hvalid)).trans rfl
  · exact (runCommand_of_raised (validateBody_invalid (s := s.start 0x10) hinvalid)).trans rfl
  · exact (runCommand_of_raised (frameSizeBody_invalid (s := s.start 0x11) hinvalid)).trans rfl
  · have hd : d = msbcDesc := eff_descOfCfg_msbc hmsbc
    rw [hd]
    decide

/-! ### The checks of `ENCODE` (R131, R145) -/

section

variable {s : State}

theorem encodeBody_invalid (h : isValid s.cfgDesc = false) : encodeBody s = .raised .invalidConfiguration s := by
  simp [encodeBody, h]

theorem encodeBody_shortLeft (hvalid : isValid s.cfgDesc = true)
    (hleft : s.leftSamples < s.cfgDesc.blocks * s.cfgDesc.subbands) : encodeBody s = .raised .bufferTooShort s := by
  simp [encodeBody, hvalid, hleft]

theorem encodeBody_shortRight (hvalid : isValid s.cfgDesc = true)
    (hleft : s.cfgDesc.blocks * s.cfgDesc.subbands ≤ s.leftSamples) (hmode : s.cfgDesc.mode ≠ .mono)
    (hright : s.rightSamples < s.cfgDesc.blocks * s.cfgDesc.subbands) : encodeBody s = .raised .bufferTooShort s := by
  simp [encodeBody, hvalid, Nat.not_lt.2 hleft, twoChannels_of_ne_mono hmode, hright]

/-- The checks of `ENCODE` have passed (R131). -/
structure State.EncodeReady (s : State) : Prop where
  valid : isValid s.cfgDesc = true
  left : s.cfgDesc.blocks * s.cfgDesc.subbands ≤ s.leftSamples
  right : s.cfgDesc.mode ≠ .mono → s.cfgDesc.blocks * s.cfgDesc.subbands ≤ s.rightSamples

theorem encodeBody_ready (h : s.EncodeReady) : encodeBody s = encodeFrame s.cfgDesc s := by
  have hright : ¬(twoChannels s.cfgDesc && decide (s.rightSamples < s.cfgDesc.blocks * s.cfgDesc.subbands)) = true := by
    rw [twoChannels_eq, Bool.and_eq_true, decide_eq_true_eq, decide_eq_true_eq]
    rintro ⟨hmode, hshort⟩
    exact Nat.not_lt.2 (h.right hmode) hshort
  simp only [encodeBody, h.valid, Bool.not_true, Bool.false_eq_true, if_false, Nat.not_lt.2 h.left, hright]

/-- No frame of a valid descriptor has more samples than a PCM buffer, so the length registers may be compared as they are. -/
theorem State.EncodeReady.of_lengths (hvalid : isValid s.cfgDesc = true)
    (hleft : s.cfgDesc.blocks * s.cfgDesc.subbands ≤ s.pcmLeft.toNat)
    (hright : s.cfgDesc.mode ≠ .mono → s.cfgDesc.blocks * s.cfgDesc.subbands ≤ s.pcmRight.toNat) : s.EncodeReady :=
  have hfits := (validEff_eff hvalid).samples
  ⟨hvalid, Nat.le_min.2 ⟨hleft, hfits⟩, fun hmode => Nat.le_min.2 ⟨hright hmode, hfits⟩⟩

/-- An `ENCODE` that runs had passed its checks. -/
theorem encodeReady_of_ok {t : State} (h : encodeBody s = .ok t) : s.EncodeReady := by
  unfold encodeBody at h
  dsimp only at h
  split at h
  · cases h
  next hvalid =>
  split at h
  · cases h
  next hleft =>
  split at h
  · cases h
  next hright =>
  refine ⟨by simpa using hvalid, Nat.not_lt.1 hleft, fun hmode => ?_⟩
  simpa [twoChannels_of_ne_mono hmode] using hright

end

/-- Settles O49: the checks in the order of R145. -/
theorem encodeChecksInOrder : Obligations.EncodeChecksInOrder := by
  unfold Obligations.EncodeChecksInOrder
  intro s d n
  refine ⟨fun hinvalid => ?_, fun hvalid hleft => ?_, fun hvalid hleft hmode hright => ?_⟩
  · exact (runCommand_of_raised (encodeBody_invalid (s := s.start 0x20) hinvalid)).trans rfl
  · exact (runCommand_of_raised (encodeBody_shortLeft (s := s.start 0x20) hvalid hleft)).trans rfl
  · exact (runCommand_of_raised (encodeBody_shortRight (s := s.start 0x20) hvalid hleft hmode hright)).trans rfl

end Sys2Proof.Machine
end

section
/-! PROOF. `ENCODE`, `PROBE` and `DECODE` (R131 to R133, R136, R140): each ends in its checks, stops at a byte or sample never
written, or leaves what its operations leave, run one after another. -/

namespace Sys2Proof.Machine

/-! ### `ENCODE` (R131) -/

/-- A state is the one its update of `FRAME_LEN` gives, `FRAME_LEN` apart. -/
theorem eq_of_setFrameLen {t u : State} {n : BitVec 10} (h : t = { u with frameLen := n }) : ∃ len, u = { t with frameLen := len } := by
  subst h
  exact ⟨u.frameLen, rfl⟩

/-- Settles O50: the checks pass, `encodeFrame_ok` says what the frame leaves, and `encodeFrame_runs` that its operations
leave the same. -/
theorem encodeCompletes : Obligations.EncodeCompletes := by
  unfold Obligations.EncodeCompletes
  intro s d n hvalid hleft hwrittenL hright
  have hv : validEff d := validEff_eff hvalid
  have hready : (s.start 0x20).EncodeReady := .of_lengths hvalid hleft fun hmode => (hright hmode).1
  obtain ⟨m, e0, e1, p, bits, hok, hwritten, hsame, hindex0, hmono, hindex1, -⟩ :=
    encodeFrame_ok (s := s.start 0x20) hv hwrittenL fun hmode => (hright hmode).2
  obtain ⟨u, hu, herr, hruns⟩ := encodeFrame_runs hok
  obtain ⟨len, rfl⟩ : ∃ len, u = { s.start 0x20 with frameLen := len, frameBuf := m, enc0 := e0, enc1 := e1, pass := p } := by
    exact eq_of_setFrameLen hu
  have hsize : (Fin.ofNat 513 (frameSize d)).val = frameSize d := Nat.mod_eq_of_lt (Nat.lt_succ_of_le hv.bounds.1)
  refine ⟨BitVec.ofNat 10 (frameSize d), _, hruns s.phase s.done
    { s.op with dir := .write, size := Fin.ofNat 513 (frameSize d) } rfl hsize, rfl, rfl, rfl, herr,
    (runCommand_of_ok ((encodeBody_ready hready).trans hok)).trans rfl, hv.frameLen_toNat, hwritten, hsame, hindex0, hmono, hindex1⟩

/-! ### `PROBE` (R132) -/

/-- R132, R133: the number of bytes the first check looks at. -/
theorem State.four_le_frameBytes {s : State} (h : 4 ≤ s.frameLen.toNat) : 4 ≤ s.frameBytes := Nat.le_min.2 ⟨h, by decide⟩

section

variable {s : State}

theorem probeBody_short (h : s.frameBytes < 4) : probeBody s = .raised .bufferTooShort s := by
  rw [probeBody, receiveFrame_short h, Micro.raised_andThen]

theorem probeBody_bad (h4 : 4 ≤ s.frameBytes) (h : badHeader s) :
    ∃ p, probeBody s = .raised .malformedHeader { s with pass := p } := by
  obtain ⟨p, hreceive⟩ := receiveFrame_bad h4 h
  exact ⟨p, by rw [probeBody, hreceive, Micro.raised_andThen]⟩

/-- The state in which the header of a frame with descriptor `d` has been taken over (R77). -/
def State.received (d : Desc) (crc : BitVec 8) (s : State) : State :=
  { s with pass := { s.pass with bs := ⟨.read, s.frameBytes, 32, [], false⟩, desc := d, crcRx := crc } }

theorem probeBody_header {d : Desc} {crc : BitVec 8} {w : Word} (h4 : 4 ≤ s.frameBytes) (hv : validEff d)
    (hw : encode (headerInstr d crc) = .header w) (hheader : s.headerWord = some w) :
    probeBody s = .ok { s.received d crc with cfg := cfgOfDesc d } := by
  rw [probeBody, receiveFrame_header h4 hv hw hheader, Micro.ok_andThen]
  rfl

end

/-- Settles O51: `PROBE` is its first steps, and on a header taken over one more register. -/
theorem probeReadsHeader : Obligations.ProbeReadsHeader := by
  unfold Obligations.ProbeReadsHeader
  intro s
  refine ⟨fun hshort => ?_, fun h4 hbad => ?_, fun d crc w h4 hv hw hheader => ?_⟩
  · exact (runCommand_of_raised (probeBody_short (s := s.start 0x30) hshort)).trans rfl
  · obtain ⟨p, hbody⟩ := probeBody_bad (s := s.start 0x30) (State.four_le_frameBytes h4) hbad
    exact ⟨p, (runCommand_of_raised hbody).trans rfl⟩
  · have hbody := probeBody_header (s := s.start 0x30) (State.four_le_frameBytes h4) hv hw hheader
    have hblocks := hv.blocks_bound
    have hsubbands := hv.subbands
    have hbounds := hv.bounds
    exact ⟨_, (runCommand_of_ok hbody).trans rfl, rfl, descOfCfg_cfgOfDesc (by omega) (by omega) (by omega)⟩

/-! ### `DECODE` (R133) -/

/-- R122: the synthesis of a frame completes; each used channel's Index advances by the blocks and its samples are written. -/
theorem synthFrame_ok {s : State} (hv : validEff s.pass.desc) :
    let d := s.pass.desc
    let n := d.blocks * d.subbands
    ∃ (e0 e1 : DecChan) (mL mR : Mem 16), synthFrame s = .ok { s with dec0 := e0, dec1 := e1, pcmL := mL, pcmR := mR }
      ∧ e0.sidx.val = (s.dec0.sidx.val + d.blocks) % 10 ∧ Mem.written mL 0 n ∧ Mem.sameOutside s.pcmL mL 0 n
      ∧ (d.mode = .mono → e1 = s.dec1 ∧ mR = s.pcmR)
      ∧ (d.mode ≠ .mono → e1.sidx.val = (s.dec1.sidx.val + d.blocks) % 10 ∧ Mem.written mR 0 n ∧ Mem.sameOutside s.pcmR mR 0 n) := by
  intro d n
  obtain ⟨m, hm, hbands⟩ := hv.bands
  have hindex : ∀ c (e : DecChan), (synthChannel m (s.pass.sbScaleAt c) (s.pass.decoderBlocks c) e).1.sidx.val
      = (e.sidx.val + d.blocks) % 10 := fun c e => by rw [synthChannel_index, Pass.decoderBlocks_length]
  have hbuffer : ∀ c (e : DecChan) (buf : Mem 16),
      let v := (synthChannel m (s.pass.sbScaleAt c) (s.pass.decoderBlocks c) e).2
      Mem.written (Mem.writeList buf 0 v) 0 n ∧ Mem.sameOutside buf (Mem.writeList buf 0 v) 0 n := fun c e buf => by
    have hlen : (synthChannel m (s.pass.sbScaleAt c) (s.pass.decoderBlocks c) e).2.length = n := by
      rw [synthChannel_length, Pass.decoderBlocks_length, hm]
    exact hlen ▸ Mem.writeList_written buf _
  by_cases hmode : d.mode = .mono
  · exact ⟨_, s.dec1, _, s.pcmR, synthFrame_mono hbands hmode, hindex 0 _, (hbuffer 0 _ _).1, (hbuffer 0 _ _).2,
      fun _ => ⟨rfl, rfl⟩, fun hne => absurd hmode hne⟩
  · exact ⟨_, _, _, _, synthFrame_twoChannels hbands hmode, hindex 0 _, (hbuffer 0 _ _).1, (hbuffer 0 _ _).2,
      fun he => absurd he hmode, fun _ => ⟨hindex 1 _, hbuffer 1 _ _⟩⟩

/-- `CFG` and `PCM_LEN` describe the decoded frame; `RIGHT` is 0 in Mono. -/
theorem decodeOutputs_eq (s : State) : decodeOutputs s = { s with
    cfg := cfgOfDesc s.pass.desc
    pcmLeft := BitVec.ofNat 8 (s.pass.desc.blocks * s.pass.desc.subbands)
    pcmRight := if s.pass.desc.mode = .mono then 0 else BitVec.ofNat 8 (s.pass.desc.blocks * s.pass.desc.subbands) } := by
  simp only [decodeOutputs, twoChannels_eq, ne_eq, decide_eq_true_eq, ite_not]

/-- A state is the one its outputs give, the three registers apart. -/
theorem eq_of_decodeOutputs {t u : State} (h : t = decodeOutputs u) :
    ∃ cfg left right, u = { t with cfg := cfg, pcmLeft := left, pcmRight := right } := by
  subst h
  exact ⟨u.cfg, u.pcmLeft, u.pcmRight, rfl⟩

section

variable {s : State}

theorem decodeBody_short (h : s.frameBytes < 4) : decodeBody s = .raised .bufferTooShort s := by
  rw [decodeBody, receiveFrame_short h, Micro.raised_andThen]

theorem decodeBody_bad (h4 : 4 ≤ s.frameBytes) (h : badHeader s) :
    ∃ p, decodeBody s = .raised .malformedHeader { s with pass := p } := by
  obtain ⟨p, hreceive⟩ := receiveFrame_bad h4 h
  exact ⟨p, by rw [decodeBody, hreceive, Micro.raised_andThen]⟩

/-- `DECODE` once the header is taken over. -/
theorem decodeBody_header {d : Desc} {crc : BitVec 8} {w : Word} (h4 : 4 ≤ s.frameBytes) (hv : validEff d)
    (hw : encode (headerInstr d crc) = .header w) (hheader : s.headerWord = some w) :
    decodeBody s = (decodeSamples (s.received d crc)).andThen fun s => (synthFrame s).andThen fun s => .ok (decodeOutputs s) := by
  rw [decodeBody, receiveFrame_header h4 hv hw hheader, Micro.ok_andThen]
  rfl

/-- A complete written frame with the right CRC decodes; the samples go to the PCM buffers (R133). -/
theorem decodeBody_ok {d : Desc} {crc : BitVec 8} {w : Word} {bits : List Bool} (hv : validEff d)
    (hw : encode (headerInstr d crc) = .header w) (hheader : s.headerWord = some w) (hsize : frameSize d ≤ s.frameBytes)
    (hcov : coverage s.frameBuf d = some bits) (hcrc : crc = crcOf bits) (hwritten : Mem.written s.frameBuf 0 (frameSize d)) :
    let n := d.blocks * d.subbands
    ∃ (e0 e1 : DecChan) (mL mR : Mem 16) (p : Pass),
      decodeBody s = .ok { s with
        cfg := cfgOfDesc d, pcmLeft := BitVec.ofNat 8 n, pcmRight := if d.mode = .mono then 0 else BitVec.ofNat 8 n
        dec0 := e0, dec1 := e1, pcmL := mL, pcmR := mR, pass := p }
      ∧ e0.sidx.val = (s.dec0.sidx.val + d.blocks) % 10 ∧ Mem.written mL 0 n ∧ Mem.sameOutside s.pcmL mL 0 n
      ∧ (d.mode = .mono → e1 = s.dec1 ∧ mR = s.pcmR)
      ∧ (d.mode ≠ .mono → e1.sidx.val = (s.dec1.sidx.val + d.blocks) % 10 ∧ Mem.written mR 0 n ∧ Mem.sameOutside s.pcmR mR 0 n) := by
  intro n
  have h4 : 4 ≤ s.frameBytes := (Nat.le_add_right 4 _).trans hsize
  obtain ⟨p, hsamples, rfl⟩ := decodeSamples_ok (s := s.received d crc) hv rfl rfl hsize hwritten hcov hcrc
  obtain ⟨e0, e1, mL, mR, hsynth, hrest⟩ := synthFrame_ok (s := { s with pass := p }) hv
  refine ⟨e0, e1, mL, mR, p, ?_, hrest⟩
  rw [decodeBody_header h4 hv hw hheader, hsamples, Micro.ok_andThen, State.received, hsynth, Micro.ok_andThen,
    decodeOutputs_eq]

end

/-- Settles O52: each failure is what its check raises; a frame that passes them decodes by `decodeBody_ok`, and
`decodeBody_runs` says that its operations leave the same. -/
theorem decodeCompletes : Obligations.DecodeCompletes := by
  unfold Obligations.DecodeCompletes
  intro s fails len
  have hfails : ∀ {k : ResultCode} {p : Pass}, decodeBody (s.start 0x31) = .raised k { s.start 0x31 with pass := p } → fails k :=
    fun h => ⟨_, (runCommand_of_raised h).trans rfl⟩
  refine ⟨fun hshort => hfails (decodeBody_short (s := s.start 0x31) hshort), fun h4 hbad => ?bad, fun d crc w h4 hv hw hheader => ?_⟩
  case bad =>
    obtain ⟨p, hbody⟩ := decodeBody_bad (s := s.start 0x31) h4 hbad
    exact hfails hbody
  have hbody := decodeBody_header (s := s.start 0x31) h4 hv hw hheader
  refine ⟨fun hshort => ?short, fun bits hsize hcov => ⟨fun hcrc => ?mismatch, fun hcrc hwritten => ?_⟩⟩
  case short =>
    rw [decodeSamples_short (s := (s.start 0x31).received d crc) hshort, Micro.raised_andThen] at hbody
    exact hfails hbody
  case mismatch =>
    obtain ⟨p, hsamples⟩ := decodeSamples_mismatch (s := (s.start 0x31).received d crc) hv rfl rfl hsize hcov hcrc
    rw [hsamples, Micro.raised_andThen] at hbody
    exact hfails hbody
  obtain ⟨e0, e1, mL, mR, p, hok, hrest⟩ := decodeBody_ok (s := s.start 0x31) hv hw hheader hsize hcov hcrc hwritten
  obtain ⟨u, hu, herr, hruns⟩ := decodeBody_runs hok
  obtain ⟨cfg, left, right, rfl⟩ : ∃ cfg left right, u = { s.start 0x31 with
      cfg := cfg, pcmLeft := left, pcmRight := right, dec0 := e0, dec1 := e1, pcmL := mL, pcmR := mR, pass := p } := by
    exact eq_of_decodeOutputs hu
  have hlen : (Fin.ofNat 513 len).val = len := Nat.mod_eq_of_lt (Nat.lt_succ_of_le (Nat.min_le_right ..))
  exact ⟨_, hruns s.phase s.done { s.op with dir := .read, size := Fin.ofNat 513 len } rfl hlen, rfl, rfl, rfl, herr,
    (runCommand_of_ok hok).trans rfl, hrest⟩

/-! ### A frame just encoded (R136) -/

/-- What a successful `ENCODE` leaves for a decoder: the frame is written, `FRAME_LEN` holds its size, and its header is that
of the effective descriptor with the CRC of what it covers. -/
theorem encode_leaves_frame {s t : State} (h : exec .encode s = .next t) (hresult : t.result = .ok) :
    let d := s.cfgDesc
    validEff d ∧ t.frameLen.toNat = frameSize d ∧ Mem.written t.frameBuf 0 (frameSize d)
      ∧ ∃ bits w, coverage t.frameBuf d = some bits ∧ encode (headerInstr d (crcOf bits)) = .header w ∧ t.headerWord = some w := by
  intro d
  rcases runCommand_next.1 h with ⟨u, hu, rfl⟩ | ⟨k, u, hu, rfl⟩
  · have hready := encodeReady_of_ok hu
    have hv : validEff d := validEff_eff hready.valid
    rw [encodeBody_ready hready] at hu
    obtain ⟨v, hanalyze, -⟩ := Micro.andThen_ok.1 hu
    obtain ⟨hleft, hright⟩ := analyzeFrame_written hanalyze
    obtain ⟨m, e0, e1, p, bits, hok, hwritten, -, -, -, -, hcov, w, hw, hholds⟩ := encodeFrame_ok (s := s.start 0x20) hv hleft hright
    cases hok.symm.trans hu
    exact ⟨hv, hv.frameLen_toNat, hwritten, bits, w, hcov, hw, State.headerWord_holds.2 hholds⟩
  · have hraises := encodeBody_raises (s.start 0x20)
    rw [hu] at hraises
    obtain ⟨hk, -⟩ := hraises
    have hok : k = .ok := hresult
    exact absurd hk (by rw [hok]; decide)

/-- Settles O53: the frame `ENCODE` leaves meets what `PROBE` (O51) and `DECODE` (O52) ask. -/
theorem encodedFrameDecodes : Obligations.EncodedFrameDecodes := by
  unfold Obligations.EncodedFrameDecodes
  intro s t d hencode hresult
  obtain ⟨hv, hlen, hwritten, bits, w, hcov, hw, hheader⟩ := encode_leaves_frame hencode hresult
  obtain ⟨hfits, -, -, hleast⟩ := hv.bounds
  have hsamples := hv.samples
  have hsize : frameSize s.cfgDesc ≤ min t.frameLen.toNat 512 := by omega
  obtain ⟨-, -, hprobe⟩ := probeReadsHeader t
  obtain ⟨p, hp, -⟩ := hprobe d _ w (by omega) hv hw hheader
  obtain ⟨-, -, hdecode⟩ := decodeCompletes t
  obtain ⟨-, hdecode⟩ := hdecode d _ w (by omega) hv hw hheader
  obtain ⟨u, -, -, -, -, -, hu, -⟩ := (hdecode bits hsize hcov).2 rfl hwritten
  have hcount : (BitVec.ofNat 8 (d.blocks * d.subbands)).toNat = d.blocks * d.subbands :=
    (BitVec.toNat_ofNat ..).trans (Nat.mod_eq_of_lt (Nat.lt_of_le_of_lt hsamples (by decide)))
  refine ⟨⟨_, hp, rfl, rfl⟩, _, hu, rfl, rfl, hcount, ?_⟩
  split
  · rfl
  · exact hcount

/-! ### Bytes and samples never written (R140) -/

/-- R131, R140: an `ENCODE` past its checks stops at a sample never written. -/
theorem encodeFrame_fault {s : State} {d : Desc} (hv : validEff d)
    (h : (∃ a < d.blocks * d.subbands, Mem.read s.pcmL a = none)
      ∨ (d.mode ≠ .mono ∧ ∃ a < d.blocks * d.subbands, Mem.read s.pcmR a = none)) :
    encodeFrame d s = .fault .unwrittenPcmSample := by
  have hanalyze : analyzeFrame { s with pass := { s.pass with desc := d } } = .fault .unwrittenPcmSample := by
    rcases h with ⟨a, ha, hnone⟩ | ⟨hmode, a, ha, hnone⟩
    · exact analyzeFrame_fault_left hv ha hnone
    · exact analyzeFrame_fault_right hv hmode ha hnone
  rw [encodeFrame, hanalyze, Micro.fault_andThen]

/-- A byte of the frame never written is none of a header that has a value. -/
theorem four_le_of_unwritten {s : State} {w : Word} {a : Nat} (hheader : s.headerWord = some w)
    (hnone : Mem.read s.frameBuf a = none) : 4 ≤ a := by
  by_contra hlt
  have hbit := State.headerWord_holds.1 hheader (8 * a) (by omega)
  rw [frameBit, Nat.mul_div_cancel_left _ (by decide), hnone] at hbit
  cases hbit

/-- Settles O57: `ENCODE` stops in its analysis, `PROBE` and `DECODE` in the header they share, and `DECODE` where it reads the
byte. -/
theorem unwrittenReadsFault : Obligations.UnwrittenReadsFault := by
  unfold Obligations.UnwrittenReadsFault
  refine ⟨fun s hvalid hleft hright hnone => ?_, fun s h4 hnone => ?_, fun s d crc w hv hw hheader hsize hcrc ⟨a, ha, hnone⟩ => ?_⟩
  · have hready : (s.start 0x20).EncodeReady := .of_lengths hvalid hleft hright
    exact runCommand_fault.2 ((encodeBody_ready hready).trans (encodeFrame_fault (validEff_eff hvalid) hnone))
  · have hreceive : ∀ c, receiveFrame (s.start c) = .fault .unwrittenFrameByte :=
      fun c => receiveFrame_none (s := s.start c) (State.four_le_frameBytes h4) hnone
    exact ⟨runCommand_fault.2 (by rw [probeBody, hreceive, Micro.fault_andThen]),
      runCommand_fault.2 (by rw [decodeBody, hreceive, Micro.fault_andThen])⟩
  · have h4 : 4 ≤ (s.start 0x31).frameBytes := (Nat.le_add_right 4 _).trans hsize
    have hsamples := decodeSamples_none (s := (s.start 0x31).received d crc) hv rfl rfl hsize (four_le_of_unwritten hheader hnone)
      ha hnone hcrc
    exact runCommand_fault.2 (by rw [decodeBody_header h4 hv hw hheader, hsamples, Micro.fault_andThen])

end Sys2Proof.Machine
end

section
/-! PROOF. The mSBC silence frame, encoded and decoded (SC-1): a zero history fed zeros gives zero subband samples (A-Z), whose
fields are 57 fixed bytes, and these decode to the silence blocks of S-Z2. -/

namespace Sys2Proof.Machine

/-! ### Bytes of a buffer and their bits (R40) -/

/-- The buffer starts with these bytes. -/
def HoldsBytes (m : Mem 8) (bs : List Byte) : Prop := ∀ a < bs.length, Mem.read m a = bs[a]?

theorem holdsBytes_iff_map {m : Mem 8} {bs : List Byte} :
    HoldsBytes m bs ↔ (List.range bs.length).map (Mem.read m) = bs.map some := by
  constructor
  · intro h
    refine List.ext_getElem (by simp) fun a ha _ => ?_
    have ha : a < bs.length := by simpa using ha
    rw [List.getElem_map, List.getElem_range, h a ha, List.getElem_map, List.getElem?_eq_getElem ha]
  · intro h a ha
    have hget := congrArg (fun v => v[a]?) h
    simpa [ha] using hget

/-- Bytes as fields of the frame. -/
def byteFields (bs : List Byte) : List (Word × Nat) := bs.map fun b => (b.setWidth 32, 8)

theorem bitsOfFields_byteFields {bs : List Byte} {a k : Nat} {b : Byte} (ha : bs[a]? = some b) (hk : k < 8) :
    (bitsOfFields (byteFields bs))[8 * a + k]? = some (b.getLsbD (7 - k)) := by
  have hfield : (byteFields bs)[a]? = some (b.setWidth 32, 8) := by rw [byteFields, List.getElem?_map, ha]; rfl
  have hwidth : ∀ f ∈ byteFields bs, f.2 = 8 := by
    intro f hf
    obtain ⟨_, -, rfl⟩ := List.mem_map.1 hf
    rfl
  rw [bitsOfFields_uniform hwidth hfield hk, BitVec.getLsbD_setWidth, decide_eq_true (by omega), Bool.true_and]

/-- A byte is its eight bits. -/
theorem Mem.read_eq_of_bits {m : Mem 8} {a : Nat} {b : Byte} (h : ∀ k < 8, frameBit m (8 * a + k) = some (b.getLsbD (7 - k))) :
    Mem.read m a = some b := by
  have hplace : ∀ k < 8, (8 * a + k) / 8 = a ∧ (8 * a + k) % 8 = k := fun k hk => by omega
  have hbit := h 0 (by decide)
  rw [frameBit, (hplace 0 (by decide)).1] at hbit
  obtain ⟨c, hc, -⟩ := Option.map_eq_some_iff.1 hbit
  rw [hc, Option.some.injEq]
  refine BitVec.eq_of_getLsbD_eq fun j hj => ?_
  have hbit := h (7 - j) (by omega)
  rw [frameBit, (hplace (7 - j) (by omega)).1, (hplace (7 - j) (by omega)).2, hc, Option.map_some, Option.some.injEq] at hbit
  rwa [show 7 - (7 - j) = j by omega] at hbit

theorem holdsBytes_iff_bits {m : Mem 8} {bs : List Byte} :
    HoldsBytes m bs ↔ ∀ q < 8 * bs.length, frameBit m q = (bitsOfFields (byteFields bs))[q]? := by
  constructor
  · intro h q hq
    have ha : q / 8 < bs.length := by omega
    have hbit := bitsOfFields_byteFields (List.getElem?_eq_getElem ha) (Nat.mod_lt q (by decide : 8 > 0))
    rw [show 8 * (q / 8) + q % 8 = q by omega] at hbit
    rw [hbit, frameBit, h _ ha, List.getElem?_eq_getElem ha, Option.map_some]
  · intro h a ha
    rw [List.getElem?_eq_getElem ha]
    refine Mem.read_eq_of_bits fun k hk => ?_
    rw [h _ (by omega), bitsOfFields_byteFields (List.getElem?_eq_getElem ha) hk]

/-! ### The frame -/

/-- SC-1. -/
def silenceFrame : List Byte := [0xAD, 0x00, 0x00, 0xC5, 0x00, 0x00, 0x00, 0x00,
  0x77, 0x6D, 0xB6, 0xDD, 0xDB, 0x6D, 0xB7, 0x76, 0xDB, 0x6D, 0xDD, 0xB6, 0xDB, 0x77, 0x6D, 0xB6,
  0xDD, 0xDB, 0x6D, 0xB7, 0x76, 0xDB, 0x6D, 0xDD, 0xB6, 0xDB, 0x77, 0x6D, 0xB6, 0xDD, 0xDB, 0x6D,
  0xB7, 0x76, 0xDB, 0x6D, 0xDD, 0xB6, 0xDB, 0x77, 0x6D, 0xB6, 0xDD, 0xDB, 0x6D, 0xB7, 0x76, 0xDB, 0x6C]

/-- What the operations of R131 put in the working state for a silent mSBC frame: zero samples and scale factors, and the
bits the allocator gives them. -/
def silentPass : Pass := { Pass.reset with
  sbEnc := [List.replicate 15 (List.replicate 8 0)]
  scf := [List.replicate 8 0]
  bitneed := [List.replicate 8 (-5)]
  nbits := [[4, 4, 3, 3, 3, 3, 3, 3]]
  sbScale := [14] }

/-- R131: the fields of the silent frame, its CRC byte still zero, padded to whole bytes. -/
theorem silence_written : bitsOfFields (frameFields silentPass)
      ++ fieldBits 0 ((8 - (bitsOfFields (frameFields silentPass)).length % 8) % 8)
    = bitsOfFields (byteFields (silenceFrame.set 3 0)) := by decide +kernel

/-- R61, R62: the side fields and the sample fields after the header. -/
theorem silence_received : bitsOfFields (byteFields silenceFrame) = fieldBits 0xAD0000C5 32
    ++ (bitsOfFields (sideFields silentPass) ++ (bitsOfFields (payloadFields silentPass) ++ fieldBits 0 2)) := by decide +kernel

theorem silence_crc : crcOf (List.replicate 48 false) = 0xC5 := by decide +kernel

/-- R78: the covered bits of the silence frame are all zero. -/
theorem silence_coverage {m : Mem 8} (h : ∀ a < 8, a ≠ 0 → a ≠ 3 → Mem.read m a = some 0) :
    coverage m msbcDesc = some (List.replicate 48 false) := by
  refine coverage_some rfl fun k hk => ?_
  have hk : k < 48 := hk
  rw [List.getElem?_replicate, if_pos hk, frameBit, h _ (by split <;> omega) (by split <;> omega) (by split <;> omega),
    Option.map_some]
  exact congrArg some BitVec.getLsbD_zero.symm

/-- Bytes 1, 2 and 4 to 7 of the silence frame are zero, whatever its CRC byte. -/
theorem silence_zeros {m : Mem 8} {c : Byte} (h : HoldsBytes m (silenceFrame.set 3 c)) :
    ∀ a < 8, a ≠ 0 → a ≠ 3 → Mem.read m a = some 0 := by
  intro a ha h0 h3
  have hzero : ∀ a < 8, a ≠ 0 → a ≠ 3 → silenceFrame[a]? = some 0 := by decide
  rw [h a (ha.trans (by rw [List.length_set]; decide)), List.getElem?_set_ne (Ne.symm h3), hzero a ha h0 h3]

/-- R80: with the CRC in its byte the frame is complete. -/
theorem silence_complete {m : Mem 8} (h : HoldsBytes m (silenceFrame.set 3 0)) : HoldsBytes (Mem.write m 3 0xC5) silenceFrame := by
  intro a ha
  rw [Mem.read_write]
  split
  next h3 => rw [h3]; rfl
  next h3 => rw [h a (by rwa [List.length_set]), List.getElem?_set_ne (Ne.symm h3)]

/-! ### Operations on a silent frame -/

section

variable {s : State}

/-- A-Z: a zero history fed zeros stays zero and gives zeros. -/
theorem analyzeFrame_silence {i : Fin 10} (hdesc : s.pass.desc = msbcDesc) (henc : s.enc0 = .zeroAt i)
    (hpcm : ∀ a < 120, Mem.read s.pcmL a = some 0) :
    analyzeFrame s = .ok { s with enc0 := .zeroAt (i + 5), pass := { s.pass with sbEnc := silentPass.sbEnc } } := by
  have hbands : bandsOf s.pass.desc.subbands = some .eight := by rw [hdesc]; rfl
  have hchannel : analyzeChannel .eight s.pcmL (List.range s.pass.desc.blocks) s.enc0
      = some (.zeroAt (i + 5), List.replicate 15 (List.replicate 8 0)) := by
    rw [hdesc, henc]
    refine (analyzeChannel_zero (m := .eight) (List.range 15) i fun b hb k (hk : k < 8) => hpcm _ ?_).trans rfl
    have hb : b < 15 := List.mem_range.1 hb
    show b * 8 + k < 120
    omega
  exact analyzeFrame_mono hbands (by rw [hdesc]; rfl) hchannel

theorem scfCompute_silence (hdesc : s.pass.desc = msbcDesc) (hsamples : s.pass.sbEnc = silentPass.sbEnc) :
    scfCompute s = .ok { s with pass := { s.pass with scf := silentPass.scf } } := by
  have hclosed : build2 (channelCount msbcDesc) msbcDesc.subbands
      (fun c k => scfOf (silentPass.column msbcDesc.blocks c k)) = silentPass.scf := by decide +kernel
  have hcolumn : s.pass.column = silentPass.column := by unfold Pass.column Pass.sbEncAt; rw [hsamples]
  rw [scfCompute, hdesc, hcolumn, hclosed]

theorem jointDecide_silence (hdesc : s.pass.desc = msbcDesc) :
    jointDecide s = .ok { s with pass := { s.pass with joint := silentPass.joint } } := by
  rw [jointDecide, hdesc]
  rfl

theorem bitAllocFrame_silence (hdesc : s.pass.desc = msbcDesc) (hscf : s.pass.scf = silentPass.scf) :
    bitAllocFrame s = .ok { s with pass := { s.pass with bitneed := silentPass.bitneed, nbits := silentPass.nbits } } := by
  have hclosed : allocateAll (frameCalls silentPass .eight) = some (silentPass.bitneed, silentPass.nbits) := by decide +kernel
  have hcalls : frameCalls s.pass .eight = frameCalls silentPass .eight := by unfold frameCalls; rw [hdesc, hscf]; rfl
  have hbands : bandsOf s.pass.desc.subbands = some .eight := by rw [hdesc]; rfl
  rw [bitAllocFrame, hbands]
  dsimp only
  rw [hcalls, hclosed, storeAllocation]

end

/-! ### `ENCODE` in two halves (R131) -/

/-- R131 up to the allocation. -/
def prepareFrame (d : Desc) (s : State) : Micro :=
  (analyzeFrame { s with pass := { s.pass with desc := d } }).andThen fun s =>
  (scfCompute s).andThen fun s => (jointDecide s).andThen bitAllocFrame

/-- R131 from the header on. -/
def emitFrame (d : Desc) (s : State) : Micro :=
  (writeFrame (s.bind .write (frameSize d))).andThen fun s => (crcInsert s).andThen fun s =>
  if s.pass.bs.err then .raised .bitstreamError s else .ok { s with frameLen := BitVec.ofNat 10 (frameSize d) }

theorem encodeFrame_eq (d : Desc) (s : State) : encodeFrame d s = (prepareFrame d s).andThen (emitFrame d) := by
  unfold encodeFrame prepareFrame emitFrame writeFrame
  simp only [Micro.andThen_assoc]

theorem emitFrame_ok {d : Desc} {s t u : State} (hwrite : writeFrame (s.bind .write (frameSize d)) = .ok t)
    (hinsert : crcInsert t = .ok u) (herr : u.pass.bs.err = false) :
    emitFrame d s = .ok { u with frameLen := BitVec.ofNat 10 (frameSize d) } := by
  rw [emitFrame, hwrite, Micro.ok_andThen, hinsert, Micro.ok_andThen, herr, if_neg Bool.false_ne_true]

/-- The working state of a frame of silence, as far as its fields go. -/
structure Pass.Silent (p : Pass) : Prop where
  desc : p.desc = msbcDesc
  joint : p.joint = silentPass.joint
  scf : p.scf = silentPass.scf
  nbits : p.nbits = silentPass.nbits
  samples : p.sbEnc = silentPass.sbEnc

theorem Pass.Silent.frameFields {p : Pass} (h : p.Silent) : frameFields p = frameFields silentPass := by
  unfold Machine.frameFields sideFields payloadFields Pass.scfAt Pass.nbitsAt Pass.sbEncAt
  rw [h.desc, h.joint, h.scf, h.nbits, h.samples]
  rfl

theorem sampleBits_congr {p q : Pass} (h : p.nbits = q.nbits) (is : List (Nat × Nat × Nat)) : sampleBits p is = sampleBits q is := by
  unfold sampleBits Pass.nbitsAt
  rw [h]

theorem prepareFrame_silence {s : State} {i : Fin 10} (henc : s.enc0 = .zeroAt i) (hpcm : ∀ a < 120, Mem.read s.pcmL a = some 0) :
    ∃ p, prepareFrame msbcDesc s = .ok { s with enc0 := .zeroAt (i + 5), pass := p } ∧ p.Silent := by
  refine ⟨_, Micro.andThen_ok.2 ⟨_, analyzeFrame_silence rfl henc hpcm, Micro.andThen_ok.2 ⟨_, scfCompute_silence rfl rfl,
    Micro.andThen_ok.2 ⟨_, jointDecide_silence rfl, bitAllocFrame_silence rfl rfl⟩⟩⟩, rfl, rfl, rfl, rfl, rfl⟩

theorem emitFrame_silence {s : State} (h : s.pass.Silent) :
    ∃ m p, emitFrame msbcDesc s = .ok { s with frameLen := 57, frameBuf := m, pass := p } ∧ HoldsBytes m silenceFrame := by
  have hbits : 32 + coveredSideBits s.pass.desc + sampleBits s.pass (sampleOrder s.pass.desc) = 32 + payloadBits s.pass.desc := by
    rw [h.desc, sampleBits_congr h.nbits]
    decide +kernel
  obtain ⟨m, hwrite, -, -, -, hbit⟩ := writeFrame_ok (h.desc ▸ validEff_msbcDesc) hbits
  rw [h.frameFields, silence_written, h.desc] at hbit
  rw [h.desc] at hwrite
  have hholds : HoldsBytes m (silenceFrame.set 3 0) := holdsBytes_iff_bits.2 hbit
  have hcov : coverage m msbcDesc = some (List.replicate 48 false) := silence_coverage (silence_zeros hholds)
  have hinsert := crcInsert_of_coverage (s := { s with
    frameBuf := m, pass := { s.pass with bs := ⟨.write, frameSize msbcDesc, 8 * frameSize msbcDesc, [], false⟩ } }) (by rwa [h.desc])
  rw [silence_crc] at hinsert
  exact ⟨_, _, (emitFrame_ok hwrite hinsert rfl).trans rfl, silence_complete hholds⟩

/-- R131, SC-1: from a zero history, silence is encoded as the silence frame. -/
theorem encodeFrame_silence {s : State} {i : Fin 10} (henc : s.enc0 = .zeroAt i) (hpcm : ∀ a < 120, Mem.read s.pcmL a = some 0) :
    ∃ m p, encodeFrame msbcDesc s = .ok { s with frameLen := 57, frameBuf := m, enc0 := .zeroAt (i + 5), pass := p }
      ∧ HoldsBytes m silenceFrame := by
  obtain ⟨p, hprepare, hsilent⟩ := prepareFrame_silence henc hpcm
  obtain ⟨m, q, hemit, hholds⟩ := emitFrame_silence (s := { s with enc0 := .zeroAt (i + 5), pass := p }) hsilent
  exact ⟨m, q, by rw [encodeFrame_eq, hprepare, Micro.ok_andThen, hemit], hholds⟩

/-! ### `DECODE` of silence (R133) -/

/-- R61, R62: the bits of the side fields and of the sample fields in a buffer that holds the silence frame. -/
theorem HoldsBytes.silence_side {m : Mem 8} (h : HoldsBytes m silenceFrame) {k : Nat} (hk : k < 32) :
    frameBit m (32 + k) = (bitsOfFields (sideFields silentPass))[k]? := by
  have hlen : (bitsOfFields (sideFields silentPass)).length = 32 := by decide +kernel
  rw [holdsBytes_iff_bits.1 h _ (by show 32 + k < 456; omega), silence_received,
    List.getElem?_append_right (by rw [fieldBits_length]; omega), fieldBits_length, Nat.add_sub_cancel_left,
    List.getElem?_append_left (by omega)]

theorem HoldsBytes.silence_payload {m : Mem 8} (h : HoldsBytes m silenceFrame) {k : Nat} (hk : k < 390) :
    frameBit m (64 + k) = (bitsOfFields (payloadFields silentPass))[k]? := by
  have hside : (bitsOfFields (sideFields silentPass)).length = 32 := by decide +kernel
  have hlen : (bitsOfFields (payloadFields silentPass)).length = 390 := by decide +kernel
  rw [holdsBytes_iff_bits.1 h _ (by show 64 + k < 456; omega), silence_received,
    List.getElem?_append_right (by rw [fieldBits_length]; omega), List.getElem?_append_right (by rw [fieldBits_length, hside]; omega),
    List.getElem?_append_left (by rw [fieldBits_length, hside, hlen]; omega), fieldBits_length, hside]
  congr 1
  omega

section

variable {s : State} {size : Nat}

theorem sideRead_silence (hdesc : s.pass.desc = msbcDesc) (hbs : s.pass.bs = ⟨.read, size, 32, [], false⟩) (hsize : 57 ≤ size)
    (hbytes : HoldsBytes s.frameBuf silenceFrame) : sideRead s = .ok { s with pass := { s.pass with
      bs := ⟨.read, size, 64, [], false⟩, joint := silentPass.joint, scf := silentPass.scf } } := by
  have hfields : sideFields silentPass = List.replicate 8 (0, 4) := by decide +kernel
  have hread := Bs.getFields_fields (m := s.frameBuf) (fs := sideFields silentPass) (bs := ⟨.read, size, 32, [], false⟩)
    (by rw [hfields]; decide) (by rw [hfields]; show 32 + 32 ≤ 8 * size; omega)
    fun k hk => hbytes.silence_side (by rw [hfields] at hk; exact hk)
  rw [sideRead, hdesc, if_neg (by decide), readScaleFactors, hdesc, hbs]
  rw [hfields] at hread
  rw [show (pairOrder msbcDesc).map (fun _ => 4) = (List.replicate 8 ((0 : Word), 4)).map Prod.snd from rfl, hread]
  rfl

theorem sbScale_silence (hdesc : s.pass.desc = msbcDesc) (hscf : s.pass.scf = silentPass.scf) :
    sbScale s = .ok { s with pass := { s.pass with sbScale := silentPass.sbScale } } := by
  have hown : s.pass.ownScale = silentPass.ownScale := by unfold Pass.ownScale Pass.scfAt; rw [hdesc, hscf]; rfl
  rw [Machine.sbScale, hdesc, hown]
  rfl

theorem jointUncouple_silence (hdesc : s.pass.desc = msbcDesc) : jointUncouple s = .ok s := by
  rw [jointUncouple, hdesc]
  rfl

/-- R103: the codes of silence. -/
def silenceCode (i : Nat × Nat × Nat) : Word :=
  quantize (silentPass.sbEncAt i.2.1 i.1 i.2.2) (silentPass.nbitsAt i.2.1 i.2.2) (silentPass.scfAt i.2.1 i.2.2).toNat

/-- `n - 1` for the width `n` the allocator gives subband `k` of a silent frame. -/
def silenceBits (k : Fin 8) : Fin 16 := if k.val < 2 then 3 else 2

/-- R105: a silent sample, dequantized. -/
theorem dequantizeWith_silence (rs : Fin 16 → I32) {b : Nat} (hb : b < 15) (k : Fin 8) :
    dequantizeWith rs (silenceCode (b, 0, k) &&& BitVec.ofNat 32 (2 ^ ((silenceBits k).val + 1) - 1)) (silenceBits k) 0 14
      = (silenceBlock rs)[k] := by
  have hcode : ∀ b < 15, ∀ k : Fin 8, silenceCode (b, 0, k) &&& BitVec.ofNat 32 (2 ^ ((silenceBits k).val + 1) - 1)
      = if k.val < 2 then 7 else 3 := by decide +kernel
  rw [hcode b hb k, silenceBlock, Fin.getElem_fin, Vector.getElem_ofFn, silenceBits]
  by_cases hk : k.val < 2
  · simp only [if_pos hk]
    rfl
  · simp only [if_neg hk]
    rfl

/-- The subband samples of the silence blocks (R121, S-Z2). -/
theorem payloadRead_silence (hdesc : s.pass.desc = msbcDesc) (hbs : s.pass.bs = ⟨.read, size, 64, [], false⟩) (hsize : 57 ≤ size)
    (hbytes : HoldsBytes s.frameBuf silenceFrame) (hscf : s.pass.scf = silentPass.scf) (hnbits : s.pass.nbits = silentPass.nbits)
    (hscale : s.pass.sbScale = silentPass.sbScale) :
    ∃ sb, payloadRead s = .ok { s with pass := { s.pass with bs := ⟨.read, size, 454, [], false⟩, sbDec := sb } }
      ∧ ∀ b < 15, ∀ k : Fin 8, at3 0 sb 0 b k = (silenceBlock Config.rangeScale)[k] := by
  have hbits : sampleBits s.pass (sampleOrder msbcDesc) = 390 := by
    rw [sampleBits_congr hnbits]
    decide +kernel
  have hfields : codedFields s.pass silenceCode (sampleOrder msbcDesc) = payloadFields silentPass := by
    unfold codedFields Pass.nbitsAt
    rw [hnbits]
    rfl
  obtain ⟨vs, hread, -, hsample⟩ := readSamples_codes (rs := Config.rangeScale) (m := s.frameBuf) (p := s.pass) (g := silenceCode)
    (is := sampleOrder msbcDesc) (bs := ⟨.read, size, 64, [], false⟩) (by rw [hbits]; dsimp only; omega) fun k hk => by
      rw [hfields]
      exact hbytes.silence_payload (hbits ▸ hk)
  rw [hbits] at hread
  obtain ⟨sb, hok, hsb⟩ := payloadRead_samples (s := s) (by rw [hdesc, hbs]; exact hread)
  rw [hdesc] at hsb
  refine ⟨sb, hok, fun b hb k => ?_⟩
  obtain ⟨-, hcode⟩ := hsample _ (b, 0, k) (sampleOrder_get msbcDesc hb (by decide : 0 < channelCount msbcDesc) k.isLt)
  have hscfAt : ∀ k : Fin 8, at2 0 silentPass.scf 0 k = 0 := by decide
  have hnbitsAt : ∀ k : Fin 8, (at2 0 silentPass.nbits 0 k).val = (silenceBits k).val + 1 := by decide
  have hvalue := hcode (silenceBits k) (by rw [Pass.nbitsAt, hnbits]; exact hnbitsAt k)
  dsimp only at hvalue
  rw [Pass.scfAt, hscf, hscfAt, Pass.sbScaleAt, hscale] at hvalue
  rw [hsb 0 (by decide) b hb k k.isLt, List.getD_eq_getElem?_getD, hvalue, Option.getD_some]
  exact dequantizeWith_silence _ hb k

end

theorem decoderBlocks_silence {p : Pass} (hdesc : p.desc = msbcDesc)
    (h : ∀ b < 15, ∀ k : Fin 8, p.sbDecAt 0 b k = (silenceBlock Config.rangeScale)[k]) :
    (p.decoderBlocks 0).map (blockOf Bands.eight.n) = List.replicate 15 (silenceBlock Config.rangeScale) := by
  rw [decoderBlocks_map_blockOf (m := .eight) (by rw [hdesc]; rfl), hdesc]
  refine List.eq_replicate_iff.2 ⟨by rw [List.length_map, List.length_range]; rfl, fun x hx => ?_⟩
  obtain ⟨b, hb, rfl⟩ := List.mem_map.1 hx
  refine Vector.ext fun k hk => ?_
  rw [Vector.getElem_ofFn]
  exact h b (List.mem_range.1 hb) ⟨k, hk⟩

/-- R133 between the CRC check and synthesis, for the silence frame: the blocks of S-Z2 at `sbScale` 14. -/
theorem readFrameSamples_silence {s : State} {size : Nat} (hdesc : s.pass.desc = msbcDesc)
    (hbs : s.pass.bs = ⟨.read, size, 64, [], false⟩) (hsize : 57 ≤ size) (hbytes : HoldsBytes s.frameBuf silenceFrame)
    (hscf : s.pass.scf = silentPass.scf) :
    ∃ p, readFrameSamples s = .ok { s with pass := p } ∧ p.desc = msbcDesc ∧ p.sbScale = silentPass.sbScale
      ∧ (p.decoderBlocks 0).map (blockOf Bands.eight.n) = List.replicate 15 (silenceBlock Config.rangeScale) := by
  obtain ⟨sb, hread, hsb⟩ := payloadRead_silence (s := { s with pass := { s.pass with
    sbScale := silentPass.sbScale, bitneed := silentPass.bitneed, nbits := silentPass.nbits } }) hdesc hbs hsize hbytes hscf rfl rfl
  refine ⟨_, Micro.andThen_ok.2 ⟨_, sbScale_silence hdesc hscf, Micro.andThen_ok.2 ⟨_, bitAllocFrame_silence hdesc hscf,
    Micro.andThen_ok.2 ⟨_, hread, Micro.andThen_ok.2 ⟨_, jointUncouple_silence hdesc, rfl⟩⟩⟩⟩, hdesc, rfl, ?_⟩
  exact decoderBlocks_silence hdesc hsb

/-- R133 up to synthesis, for the silence frame. -/
theorem decodeSamples_silence {s : State} (hdesc : s.pass.desc = msbcDesc) (hbs : s.pass.bs = ⟨.read, s.frameBytes, 32, [], false⟩)
    (hcrc : s.pass.crcRx = 0xC5) (hsize : 57 ≤ s.frameBytes) (hbytes : HoldsBytes s.frameBuf silenceFrame) :
    ∃ p, decodeSamples s = .ok { s with pass := p } ∧ p.desc = msbcDesc ∧ p.sbScale = silentPass.sbScale
      ∧ (p.decoderBlocks 0).map (blockOf Bands.eight.n) = List.replicate 15 (silenceBlock Config.rangeScale) := by
  have hframe : frameSize s.pass.desc = 57 := by rw [hdesc]; decide
  have hcov : coverage s.frameBuf msbcDesc = some (List.replicate 48 false) :=
    silence_coverage (silence_zeros (c := 0xC5) hbytes)
  have hcheck := crcCheck_of_coverage (s := { s with pass := { s.pass with
    bs := ⟨.read, s.frameBytes, 64, [], false⟩, joint := silentPass.joint, scf := silentPass.scf } }) (by rwa [hdesc])
  rw [silence_crc, if_pos hcrc] at hcheck
  obtain ⟨p, hsamples, hp⟩ := readFrameSamples_silence (s := { s with pass := { s.pass with
    bs := ⟨.read, s.frameBytes, 64, [], false⟩, joint := silentPass.joint, scf := silentPass.scf, crc := 0xC5 } })
    hdesc rfl hsize hbytes rfl
  refine ⟨p, ?_, hp⟩
  rw [decodeSamples_eq, hframe, if_neg (Nat.not_lt.2 hsize)]
  exact Micro.andThen_ok.2 ⟨_, sideRead_silence hdesc hbs hsize hbytes, Micro.andThen_ok.2 ⟨_, hcheck, hsamples⟩⟩

/-- S-Z2: from the reset state the silence blocks give 120 zero samples. -/
theorem synthFrame_silence {s : State} (hdesc : s.pass.desc = msbcDesc) (hscale : s.pass.sbScale = silentPass.sbScale)
    (hblocks : (s.pass.decoderBlocks 0).map (blockOf Bands.eight.n) = List.replicate 15 (silenceBlock Config.rangeScale))
    (hdec : s.dec0 = .zeroAt 0) :
    ∃ (e : DecChan) (m : Mem 16), synthFrame s = .ok { s with dec0 := e, pcmL := m } ∧ e.sidx = 5 ∧ ∀ a < 120, Mem.read m a = some 0 := by
  have hbands : bandsOf s.pass.desc.subbands = some .eight := by rw [hdesc]; rfl
  have hk : s.pass.sbScaleAt 0 = 14 := by rw [Pass.sbScaleAt, hscale]; rfl
  have hlen : (s.pass.decoderBlocks 0).length = 15 := by rw [Pass.decoderBlocks_length, hdesc]; rfl
  have hout : (synthChannel .eight (s.pass.sbScaleAt 0) (s.pass.decoderBlocks 0) s.dec0).2 = List.replicate 120 0 := by
    rw [synthChannel_outputs, hblocks, hk, hdec]
    exact (congrArg (List.flatMap Vector.toList) Config.params.synthesis_silence).trans rfl
  refine ⟨_, _, synthFrame_mono hbands (by rw [hdesc]; rfl), ?_, fun a ha => ?_⟩
  · refine Fin.ext ?_
    rw [synthChannel_index, hlen, hdec]
    rfl
  · rw [hout, Mem.read_writeList, if_pos ⟨Nat.zero_le _, by rw [List.length_replicate]; omega⟩, List.getElem?_replicate,
      if_pos (by omega)]

/-- Settles O58: both commands on the silence frame, whose bytes determine its bits and whose bits determine its bytes. -/
theorem msbcSilence : Obligations.MsbcSilence := by
  unfold Obligations.MsbcSilence
  refine ⟨fun s i hmsbc hlen henc hpcm => ?encode, fun s hlen hdec hbuf => ?decode⟩
  case encode =>
    have hd : (s.start 0x20).cfgDesc = msbcDesc := eff_descOfCfg_msbc hmsbc
    have hready : (s.start 0x20).EncodeReady := .of_lengths (by rw [hd]; decide) (by rw [hd]; exact hlen)
      fun hmode => absurd (by rw [hd]; rfl) hmode
    obtain ⟨m, p, hok, hholds⟩ := encodeFrame_silence (s := s.start 0x20) henc hpcm
    have hbody := encodeBody_ready hready
    rw [hd, hok] at hbody
    exact ⟨_, runCommand_of_ok hbody, rfl, rfl, rfl, rfl, holdsBytes_iff_map.1 hholds⟩
  case decode =>
    have hholds : HoldsBytes s.frameBuf silenceFrame := holdsBytes_iff_map.2 hbuf
    have hheader : s.headerWord = some 0xAD0000C5 := State.headerWord_some.2
      ⟨hholds 0 (by decide), hholds 1 (by decide), hholds 2 (by decide), hholds 3 (by decide)⟩
    have hcfg : cfgOfDesc msbcDesc = 0x001A43C1 := by decide
    have hsize : 57 ≤ (s.start 0x31).frameBytes := Nat.le_min.2 ⟨hlen, by decide⟩
    have hbody := decodeBody_header (s := s.start 0x31) (d := msbcDesc) (crc := 0xC5) (by omega) validEff_msbcDesc rfl hheader
    obtain ⟨p, hsamples, hdesc, hscale, hblocks⟩ :=
      decodeSamples_silence (s := (s.start 0x31).received msbcDesc 0xC5) rfl rfl rfl hsize hholds
    obtain ⟨e, m, hsynth, hindex, hzero⟩ := synthFrame_silence (s := { (s.start 0x31).received msbcDesc 0xC5 with pass := p })
      hdesc hscale hblocks hdec
    rw [hsamples, Micro.ok_andThen, hsynth, Micro.ok_andThen, decodeOutputs_eq] at hbody
    dsimp only at hbody
    rw [hdesc] at hbody
    exact ⟨_, runCommand_of_ok hbody, rfl, hcfg, rfl, rfl, hindex, rfl, hzero⟩

end Sys2Proof.Machine
end

section
/-! PROOF. Host accesses while the core is busy (R160); the platform's reset and the idle core (R155, R156). -/

namespace Sys2Proof.Machine

/-! ### The busy hazard (R160) -/

/-- R37: `STATUS` is the word at offset 4 and no other. -/
theorem windowWordAt_eq_status {n : Nat} : windowWordAt n = some .status ↔ n = 4 := by
  constructor
  · intro h
    by_contra hn
    unfold windowWordAt at h
    rw [if_neg hn] at h
    split_ifs at h <;> cases h
  · rintro rfl
    rfl

theorem accessedWord_eq_status {off : Word} {width : Nat} :
    accessedWord off width = some .status ↔ width = 4 ∧ off.toNat % 0x2000 = 4 := by
  constructor
  · intro h
    obtain ⟨hwidth, -, hword⟩ := accessedWord_some h
    exact ⟨hwidth, windowWordAt_eq_status.1 hword⟩
  · rintro ⟨rfl, hoff⟩
    exact accessedWord_of hoff rfl

section
variable {s : State} {p : Pending} (hbusy : s.phase = .busy p)
include hbusy

theorem State.mayAccess_busy (w : WindowWord) (kind : AccessKind) : s.mayAccess w kind = (w == .status && kind == .read) := by
  rw [State.mayAccess, hbusy, Phase.isBusy_busy, Bool.not_true, Bool.false_or]

theorem hostWrite_busy (off : Word) (width : Nat) (v : Word) :
    hostWrite off width v s = .fault (.hostBadAccess off width .write) := by
  cases hword : accessedWord off width with
  | none => exact hostWrite_bad hword v s
  | some w =>
    have hno : s.mayAccess w .write = false := by
      rw [State.mayAccess_busy hbusy]
      exact Bool.and_false _
    simp [hostWrite, hword, hno]

theorem hostRead_busy_bad {off : Word} {width : Nat} (h : accessedWord off width ≠ some .status) :
    hostRead off width s = .fault (.hostBadAccess off width .read) := by
  cases hword : accessedWord off width with
  | none => exact hostRead_bad hword s
  | some w =>
    have hw : w ≠ .status := fun heq => h (hword.trans (congrArg some heq))
    have hno : s.mayAccess w .read = false := by
      rw [State.mayAccess_busy hbusy, beq_false_of_ne hw, Bool.false_and]
    simp [hostRead, hword, hno]

end

/-- R43: a read of `STATUS` goes on in every phase. -/
theorem hostRead_status {off : Word} {width : Nat} (h : accessedWord off width = some .status) (s : State) :
    hostRead off width s = .next { s with hostData := s.statusWord } := by
  have hmay : s.mayAccess .status .read = true := Bool.or_true _
  simp [hostRead, h, hmay, State.windowRead]

/-- Settles O8: a write, a read of anything but `STATUS`, and a read of `STATUS`. -/
theorem busyAccessFaults : Obligations.BusyAccessFaults := by
  unfold Obligations.BusyAccessFaults
  refine fun s p rest off width hbusy => ⟨fun v hin => ?_, fun hin hother => ?_, fun hin hwidth hoff => ?_⟩
  · rw [step_hostWrite hin]
    exact hostWrite_busy (by exact hbusy) off width v
  · rw [step_hostRead hin]
    exact hostRead_busy_bad (by exact hbusy) (mt accessedWord_eq_status.1 hother)
  · rw [step_hostRead hin]
    exact hostRead_status (accessedWord_eq_status.2 ⟨hwidth, hoff⟩) _

/-! ### The platform's reset and the idle core (R155, R156) -/

theorem sequencerTurn_idle {s : State} (h : s.phase = .idle) : sequencerTurn s = .next s := by
  unfold sequencerTurn
  rw [h]

/-- Settles O12: the reset looks at no phase, and the sequencer's turn of an idle core changes nothing. -/
theorem coreReset : Obligations.CoreReset := by
  unfold Obligations.CoreReset
  refine ⟨fun s rest hin => ?_, fun s hidle hin => ?_⟩
  · rw [step_platformReset hin]
    rfl
  · rw [step_nil hin]
    exact sequencerTurn_idle hidle

end Sys2Proof.Machine
end
